-- ==== Sys2Proof/Word.lean ====
section
/-! DEFINITION. The word types of the datapath (spec 00_scope.md R8). -/

namespace Sys2Proof

/-- An `int16` register, sample or record field: 16 bits, two's complement where it is signed (R8). -/
abbrev Word16 := BitVec 16

/-- An `int32` accumulator: 32 bits, two's complement (R8). -/
abbrev Word32 := BitVec 32

/-- A `uint8`, one octet of a packed frame (R8). -/
abbrev Octet := BitVec 8

end Sys2Proof
end

