-- ==== Sys2Proof/Config.lean ====
section
/-! DEFINITION. What an implementation fixes or the spec leaves free: the names of the six buffers, the parameter types of
R6, and the free values, opaque constants with no body. -/

namespace Sys2Proof

/-- The four buffers of 16-bit elements (10_state.md R38). -/
inductive WordBuf where
  | pcmIn
  | prmE
  | prmD
  | pcmOut
deriving DecidableEq, Repr

/-- The two buffers of octets (10_state.md R38). -/
inductive OctetBuf where
  | frmTx
  | frmRx
deriving DecidableEq, Repr

/-- `SHL_MODE` of R6: what a left shift that overflows gives (92 D8). -/
inductive ShlMode where
  | sat
  | wrap
deriving DecidableEq, Repr

/-- `PACK_ORDER` of R6: which end of an octet and of a value the packer fills first (R62, R93). -/
inductive PackOrder where
  | msbFirst
  | lsbFirst
deriving DecidableEq, Repr

/-- Number of elements of each buffer of 16-bit elements (R60). -/
def WordBuf.len : WordBuf → Nat
  | .pcmIn => 160
  | .prmE => 76
  | .prmD => 76
  | .pcmOut => 160

/-- Number of octets of each frame buffer (R60). -/
def OctetBuf.len : OctetBuf → Nat
  | .frmTx => 33
  | .frmRx => 33

/-- `NORM_ZERO` (R6, R119, D10): what `norm(0)` gives. A free value (log 10). -/
opaque Config.normZero : Word16

/-- What `div(n, d)` gives outside its domain, `n = d = 0` excepted (R115 (b), U1). A free value, a function of the
operands since `alu_y` is combinational (R46; log 9). -/
opaque Config.divOutside : Word16 → Word16 → Word16

/-- What `alu_y` shows for the reserved selects 14 and 15 (R89, U14). A free value, a function of the port's inputs since
`alu_y` is combinational (R46; log 30). -/
opaque Config.aluReserved : BitVec 4 → Word32 → Word32 → Word32

/-- What a 16-bit buffer element holds that nothing has written since the `rst` of the given number (U10, U17). A free
value (log 5). -/
opaque Config.unwrittenWord : Nat → WordBuf → Nat → Word16

/-- What an octet of a frame buffer holds that nothing has written since the `rst` of the given number (U10, U17). A free
value (log 5). -/
opaque Config.unwrittenOctet : Nat → OctetBuf → Nat → Octet

/-- What `res_val` shows where the spec does not say (R46, R291, U16). A free value, a fresh one for each draw (log 6). -/
opaque Config.resVal : Nat → Octet

end Sys2Proof
end

