-- ==== Sys2Proof/Syntax.lean ====
section
/-! DEFINITION. The instructions, one constructor per row of spec/opcode_table.json, and the three request formats in
which they reach the block (30_encoding.md R80, R86, R87, R88). -/

namespace Sys2Proof

/-- Which instance runs a shared step: the encoder or the decoder (43_lar_inverse.md, 46_rpe.md: "used by both decoder and
encoder"). -/
inductive Side where
  | enc
  | dec
deriving DecidableEq, Repr

/-- The operand `sel` of `CURRST` (R142). -/
inductive CurSel where
  | tx
  | rx
deriving DecidableEq, Repr

/-- The instructions of the block. Operands of the STEP rows are the sequencer's loop indices (R36): a sample `k`, a
sub-segment `j`, a `zone`, and the running `side` (log 3). -/
inductive Instr where
  -- commands, R86
  | nop
  | reset
  | resetEnc
  | resetDec
  | encode
  | decode
  | pack
  | unpack
  | isvalid
  | prmeq
  | pack1 (n : BitVec 4) (val : Octet)
  | unpack1 (n : BitVec 4)
  | currst (sel : CurSel)
  -- ALU test port, R87
  | aluAdd (a b : Word32)
  | aluSub (a b : Word32)
  | aluMult (a b : Word32)
  | aluMultR (a b : Word32)
  | aluAbs (a : Word32)
  | aluDiv (a b : Word32)
  | aluLAdd (a b : Word32)
  | aluLSub (a b : Word32)
  | aluLMult (a b : Word32)
  | aluNorm (a : Word32)
  | aluShl16 (a b : Word32)
  | aluShr16 (a b : Word32)
  | aluLShl (a b : Word32)
  | aluLShr (a b : Word32)
  -- internal steps, R88
  | homedet
  | downscale (k : BitVec 8)
  | offsetcomp
  | preemph (k : BitVec 8)
  | autocorr
  | schur
  | r2lar
  | larq
  | lardec
  | larinterp (side : Side) (zone : BitVec 2)
  | lar2rp (zone : BitVec 2)
  | stanalysis
  | ltpsearch (j : BitVec 2)
  | ltpanalysis (j : BitVec 2)
  | weight
  | gridsel (j : BitVec 2)
  | xmaxq (j : BitVec 2)
  | expmant (j : BitVec 2)
  | apcmq (j : BitVec 2)
  | apcminv (j : BitVec 2)
  | gridpos (side : Side) (j : BitVec 2)
  | dpupdate
  | emit
  | larrot
  | larrotDec
  | homeapply
  | prmmask
  | ltpsynth (j : BitVec 2)
  | stsynth (k : BitVec 8)
  | deemph
  | upscale (k : BitVec 8)
  | k2zone (k : BitVec 8)
  | decoderefl (side : Side)
  | invapcm (side : Side) (j : BitVec 2)
deriving DecidableEq, Repr

/-- The operands that stand beside a step identity (the model's own, log 3). A step ignores those it does not use; `{}`
is all zeros. -/
structure StepOperands where
  side : Side := .enc
  j : BitVec 2 := 0
  k : BitVec 8 := 0
  zone : BitVec 2 := 0
deriving DecidableEq, Repr

/-- An instruction as it is presented: a command word on the command port (R86), an operation select with its operands on
the ALU test port (R87), or a step identity (R88), which no port carries. -/
inductive Request where
  | cmd (cw : BitVec 16)
  | alu (op : BitVec 4) (a b : Word32)
  | step (id : BitVec 6) (ops : StepOperands)
deriving DecidableEq, Repr

/-- Why a request is no instruction of the block (R89). -/
inductive Reserved where
  /-- Command opcode `0xD`, `0xE` or `0xF`. -/
  | opcode
  /-- A nonzero operand bit that the command does not use. -/
  | unusedOperand
  /-- `PACK1` or `UNPACK1` with `n` = 0 or `n` > 8. -/
  | bitCount
  /-- `alu_op` 14 or 15: no instruction, but the port shows a free value (U14, log 30). -/
  | aluOp
  /-- A step identity `0x21`..`0x3F`. -/
  | stepId
  /-- A sample index of a step request above 159. -/
  | sample
deriving DecidableEq, Repr

/-- One action of the host: a request, a write of a buffer element, a change of the strap, or the `rst` input (R46). -/
inductive Input where
  | req (r : Request)
  | writeWord (b : WordBuf) (i : Nat) (v : Word16)
  | writeOctet (b : OctetBuf) (i : Nat) (v : Octet)
  | strap (homing : Bool)
  | rst
deriving DecidableEq, Repr

end Sys2Proof
end

