-- ==== Sys2Proof/Machine/State.lean ====
section
/-! DEFINITION. The state of the block as plain data (10_state.md), the reasons a step can stop, and the state after
reset. -/

namespace Sys2Proof.Machine

open Sys2Proof

/-- Persistent encoder state (R21 to R28). `larppLast[i]` is ETSI `LARpp_last_e[i+1]`; `dp[a]` is `dp[a - 120]` of R26. -/
structure EncState where
  z1 : Word16
  Lz2 : Word32
  mp : Word16
  larppLast : Vector Word16 8
  u : Vector Word16 8
  dp : Vector Word16 120
  lastFrameHome : Bool
deriving DecidableEq, Repr

/-- Persistent decoder state (R29 to R33). `drp[a]` is `drp[a - 120]` of R30. -/
structure DecState where
  nrp : Word16
  drp : Vector Word16 120
  larppLast : Vector Word16 8
  v : Vector Word16 9
  msr : Word16
deriving DecidableEq, Repr

/-- A packer cursor (R34). -/
structure Cursor where
  bytePtr : BitVec 6
  bitPtr : BitVec 3
deriving DecidableEq, Repr

/-- The status flags (R35). -/
structure Flags where
  busy : Bool
  done : Bool
  valid : Bool
  eq : Bool
deriving DecidableEq, Repr

/-- The working values of one command (R37), under the spec's names with `L_` written `L`. An ETSI index 1..8 is element
0..7; `K[i]` is `K[i+2]`; `Nc`, `bc`, `Mc`, `xmaxc`, `xMc` have one entry per sub-segment. None survives the command that
wrote it (log 4). -/
structure Work where
  isHome : Bool
  so : Word16
  s1 : Word16
  msp : Word16
  lsp : Word16
  sof : Word16
  Ls2 : Word32
  s : Vector Word16 160
  smax : Word16
  scalauto : Word16
  Lacf : Vector Word32 9
  acf : Vector Word16 9
  P : Vector Word16 9
  K : Vector Word16 7
  r : Vector Word16 8
  lar : Vector Word16 8
  larc : Vector Word16 8
  larpp : Vector Word16 8
  larp : Vector Word16 8
  rrp : Vector (Vector Word16 8) 4
  zone : BitVec 2
  d : Vector Word16 160
  di : Word16
  sav : Word16
  dmax : Word16
  scal : Word16
  R : Word16
  S : Word16
  bp : Word16
  wtLtp : Vector Word16 40
  Lmax : Word32
  Lpower : Word32
  Lresult : Word32
  Ltemp : Word32
  EM : Word32
  Nc : Vector Word16 4
  bc : Vector Word16 4
  Mc : Vector Word16 4
  xmaxc : Vector Word16 4
  xMc : Vector (Vector Word16 13) 4
  dpp : Vector Word16 40
  e : Vector Word16 40
  wtW : Vector Word16 50
  x : Vector Word16 40
  xM : Vector Word16 13
  xmax : Word16
  exp : Word16
  mant : Word16
  itest : Word16
  xMp : Vector Word16 13
  ep : Vector Word16 40
  erp : Vector Word16 40
  Nr : Word16
  brp : Word16
  drpp : Word16
  drp : Vector Word16 40
  wt : Vector Word16 160
  sri : Word16
  temp : Word16
  temp1 : Word16
  temp2 : Word16
  temp3 : Word16
deriving DecidableEq, Repr

/-- A buffer: the elements that have been written, by index, in one canonical form (20_memory.md R60; log 29). For octets
this is a list of `Host.Cell`. An index not listed holds no value. -/
abbrev Mem (w : Nat) := List (Nat × BitVec w)

/-- The six buffers (R38). -/
structure Memory where
  pcmIn : Mem 16
  prmE : Mem 16
  prmD : Mem 16
  pcmOut : Mem 16
  frmTx : Mem 8
  frmRx : Mem 8
deriving DecidableEq, Repr

/-- The machine. `resVal`, `aluY` are the outputs `res_val`, `alu_y` and `homingSupported` the strap (R46); `inputs` is
the host's coming actions, oldest first (log 1); `epoch` and `draws` number the free values (logs 5, 6). -/
structure State where
  enc : EncState
  dec : DecState
  curTx : Cursor
  curRx : Cursor
  flags : Flags
  resVal : Octet
  aluY : Word32
  homingSupported : Bool
  mem : Memory
  work : Work
  inputs : List Input
  epoch : Nat
  draws : Nat
deriving DecidableEq, Repr

/-- Why the machine stops. The block itself raises no exception (60_exceptions.md R260). -/
inductive Fault where
  /-- An element that does not exist was addressed (R60): by a host access outside its buffer, by a STEP run alone on a
  working value outside the range its command guarantees, or by DECODE with `nrp` outside 40..120. Safe: the block never
  gets there under the spec's rules (log 17, log 18). -/
  | noSuchElement
deriving DecidableEq, Repr

/-- Why a request has no meaning. -/
inductive Refusal where
  /-- An instruction of the opcode table without a meaning yet. Raised by `exec`'s refused arms alone. Safe. -/
  | notModelled (mnemonic : String)
  /-- A reserved command word (R89) or an unused step identity. Raised by `step` and, for the bit count, by PACK1 and
  UNPACK1. Safe (log 15). -/
  | reserved (why : Reserved)
  /-- PACK1 or UNPACK1 would move a cursor past bit 264 (R148). Raised by PACK1 and UNPACK1. Safe (log 15). -/
  | cursorPastEnd
  /-- The host acts while `busy` = 1 (R61, R230, R297). Raised by `step`. Safe (log 16). -/
  | hostWhileBusy
deriving DecidableEq, Repr

/-- The home state of the encoder (R42, R290). -/
def EncState.home : EncState where
  z1 := 0
  Lz2 := 0
  mp := 0
  larppLast := Vector.replicate 8 0
  u := Vector.replicate 8 0
  dp := Vector.replicate 120 0
  lastFrameHome := false

/-- The home state of the decoder: all 0 but `nrp` = 40 (R42, R290). -/
def DecState.home : DecState where
  nrp := 40
  drp := Vector.replicate 120 0
  larppLast := Vector.replicate 8 0
  v := Vector.replicate 9 0
  msr := 0

/-- The reset value of both cursors (R34). -/
def Cursor.zero : Cursor where
  bytePtr := 0
  bitPtr := 0

/-- The reset value of the flags (R35). -/
def Flags.zero : Flags where
  busy := false
  done := false
  valid := false
  eq := false

/-- The working values between commands, where they do not exist (R42). DESIGN CHOICE: 0 each, and the smallest legal lag
40 for `Nc` (log 4). -/
def Work.blank : Work where
  isHome := false
  so := 0
  s1 := 0
  msp := 0
  lsp := 0
  sof := 0
  Ls2 := 0
  s := Vector.replicate 160 0
  smax := 0
  scalauto := 0
  Lacf := Vector.replicate 9 0
  acf := Vector.replicate 9 0
  P := Vector.replicate 9 0
  K := Vector.replicate 7 0
  r := Vector.replicate 8 0
  lar := Vector.replicate 8 0
  larc := Vector.replicate 8 0
  larpp := Vector.replicate 8 0
  larp := Vector.replicate 8 0
  rrp := Vector.replicate 4 (Vector.replicate 8 0)
  zone := 0
  d := Vector.replicate 160 0
  di := 0
  sav := 0
  dmax := 0
  scal := 0
  R := 0
  S := 0
  bp := 0
  wtLtp := Vector.replicate 40 0
  Lmax := 0
  Lpower := 0
  Lresult := 0
  Ltemp := 0
  EM := 0
  Nc := Vector.replicate 4 40
  bc := Vector.replicate 4 0
  Mc := Vector.replicate 4 0
  xmaxc := Vector.replicate 4 0
  xMc := Vector.replicate 4 (Vector.replicate 13 0)
  dpp := Vector.replicate 40 0
  e := Vector.replicate 40 0
  wtW := Vector.replicate 50 0
  x := Vector.replicate 40 0
  xM := Vector.replicate 13 0
  xmax := 0
  exp := 0
  mant := 0
  itest := 0
  xMp := Vector.replicate 13 0
  ep := Vector.replicate 40 0
  erp := Vector.replicate 40 0
  Nr := 0
  brp := 0
  drpp := 0
  drp := Vector.replicate 40 0
  wt := Vector.replicate 160 0
  sri := 0
  temp := 0
  temp1 := 0
  temp2 := 0
  temp3 := 0

/-- All buffers unwritten (R42: after `rst` their contents are unspecified). -/
def Memory.empty : Memory where
  pcmIn := []
  prmE := []
  prmD := []
  pcmOut := []
  frmTx := []
  frmRx := []

/-- The machine right after reset (R42, R290, R291): the home state, nothing written, no request present. `resVal`, `aluY`,
the strap and the model's own fields hold the values of logs 1, 5, 6, 7 and 8. -/
def State.reset : State where
  enc := EncState.home
  dec := DecState.home
  curTx := Cursor.zero
  curRx := Cursor.zero
  flags := Flags.zero
  resVal := 0
  aluY := 0
  homingSupported := false
  mem := Memory.empty
  work := Work.blank
  inputs := []
  epoch := 0
  draws := 0

end Sys2Proof.Machine
end

