-- ==== Sys2Proof/Machine/Flags.lean ====
section
/-! DEFINITION. The status flags and the combinational outputs computed from state (R35, R46, R143). The ALU sets no flag
(R35, R120). -/

namespace Sys2Proof.Machine

open Sys2Proof

/-- Start of a command: `busy <- 1`, `done <- 0` (R230). -/
def startCommand (s : State) : State :=
  { s with flags := { s.flags with busy := true, done := false } }

/-- End of a command: `busy <- 0`, `done <- 1` (R230). -/
def finishCommand (s : State) : State :=
  { s with flags := { s.flags with busy := false, done := true } }

/-- Write the flag `valid` (R145, R146). -/
def setValid (b : Bool) (s : State) : State := { s with flags := { s.flags with valid := b } }

/-- Write the flag `eq` (R147). -/
def setEq (b : Bool) (s : State) : State := { s with flags := { s.flags with eq := b } }

/-- The signature test on octet 0 of a frame: its first four stream bits are `1101` (R85; under `LSB_FIRST` R93). -/
def signatureOk (order : PackOrder) (octet0 : Octet) : Bool :=
  match order with
  | .msbFirst => octet0 &&& 0xF0 == 0xD0
  | .lsbFirst => octet0 &&& 0x0F == 0x0D

/-- `bitsUsed` of a cursor: `bytePtr * 8 + bitPtr` (R143). -/
def Cursor.bitsUsed (c : Cursor) : Nat := c.bytePtr.toNat * 8 + c.bitPtr.toNat

/-- A cursor within the 264 bits of a frame (R34, R148). -/
def Cursor.ok (c : Cursor) : Bool := decide (c.bitsUsed ≤ 264)

/-- The output `bits_tx`, 9 bits (R46). -/
def State.bitsTx (s : State) : BitVec 9 := BitVec.ofNat 9 s.curTx.bitsUsed

/-- The output `bits_rx`, 9 bits (R46). -/
def State.bitsRx (s : State) : BitVec 9 := BitVec.ofNat 9 s.curRx.bitsUsed

/-- The output `STATUS`: bit 0 `busy`, 1 `done`, 2 `valid`, 3 `eq` (R46). -/
def State.status (s : State) : BitVec 4 :=
  BitVec.ofBool s.flags.eq ++ BitVec.ofBool s.flags.valid ++ BitVec.ofBool s.flags.done ++ BitVec.ofBool s.flags.busy

end Sys2Proof.Machine
end

