-- ==== Sys2Proof/Machine/Tables.lean ====
section
/-! DEFINITION. The parameters of R6 that have a value for this hardware, and the read-only tables of R39. -/

namespace Sys2Proof.Machine

open Sys2Proof

/-- `SHL_MODE` = `SAT` (R6, D8; log 13). -/
def shlMode : ShlMode := .sat

/-- `PACK_ORDER` = `MSB_FIRST` (R6, R62; log 14). -/
def packOrder : PackOrder := .msbFirst

/-- `DIV_0_0` = 32767 (R6, R115 (a); log 11). -/
def div00 : Word16 := 32767

/-- `L_MULT_MINMIN` = `0x7FFFFFFF` (R6, R118; log 12). -/
def lMultMinMin : Word32 := 0x7FFFFFFF

/-- `A[1..8]` (R168). -/
def tblA : Vector Word16 8 := #v[20480, 20480, 20480, 20480, 13964, 15360, 8534, 9036]

/-- `B[1..8]` (R168). -/
def tblB : Vector Word16 8 := #v[0, 0, 2048, -2560, 94, -1792, -341, -1144]

/-- `MIC[1..8]` (R168). -/
def tblMIC : Vector Word16 8 := #v[-32, -32, -16, -16, -8, -8, -4, -4]

/-- `MAC[1..8]` (R168). -/
def tblMAC : Vector Word16 8 := #v[31, 31, 15, 15, 7, 7, 3, 3]

/-- `INVA[1..8]` (R185). -/
def tblINVA : Vector Word16 8 := #v[13107, 13107, 13107, 13107, 19223, 17476, 31454, 29708]

/-- `DLB[0..3]` (R201). -/
def tblDLB : Vector Word16 4 := #v[6554, 16384, 26214, 32767]

/-- `QLB[0..3]` (R201). -/
def tblQLB : Vector Word16 4 := #v[3277, 11469, 21299, 32767]

/-- `H[0..10]` (R216). -/
def tblH : Vector Word16 11 := #v[-134, -374, 0, 2054, 5741, 8192, 5741, 2054, 0, -374, -134]

/-- `NRFAC[0..7]` (R216). -/
def tblNRFAC : Vector Word16 8 := #v[29128, 26215, 23832, 21846, 20165, 18725, 17476, 16384]

/-- `FAC[0..7]` (R216). -/
def tblFAC : Vector Word16 8 := #v[18431, 20479, 22527, 24575, 26623, 28671, 30719, 32767]

/-- Widths of the eight LAR fields (R81). -/
def larWidths : List Nat := [6, 6, 5, 5, 4, 4, 3, 3]

/-- Widths of the seventeen fields of a sub-segment: `Nc`, `bc`, `Mc`, `xmaxc`, thirteen pulses (R81). -/
def subWidths : List Nat := [7, 2, 2, 6, 3, 3, 3, 3, 3, 3, 3, 3, 3, 3, 3, 3, 3]

/-- `WIDTH[0..75]` (R81): the LAR widths, then the sub-segment widths four times. -/
def tblWIDTH : List Nat := larWidths ++ subWidths ++ subWidths ++ subWidths ++ subWidths

/-- One sub-segment of `HOMING_OUTPUT`, with its fifth pulse code given (R246). -/
def homingSub (pulse4 : Word16) : List Word16 :=
  [40, 0, 0, 0, 4, 4, 4, 4, pulse4, 4, 4, 4, 4, 4, 4, 4, 4]

/-- `HOMING_OUTPUT[0..75]` (R246; log 27). -/
def tblHOMING : List Word16 :=
  [9, 23, 15, 8, 7, 3, 3, 2] ++ homingSub 4 ++ homingSub 4 ++ homingSub 4 ++ homingSub 3

/-- `k2zone(k)`: the zone boundaries 13, 27 and 40 (R39, R184). -/
def k2zone (k : Nat) : BitVec 2 :=
  if k ≤ 12 then 0 else if k ≤ 26 then 1 else if k ≤ 39 then 2 else 3

end Sys2Proof.Machine
end

