-- ==== Sys2Proof/Machine/Arith.lean ====
section
/-! DEFINITION. The width operations of R9 and the fourteen primitives of the fixed_point_saturating_ALU (40_alu.md), over
exact integers that are narrowed once at the end. -/

namespace Sys2Proof.Machine

open Sys2Proof

/-- `sat16(x)`: x clamped to int16 (R9). -/
def sat16 (x : Int) : Word16 := BitVec.ofInt 16 (max (-32768) (min x 32767))

/-- `sat32(x)`: x clamped to int32 (R9). -/
def sat32 (x : Int) : Word32 := BitVec.ofInt 32 (max (-2147483648) (min x 2147483647))

/-- `wrap16(x)` (R9). -/
def wrap16 (x : Int) : Word16 := BitVec.ofInt 16 x

/-- `wrap32(x)` (R9). -/
def wrap32 (x : Int) : Word32 := BitVec.ofInt 32 x

/-- `x >> n` on an exact integer: the floor of x / 2^n (R9). -/
def floorShift (x : Int) (n : Nat) : Int := x / (2 : Int) ^ n

/-- An int16 value assigned to an int32 variable: sign-extended (R116, R124). -/
def sext (a : Word16) : Word32 := a.signExtend 32

/-- An int32 value assigned to an int16 variable. R125: it is shown to fit, and a clamp that never acts makes the
assignment total (log 25). -/
def narrow (a : Word32) : Word16 := sat16 a.toInt

/-- `add(a, b)` (R110). -/
def add (a b : Word16) : Word16 := sat16 (a.toInt + b.toInt)

/-- `sub(a, b)` (R111). -/
def sub (a b : Word16) : Word16 := sat16 (a.toInt - b.toInt)

/-- `mult(a, b)` (R112). -/
def mult (a b : Word16) : Word16 :=
  if a.toInt = -32768 ∧ b.toInt = -32768 then 32767
  else wrap16 (floorShift (a.toInt * b.toInt) 15)

/-- `mult_r(a, b)` (R113). -/
def multR (a b : Word16) : Word16 :=
  if a.toInt = -32768 ∧ b.toInt = -32768 then 32767
  else wrap16 (floorShift (a.toInt * b.toInt + 16384) 15)

/-- `s_abs(a)` (R114). -/
def sAbs (a : Word16) : Word16 :=
  if a.toInt = -32768 then 32767
  else if a.toInt < 0 then wrap16 (-a.toInt)
  else a

/-- `div(n, d)` (R115). `div(0, 0)` is the parameter `DIV_0_0`; outside the domain the result is a free value (U1, log 9). -/
def div (n d : Word16) : Word16 :=
  if n.toInt = 0 ∧ d.toInt = 0 then div00
  else if 0 ≤ n.toInt ∧ n.toInt ≤ d.toInt then
    if n.toInt = d.toInt then 32767 else wrap16 (n.toInt * 32768 / d.toInt)
  else Config.divOutside n d

/-- `L_add(a, b)` (R116). -/
def lAdd (a b : Word32) : Word32 := sat32 (a.toInt + b.toInt)

/-- `L_sub(a, b)` (R117). -/
def lSub (a b : Word32) : Word32 := sat32 (a.toInt - b.toInt)

/-- `L_mult(a, b)` (R118); the excluded pair gives the parameter `L_MULT_MINMIN` (D11). -/
def lMult (a b : Word16) : Word32 :=
  if a.toInt = -32768 ∧ b.toInt = -32768 then lMultMinMin
  else wrap32 (2 * (a.toInt * b.toInt))

/-- How many doublings, at most `fuel`, bring x into [-2^31, -2^30] or [2^30, 2^31 - 1] (R119). -/
def normCount : Nat → Int → Nat
  | 0, _ => 0
  | fuel + 1, x => if x ≤ -1073741824 ∨ 1073741824 ≤ x then 0 else normCount fuel (2 * x) + 1

/-- `norm(L)` (R119); `norm(0)` is a free value (U3, log 10). -/
def norm (L : Word32) : Word16 :=
  if L.toInt = 0 then Config.normZero else BitVec.ofNat 16 (normCount 31 L.toInt)

/-- A 16-bit left shift by a count that is not negative, under each `SHL_MODE` (R122). -/
def shiftLeft16 (mode : ShlMode) (a : Int) (n : Nat) : Word16 :=
  match mode with
  | .sat => sat16 (a * (2 : Int) ^ n)
  | .wrap => if n ≤ 15 then wrap16 (a * (2 : Int) ^ n) else 0

/-- A 16-bit right shift by a count that is not negative (R123). -/
def shiftRight16 (a : Int) (n : Nat) : Word16 :=
  if n ≤ 15 then wrap16 (floorShift a n) else if a < 0 then -1 else 0

/-- A 32-bit left shift by a count that is not negative, under each `SHL_MODE` (R124). -/
def shiftLeft32 (mode : ShlMode) (a : Int) (n : Nat) : Word32 :=
  match mode with
  | .sat => sat32 (a * (2 : Int) ^ n)
  | .wrap => if n ≤ 31 then wrap32 (a * (2 : Int) ^ n) else 0

/-- A 32-bit right shift by a count that is not negative (R125). -/
def shiftRight32 (a : Int) (n : Nat) : Word32 :=
  if n ≤ 31 then wrap32 (floorShift a n) else if a < 0 then -1 else 0

/-- `shl16(a, n)`: a negative count shifts right (R122). -/
def shl16 (a n : Word16) : Word16 :=
  if 0 ≤ n.toInt then shiftLeft16 shlMode a.toInt n.toInt.toNat else shiftRight16 a.toInt (-n.toInt).toNat

/-- `shr16(a, n)`: a negative count shifts left (R123). -/
def shr16 (a n : Word16) : Word16 :=
  if 0 ≤ n.toInt then shiftRight16 a.toInt n.toInt.toNat else shiftLeft16 shlMode a.toInt (-n.toInt).toNat

/-- `L_shl(a, n)`: a negative count shifts right (R124). -/
def lShl (a : Word32) (n : Word16) : Word32 :=
  if 0 ≤ n.toInt then shiftLeft32 shlMode a.toInt n.toInt.toNat else shiftRight32 a.toInt (-n.toInt).toNat

/-- `L_shr(a, n)`: a negative count shifts left (R125). -/
def lShr (a : Word32) (n : Word16) : Word32 :=
  if 0 ≤ n.toInt then shiftRight32 a.toInt n.toInt.toNat else shiftLeft32 shlMode a.toInt (-n.toInt).toNat

end Sys2Proof.Machine
end

