-- ==== Sys2Proof/Machine/Operands.lean ====
section
/-! DEFINITION. The operand forms: ALU port operands (R87), array elements by computed index (R10), residual histories by
signed index, table entries by code, sub-segment and zone selection. -/

namespace Sys2Proof.Machine

open Sys2Proof

/-- A 16-bit operand of the ALU port: the low 16 bits of its input (R87). -/
def lo16 (x : Word32) : Word16 := x.setWidth 16

/-- An array element at a computed index. Every rule's index stays in range (R60); the 0 is never read (log 26). -/
def elt {w n : Nat} (v : Vector (BitVec w) n) (i : Nat) : BitVec w := v[i]?.getD 0

/-- A table entry at the index held in a register (R39). -/
def entry {n : Nat} (t : Vector Word16 n) (i : Word16) : Word16 := elt t i.toNat

/-- Whether an int16 index is one of the n entries of a table or array. -/
def indexOk (i : Word16) (n : Nat) : Bool := decide (i.toNat < n)

/-- Whether an int16 value is a legal lag, 40..120 (R5). -/
def lagOk (lag : Word16) : Bool := decide (40 ≤ lag.toInt) && decide (lag.toInt ≤ 120)

/-- `dp[k - lag]` or `drp[k - lag]` of a history `[-120..-1]` held as elements 0..119 (R10). -/
def hist (h : Vector Word16 120) (k : Nat) (lag : Word16) : Word16 := elt h (120 + k - lag.toNat)

/-- Entry j of a value held per sub-segment, j = 0..3. -/
def sub4 {α : Type} (v : Vector α 4) (j : BitVec 2) : α := v[j.toNat]'(by have := j.isLt; omega)

/-- Replace entry j of a value held per sub-segment or per zone. -/
def set4 {α : Type} (v : Vector α 4) (j : BitVec 2) (x : α) : Vector α 4 := v.set j.toNat x (by have := j.isLt; omega)

/-- `d[40j + k]` for k = 0..39: the samples of sub-segment j (45_ltp.md). -/
def subSegment (d : Vector Word16 160) (j : BitVec 2) : Vector Word16 40 :=
  Vector.ofFn fun k => elt d (40 * j.toNat + k.val)

/-- The four values of a sub-segment or zone index, ascending. -/
def quarters : List (BitVec 2) := [0, 1, 2, 3]

/-- Index in a parameter record of the first field of sub-segment j (R81). -/
def subBase (j : Nat) : Nat := 8 + 17 * j

/-- The low `width` bits of a record word, the bits above dropped (R94, R240). -/
def maskField (width : Nat) (x : Word16) : Word16 := x &&& BitVec.ofNat 16 (2 ^ width - 1)

end Sys2Proof.Machine
end

