-- ==== Sys2Proof/WellFormed.lean ====
section
/-! DEFINITION. Which instruction terms are instructions of the block. -/

namespace Sys2Proof

/-- `PACK1` and `UNPACK1` take 1 to 8 bits (R140, R141); every other value of `n` is reserved (R89). -/
def bitCountOk (n : BitVec 4) : Bool := decide (1 ≤ n.toNat) && decide (n.toNat ≤ 8)

/-- A sample index is in 0..159 (R5 `FRAME_LEN`). -/
def sampleOk (k : BitVec 8) : Bool := decide (k.toNat < 160)

/-- The well-formed instructions: the bit counts and sample indices are in range; every other operand fills its field. -/
def Instr.wellFormed : Instr → Bool
  | .pack1 n _ => bitCountOk n
  | .unpack1 n => bitCountOk n
  | .downscale k => sampleOk k
  | .preemph k => sampleOk k
  | .stsynth k => sampleOk k
  | .upscale k => sampleOk k
  | .k2zone k => sampleOk k
  | .nop => true
  | .reset => true
  | .resetEnc => true
  | .resetDec => true
  | .encode => true
  | .decode => true
  | .pack => true
  | .unpack => true
  | .isvalid => true
  | .prmeq => true
  | .currst _ => true
  | .aluAdd _ _ => true
  | .aluSub _ _ => true
  | .aluMult _ _ => true
  | .aluMultR _ _ => true
  | .aluAbs _ => true
  | .aluDiv _ _ => true
  | .aluLAdd _ _ => true
  | .aluLSub _ _ => true
  | .aluLMult _ _ => true
  | .aluNorm _ => true
  | .aluShl16 _ _ => true
  | .aluShr16 _ _ => true
  | .aluLShl _ _ => true
  | .aluLShr _ _ => true
  | .homedet => true
  | .offsetcomp => true
  | .autocorr => true
  | .schur => true
  | .r2lar => true
  | .larq => true
  | .lardec => true
  | .larinterp _ _ => true
  | .lar2rp _ => true
  | .stanalysis => true
  | .ltpsearch _ => true
  | .ltpanalysis _ => true
  | .weight => true
  | .gridsel _ => true
  | .xmaxq _ => true
  | .expmant _ => true
  | .apcmq _ => true
  | .apcminv _ => true
  | .gridpos _ _ => true
  | .dpupdate => true
  | .emit => true
  | .larrot => true
  | .larrotDec => true
  | .homeapply => true
  | .prmmask => true
  | .ltpsynth _ => true
  | .deemph => true
  | .decoderefl _ => true
  | .invapcm _ _ => true

end Sys2Proof
end

