-- ==== Sys2Proof/Machine/Ops.lean ====
section
/-! DEFINITION. The named operations over buffers, registers and cursors; the reset operations; how a command runs. The
block raises no exception and has no return from one (R260, R263), so no operation takes one. -/

namespace Sys2Proof.Machine

open Sys2Proof

/-- What a meaning answers. -/
abbrev Result := Host.Outcome State Fault Refusal

/-- The element a buffer lists at an index; none where nothing has written it (U10). -/
def Mem.read? {w : Nat} : Mem w → Nat → Option (BitVec w)
  | [], _ => none
  | (a, v) :: m, i => if a = i then some v else Mem.read? m i

/-- Write one element, keeping the indices strictly rising. -/
def Mem.write {w : Nat} : Mem w → Nat → BitVec w → Mem w
  | [], i, x => [(i, x)]
  | (a, v) :: m, i, x =>
    if i < a then (i, x) :: (a, v) :: m
    else if i = a then (i, x) :: m
    else (a, v) :: Mem.write m i x

/-- The canonical form from index `lo` on: indices strictly rising and below `len`. -/
def Mem.wfFrom {w : Nat} (len : Nat) : Nat → Mem w → Bool
  | _, [] => true
  | lo, (a, _) :: m => decide (lo ≤ a) && decide (a < len) && Mem.wfFrom len (a + 1) m

/-- The canonical form of one buffer of `len` elements. -/
def Mem.wf {w : Nat} (len : Nat) (m : Mem w) : Bool := Mem.wfFrom len 0 m

/-- A buffer of 16-bit elements by name. -/
def Memory.words (m : Memory) : WordBuf → Mem 16
  | .pcmIn => m.pcmIn
  | .prmE => m.prmE
  | .prmD => m.prmD
  | .pcmOut => m.pcmOut

/-- A frame buffer by name. -/
def Memory.octets (m : Memory) : OctetBuf → Mem 8
  | .frmTx => m.frmTx
  | .frmRx => m.frmRx

/-- Replace a buffer of 16-bit elements. -/
def Memory.setWords (m : Memory) (b : WordBuf) (x : Mem 16) : Memory :=
  match b with
  | .pcmIn => { m with pcmIn := x }
  | .prmE => { m with prmE := x }
  | .prmD => { m with prmD := x }
  | .pcmOut => { m with pcmOut := x }

/-- Replace a frame buffer. -/
def Memory.setOctets (m : Memory) (b : OctetBuf) (x : Mem 8) : Memory :=
  match b with
  | .frmTx => { m with frmTx := x }
  | .frmRx => { m with frmRx := x }

/-- The canonical form of all six buffers (R60). -/
def Memory.wf (m : Memory) : Bool :=
  Mem.wf 160 m.pcmIn && Mem.wf 76 m.prmE && Mem.wf 76 m.prmD && Mem.wf 160 m.pcmOut && Mem.wf 33 m.frmTx &&
    Mem.wf 33 m.frmRx

/-- Read a 16-bit element; where nothing has written it, a free value (U10, log 5). -/
def State.readWord (s : State) (b : WordBuf) (i : Nat) : Word16 :=
  match Mem.read? (s.mem.words b) i with
  | some v => v
  | none => Config.unwrittenWord s.epoch b i

/-- Read an octet; where nothing has written it, a free value (U10, log 5). -/
def State.readOctet (s : State) (b : OctetBuf) (i : Nat) : Octet :=
  match Mem.read? (s.mem.octets b) i with
  | some v => v
  | none => Config.unwrittenOctet s.epoch b i

/-- Write a 16-bit element. -/
def State.writeWord (s : State) (b : WordBuf) (i : Nat) (v : Word16) : State :=
  { s with mem := s.mem.setWords b (Mem.write (s.mem.words b) i v) }

/-- Write an octet. -/
def State.writeOctet (s : State) (b : OctetBuf) (i : Nat) (v : Octet) : State :=
  { s with mem := s.mem.setOctets b (Mem.write (s.mem.octets b) i v) }

/-- Write consecutive 16-bit elements from index `i` on (R11 `MemWrite`). -/
def State.writeWords (s : State) (b : WordBuf) : Nat → List Word16 → State
  | _, [] => s
  | i, v :: vs => State.writeWords (s.writeWord b i v) b (i + 1) vs

/-- Read `n` consecutive 16-bit elements from index 0 on (R11 `MemRead`). -/
def State.readWords (s : State) (b : WordBuf) (n : Nat) : List Word16 := (List.range n).map (s.readWord b)

/-- Change the working values. -/
def State.onWork (s : State) (f : Work → Work) : State := { s with work := f s.work }

/-- Change the persistent encoder state. -/
def State.onEnc (s : State) (f : EncState → EncState) : State := { s with enc := f s.enc }

/-- Change the persistent decoder state. -/
def State.onDec (s : State) (f : DecState → DecState) : State := { s with dec := f s.dec }

/-- Run a command: R230's two flag updates around its effect. -/
def runCommand (effect : State → State) (s : State) : Result := .next (finishCommand (effect (startCommand s)))

/-- The working values are gone after the command (R37, R41, R42; log 4). -/
def dropWork (s : State) : State := s.onWork fun _ => Work.blank

/-- The encoder half of a reset: the encoder state and `last_frame_home` (R232, R233). -/
def homeEncoder (s : State) : State := s.onEnc fun _ => EncState.home

/-- The homing self-reset: the encoder state of R21 to R26, not `last_frame_home` (R244 (b)). -/
def selfReset (s : State) : State := s.onEnc fun e => { EncState.home with lastFrameHome := e.lastFrameHome }

/-- The decoder half of a reset (R232, R234). -/
def homeDecoder (s : State) : State := s.onDec fun _ => DecState.home

/-- The packer half of `RESET`: both cursors to (0, 0), `valid` and `eq` to 0 (R232). -/
def homePacker (s : State) : State :=
  { s with
    curTx := Cursor.zero
    curRx := Cursor.zero
    flags := { s.flags with valid := false, eq := false } }

/-- The `rst` input (R291): the home state with `busy` = `done` = 0. A command in progress is abandoned and the contents of
the buffers and of `res_val` are unspecified, so each gets fresh free values (logs 5, 6, 18). The strap, the ALU port and
the host's coming actions are not the block's to reset (R42, R46). -/
def applyRst (s : State) : State :=
  { s with
    enc := EncState.home
    dec := DecState.home
    curTx := Cursor.zero
    curRx := Cursor.zero
    flags := Flags.zero
    resVal := Config.resVal s.draws
    mem := Memory.empty
    work := Work.blank
    epoch := s.epoch + 1
    draws := s.draws + 1 }

/-- Advance a cursor by one bit, to the next octet when `bitPtr` passes 7 (R140). -/
def Cursor.advance (c : Cursor) : Cursor :=
  if c.bitPtr = 7 then { bytePtr := c.bytePtr + 1, bitPtr := 0 } else { c with bitPtr := c.bitPtr + 1 }

/-- Bit position inside the octet at which a cursor stands (R62; under `LSB_FIRST` R93). -/
def Cursor.bitPosition (order : PackOrder) (c : Cursor) : Nat :=
  match order with
  | .msbFirst => 7 - c.bitPtr.toNat
  | .lsbFirst => c.bitPtr.toNat

/-- The bits of an n-bit value in the order they enter the stream (R84; under `LSB_FIRST` R93). -/
def bitOrder (order : PackOrder) (n : Nat) : List Nat :=
  match order with
  | .msbFirst => (List.range n).reverse
  | .lsbFirst => List.range n

/-- Set or clear bit b of an octet, keeping the others (R140, D19). -/
def putBit (o : Octet) (b : Nat) (x : Bool) : Octet :=
  (o &&& ~~~((1 : Octet) <<< b)) ||| (if x then (1 : Octet) <<< b else 0)

/-- Write one bit at `CUR_TX` and advance it (R140). -/
def packBit (x : Bool) (s : State) : State :=
  let B := s.curTx.bytePtr.toNat
  let o := putBit (s.readOctet .frmTx B) (s.curTx.bitPosition packOrder) x
  { s.writeOctet .frmTx B o with curTx := s.curTx.advance }

/-- Write the low n bits of a value (R140). -/
def packValue (val : Octet) (n : Nat) (s : State) : State :=
  (bitOrder packOrder n).foldl (fun s t => packBit (val.getLsbD t) s) s

/-- The bit of `FRM_RX` at a cursor (R141). -/
def frameBit (s : State) (c : Cursor) : Bool :=
  (s.readOctet .frmRx c.bytePtr.toNat).getLsbD (c.bitPosition packOrder)

/-- Read one bit at `CUR_RX` into bit t of v and advance (R141). -/
def unpackBit (p : Octet × State) (t : Nat) : Octet × State :=
  (p.1 ||| (if frameBit p.2 p.2.curRx then (1 : Octet) <<< t else 0), { p.2 with curRx := p.2.curRx.advance })

/-- Read an n-bit value at `CUR_RX`; the first bit read is its most significant (R141). -/
def unpackValue (n : Nat) (s : State) : Octet × State := (bitOrder packOrder n).foldl unpackBit (0, s)

/-- Show a result on `alu_y` (R46, R126): the only effect of the ALU test port (log 7). -/
def showAlu (y : Word32) (s : State) : Result := .next { s with aluY := y }

/-- A step of the sequencer: its effect, where what it addresses exists (R60; log 17). -/
def runStep (inRange : Bool) (effect : State → State) (s : State) : Result :=
  if inRange then .next (effect s) else .fault .noSuchElement

end Sys2Proof.Machine
end

