-- ==== Sys2Proof/Machine/Alu.lean ====
section
/-! DEFINITION. The fourteen operations of the ALU test port (40_alu.md, R87, R126). A 16-bit operand is the low 16 bits of
its input, a 16-bit result is sign-extended onto `alu_y`, a shift count is `alu_b` read as int16. -/

namespace Sys2Proof.Machine

open Sys2Proof

/-- `ADD` (R110). -/
def execAluAdd (a b : Word32) (s : State) : Result := showAlu (sext (add (lo16 a) (lo16 b))) s

/-- `SUB` (R111). -/
def execAluSub (a b : Word32) (s : State) : Result := showAlu (sext (sub (lo16 a) (lo16 b))) s

/-- `MULT` (R112). -/
def execAluMult (a b : Word32) (s : State) : Result := showAlu (sext (mult (lo16 a) (lo16 b))) s

/-- `MULT_R` (R113). -/
def execAluMultR (a b : Word32) (s : State) : Result := showAlu (sext (multR (lo16 a) (lo16 b))) s

/-- `ABS` (R114); `alu_b` is ignored. -/
def execAluAbs (a : Word32) (s : State) : Result := showAlu (sext (sAbs (lo16 a))) s

/-- `DIV` (R115): a is the numerator, b the divisor. -/
def execAluDiv (a b : Word32) (s : State) : Result := showAlu (sext (div (lo16 a) (lo16 b))) s

/-- `L_ADD` (R116). -/
def execAluLAdd (a b : Word32) (s : State) : Result := showAlu (lAdd a b) s

/-- `L_SUB` (R117). -/
def execAluLSub (a b : Word32) (s : State) : Result := showAlu (lSub a b) s

/-- `L_MULT` (R118). -/
def execAluLMult (a b : Word32) (s : State) : Result := showAlu (lMult (lo16 a) (lo16 b)) s

/-- `NORM` (R119); `alu_b` is ignored. -/
def execAluNorm (a : Word32) (s : State) : Result := showAlu (sext (norm a)) s

/-- `SHL16` (R122). -/
def execAluShl16 (a b : Word32) (s : State) : Result := showAlu (sext (shl16 (lo16 a) (lo16 b))) s

/-- `SHR16` (R123). -/
def execAluShr16 (a b : Word32) (s : State) : Result := showAlu (sext (shr16 (lo16 a) (lo16 b))) s

/-- `L_SHL` (R124). -/
def execAluLShl (a b : Word32) (s : State) : Result := showAlu (lShl a (lo16 b)) s

/-- `L_SHR` (R125). -/
def execAluLShr (a b : Word32) (s : State) : Result := showAlu (lShr a (lo16 b)) s

end Sys2Proof.Machine
end

