-- ==== Sys2Proof/Machine/Packer.lean ====
section
/-! DEFINITION. The frame_parameter_packer (41_packer.md). -/

namespace Sys2Proof.Machine

open Sys2Proof

/-- `PACK1 val, n` (R140). A bit count outside 1..8 is reserved (R89); a write past bit 264 is refused (R148). -/
def execPack1 (n : BitVec 4) (val : Octet) (s : State) : Result :=
  if bitCountOk n then
    if s.curTx.bitsUsed + n.toNat ≤ 264 then runCommand (packValue val n.toNat) s else .refused .cursorPastEnd
  else .refused (.reserved .bitCount)

/-- The effect of `UNPACK1`: the value on `res_val`, zero-extended (R141). -/
def unpack1Effect (n : Nat) (s : State) : State :=
  let p := unpackValue n s
  { p.2 with resVal := p.1 }

/-- `UNPACK1 n` (R141), refused as `PACK1`. -/
def execUnpack1 (n : BitVec 4) (s : State) : Result :=
  if bitCountOk n then
    if s.curRx.bitsUsed + n.toNat ≤ 264 then runCommand (unpack1Effect n.toNat) s else .refused .cursorPastEnd
  else .refused (.reserved .bitCount)

/-- `CURRST sel` (R142). -/
def execCurrst (sel : CurSel) (s : State) : Result :=
  match sel with
  | .tx => runCommand (fun s => { s with curTx := Cursor.zero }) s
  | .rx => runCommand (fun s => { s with curRx := Cursor.zero }) s

/-- Pack the fields of `PRM_E` from index n on, at the given widths (R144). -/
def packFields : List Nat → Nat → State → State
  | [], _, s => s
  | w :: ws, n, s => packFields ws (n + 1) (packValue ((s.readWord .prmE n).setWidth 8) w s)

/-- Thirty-three octets of 0: what `PACK` writes into. All 264 bit positions are then written, so what stood there before
does not matter (R144). -/
def zeroFrame : Mem 8 := (List.range 33).map fun i => (i, 0)

/-- The effect of `PACK`: the cursor to (0, 0), the signature, the 76 fields (R144). -/
def packEffect (s : State) : State :=
  packFields tblWIDTH 0
    (packValue 0xD 4 { s with curTx := Cursor.zero, mem := s.mem.setOctets .frmTx zeroFrame })

/-- `PACK` (R144). -/
def execPack (s : State) : Result := runCommand packEffect s

/-- Unpack fields into `PRM_D` from index n on, at the given widths (R145). -/
def unpackFields : List Nat → Nat → State → State
  | [], _, s => s
  | w :: ws, n, s =>
    let p := unpackValue w s
    unpackFields ws (n + 1) (p.2.writeWord .prmD n (p.1.setWidth 16))

/-- The signature part of `UNPACK`: `valid` tells whether the first four bits are `0xD` (R145). -/
def unpackSignature (s : State) : State :=
  let p := unpackValue 4 s
  setValid (p.1 == 0xD) p.2

/-- `res_val` after `UNPACK` is not specified (R46, U16): a fresh free value (log 6). -/
def drawResVal (s : State) : State := { s with resVal := Config.resVal s.draws, draws := s.draws + 1 }

/-- The effect of `UNPACK`: every field is written whatever the signature is (R145). -/
def unpackEffect (s : State) : State :=
  drawResVal (unpackFields tblWIDTH 0 (unpackSignature { s with curRx := Cursor.zero }))

/-- `UNPACK` (R145). -/
def execUnpack (s : State) : Result := runCommand unpackEffect s

/-- `ISVALID` (R146): octet 0 alone is examined. -/
def execIsvalid (s : State) : Result :=
  runCommand (fun s => setValid (signatureOk packOrder (s.readOctet .frmRx 0)) s) s

/-- `PRMEQ` (R147): whole 16-bit words are compared. -/
def execPrmeq (s : State) : Result :=
  runCommand (fun s => setEq (s.readWords .prmE 76 == s.readWords .prmD 76) s) s

end Sys2Proof.Machine
end

