-- ==== Sys2Proof/Machine/LarInverse.lean ====
section
/-! DEFINITION. The LAR_quantizer_inverse sub-block (43_lar_inverse.md): LAR decoding, zone interpolation, reflection
coefficients, the zone map. -/

namespace Sys2Proof.Machine

open Sys2Proof

/-- `temp1` of LARDEC before the final doubling (R180). -/
def larDecodeHalf (i : Fin 8) (code : Word16) : Word16 :=
  multR tblINVA[i] (sub (shl16 (add code tblMIC[i]) 10) (shl16 tblB[i] 1))

/-- `LARpp[i]` of a code (R180). -/
def larDecode (i : Fin 8) (code : Word16) : Word16 := add (larDecodeHalf i code) (larDecodeHalf i code)

/-- Step LARDEC (R180). -/
def stepLardec (s : State) : State :=
  s.onWork fun w =>
    { w with
      larpp := Vector.ofFn fun i : Fin 8 => larDecode i w.larc[i]
      temp1 := larDecodeHalf 7 w.larc[7]
      temp2 := shl16 tblB[7] 1 }

/-- Meaning of STEP.LARDEC. -/
def execLardec (s : State) : Result := runStep true stepLardec s

/-- `LARpp_last` of the instance that is running (R24, R31). -/
def larppLastOf (side : Side) (s : State) : Vector Word16 8 :=
  match side with
  | .enc => s.enc.larppLast
  | .dec => s.dec.larppLast

/-- The interpolated value in a zone: each term is shifted, then added (R181). -/
def interpolate (zone : BitVec 2) (last cur : Word16) : Word16 :=
  if zone = 0 then add (add (shr16 last 2) (shr16 cur 2)) (shr16 last 1)
  else if zone = 1 then add (shr16 last 1) (shr16 cur 1)
  else if zone = 2 then add (add (shr16 last 2) (shr16 cur 2)) (shr16 cur 1)
  else cur

/-- Step LARINTERP in a zone (R181). -/
def stepLarinterp (side : Side) (zone : BitVec 2) (s : State) : State :=
  s.onWork fun w =>
    { w with larp := Vector.ofFn fun i : Fin 8 => interpolate zone (larppLastOf side s)[i] w.larpp[i] }

/-- Meaning of STEP.LARINTERP. -/
def execLarinterp (side : Side) (zone : BitVec 2) (s : State) : Result := runStep true (stepLarinterp side zone) s

/-- The magnitude of the reflection coefficient of an interpolated LAR (R182). -/
def rpMagnitude (lar : Word16) : Word16 :=
  let temp := sAbs lar
  if temp.toInt < 11059 then shl16 temp 1
  else if temp.toInt < 20070 then add temp 11059
  else add (shr16 temp 2) 26112

/-- The reflection coefficient of an interpolated LAR (R182). -/
def rpOf (lar : Word16) : Word16 := if lar.toInt < 0 then sub 0 (rpMagnitude lar) else rpMagnitude lar

/-- Step LAR2RP, writing the row of `rrp` of a zone (R182). -/
def stepLar2rp (zone : BitVec 2) (s : State) : State :=
  s.onWork fun w =>
    { w with
      rrp := set4 w.rrp zone (Vector.ofFn fun i : Fin 8 => rpOf w.larp[i])
      temp := rpMagnitude w.larp[7] }

/-- Meaning of STEP.LAR2RP. -/
def execLar2rp (zone : BitVec 2) (s : State) : Result := runStep true (stepLar2rp zone) s

/-- The composite DECODEREFL: LARDEC once, then LARINTERP and LAR2RP for each zone (R183). -/
def stepDecoderefl (side : Side) (s : State) : State :=
  quarters.foldl (fun s zone => stepLar2rp zone (stepLarinterp side zone s)) (stepLardec s)

/-- Meaning of STEP.DECODEREFL. -/
def execDecoderefl (side : Side) (s : State) : Result := runStep true (stepDecoderefl side) s

/-- Step K2ZONE on sample k: the zone of the sample (R184; log 28). -/
def stepK2zone (k : Nat) (s : State) : State := s.onWork fun w => { w with zone := k2zone k }

/-- Meaning of STEP.K2ZONE. -/
def execK2zone (k : BitVec 8) (s : State) : Result := runStep (sampleOk k) (stepK2zone k.toNat) s

end Sys2Proof.Machine
end

