-- ==== Sys2Proof/Machine/LpcAnalyzer.lean ====
section
/-! DEFINITION. The LPC_analyzer sub-block (42_preprocess_lpc.md): pre-processing, autocorrelation, Schur recursion, LAR
coding. Each step is a function on states, and its meaning runs that function. -/

namespace Sys2Proof.Machine

open Sys2Proof

/-- Step DOWNSCALE on sample k (R160). -/
def stepDownscale (k : Nat) (s : State) : State :=
  s.onWork fun w => { w with so := shl16 (shr16 (s.readWord .pcmIn k) 3) 2 }

/-- Meaning of STEP.DOWNSCALE. -/
def execDownscale (k : BitVec 8) (s : State) : Result := runStep (sampleOk k) (stepDownscale k.toNat) s

/-- Step OFFSETCOMP (R161). -/
def stepOffsetcomp (s : State) : State :=
  let s1 := sub s.work.so s.enc.z1
  let msp := narrow (lShr s.enc.Lz2 15)
  let lsp := narrow (lSub s.enc.Lz2 (lShl (sext msp) 15))
  let temp := multR lsp 32735
  let Ls2 := lAdd (lShl (sext s1) 15) (sext temp)
  let Lz2 := lAdd (lShr (lMult msp 32735) 1) Ls2
  { s with
    enc := { s.enc with z1 := s.work.so, Lz2 := Lz2 }
    work := { s.work with
      s1 := s1, msp := msp, lsp := lsp, temp := temp, Ls2 := Ls2
      sof := narrow (lShr (lAdd Lz2 16384) 15) } }

/-- Meaning of STEP.OFFSETCOMP. -/
def execOffsetcomp (s : State) : Result := runStep true stepOffsetcomp s

/-- Step PREEMPH on sample k (R162). -/
def stepPreemph (k : Nat) (s : State) : State :=
  { s with
    enc := { s.enc with mp := s.work.sof }
    work := { s.work with s := s.work.s.setIfInBounds k (add s.work.sof (multR s.enc.mp (-28180))) } }

/-- Meaning of STEP.PREEMPH. -/
def execPreemph (k : BitVec 8) (s : State) : Result := runStep (sampleOk k) (stepPreemph k.toNat) s

/-- The largest `s_abs` of a list, found by ascending strict comparison from 0 (R163, R200, R212). -/
def maxAbs (l : List Word16) : Word16 :=
  l.foldl (fun m x => if (sAbs x).toInt > m.toInt then sAbs x else m) 0

/-- The exact-order sum of `L_mult(a_i, b_i)` over pairs, from `acc` (R163, R200). -/
def macSum (acc : Word32) (pairs : List (Word16 × Word16)) : Word32 :=
  pairs.foldl (fun L p => lAdd L (lMult p.1 p.2)) acc

/-- `scalauto` from `smax` (R163). -/
def autoScale (smax : Word16) : Word16 :=
  if smax.toInt = 0 then 0 else sub 4 (norm (lShl (sext smax) 16))

/-- `L_ACF[k]`: the pairs are `(s[i], s[i-k])`, i = k..159 ascending (R163). -/
def autocorrelation (s : Vector Word16 160) (k : Nat) : Word32 :=
  macSum 0 ((s.toList.drop k).zip s.toList)

/-- Step AUTOCORR (R163). -/
def stepAutocorr (s : State) : State :=
  s.onWork fun w =>
    let smax := maxAbs w.s.toList
    let scalauto := autoScale smax
    let factor := shr16 16384 (sub scalauto 1)
    let scaled := if scalauto.toInt > 0 then Vector.ofFn fun k : Fin 160 => multR w.s[k] factor else w.s
    { w with
      smax := smax
      scalauto := scalauto
      temp := if scalauto.toInt > 0 then factor else sAbs (elt w.s 159)
      Lacf := Vector.ofFn fun k : Fin 9 => autocorrelation scaled k.val
      s := if scalauto.toInt > 0 then Vector.ofFn fun k : Fin 160 => shl16 scaled[k] scalauto else w.s }

/-- Meaning of STEP.AUTOCORR. -/
def execAutocorr (s : State) : Result := runStep true stepAutocorr s

/-- The arrays of the Schur recursion (R164); `K[i]` is element i - 2, `r[i]` element i - 1. -/
structure SchurArrays where
  P : Vector Word16 9
  K : Vector Word16 7
  r : Vector Word16 8
deriving DecidableEq, Repr

/-- The update of `P` and `K` after stage n (R164): every right side uses the values from before the stage, as the order of
the rule's two lines has it. -/
def schurUpdate (n : Nat) (rn : Word16) (a : SchurArrays) : SchurArrays :=
  { a with
    P := Vector.ofFn fun m : Fin 9 =>
      if m.val = 0 then add a.P[0] (multR a.P[1] rn)
      else if m.val ≤ 8 - n then add (elt a.P (m.val + 1)) (multR (elt a.K (7 - m.val)) rn)
      else a.P[m]
    K := Vector.ofFn fun i : Fin 7 =>
      if n ≤ i.val + 1 then add a.K[i] (multR (elt a.P (8 - i.val)) rn) else a.K[i] }

/-- Stages n, n + 1, ... of the Schur recursion (R164), at most as many as the first argument says. -/
def schurStages : Nat → Nat → SchurArrays → SchurArrays
  | 0, _, a => a
  | more + 1, n, a =>
    if a.P[0].toInt < (sAbs a.P[1]).toInt then
      { a with r := Vector.ofFn fun i : Fin 8 => if n ≤ i.val + 1 then 0 else a.r[i] }
    else
      let q := div (sAbs a.P[1]) a.P[0]
      let rn := if a.P[1].toInt > 0 then sub 0 q else q
      let a' := { a with r := a.r.setIfInBounds (n - 1) rn }
      if n = 8 then a' else schurStages more (n + 1) (schurUpdate n rn a')

/-- Step SCHUR (R164). -/
def stepSchur (s : State) : State :=
  s.onWork fun w =>
    if w.Lacf[0].toInt = 0 then { w with r := Vector.replicate 8 0 }
    else
      let temp := norm w.Lacf[0]
      let acf := Vector.ofFn fun k : Fin 9 => narrow (lShr (lShl w.Lacf[k] temp) 16)
      let K := Vector.ofFn fun i : Fin 7 => elt acf (7 - i.val)
      let a := schurStages 8 1 { P := acf, K := K, r := w.r }
      { w with temp := temp, acf := acf, P := a.P, K := a.K, r := a.r }

/-- Meaning of STEP.SCHUR. -/
def execSchur (s : State) : Result := runStep true stepSchur s

/-- The magnitude of the log-area ratio of a reflection coefficient (R166). -/
def larMagnitude (r : Word16) : Word16 :=
  let temp := sAbs r
  if temp.toInt < 22118 then shr16 temp 1
  else if temp.toInt < 31130 then sub temp 11059
  else shl16 (sub temp 26112) 2

/-- The log-area ratio of a reflection coefficient (R166). -/
def larOf (r : Word16) : Word16 := if r.toInt < 0 then sub 0 (larMagnitude r) else larMagnitude r

/-- Step R2LAR (R166). -/
def stepR2lar (s : State) : State :=
  s.onWork fun w => { w with lar := Vector.ofFn fun i : Fin 8 => larOf w.r[i], temp := larMagnitude w.r[7] }

/-- Meaning of STEP.R2LAR. -/
def execR2lar (s : State) : Result := runStep true stepR2lar s

/-- The scaled and offset log-area ratio before its shift (R167). -/
def larScaled (i : Fin 8) (lar : Word16) : Word16 := add (add (mult tblA[i] lar) tblB[i]) 256

/-- The code `LARc` of a log-area ratio: shifted, clipped to `MIC..MAC`, made non-negative (R167). -/
def larCode (i : Fin 8) (lar : Word16) : Word16 :=
  let q := shr16 (larScaled i lar) 9
  let q := if q.toInt > tblMAC[i].toInt then tblMAC[i] else q
  let q := if q.toInt < tblMIC[i].toInt then tblMIC[i] else q
  sub q tblMIC[i]

/-- Step LARQ (R167). -/
def stepLarq (s : State) : State :=
  s.onWork fun w => { w with larc := Vector.ofFn fun i : Fin 8 => larCode i w.lar[i], temp := larScaled 7 w.lar[7] }

/-- Meaning of STEP.LARQ. -/
def execLarq (s : State) : Result := runStep true stepLarq s

end Sys2Proof.Machine
end

