-- ==== Sys2Proof/Machine/Ltp.lean ====
section
/-! DEFINITION. Long-term prediction (45_ltp.md): the LTP_search_engine and the LTP_synthesis_filter. -/

namespace Sys2Proof.Machine

open Sys2Proof

/-- The 40 history samples `dp[k - lambda]`, k = 0..39 (R200). -/
def lagWindow (dp : Vector Word16 120) (lambda : Nat) : List Word16 := (dp.toList.drop (120 - lambda)).take 40

/-- The cross-correlation at a lag (R200 part 2). -/
def correlation (wt : List Word16) (dp : Vector Word16 120) (lambda : Nat) : Word32 :=
  macSum 0 (wt.zip (lagWindow dp lambda))

/-- The lag search: lambda = 40..120 ascending, strict comparison (R200 part 2). Answers `Nc` and `L_max`. -/
def searchLag (wt : List Word16) (dp : Vector Word16 120) : Word16 × Word32 :=
  (List.range 81).foldl
    (fun best i =>
      let L := correlation wt dp (40 + i)
      if L.toInt > best.2.toInt then (BitVec.ofNat 16 (40 + i), L) else best)
    (40, 0)

/-- `temp` after part 1 of R200. -/
def searchNorm (dmax : Word16) : Word16 := if dmax.toInt = 0 then 0 else norm (lShl (sext dmax) 16)

/-- `scal` (R200 part 1): `dmax` = 0 leaves `temp` = 0, hence `scal` = 6. -/
def searchScale (dmax : Word16) : Word16 :=
  if (searchNorm dmax).toInt > 6 then 0 else sub 6 (searchNorm dmax)

/-- The gain code of scaled maximum and power (R200 part 5): the first decision level not exceeded, else 3. -/
def gainCode (R S : Word16) : Word16 :=
  if R.toInt ≤ (mult S tblDLB[0]).toInt then 0
  else if R.toInt ≤ (mult S tblDLB[1]).toInt then 1
  else if R.toInt ≤ (mult S tblDLB[2]).toInt then 2
  else 3

/-- Part 5 of R200: the early exits, or the scaled comparison. -/
def searchGain (j : BitVec 2) (Lmax Lpower : Word32) (w : Work) : Work :=
  if Lmax.toInt ≤ 0 then { w with bc := set4 w.bc j 0 }
  else if Lmax.toInt ≥ Lpower.toInt then { w with bc := set4 w.bc j 3 }
  else
    let temp := norm Lpower
    let R := narrow (lShr (lShl Lmax temp) 16)
    let S := narrow (lShr (lShl Lpower temp) 16)
    { w with temp := temp, R := R, S := S, bc := set4 w.bc j (gainCode R S) }

/-- Step LTPSEARCH in sub-segment j (R200). -/
def stepLtpsearch (j : BitVec 2) (s : State) : State :=
  s.onWork fun w =>
    let d := subSegment w.d j
    let dmax := maxAbs d.toList
    let scal := searchScale dmax
    let wt := Vector.ofFn fun k : Fin 40 => shr16 d[k] scal
    let best := searchLag wt.toList s.enc.dp
    let Lmax := lShr best.2 (sub 6 scal)
    let seg := Vector.ofFn fun k : Fin 40 => shr16 (hist s.enc.dp k.val best.1) 3
    let Lpower := macSum 0 (seg.toList.zip seg.toList)
    searchGain j Lmax Lpower
      { w with
        dmax := dmax
        temp := searchNorm dmax
        scal := scal
        Nc := set4 w.Nc j best.1
        Lmax := Lmax
        Lresult := correlation wt.toList s.enc.dp 120
        wtLtp := seg
        Ltemp := lMult (elt seg 39) (elt seg 39)
        Lpower := Lpower }

/-- Meaning of STEP.LTPSEARCH. -/
def execLtpsearch (j : BitVec 2) (s : State) : Result := runStep true (stepLtpsearch j) s

/-- The long-term prediction `mult_r(QLB[bc], h[k - Nc])` (R202, R205). -/
def prediction (bc lag : Word16) (h : Vector Word16 120) (k : Nat) : Word16 := multR (entry tblQLB bc) (hist h k lag)

/-- Step LTPANALYSIS in sub-segment j (R202). -/
def stepLtpanalysis (j : BitVec 2) (s : State) : State :=
  s.onWork fun w =>
    let d := subSegment w.d j
    let dpp := Vector.ofFn fun k : Fin 40 => prediction (sub4 w.bc j) (sub4 w.Nc j) s.enc.dp k.val
    { w with
      bp := entry tblQLB (sub4 w.bc j)
      dpp := dpp
      e := Vector.ofFn fun k : Fin 40 => sub d[k] dpp[k] }

/-- Meaning of STEP.LTPANALYSIS; a lag outside 40..120 or a gain code above 3 addresses nothing (log 17). -/
def execLtpanalysis (j : BitVec 2) (s : State) : Result :=
  runStep (lagOk (sub4 s.work.Nc j) && indexOk (sub4 s.work.bc j) 4) (stepLtpanalysis j) s

/-- A history moved by 40 samples, the new ones last (R204, R205). -/
def shiftHistory (h : Vector Word16 120) (new : Vector Word16 40) : Vector Word16 120 :=
  Vector.ofFn fun i : Fin 120 => if i.val < 80 then elt h (i.val + 40) else elt new (i.val - 80)

/-- Step DPUPDATE (R204). -/
def stepDpupdate (s : State) : State :=
  s.onEnc fun e =>
    { e with dp := shiftHistory e.dp (Vector.ofFn fun k : Fin 40 => add s.work.ep[k] s.work.dpp[k]) }

/-- Meaning of STEP.DPUPDATE. -/
def execDpupdate (s : State) : Result := runStep true stepDpupdate s

/-- The lag after the sanity test: `nrp` where `Ncr` is outside 40..120 (R205). -/
def saneLag (Ncr nrp : Word16) : Word16 := if Ncr.toInt < 40 ∨ Ncr.toInt > 120 then nrp else Ncr

/-- `wt` with the 40 samples of sub-segment j replaced (R205). -/
def placeSegment (wt : Vector Word16 160) (j : BitVec 2) (new : Vector Word16 40) : Vector Word16 160 :=
  Vector.ofFn fun i : Fin 160 => if i.val / 40 = j.toNat then elt new (i.val % 40) else wt[i]

/-- Step LTPSYNTH in sub-segment j (R205). -/
def stepLtpsynth (j : BitVec 2) (s : State) : State :=
  let Nr := saneLag (sub4 s.work.Nc j) s.dec.nrp
  let brp := entry tblQLB (sub4 s.work.bc j)
  let pred := Vector.ofFn fun k : Fin 40 => prediction (sub4 s.work.bc j) Nr s.dec.drp k.val
  let new := Vector.ofFn fun k : Fin 40 => add s.work.erp[k] pred[k]
  { s with
    dec := { s.dec with nrp := Nr, drp := shiftHistory s.dec.drp new }
    work := { s.work with
      Nr := Nr, brp := brp, drpp := pred[39], drp := new, wt := placeSegment s.work.wt j new } }

/-- Meaning of STEP.LTPSYNTH; a lag that stays outside 40..120 or a gain code above 3 addresses nothing (log 17). -/
def execLtpsynth (j : BitVec 2) (s : State) : Result :=
  runStep (lagOk (saneLag (sub4 s.work.Nc j) s.dec.nrp) && indexOk (sub4 s.work.bc j) 4) (stepLtpsynth j) s

end Sys2Proof.Machine
end

