-- ==== Sys2Proof/Machine/Rpe.lean ====
section
/-! DEFINITION. Regular-pulse excitation (46_rpe.md): the RPE_encoder and the RPE_decoder. -/

namespace Sys2Proof.Machine

open Sys2Proof

/-- The eleven-tap sum at sample k from the rounding constant on, before the doublings (R210). -/
def weightSum (wt : Vector Word16 50) (k : Nat) : Word32 := macSum 8192 (((wt.toList.drop k).take 11).zip tblH.toList)

/-- The sum doubled twice with saturation (R210). -/
def weightScaled (wt : Vector Word16 50) (k : Nat) : Word32 :=
  let L := lAdd (weightSum wt k) (weightSum wt k)
  lAdd L L

/-- Step WEIGHT (R210). -/
def stepWeight (s : State) : State :=
  s.onWork fun w =>
    let wt := Vector.ofFn fun k : Fin 50 => if 5 ≤ k.val ∧ k.val ≤ 44 then elt w.e (k.val - 5) else 0
    { w with
      wtW := wt
      x := Vector.ofFn fun k : Fin 40 => narrow (lShr (weightScaled wt k.val) 16)
      Lresult := weightScaled wt 39
      Ltemp := lMult (elt wt 49) tblH[10] }

/-- Meaning of STEP.WEIGHT. -/
def execWeight (s : State) : Result := runStep true stepWeight s

/-- The samples of grid m: `x[m + 3i]`, i = 0..12 (R211). -/
def gridSamples (x : Vector Word16 40) (m : Nat) : Vector Word16 13 := Vector.ofFn fun i : Fin 13 => elt x (m + 3 * i.val)

/-- The energy of grid m on the samples shifted right by 2 (R211). -/
def gridEnergy (x : Vector Word16 40) (m : Nat) : Word32 :=
  let t := (gridSamples x m).toList.map (shr16 · 2)
  macSum 0 (t.zip t)

/-- The grid of largest energy, ascending and strict, with that energy (R211). Answers `Mc` and `EM`. -/
def selectGrid (x : Vector Word16 40) : Word16 × Word32 :=
  (List.range 4).foldl
    (fun best m =>
      let L := gridEnergy x m
      if L.toInt > best.2.toInt then (BitVec.ofNat 16 m, L) else best)
    (0, 0)

/-- Step GRIDSEL in sub-segment j (R211). -/
def stepGridsel (j : BitVec 2) (s : State) : State :=
  s.onWork fun w =>
    let best := selectGrid w.x
    let last := shr16 (elt w.x 39) 2
    { w with
      Mc := set4 w.Mc j best.1
      EM := best.2
      xM := gridSamples w.x best.1.toNat
      Lresult := gridEnergy w.x 3
      temp1 := last
      Ltemp := lMult last last }

/-- Meaning of STEP.GRIDSEL. -/
def execGridsel (j : BitVec 2) (s : State) : Result := runStep true (stepGridsel j) s

/-- The values of the bit-counting loop of XMAXQ (R212). -/
structure BitCount where
  exp : Word16
  temp : Word16
  itest : Word16
deriving DecidableEq, Repr

/-- One turn of the bit-counting loop (R212). -/
def bitCountTurn (c : BitCount) : BitCount :=
  let itest := if c.temp.toInt ≤ 0 then 1 else c.itest
  { exp := if itest = 0 then add c.exp 1 else c.exp, temp := shr16 c.temp 1, itest := itest }

/-- The six turns of the loop, from `xmax >> 9` (R212). -/
def countBits (xmax : Word16) : BitCount :=
  (List.range 6).foldl (fun c _ => bitCountTurn c) { exp := 0, temp := shr16 xmax 9, itest := 0 }

/-- `xmaxc` of a block maximum (R212). -/
def xmaxCode (xmax : Word16) : Word16 :=
  let exp := (countBits xmax).exp
  add (shr16 xmax (add exp 5)) (shl16 exp 3)

/-- Step XMAXQ in sub-segment j (R212). -/
def stepXmaxq (j : BitVec 2) (s : State) : State :=
  s.onWork fun w =>
    let xmax := maxAbs w.xM.toList
    let c := countBits xmax
    { w with
      xmax := xmax, exp := c.exp, itest := c.itest, temp := add c.exp 5
      xmaxc := set4 w.xmaxc j (xmaxCode xmax) }

/-- Meaning of STEP.XMAXQ. -/
def execXmaxq (j : BitVec 2) (s : State) : Result := runStep true (stepXmaxq j) s

/-- The normalisation of EXPMANT: at most the given number of doublings while `mant` ≤ 7 (R213). Answers `exp`, `mant`. -/
def normalizeMant : Nat → Word16 × Word16 → Word16 × Word16
  | 0, p => p
  | more + 1, (exp, mant) =>
    if mant.toInt ≤ 7 then normalizeMant more (sub exp 1, add (shl16 mant 1) 1) else (exp, mant)

/-- `exp` and `mant` of a code (R213). -/
def expMant (xmaxc : Word16) : Word16 × Word16 :=
  let exp := if xmaxc.toInt > 15 then sub (shr16 xmaxc 3) 1 else 0
  let mant := sub xmaxc (shl16 exp 3)
  let p := if mant.toInt = 0 then (-4, 15) else normalizeMant 3 (exp, mant)
  (p.1, sub p.2 8)

/-- Step EXPMANT in sub-segment j (R213). -/
def stepExpmant (j : BitVec 2) (s : State) : State :=
  s.onWork fun w => { w with exp := (expMant (sub4 w.xmaxc j)).1, mant := (expMant (sub4 w.xmaxc j)).2 }

/-- Meaning of STEP.EXPMANT. -/
def execExpmant (j : BitVec 2) (s : State) : Result := runStep true (stepExpmant j) s

/-- `temp` of APCMQ before its last shift (R214). -/
def pulseScaled (exp mant x : Word16) : Word16 := mult (shl16 x (sub 6 exp)) (entry tblNRFAC mant)

/-- The code of one pulse (R214). -/
def pulseCode (exp mant x : Word16) : Word16 := add (shr16 (pulseScaled exp mant x) 12) 4

/-- Step APCMQ in sub-segment j (R214). -/
def stepApcmq (j : BitVec 2) (s : State) : State :=
  s.onWork fun w =>
    { w with
      temp1 := sub 6 w.exp
      temp2 := entry tblNRFAC w.mant
      temp := pulseScaled w.exp w.mant w.xM[12]
      xMc := set4 w.xMc j (Vector.ofFn fun i : Fin 13 => pulseCode w.exp w.mant w.xM[i]) }

/-- Meaning of STEP.APCMQ; a `mant` above 7 addresses no entry of `NRFAC` (log 17). -/
def execApcmq (j : BitVec 2) (s : State) : Result := runStep (indexOk s.work.mant 8) (stepApcmq j) s

/-- `temp3` of APCMINV, the rounding constant (R215). -/
def inverseRounding (exp : Word16) : Word16 := shl16 1 (sub (sub 6 exp) 1)

/-- `temp` of APCMINV before its last shift (R215). -/
def pulseSum (exp mant code : Word16) : Word16 :=
  add (multR (entry tblFAC mant) (shl16 (sub (shl16 code 1) 7) 12)) (inverseRounding exp)

/-- The decoded value of one pulse (R215). -/
def pulseValue (exp mant code : Word16) : Word16 := shr16 (pulseSum exp mant code) (sub 6 exp)

/-- Step APCMINV in sub-segment j (R215). -/
def stepApcminv (j : BitVec 2) (s : State) : State :=
  s.onWork fun w =>
    { w with
      temp1 := entry tblFAC w.mant
      temp2 := sub 6 w.exp
      temp3 := inverseRounding w.exp
      temp := pulseSum w.exp w.mant (sub4 w.xMc j)[12]
      xMp := Vector.ofFn fun i : Fin 13 => pulseValue w.exp w.mant (sub4 w.xMc j)[i] }

/-- Meaning of STEP.APCMINV; a `mant` above 7 addresses no entry of `FAC` (log 17). -/
def execApcminv (j : BitVec 2) (s : State) : Result := runStep (indexOk s.work.mant 8) (stepApcminv j) s

/-- The 40 samples with pulse i at position `Mc + 3i` and 0 elsewhere (R218). -/
def positionPulses (Mc : Nat) (xMp : Vector Word16 13) : Vector Word16 40 :=
  Vector.ofFn fun k : Fin 40 =>
    if Mc ≤ k.val ∧ (k.val - Mc) % 3 = 0 ∧ (k.val - Mc) / 3 < 13 then elt xMp ((k.val - Mc) / 3) else 0

/-- Step GRIDPOS in sub-segment j: `ep` in the encoder, `erp` in the decoder (R218). -/
def stepGridpos (side : Side) (j : BitVec 2) (s : State) : State :=
  s.onWork fun w =>
    let out := positionPulses (sub4 w.Mc j).toNat w.xMp
    match side with
    | .enc => { w with ep := out }
    | .dec => { w with erp := out }

/-- Meaning of STEP.GRIDPOS; a grid above 3 addresses samples past 39 (log 17). -/
def execGridpos (side : Side) (j : BitVec 2) (s : State) : Result :=
  runStep (indexOk (sub4 s.work.Mc j) 4) (stepGridpos side j) s

/-- The composite INVAPCM: EXPMANT, APCMINV, GRIDPOS in that order (R219). -/
def stepInvapcm (side : Side) (j : BitVec 2) (s : State) : State :=
  stepGridpos side j (stepApcminv j (stepExpmant j s))

/-- Meaning of STEP.INVAPCM; it addresses what its parts address (log 17). -/
def execInvapcm (side : Side) (j : BitVec 2) (s : State) : Result :=
  runStep (indexOk (expMant (sub4 s.work.xmaxc j)).2 8 && indexOk (sub4 s.work.Mc j) 4) (stepInvapcm side j) s

end Sys2Proof.Machine
end

