-- ==== Sys2Proof/Machine/ShortTerm.lean ====
section
/-! DEFINITION. The short-term filters (44_short_term_filters.md): analysis lattice, synthesis lattice, de-emphasis and
output scaling. -/

namespace Sys2Proof.Machine

open Sys2Proof

/-- The values the analysis lattice carries from stage to stage of one sample (R190). -/
structure AnalysisLattice where
  u : Vector Word16 8
  di : Word16
  sav : Word16
deriving DecidableEq, Repr

/-- Stage i + 1 of the analysis lattice: `di` and `u[i]` are read before either is changed (R190). -/
def analysisStage (rp : Vector Word16 8) (a : AnalysisLattice) (i : Fin 8) : AnalysisLattice :=
  { u := a.u.set i a.sav
    di := add a.di (multR rp[i] a.u[i])
    sav := add a.u[i] (multR rp[i] a.di) }

/-- The eight stages on one sample (R190). -/
def analysisSample (rp u : Vector Word16 8) (x : Word16) : AnalysisLattice :=
  (List.finRange 8).foldl (analysisStage rp) { u := u, di := x, sav := x }

/-- Step STANALYSIS on one sample k (R190). -/
def stanalysisSample (s : State) (k : Fin 160) : State :=
  let a := analysisSample (sub4 s.work.rrp (k2zone k.val)) s.enc.u s.work.s[k]
  { s with
    enc := { s.enc with u := a.u }
    work := { s.work with
      d := s.work.d.set k a.di, di := a.di, sav := a.sav, temp := a.sav, zone := k2zone k.val } }

/-- Step STANALYSIS: the samples in ascending order (R190). -/
def stepStanalysis (s : State) : State := (List.finRange 160).foldl stanalysisSample s

/-- Meaning of STEP.STANALYSIS. -/
def execStanalysis (s : State) : Result := runStep true stepStanalysis s

/-- One stage of the synthesis lattice with coefficient c + 1: `sri` first, then `v[c+1]` from the new `sri` (R191). -/
def synthesisStage (rp : Vector Word16 8) (p : Word16 × Vector Word16 9) (c : Fin 8) : Word16 × Vector Word16 9 :=
  let sri := sub p.1 (multR rp[c] (elt p.2 c.val))
  (sri, p.2.setIfInBounds (c.val + 1) (add (elt p.2 c.val) (multR rp[c] sri)))

/-- The eight stages on one sample, coefficient 8 down to 1, then `v[0]` (R191). -/
def synthesisSample (rp : Vector Word16 8) (v : Vector Word16 9) (x : Word16) : Word16 × Vector Word16 9 :=
  let p := (List.finRange 8).reverse.foldl (synthesisStage rp) (x, v)
  (p.1, p.2.set 0 p.1)

/-- Step STSYNTH on sample k (R191). -/
def stepStsynth (k : Nat) (s : State) : State :=
  let p := synthesisSample (sub4 s.work.rrp (k2zone k)) s.dec.v (elt s.work.wt k)
  { s with
    dec := { s.dec with v := p.2 }
    work := { s.work with sri := p.1, zone := k2zone k } }

/-- Meaning of STEP.STSYNTH. -/
def execStsynth (k : BitVec 8) (s : State) : Result := runStep (sampleOk k) (stepStsynth k.toNat) s

/-- Step DEEMPH (R192). -/
def stepDeemph (s : State) : State :=
  s.onDec fun d => { d with msr := add s.work.sri (multR d.msr 28180) }

/-- Meaning of STEP.DEEMPH. -/
def execDeemph (s : State) : Result := runStep true stepDeemph s

/-- Step UPSCALE on sample k (R193). -/
def stepUpscale (k : Nat) (s : State) : State :=
  s.writeWord .pcmOut k (add s.dec.msr s.dec.msr &&& 0xFFF8)

/-- Meaning of STEP.UPSCALE. -/
def execUpscale (k : BitVec 8) (s : State) : Result := runStep (sampleOk k) (stepUpscale k.toNat) s

end Sys2Proof.Machine
end

