-- ==== Sys2Proof/Machine/Top.lean ====
section
/-! DEFINITION. The top-level commands (47_top_operations.md): NOP, the resets, ENCODE and DECODE as the compositions of
their steps, and the steps that belong to no sub-block. -/

namespace Sys2Proof.Machine

open Sys2Proof

/-- `NOP`: nothing but R230's `done <- 1` (R231). -/
def execNop (s : State) : Result := runCommand id s

/-- `RESET` (R232). -/
def execReset (s : State) : Result := runCommand (fun s => homePacker (homeDecoder (homeEncoder s))) s

/-- `RESET_ENC` (R233). -/
def execResetEnc (s : State) : Result := runCommand homeEncoder s

/-- `RESET_DEC` (R234). -/
def execResetDec (s : State) : Result := runCommand homeDecoder s

/-- The test of HOMEDET on the first n samples of `PCM_IN`, bits 2..0 ignored (R243, D13). -/
def allHome (s : State) : Nat → Bool
  | 0 => true
  | n + 1 => allHome s n && (s.readWord .pcmIn n &&& 0xFFF8 == 0x0008)

/-- Step HOMEDET (R243). -/
def stepHomedet (s : State) : State :=
  s.onWork fun w => { w with isHome := s.homingSupported && allHome s 160 }

/-- Meaning of STEP.HOMEDET. -/
def execHomedet (s : State) : Result := runStep true stepHomedet s

/-- Field n of the record the working codes stand for (R81, R237). -/
def recordField (w : Work) (n : Nat) : Word16 :=
  if n < 8 then elt w.larc n
  else
    let j : BitVec 2 := BitVec.ofNat 2 ((n - 8) / 17)
    match (n - 8) % 17 with
    | 0 => sub4 w.Nc j
    | 1 => sub4 w.bc j
    | 2 => sub4 w.Mc j
    | 3 => sub4 w.xmaxc j
    | m + 4 => elt (sub4 w.xMc j) m

/-- The record the working codes stand for, in record order (R81). -/
def recordOf (w : Work) : List Word16 := (List.range 76).map (recordField w)

/-- The working codes set from a record in record order (R81, R240). -/
def loadRecord (f : List Word16) (w : Work) : Work :=
  let at_ (n : Nat) : Word16 := f.getD n 0
  { w with
    larc := Vector.ofFn fun i : Fin 8 => at_ i.val
    Nc := Vector.ofFn fun j : Fin 4 => at_ (subBase j.val)
    bc := Vector.ofFn fun j : Fin 4 => at_ (subBase j.val + 1)
    Mc := Vector.ofFn fun j : Fin 4 => at_ (subBase j.val + 2)
    xmaxc := Vector.ofFn fun j : Fin 4 => at_ (subBase j.val + 3)
    xMc := Vector.ofFn fun j : Fin 4 => Vector.ofFn fun i : Fin 13 => at_ (subBase j.val + 4 + i.val) }

/-- Step EMIT: the only write ENCODE makes to a buffer (R237). -/
def stepEmit (s : State) : State := s.writeWords .prmE 0 (recordOf s.work)

/-- Meaning of STEP.EMIT. -/
def execEmit (s : State) : Result := runStep true stepEmit s

/-- Step LARROT, encoder copy (R238). -/
def stepLarrot (s : State) : State := s.onEnc fun e => { e with larppLast := s.work.larpp }

/-- Meaning of STEP.LARROT. -/
def execLarrot (s : State) : Result := runStep true stepLarrot s

/-- Step LARROT, decoder copy (R242). -/
def stepLarrotDec (s : State) : State := s.onDec fun d => { d with larppLast := s.work.larpp }

/-- Meaning of STEP.LARROT.dec. -/
def execLarrotDec (s : State) : Result := runStep true stepLarrotDec s

/-- Part (a) of HOMEAPPLY: after a homing frame the record becomes `HOMING_OUTPUT` (R244). -/
def overwriteRecord (s : State) : State :=
  if s.enc.lastFrameHome then s.onWork (loadRecord tblHOMING) else s

/-- Part (b) of HOMEAPPLY: the self-reset on a homing frame (R244). -/
def homeIfHoming (s : State) : State := if s.work.isHome then selfReset s else s

/-- Part (c) of HOMEAPPLY: `last_frame_home <- is_home` (R244). -/
def noteHoming (s : State) : State := s.onEnc fun e => { e with lastFrameHome := s.work.isHome }

/-- Step HOMEAPPLY (R244): nothing where the strap is 0. -/
def stepHomeapply (s : State) : State :=
  if s.homingSupported then noteHoming (homeIfHoming (overwriteRecord s)) else s

/-- Meaning of STEP.HOMEAPPLY. -/
def execHomeapply (s : State) : Result := runStep true stepHomeapply s

/-- The fields of `PRM_D`, each masked to its width (R240). -/
def maskedRecord (s : State) : List Word16 := List.zipWith maskField tblWIDTH (s.readWords .prmD 76)

/-- Step PRMMASK (R240). -/
def stepPrmmask (s : State) : State := s.onWork (loadRecord (maskedRecord s))

/-- Meaning of STEP.PRMMASK. -/
def execPrmmask (s : State) : Result := runStep true stepPrmmask s

/-- The pre-processing of sample k: DOWNSCALE, OFFSETCOMP, PREEMPH (R235 step 2). -/
def preprocessSample (s : State) (k : Nat) : State := stepPreemph k (stepOffsetcomp (stepDownscale k s))

/-- Encoder sub-segment j (R236). -/
def encodeSegment (s : State) (j : BitVec 2) : State :=
  stepDpupdate (stepGridpos .enc j (stepApcminv j (stepApcmq j (stepExpmant j (stepXmaxq j (stepGridsel j
    (stepWeight (stepLtpanalysis j (stepLtpsearch j s)))))))))

/-- Steps 1 to 8 of ENCODE, from HOMEDET to STANALYSIS (R235). -/
def encodeAnalysis (s : State) : State :=
  stepStanalysis (stepDecoderefl .enc (stepLarq (stepR2lar (stepSchur (stepAutocorr
    ((List.range 160).foldl preprocessSample (stepHomedet s)))))))

/-- Steps 10 to 12 of ENCODE: LARROT, HOMEAPPLY, EMIT (R235). -/
def encodeFinish (s : State) : State := stepEmit (stepHomeapply (stepLarrot s))

/-- The twelve steps of ENCODE (R235). -/
def encodeSteps (s : State) : State := encodeFinish (quarters.foldl encodeSegment (encodeAnalysis s))

/-- `ENCODE` (R235). -/
def execEncode (s : State) : Result := runCommand (fun s => dropWork (encodeSteps s)) s

/-- Decoder sub-segment j (R241). -/
def decodeSegment (s : State) (j : BitVec 2) : State :=
  stepLtpsynth j (stepGridpos .dec j (stepApcminv j (stepExpmant j s)))

/-- The synthesis of sample k: STSYNTH, DEEMPH, UPSCALE (R194). -/
def synthesizeSample (s : State) (k : Nat) : State := stepUpscale k (stepDeemph (stepStsynth k s))

/-- The five steps of DECODE (R239). -/
def decodeSteps (s : State) : State :=
  stepLarrotDec ((List.range 160).foldl synthesizeSample
    (stepDecoderefl .dec (quarters.foldl decodeSegment (stepPrmmask s))))

/-- `DECODE` (R239). `nrp` is always in 40..120 (R29); from a state no run reaches, where it is not, the history element it
would address does not exist (log 17). -/
def execDecode (s : State) : Result :=
  if lagOk s.dec.nrp then runCommand (fun s => dropWork (decodeSteps s)) s else .fault .noSuchElement

end Sys2Proof.Machine
end

