-- ==== Sys2Proof/Machine/Dispatch.lean ====
section
/-! DEFINITION. One arm per instruction, each one call of its meaning. -/

namespace Sys2Proof.Machine

open Sys2Proof

/-- The meaning of every instruction. -/
def exec (i : Instr) (s : State) : Host.Outcome State Fault Refusal :=
  match i with
  | .nop => Sys2Proof.Machine.execNop s
  | .reset => Sys2Proof.Machine.execReset s
  | .resetEnc => Sys2Proof.Machine.execResetEnc s
  | .resetDec => Sys2Proof.Machine.execResetDec s
  | .encode => Sys2Proof.Machine.execEncode s
  | .decode => Sys2Proof.Machine.execDecode s
  | .pack => Sys2Proof.Machine.execPack s
  | .unpack => Sys2Proof.Machine.execUnpack s
  | .isvalid => Sys2Proof.Machine.execIsvalid s
  | .prmeq => Sys2Proof.Machine.execPrmeq s
  | .pack1 n val => Sys2Proof.Machine.execPack1 n val s
  | .unpack1 n => Sys2Proof.Machine.execUnpack1 n s
  | .currst sel => Sys2Proof.Machine.execCurrst sel s
  | .aluAdd a b => Sys2Proof.Machine.execAluAdd a b s
  | .aluSub a b => Sys2Proof.Machine.execAluSub a b s
  | .aluMult a b => Sys2Proof.Machine.execAluMult a b s
  | .aluMultR a b => Sys2Proof.Machine.execAluMultR a b s
  | .aluAbs a => Sys2Proof.Machine.execAluAbs a s
  | .aluDiv a b => Sys2Proof.Machine.execAluDiv a b s
  | .aluLAdd a b => Sys2Proof.Machine.execAluLAdd a b s
  | .aluLSub a b => Sys2Proof.Machine.execAluLSub a b s
  | .aluLMult a b => Sys2Proof.Machine.execAluLMult a b s
  | .aluNorm a => Sys2Proof.Machine.execAluNorm a s
  | .aluShl16 a b => Sys2Proof.Machine.execAluShl16 a b s
  | .aluShr16 a b => Sys2Proof.Machine.execAluShr16 a b s
  | .aluLShl a b => Sys2Proof.Machine.execAluLShl a b s
  | .aluLShr a b => Sys2Proof.Machine.execAluLShr a b s
  | .homedet => Sys2Proof.Machine.execHomedet s
  | .downscale k => Sys2Proof.Machine.execDownscale k s
  | .offsetcomp => Sys2Proof.Machine.execOffsetcomp s
  | .preemph k => Sys2Proof.Machine.execPreemph k s
  | .autocorr => Sys2Proof.Machine.execAutocorr s
  | .schur => Sys2Proof.Machine.execSchur s
  | .r2lar => Sys2Proof.Machine.execR2lar s
  | .larq => Sys2Proof.Machine.execLarq s
  | .lardec => Sys2Proof.Machine.execLardec s
  | .larinterp side zone => Sys2Proof.Machine.execLarinterp side zone s
  | .lar2rp zone => Sys2Proof.Machine.execLar2rp zone s
  | .stanalysis => Sys2Proof.Machine.execStanalysis s
  | .ltpsearch j => Sys2Proof.Machine.execLtpsearch j s
  | .ltpanalysis j => Sys2Proof.Machine.execLtpanalysis j s
  | .weight => Sys2Proof.Machine.execWeight s
  | .gridsel j => Sys2Proof.Machine.execGridsel j s
  | .xmaxq j => Sys2Proof.Machine.execXmaxq j s
  | .expmant j => Sys2Proof.Machine.execExpmant j s
  | .apcmq j => Sys2Proof.Machine.execApcmq j s
  | .apcminv j => Sys2Proof.Machine.execApcminv j s
  | .gridpos side j => Sys2Proof.Machine.execGridpos side j s
  | .dpupdate => Sys2Proof.Machine.execDpupdate s
  | .emit => Sys2Proof.Machine.execEmit s
  | .larrot => Sys2Proof.Machine.execLarrot s
  | .larrotDec => Sys2Proof.Machine.execLarrotDec s
  | .homeapply => Sys2Proof.Machine.execHomeapply s
  | .prmmask => Sys2Proof.Machine.execPrmmask s
  | .ltpsynth j => Sys2Proof.Machine.execLtpsynth j s
  | .stsynth k => Sys2Proof.Machine.execStsynth k s
  | .deemph => Sys2Proof.Machine.execDeemph s
  | .upscale k => Sys2Proof.Machine.execUpscale k s
  | .k2zone k => Sys2Proof.Machine.execK2zone k s
  | .decoderefl side => Sys2Proof.Machine.execDecoderefl side s
  | .invapcm side j => Sys2Proof.Machine.execInvapcm side j s

end Sys2Proof.Machine
end

