-- ==== Sys2Proof/Decode.lean ====
section
/-! DEFINITION. The decoder, total on every request, rejecting reserved encodings by name (R89), and the encoder, both
written from the tables of 30_encoding.md R86, R87, R88. -/

namespace Sys2Proof

/-- `CW[15:12]`, the opcode (R86). -/
def cwOpcode (cw : BitVec 16) : BitVec 4 := cw.extractLsb' 12 4

/-- `CW[11:8]`, the operand `n` (R86). -/
def cwN (cw : BitVec 16) : BitVec 4 := cw.extractLsb' 8 4

/-- `CW[7:0]`, the operand `val` (R86). -/
def cwVal (cw : BitVec 16) : Octet := cw.extractLsb' 0 8

/-- A command without operands: its twelve operand bits must be 0 (R86). -/
def plainCommand (cw : BitVec 16) (i : Instr) : Except Reserved Instr :=
  if cw.extractLsb' 0 12 = 0 then .ok i else .error .unusedOperand

/-- `PACK1`: match `0xA000`, mask `0xF000`, `n` in 1..8 (R86, R140). -/
def decodePack1 (cw : BitVec 16) : Except Reserved Instr :=
  if bitCountOk (cwN cw) then .ok (.pack1 (cwN cw) (cwVal cw)) else .error .bitCount

/-- `UNPACK1`: match `0xB000`, mask `0xF0FF`, `n` in 1..8 (R86, R141). -/
def decodeUnpack1 (cw : BitVec 16) : Except Reserved Instr :=
  if cwVal cw ≠ 0 then .error .unusedOperand
  else if bitCountOk (cwN cw) then .ok (.unpack1 (cwN cw))
  else .error .bitCount

/-- `CURRST`: match `0xC000`, mask `0xFEFF`, `sel` = `CW[8]` (R86, R142). -/
def decodeCurrst (cw : BitVec 16) : Except Reserved Instr :=
  if cw &&& 0xFEFF = 0xC000 then .ok (.currst (if cw.getLsbD 8 then .rx else .tx)) else .error .unusedOperand

/-- The command words (R86). -/
def decodeCmd (cw : BitVec 16) : Except Reserved Instr :=
  match (cwOpcode cw).toNat with
  | 0 => plainCommand cw .nop
  | 1 => plainCommand cw .reset
  | 2 => plainCommand cw .resetEnc
  | 3 => plainCommand cw .resetDec
  | 4 => plainCommand cw .encode
  | 5 => plainCommand cw .decode
  | 6 => plainCommand cw .pack
  | 7 => plainCommand cw .unpack
  | 8 => plainCommand cw .isvalid
  | 9 => plainCommand cw .prmeq
  | 10 => decodePack1 cw
  | 11 => decodeUnpack1 cw
  | 12 => decodeCurrst cw
  | _ => .error .opcode

/-- The operations of the ALU test port (R87); `ABS` and `NORM` ignore `alu_b`. -/
def decodeAlu (op : BitVec 4) (a b : Word32) : Except Reserved Instr :=
  match op.toNat with
  | 0 => .ok (.aluAdd a b)
  | 1 => .ok (.aluSub a b)
  | 2 => .ok (.aluMult a b)
  | 3 => .ok (.aluMultR a b)
  | 4 => .ok (.aluAbs a)
  | 5 => .ok (.aluDiv a b)
  | 6 => .ok (.aluLAdd a b)
  | 7 => .ok (.aluLSub a b)
  | 8 => .ok (.aluLMult a b)
  | 9 => .ok (.aluNorm a)
  | 10 => .ok (.aluShl16 a b)
  | 11 => .ok (.aluShr16 a b)
  | 12 => .ok (.aluLShl a b)
  | 13 => .ok (.aluLShr a b)
  | _ => .error .aluOp

/-- A step on one sample: its index must be in 0..159 (log 3). -/
def sampleStep (k : BitVec 8) (i : Instr) : Except Reserved Instr :=
  if sampleOk k then .ok i else .error .sample

/-- The step identities (R88). `0x17` names both copies of `LARROT`; the running side tells them apart (R238, R242). -/
def decodeStep (id : BitVec 6) (o : StepOperands) : Except Reserved Instr :=
  match id.toNat with
  | 0 => .ok .homedet
  | 1 => sampleStep o.k (.downscale o.k)
  | 2 => .ok .offsetcomp
  | 3 => sampleStep o.k (.preemph o.k)
  | 4 => .ok .autocorr
  | 5 => .ok .schur
  | 6 => .ok .r2lar
  | 7 => .ok .larq
  | 8 => .ok .lardec
  | 9 => .ok (.larinterp o.side o.zone)
  | 10 => .ok (.lar2rp o.zone)
  | 11 => .ok .stanalysis
  | 12 => .ok (.ltpsearch o.j)
  | 13 => .ok (.ltpanalysis o.j)
  | 14 => .ok .weight
  | 15 => .ok (.gridsel o.j)
  | 16 => .ok (.xmaxq o.j)
  | 17 => .ok (.expmant o.j)
  | 18 => .ok (.apcmq o.j)
  | 19 => .ok (.apcminv o.j)
  | 20 => .ok (.gridpos o.side o.j)
  | 21 => .ok .dpupdate
  | 22 => .ok .emit
  | 23 => .ok (match o.side with | .enc => .larrot | .dec => .larrotDec)
  | 24 => .ok .homeapply
  | 25 => .ok .prmmask
  | 26 => .ok (.ltpsynth o.j)
  | 27 => sampleStep o.k (.stsynth o.k)
  | 28 => .ok .deemph
  | 29 => sampleStep o.k (.upscale o.k)
  | 30 => sampleStep o.k (.k2zone o.k)
  | 31 => .ok (.decoderefl o.side)
  | 32 => .ok (.invapcm o.side o.j)
  | _ => .error .stepId

/-- The decoder: a request to the instruction it stands for, or the reason it is reserved (R89). -/
def decode : Request → Except Reserved Instr
  | .cmd cw => decodeCmd cw
  | .alu op a b => decodeAlu op a b
  | .step id ops => decodeStep id ops

/-- The command word with the given opcode and operands (R86). -/
def cmdWord (opcode n : BitVec 4) (val : Octet) : Request := .cmd (opcode ++ n ++ val)

/-- The encoder: the request that presents an instruction, unused operands 0 (R86, R87, R88). -/
def encode : Instr → Request
  | .nop => cmdWord 0x0 0 0
  | .reset => cmdWord 0x1 0 0
  | .resetEnc => cmdWord 0x2 0 0
  | .resetDec => cmdWord 0x3 0 0
  | .encode => cmdWord 0x4 0 0
  | .decode => cmdWord 0x5 0 0
  | .pack => cmdWord 0x6 0 0
  | .unpack => cmdWord 0x7 0 0
  | .isvalid => cmdWord 0x8 0 0
  | .prmeq => cmdWord 0x9 0 0
  | .pack1 n val => cmdWord 0xA n val
  | .unpack1 n => cmdWord 0xB n 0
  | .currst .tx => cmdWord 0xC 0 0
  | .currst .rx => cmdWord 0xC 1 0
  | .aluAdd a b => .alu 0x0 a b
  | .aluSub a b => .alu 0x1 a b
  | .aluMult a b => .alu 0x2 a b
  | .aluMultR a b => .alu 0x3 a b
  | .aluAbs a => .alu 0x4 a 0
  | .aluDiv a b => .alu 0x5 a b
  | .aluLAdd a b => .alu 0x6 a b
  | .aluLSub a b => .alu 0x7 a b
  | .aluLMult a b => .alu 0x8 a b
  | .aluNorm a => .alu 0x9 a 0
  | .aluShl16 a b => .alu 0xA a b
  | .aluShr16 a b => .alu 0xB a b
  | .aluLShl a b => .alu 0xC a b
  | .aluLShr a b => .alu 0xD a b
  | .homedet => .step 0x00 {}
  | .downscale k => .step 0x01 { k := k }
  | .offsetcomp => .step 0x02 {}
  | .preemph k => .step 0x03 { k := k }
  | .autocorr => .step 0x04 {}
  | .schur => .step 0x05 {}
  | .r2lar => .step 0x06 {}
  | .larq => .step 0x07 {}
  | .lardec => .step 0x08 {}
  | .larinterp side zone => .step 0x09 { side := side, zone := zone }
  | .lar2rp zone => .step 0x0A { zone := zone }
  | .stanalysis => .step 0x0B {}
  | .ltpsearch j => .step 0x0C { j := j }
  | .ltpanalysis j => .step 0x0D { j := j }
  | .weight => .step 0x0E {}
  | .gridsel j => .step 0x0F { j := j }
  | .xmaxq j => .step 0x10 { j := j }
  | .expmant j => .step 0x11 { j := j }
  | .apcmq j => .step 0x12 { j := j }
  | .apcminv j => .step 0x13 { j := j }
  | .gridpos side j => .step 0x14 { side := side, j := j }
  | .dpupdate => .step 0x15 {}
  | .emit => .step 0x16 {}
  | .larrot => .step 0x17 {}
  | .larrotDec => .step 0x17 { side := .dec }
  | .homeapply => .step 0x18 {}
  | .prmmask => .step 0x19 {}
  | .ltpsynth j => .step 0x1A { j := j }
  | .stsynth k => .step 0x1B { k := k }
  | .deemph => .step 0x1C {}
  | .upscale k => .step 0x1D { k := k }
  | .k2zone k => .step 0x1E { k := k }
  | .decoderefl side => .step 0x1F { side := side }
  | .invapcm side j => .step 0x20 { side := side, j := j }

/-- The request that an entry of spec/opcode_table.json stands for: 16 bits are a command word, 4 an `alu_op`, 6 a step
identity. In a whole octet the codes 0..13 are read as `alu_op`, since a step identity is visible at no port (R88), and 14
to 63 as step identities (log 2). Every operand is 0. -/
def tableRequest (nbits w : Nat) : Option Request :=
  match nbits with
  | 16 => if w < 65536 then some (.cmd (BitVec.ofNat 16 w)) else none
  | 8 =>
    if w < 14 then some (.alu (BitVec.ofNat 4 w) 0 0)
    else if w < 64 then some (.step (BitVec.ofNat 6 w) {})
    else none
  | 6 => if w < 64 then some (.step (BitVec.ofNat 6 w) {}) else none
  | 4 => if w < 16 then some (.alu (BitVec.ofNat 4 w) 0 0) else none
  | _ => none

/-- The instruction the decoder reads from a word of spec/opcode_table.json. -/
def decodeTableWord (nbits w : Nat) : Option Instr :=
  match tableRequest nbits w with
  | none => none
  | some r =>
    match decode r with
    | .ok i => some i
    | .error _ => none

end Sys2Proof
end

