-- ==== Sys2Proof/Machine/Host.lean ====
section
/-! DEFINITION. What the host's actions do other than run an instruction (R46, R61, R291), and how a request is fetched. -/

namespace Sys2Proof.Machine

open Sys2Proof

/-- Whether the host may not act now: `busy` = 1 (R61, R230, R297). A step identity is no host action (R88). -/
def barred (s : State) : Request → Bool
  | .cmd _ => s.flags.busy
  | .alu _ _ _ => s.flags.busy
  | .step _ _ => false

/-- A request that is no instruction. A reserved `alu_op` shows any value on `alu_y` and changes nothing else (R89, U14;
log 30); a reserved command word, or an unused step identity, is refused by name (R89, U6, U7; log 15). -/
def runReserved (r : Request) (why : Reserved) (s : State) : Result :=
  match r with
  | .alu op a b => showAlu (Config.aluReserved op a b) s
  | .cmd _ => .refused (.reserved why)
  | .step _ _ => .refused (.reserved why)

/-- The host writes a 16-bit buffer element (R61). -/
def hostWriteWord (b : WordBuf) (i : Nat) (v : Word16) (s : State) : Result :=
  if s.flags.busy then .refused .hostWhileBusy
  else if i < b.len then .next (s.writeWord b i v)
  else .fault .noSuchElement

/-- The host writes an octet of a frame buffer (R61). -/
def hostWriteOctet (b : OctetBuf) (i : Nat) (v : Octet) (s : State) : Result :=
  if s.flags.busy then .refused .hostWhileBusy
  else if i < b.len then .next (s.writeOctet b i v)
  else .fault .noSuchElement

/-- The host sets the strap `HOMING_SUPPORTED` (R27, D14). -/
def setStrap (homing : Bool) (s : State) : Result := .next { s with homingSupported := homing }

/-- The next action of the host, and the state with that action taken from the list (log 1). -/
def takeInput (s : State) : Option (Input × State) :=
  match s.inputs with
  | [] => none
  | a :: rest => some (a, { s with inputs := rest })

/-- Present a request next, before every action that waits (log 1). -/
def presentRequest (r : Request) (s : State) : State := { s with inputs := .req r :: s.inputs }

/-- Present the request of a word of spec/opcode_table.json next; a word that is none of its formats changes nothing. -/
def presentTableWord (s : State) (nbits w : Nat) : State :=
  match tableRequest nbits w with
  | some r => presentRequest r s
  | none => s

end Sys2Proof.Machine
end

