-- ==== Sys2Proof/Machine/Step.lean ====
section
/-! DEFINITION. One step of the machine: the host's next action (R46, R68). -/

namespace Sys2Proof.Machine

open Sys2Proof

/-- Run a request: refused while the host may not act, else its meaning, or what a reserved request does (R89). -/
def runRequest (r : Request) (s : State) : Host.Outcome State Fault Refusal :=
  if barred s r then .refused .hostWhileBusy
  else
    match decode r with
    | .ok i => exec i s
    | .error why => runReserved r why s

/-- Run one action of the host. -/
def runInput (a : Input) (s : State) : Host.Outcome State Fault Refusal :=
  match a with
  | .req r => runRequest r s
  | .writeWord b i v => hostWriteWord b i v s
  | .writeOctet b i v => hostWriteOctet b i v s
  | .strap homing => setStrap homing s
  | .rst => .next (applyRst s)

/-- One step: the host's next action; with none the block holds its state (R266). -/
def step (s : State) : Host.Outcome State Fault Refusal :=
  match takeInput s with
  | none => .next s
  | some (a, s') => runInput a s'

/-- The state in which the very next step runs the instruction of a word of spec/opcode_table.json (log 1, log 2). -/
def State.withFetchWord (s : State) (nbits w : Nat) : State := presentTableWord s nbits w

end Sys2Proof.Machine
end

