-- ==== Sys2Proof/Safety.lean ====
section
/-! DEFINITION. What counts as a safe state and a safe run, and the words in which statements about the block are made:
frames, exact integer forms of the arithmetic, the stream of a frame, the layout of a record, sequences of steps. -/

namespace Sys2Proof.Safety

open Sys2Proof Sys2Proof.Machine

/-- The invariant: buffers in canonical form (R60), both cursors within 264 bits (R34, R148), `nrp` a legal lag (R29), and
`busy` = 0 between commands (R46, R230). -/
def BlockInv (s : State) : Prop :=
  s.mem.wf = true ∧ s.curTx.ok = true ∧ s.curRx.ok = true ∧ lagOk s.dec.nrp = true ∧ s.flags.busy = false

/-- A request that comes in at a port: a command or an ALU operation, no bare step (R88). -/
def PortRequest : Request → Prop
  | .cmd _ => True
  | .alu _ _ _ => True
  | .step _ _ => False

/-- A `PACK1` or `UNPACK1` ends within the 264 bits of its frame (R148, R299). -/
def CursorFits : Instr → State → Prop
  | .pack1 n _, s => s.curTx.bitsUsed + n.toNat ≤ 264
  | .unpack1 n, s => s.curRx.bitsUsed + n.toNat ≤ 264
  | _, _ => True

/-! ### Where an instruction stops -/

/-- The value is no legal lag (R5). -/
def OutsideLags (x : Word16) : Prop := x.toInt < 40 ∨ 120 < x.toInt

/-- The instruction addresses an element that does not exist exactly where P holds, and completes everywhere else. -/
def FaultsExactlyIf (P : Prop) (i : Instr) (s : State) : Prop :=
  (P → exec i s = .fault .noSuchElement) ∧ (¬ P → ∃ t, exec i s = .next t)

/-! ### Frames -/

/-- Every element of every buffer reads as before. -/
def SameMemory (s t : State) : Prop :=
  (∀ b i, t.readWord b i = s.readWord b i) ∧ ∀ b i, t.readOctet b i = s.readOctet b i

/-- Every buffer element reads as before but the first n elements of one buffer of 16-bit elements. -/
def SameMemoryButWords (b₀ : WordBuf) (n : Nat) (s t : State) : Prop :=
  (∀ b i, b ≠ b₀ ∨ n ≤ i → t.readWord b i = s.readWord b i) ∧ ∀ b i, t.readOctet b i = s.readOctet b i

/-- Every buffer element reads as before but one element of one buffer of 16-bit elements. -/
def SameMemoryButWord (b₀ : WordBuf) (k : Nat) (s t : State) : Prop :=
  (∀ b i, b ≠ b₀ ∨ i ≠ k → t.readWord b i = s.readWord b i) ∧ ∀ b i, t.readOctet b i = s.readOctet b i

/-- Every buffer element reads as before but the 33 octets of `FRM_TX`. -/
def SameMemoryButFrameTx (s t : State) : Prop :=
  (∀ b i, t.readWord b i = s.readWord b i) ∧ ∀ b i, b ≠ .frmTx ∨ 33 ≤ i → t.readOctet b i = s.readOctet b i

/-- The flags after a command that writes neither `valid` nor `eq` (R230). -/
def doneFlags (f : Flags) : Flags := { f with busy := false, done := true }

/-- The operation select op stands for the instruction i on operands a, b (R87); the port shows a value of which P holds, and
nothing else changes (R120, R126). -/
def AluShows (op : BitVec 4) (a b : Word32) (i : Instr) (s : State) (P : Int → Prop) : Prop :=
  decode (.alu op a b) = .ok i ∧
    ∃ t, exec i s = .next t ∧ t = { s with aluY := t.aluY } ∧ SameMemory s t ∧ P t.aluY.toInt

/-! ### Exact integers -/

/-- Clamp to int16 (R9). -/
def clamp16 (x : Int) : Int := max (-32768) (min x 32767)

/-- Clamp to int32 (R9). -/
def clamp32 (x : Int) : Int := max (-2147483648) (min x 2147483647)

/-- A Q15 product rounded half up (R113). -/
def round15 (x : Int) : Int := (x + 16384) / 32768

/-- The magnitude clamped to int16 (R114). -/
def mag (x : Int) : Int := if x < 0 then min (-x) 32767 else x

/-- The low 16 bits of an ALU operand read as int16 (R87). -/
def int16 (x : Word32) : Int := (x.setWidth 16).toInt

/-- The two intervals of R119. -/
def Normalised (x : Int) : Prop :=
  (-2147483648 ≤ x ∧ x ≤ -1073741824) ∨ (1073741824 ≤ x ∧ x ≤ 2147483647)

/-- A sum over 0..n-1. -/
def sumTo (n : Nat) (f : Nat → Int) : Int := ((List.range n).map f).sum

/-- Element of an array of int16 as an integer. -/
def val {w n : Nat} (v : Vector (BitVec w) n) (i : Nat) : Int := (elt v i).toInt

/-- m is the maximum of 0 and of n values. -/
def IsMax (n : Nat) (f : Nat → Int) (m : Int) : Prop :=
  0 ≤ m ∧ (∀ k, k < n → f k ≤ m) ∧ (m = 0 ∨ ∃ k, k < n ∧ f k = m)

/-! ### The home state (R42, R290) -/

/-- The encoder is at home. -/
def EncHome (e : EncState) : Prop :=
  e.z1 = 0 ∧ e.Lz2 = 0 ∧ e.mp = 0 ∧ (∀ i : Fin 8, e.larppLast[i] = 0) ∧ (∀ i : Fin 8, e.u[i] = 0) ∧
    (∀ i : Fin 120, e.dp[i] = 0) ∧ e.lastFrameHome = false

/-- The decoder is at home. -/
def DecHome (d : DecState) : Prop :=
  d.nrp = 40 ∧ (∀ i : Fin 120, d.drp[i] = 0) ∧ (∀ i : Fin 8, d.larppLast[i] = 0) ∧ (∀ i : Fin 9, d.v[i] = 0) ∧ d.msr = 0

/-! ### Records and frames -/

/-- Width of a record field (R81). -/
def fieldWidth (n : Nat) : Nat :=
  if n < 8 then [6, 6, 5, 5, 4, 4, 3, 3].getD n 0 else [7, 2, 2, 6].getD ((n - 8) % 17) 3

/-- First stream bit of a record field (R83). -/
def fieldStart (n : Nat) : Nat :=
  if n < 8 then [4, 10, 16, 21, 26, 30, 34, 37].getD n 0
  else 40 + 56 * ((n - 8) / 17) + [0, 7, 9, 11].getD ((n - 8) % 17) (17 + 3 * ((n - 8) % 17 - 4))

/-- Stream bit p of a frame: octet `p div 8`, bit position `7 - (p mod 8)` (R62). -/
def streamBit (s : State) (b : OctetBuf) (p : Nat) : Bool := (s.readOctet b (p / 8)).getLsbD (7 - p % 8)

/-- The first four stream bits are `1101` (R85). -/
def Signed (s : State) (b : OctetBuf) : Prop :=
  streamBit s b 0 = true ∧ streamBit s b 1 = true ∧ streamBit s b 2 = false ∧ streamBit s b 3 = true

/-- The field n of width `fieldWidth n` at its place in a frame holds the low bits of x, most significant first (R83, R84). -/
def FieldHolds (s : State) (b : OctetBuf) (n : Nat) (x : Word16) : Prop :=
  ∀ q, q < fieldWidth n → streamBit s b (fieldStart n + q) = x.getLsbD (fieldWidth n - 1 - q)

/-- The working codes are the fields of a record in record order (R81, R237, R240). -/
def HoldsRecord (w : Work) (f : Nat → Word16) : Prop :=
  (∀ i : Fin 8, w.larc[i] = f i.val) ∧
    ∀ j : Fin 4,
      w.Nc[j] = f (8 + 17 * j.val) ∧ w.bc[j] = f (9 + 17 * j.val) ∧ w.Mc[j] = f (10 + 17 * j.val) ∧
        w.xmaxc[j] = f (11 + 17 * j.val) ∧ ∀ i : Fin 13, w.xMc[j][i] = f (12 + 17 * j.val + i.val)

/-- Field n of `HOMING_OUTPUT` (R246; log 27). -/
def homingField (n : Nat) : Word16 :=
  if n < 8 then [9, 23, 15, 8, 7, 3, 3, 2].getD n 0
  else if n = 67 then 3
  else [40, 0, 0, 0].getD ((n - 8) % 17) 4

/-- A sample of the encoder homing frame, bits 2..0 ignored (R243). -/
def IsHomingSample (x : Word16) : Prop := x &&& 0xFFF8 = 0x0008

/-! ### Sequences of steps -/

/-- Run instructions one after another, stopping at the first that stops. -/
def runAll : List Instr → State → Result
  | [], s => .next s
  | i :: is, s =>
    match exec i s with
    | .next t => runAll is t
    | .fault r => .fault r
    | .refused r => .refused r

/-- The steps on sample k of the pre-processing (R235 step 2). -/
def preprocessProgram (k : Nat) : List Instr :=
  [.downscale (BitVec.ofNat 8 k), .offsetcomp, .preemph (BitVec.ofNat 8 k)]

/-- The steps of encoder sub-segment j (R236). -/
def encodeSegmentProgram (j : BitVec 2) : List Instr :=
  [.ltpsearch j, .ltpanalysis j, .weight, .gridsel j, .xmaxq j, .expmant j, .apcmq j, .apcminv j, .gridpos .enc j, .dpupdate]

/-- The steps of ENCODE (R235). -/
def encodeProgram : List Instr :=
  [.homedet] ++ (List.range 160).flatMap preprocessProgram ++
    [.autocorr, .schur, .r2lar, .larq, .decoderefl .enc, .stanalysis] ++
    quarters.flatMap encodeSegmentProgram ++ [.larrot, .homeapply, .emit]

/-- The steps of decoder sub-segment j (R241). -/
def decodeSegmentProgram (j : BitVec 2) : List Instr := [.expmant j, .apcminv j, .gridpos .dec j, .ltpsynth j]

/-- The steps on sample k of the synthesis (R194). -/
def synthesisProgram (k : Nat) : List Instr := [.stsynth (BitVec.ofNat 8 k), .deemph, .upscale (BitVec.ofNat 8 k)]

/-- The steps of DECODE (R239). -/
def decodeProgram : List Instr :=
  [.prmmask] ++ quarters.flatMap decodeSegmentProgram ++ [.decoderefl .dec] ++
    (List.range 160).flatMap synthesisProgram ++ [.larrotDec]

/-- The steps of DECODEREFL (R183). -/
def decodereflProgram (side : Side) : List Instr :=
  [.lardec] ++ quarters.flatMap fun zone => [.larinterp side zone, .lar2rp zone]

/-- `PACK` written out over the record that s holds in `PRM_E` (R92, R144). -/
def packProgram (s : State) : List Instr :=
  [.currst .tx, .pack1 4 0xD] ++
    (List.range 76).map fun n => .pack1 (BitVec.ofNat 4 (fieldWidth n)) ((s.readWord .prmE n).setWidth 8)

/-! ### The Schur recursion as R164 writes it, one assignment after another -/

/-- The loop `for m = 1..8-n` of R164: m from the second argument on, as many turns as the first says. -/
def schurInner (rn : Word16) : Nat → Nat → (Nat → Word16) → (Nat → Word16) → (Nat → Word16) × (Nat → Word16)
  | 0, _, P, K => (P, K)
  | more + 1, m, P, K =>
    schurInner rn more (m + 1)
      (Function.update P m (add (P (m + 1)) (multR (K (9 - m)) rn)))
      (Function.update K (9 - m) (add (K (9 - m)) (multR (P (m + 1)) rn)))

/-- The loop `for n = 1..8` of R164 from stage n on; answers `r`. -/
def schurRule : Nat → Nat → (Nat → Word16) → (Nat → Word16) → (Nat → Word16) → Nat → Word16
  | 0, _, _, _, r => r
  | more + 1, n, P, K, r =>
    if (P 0).toInt < (sAbs (P 1)).toInt then fun i => if n ≤ i then 0 else r i
    else
      let q := div (sAbs (P 1)) (P 0)
      let rn := if (P 1).toInt > 0 then sub 0 q else q
      let r' := Function.update r n rn
      if n = 8 then r'
      else
        let PK := schurInner rn (8 - n) 1 (Function.update P 0 (add (P 0) (multR (P 1) rn))) K
        schurRule more (n + 1) PK.1 PK.2 r'

/-! ### Codes of the block maximum (R212, R213, R217) -/

/-- The code of a block maximum: the number e of significant bits of `xmax >> 9`, then `xmax >> (e + 5)` (R212). -/
def maxCode (xmax : Int) : Int :=
  let e : Nat := if xmax < 512 then 0 else Nat.log2 xmax.toNat - 8
  xmax / 2 ^ (e + 5) + 8 * e

/-- `exp` of a code 0..63 (R213, R217). -/
def codeExp (c : Int) : Int :=
  if c = 0 then -4 else if c = 1 then -3 else if c < 4 then -2 else if c < 8 then -1 else if c < 16 then 0 else c / 8 - 1

/-- `mant` of a code 0..63 (R213, R217). -/
def codeMant (c : Int) : Int :=
  if c < 2 then 7 else if c < 4 then 4 * c - 5 else if c < 8 then 2 * c - 7 else c % 8

/-- The decoded value of pulse code c (R215, R217): the centred level, scaled, rounded and shifted. -/
def pulseLevel (exp mant c : Int) : Int :=
  (round15 (((2048 * (mant + 9) - 1)) * ((2 * c - 7) * 4096)) + (if exp = 6 then 0 else 2 ^ (5 - exp).toNat)) / 2 ^ (6 - exp).toNat

/-! ### The quantities of the search and coding steps -/

/-- The sample that AUTOCORR sums: divided by `2 ^ scalauto` with rounding where `scalauto > 0` (R163). -/
def scaledSample (scalauto x : Int) : Int :=
  if 0 < scalauto then round15 (x * 2 ^ (15 - scalauto).toNat) else x

/-- The scale of LTPSEARCH (R200 part 1). -/
def searchShift (dmax : Int) : Nat :=
  if dmax = 0 then 6 else if dmax < 256 then 0 else Nat.log2 dmax.toNat - 8

/-- The exact cross-correlation at a lag (R200 part 2). -/
def lagSum (s : State) (j : BitVec 2) (scal : Nat) (lag : Nat) : Int :=
  2 * sumTo 40 fun k => val s.work.d (40 * j.toNat + k) / 2 ^ scal * val s.enc.dp (120 + k - lag)

/-- The energy of grid m in GRIDSEL (R211). -/
def gridSum (s : State) (m : Nat) : Int :=
  2 * sumTo 13 fun i => val s.work.x (m + 3 * i) / 4 * (val s.work.x (m + 3 * i) / 4)

/-- The 40 samples have the thirteen pulses y at positions `M + 3i` and 0 elsewhere (R218). -/
def Positioned (out : Vector Word16 40) (M : Nat) (y : Nat → Int) : Prop :=
  (∀ i, i < 13 → val out (M + 3 * i) = y i) ∧ ∀ k, k < 40 → (∀ i, i < 13 → k ≠ M + 3 * i) → val out k = 0

end Sys2Proof.Safety
end

