-- ==== Sys2Proof/Certificates/Slice0/Obligations.lean ====
section
/-! DEFINITION. The statements for the provers. Each names the rules of spec/ it rests on; a working value or output that a
frame leaves open (`x := t.x`) is one the step may write. -/

open Sys2Proof Sys2Proof.Machine Sys2Proof.Safety

/-! ### Encoding, fetching and the machine as a whole -/

/-- R86, R87, R88: a well-formed instruction decodes from its own encoding. -/
def Obligations.DecodeEncode : Prop :=
  ∀ i : Instr, i.wellFormed = true → decode (encode i) = .ok i

/-- R86, R87: each command word and each ALU request that is accepted is the encoding of its instruction, up to the `alu_b`
that ABS and NORM ignore; so each command word has one meaning. -/
def Obligations.EncodeDecodePorts : Prop :=
  (∀ (cw : BitVec 16) (i : Instr), decode (.cmd cw) = .ok i → encode i = .cmd cw ∧ i.wellFormed = true) ∧
    ∀ (op : BitVec 4) (a b : Word32) (i : Instr), decode (.alu op a b) = .ok i →
      ∃ b', encode i = .alu op a b' ∧ (op ≠ 0x4 → op ≠ 0x9 → b' = b)

/-- R89: the command words that the table calls reserved, and no others, are refused, and nothing runs (the refusal is log 15);
a reserved `alu_op` shows some value on `alu_y`, the value is not specified, and nothing else changes (U14; log 30). No ALU
request is refused as reserved. -/
def Obligations.ReservedRequests : Prop :=
  (∀ (s : State) (cw : BitVec 16) (rest : List Input), s.inputs = .req (.cmd cw) :: rest → s.flags.busy = false →
    ((∃ why, step s = .refused (.reserved why)) ↔
      (0xD000 ≤ cw.toNat ∨
       (cw.toNat < 0xA000 ∧ cw.toNat % 0x1000 ≠ 0) ∨
       (cw.toNat / 0x1000 = 0xA ∧ (cw.toNat / 0x100 % 16 = 0 ∨ 8 < cw.toNat / 0x100 % 16)) ∨
       (cw.toNat / 0x1000 = 0xB ∧ (cw.toNat % 0x100 ≠ 0 ∨ cw.toNat / 0x100 % 16 = 0 ∨ 8 < cw.toNat / 0x100 % 16)) ∨
       (cw.toNat / 0x1000 = 0xC ∧ cw.toNat ≠ 0xC000 ∧ cw.toNat ≠ 0xC100)))) ∧
    ∀ (s : State) (op : BitVec 4) (a b : Word32) (rest : List Input),
      s.inputs = .req (.alu op a b) :: rest → s.flags.busy = false →
      ((∃ i, decode (.alu op a b) = .ok i) ↔ op.toNat < 14) ∧
      ∃ t, step s = .next t ∧ t = { s with inputs := rest, aluY := t.aluY } ∧ SameMemory s t

/-- R68, R230 (logs 1, 16): a step takes the host's next action; where that is a request the host may make and it decodes, the
step is the meaning of the instruction; with no action the block holds its state (R266). -/
def Obligations.StepRunsDecoded : Prop :=
  (∀ (s : State) (r : Request) (rest : List Input) (i : Instr),
    s.inputs = .req r :: rest → barred s r = false → decode r = .ok i → step s = exec i { s with inputs := rest }) ∧
  (∀ (s : State) (r : Request) (rest : List Input),
    s.inputs = .req r :: rest → barred s r = true → step s = .refused .hostWhileBusy) ∧
  ∀ s : State, s.inputs = [] → step s = .next s

/-- R86, R87, R88: a word of each format, written out, decodes to the instruction it stands for. -/
def Obligations.DecodeWords : Prop :=
  decode (.cmd 0b0100000000000000) = .ok .encode ∧ decode (.cmd 0b0101000000000000) = .ok .decode ∧
  decode (.cmd 0b1010001100000101) = .ok (.pack1 3 5) ∧ decode (.cmd 0b1011100000000000) = .ok (.unpack1 8) ∧
  decode (.cmd 0b1100000100000000) = .ok (.currst .rx) ∧
  (∀ a b, decode (.alu 0b0101 a b) = .ok (.aluDiv a b)) ∧
  (∀ o, decode (.step 0b001011 o) = .ok .stanalysis) ∧ ∀ o, decode (.step 0b011010 o) = .ok (.ltpsynth o.j)

/-- R42, R290, R291: what reset leaves, in `State.reset` and after the `rst` input in any state. The buffers hold nothing a
run has written, the strap and what waits are kept (logs 1, 5, 18). R46: `STATUS` shows `busy`, `done`, `valid`, `eq` at its
bits 0 to 3, is 0 after reset, and shows `busy` alone of the first two while a command runs, `done` alone when it ends. -/
def Obligations.ResetState : Prop :=
  (EncHome State.reset.enc ∧ DecHome State.reset.dec ∧ State.reset.curTx.bitsUsed = 0 ∧ State.reset.curRx.bitsUsed = 0 ∧
    State.reset.flags = ⟨false, false, false, false⟩) ∧
  (∀ (s : State) (rest : List Input), s.inputs = .rst :: rest →
    ∃ t, step s = .next t ∧ EncHome t.enc ∧ DecHome t.dec ∧ t.curTx.bitsUsed = 0 ∧ t.curRx.bitsUsed = 0 ∧
      t.flags = ⟨false, false, false, false⟩ ∧ t.homingSupported = s.homingSupported ∧ t.aluY = s.aluY ∧ t.inputs = rest ∧
      (∀ b i, Mem.read? (t.mem.words b) i = none) ∧ (∀ b i, Mem.read? (t.mem.octets b) i = none) ∧ t.status = 0) ∧
  State.reset.status = 0 ∧
  ∀ s : State,
    s.status.toNat = s.flags.busy.toNat + 2 * s.flags.done.toNat + 4 * s.flags.valid.toNat + 8 * s.flags.eq.toNat ∧
    (startCommand s).status.toNat % 4 = 1 ∧ (finishCommand s).status.toNat % 4 = 2

/-- The invariant holds right after reset (R29, R34, R60, R230). -/
def Obligations.ResetInv : Prop := BlockInv State.reset

/-- Every step keeps the invariant: canonical buffers (R60), cursors within 264 bits (R34, R148), `nrp` in 40..120 (R29),
`busy` = 0 between commands (R230). Whatever state it starts from, no step makes `busy` and `done` both 1 (R46). -/
def Obligations.StepKeepsInv : Prop :=
  (∀ s t : State, BlockInv s → step s = .next t → BlockInv t) ∧
    ∀ s t : State, ¬ (s.flags.busy = true ∧ s.flags.done = true) → step s = .next t →
      ¬ (t.flags.busy = true ∧ t.flags.done = true)

/-- From R260, R126: every command and every ALU operation completes, for every content of the buffers, in every state that
meets the invariant, and the invariant holds afterwards. The packer's caller keeps the cursor inside the frame (R148, R299).
What each writes is for its own statement to say. -/
def Obligations.PortRequestsComplete : Prop :=
  ∀ (s : State) (r : Request) (i : Instr), BlockInv s → PortRequest r → decode r = .ok i → CursorFits i s →
    ∃ t, exec i s = .next t ∧ BlockInv t

/-- R60, R61, R297 (logs 16, 18, 19): a host write of an element inside its buffer, while `busy` = 0, writes that element and
nothing else; outside the buffer it faults; while `busy` = 1 it is refused. The strap is the host's too (R27). -/
def Obligations.HostActions : Prop :=
  (∀ (s : State) (b : WordBuf) (i : Nat) (v : Word16) (rest : List Input), s.inputs = .writeWord b i v :: rest →
    (s.flags.busy = true → step s = .refused .hostWhileBusy) ∧
    (s.flags.busy = false → b.len ≤ i → step s = .fault .noSuchElement) ∧
    (s.flags.busy = false → i < b.len → ∃ t, step s = .next t ∧ t = { s with inputs := rest, mem := t.mem } ∧
      t.readWord b i = v ∧ SameMemoryButWord b i s t)) ∧
  (∀ (s : State) (b : OctetBuf) (i : Nat) (v : Octet) (rest : List Input), s.inputs = .writeOctet b i v :: rest →
    (s.flags.busy = true → step s = .refused .hostWhileBusy) ∧
    (s.flags.busy = false → b.len ≤ i → step s = .fault .noSuchElement) ∧
    (s.flags.busy = false → i < b.len → ∃ t, step s = .next t ∧ t = { s with inputs := rest, mem := t.mem } ∧
      t.readOctet b i = v ∧ (∀ b' i', t.readWord b' i' = s.readWord b' i') ∧
      ∀ b' i', b' ≠ b ∨ i' ≠ i → t.readOctet b' i' = s.readOctet b' i')) ∧
  ∀ (s : State) (h : Bool) (rest : List Input), s.inputs = .strap h :: rest →
    step s = .next { s with inputs := rest, homingSupported := h }

/-- R45, R73: of all a host can do, only ENCODE, RESET, RESET_ENC and `rst` change the persistent encoder state, and only
DECODE, RESET, RESET_DEC and `rst` the persistent decoder state. -/
def Obligations.Lifecycle : Prop :=
  ∀ (s t : State) (a : Input) (rest : List Input), s.inputs = a :: rest → (∀ id o, a ≠ .req (.step id o)) →
    step s = .next t →
    (a ≠ .rst → a ≠ .req (.cmd 0x4000) → a ≠ .req (.cmd 0x1000) → a ≠ .req (.cmd 0x2000) → t.enc = s.enc) ∧
    (a ≠ .rst → a ≠ .req (.cmd 0x5000) → a ≠ .req (.cmd 0x1000) → a ≠ .req (.cmd 0x3000) → t.dec = s.dec)

/-! ### Commands of the top level -/

/-- R231: `NOP` changes nothing except `done <- 1` by R230. -/
def Obligations.NopResult : Prop :=
  decode (.cmd 0x0000) = .ok .nop ∧
  ∀ s : State, ∃ t, exec .nop s = .next t ∧ t = { s with flags := doneFlags s.flags } ∧ SameMemory s t

/-- R232: `RESET` brings encoder, decoder and packer home; buffers and strap are kept; `rst` does the same to the state and
forces `busy` and `done` to 0. -/
def Obligations.ResetResult : Prop :=
  decode (.cmd 0x1000) = .ok .reset ∧
  (∀ s : State, ∃ t, exec .reset s = .next t ∧ EncHome t.enc ∧ DecHome t.dec ∧
    t.curTx.bitsUsed = 0 ∧ t.curRx.bitsUsed = 0 ∧ t.bitsTx = 0 ∧ t.bitsRx = 0 ∧
    t = { s with enc := t.enc, dec := t.dec, curTx := t.curTx, curRx := t.curRx, flags := ⟨false, true, false, false⟩ } ∧
    SameMemory s t) ∧
  ∀ s : State, EncHome (applyRst s).enc ∧ DecHome (applyRst s).dec ∧ (applyRst s).curTx.bitsUsed = 0 ∧
    (applyRst s).curRx.bitsUsed = 0 ∧ (applyRst s).flags = ⟨false, false, false, false⟩

/-- R233, R234: each half of a reset brings its own side home and touches nothing else. -/
def Obligations.ResetHalves : Prop :=
  decode (.cmd 0x2000) = .ok .resetEnc ∧ decode (.cmd 0x3000) = .ok .resetDec ∧
  (∀ s : State, ∃ t, exec .resetEnc s = .next t ∧ EncHome t.enc ∧
    t = { s with enc := t.enc, flags := doneFlags s.flags } ∧ SameMemory s t) ∧
  ∀ s : State, ∃ t, exec .resetDec s = .next t ∧ DecHome t.dec ∧
    t = { s with dec := t.dec, flags := doneFlags s.flags } ∧ SameMemory s t

/-- R235, R248: ENCODE completes in every state, writes the 76 fields of `PRM_E` within their widths, with lags in 40..120, and
changes nothing else but the encoder state and the working values. -/
def Obligations.EncodeResult : Prop :=
  ∀ s : State, ∃ t, exec .encode s = .next t ∧
    t = { s with enc := t.enc, work := t.work, flags := doneFlags s.flags, mem := { s.mem with prmE := t.mem.prmE } } ∧
    SameMemoryButWords .prmE 76 s t ∧
    (∀ n, n < 76 → (t.readWord .prmE n).toNat < 2 ^ fieldWidth n) ∧
    ∀ j, j < 4 → 40 ≤ (t.readWord .prmE (8 + 17 * j)).toNat ∧ (t.readWord .prmE (8 + 17 * j)).toNat ≤ 120

/-- R235, R236: ENCODE does what its steps do when they run one after another in the order of the rules. -/
def Obligations.EncodeIsItsSteps : Prop :=
  ∀ s : State, ∃ t u, exec .encode s = .next t ∧ runAll encodeProgram s = .next u ∧
    t = { u with work := t.work, flags := doneFlags s.flags } ∧ SameMemory u t

/-- R247 (1), R41, R73: the record and the next encoder state depend on the encoder state, the samples and the strap alone. -/
def Obligations.EncodeIsFunction : Prop :=
  ∀ s s' : State, s.enc = s'.enc → s.homingSupported = s'.homingSupported →
    (∀ k, k < 160 → s.readWord .pcmIn k = s'.readWord .pcmIn k) →
    ∃ t t', exec .encode s = .next t ∧ exec .encode s' = .next t' ∧ t.enc = t'.enc ∧
      ∀ n, n < 76 → t.readWord .prmE n = t'.readWord .prmE n

/-- R244, R292, R298: with the strap at 1 the record after a homing frame is `HOMING_OUTPUT` whatever the samples were, which
still advance the encoder state; a homing frame leaves the encoder at home with `last_frame_home` = 1; any other frame leaves
it at 0. The record is that of the table of R246, its 3 at index 67, which is the model's reading (log 27). -/
def Obligations.EncodeHoming : Prop :=
  ∀ s : State, s.homingSupported = true → ∃ t u,
    exec .encode s = .next t ∧ exec .encode { s with enc := { s.enc with lastFrameHome := false } } = .next u ∧
    t.enc = u.enc ∧
    (s.enc.lastFrameHome = true → ∀ n, n < 76 → t.readWord .prmE n = homingField n) ∧
    (t.enc.lastFrameHome = true ↔ ∀ k, k < 160 → IsHomingSample (s.readWord .pcmIn k)) ∧
    (t.enc.lastFrameHome = true → EncHome { t.enc with lastFrameHome := false })

/-- R239, R193, R248: DECODE completes for every record, writes the 160 samples of `PCM_OUT` with bits 2..0 zero, keeps `nrp` in
40..120, and changes nothing else but the decoder state and the working values. -/
def Obligations.DecodeResult : Prop :=
  ∀ s : State, 40 ≤ s.dec.nrp.toInt → s.dec.nrp.toInt ≤ 120 → ∃ t, exec .decode s = .next t ∧
    t = { s with dec := t.dec, work := t.work, flags := doneFlags s.flags, mem := { s.mem with pcmOut := t.mem.pcmOut } } ∧
    SameMemoryButWords .pcmOut 160 s t ∧
    (∀ k, k < 160 → t.readWord .pcmOut k &&& 7 = 0) ∧ 40 ≤ t.dec.nrp.toInt ∧ t.dec.nrp.toInt ≤ 120

/-- R239, R241, R194: DECODE does what its steps do when they run one after another in the order of the rules. -/
def Obligations.DecodeIsItsSteps : Prop :=
  ∀ s : State, 40 ≤ s.dec.nrp.toInt → s.dec.nrp.toInt ≤ 120 → ∃ t u,
    exec .decode s = .next t ∧ runAll decodeProgram s = .next u ∧
    t = { u with work := t.work, flags := doneFlags s.flags } ∧ SameMemory u t

/-- R247 (1), R94, R73: the samples and the next decoder state depend on the decoder state and the record within its widths
alone; bits above a field's width are ignored. -/
def Obligations.DecodeIsFunction : Prop :=
  ∀ s s' : State, s.dec = s'.dec → 40 ≤ s.dec.nrp.toInt → s.dec.nrp.toInt ≤ 120 →
    (∀ n, n < 76 →
      (s.readWord .prmD n).toNat % 2 ^ fieldWidth n = (s'.readWord .prmD n).toNat % 2 ^ fieldWidth n) →
    ∃ t t', exec .decode s = .next t ∧ exec .decode s' = .next t' ∧ t.dec = t'.dec ∧
      ∀ k, k < 160 → t.readWord .pcmOut k = t'.readWord .pcmOut k

/-- R204, R183, R290: an encoder and a decoder whose histories and previous LARs agree still agree after the encoder has encoded
a frame without homing and the decoder has decoded its record. -/
def Obligations.DecoderFollowsEncoder : Prop :=
  ∀ s : State, s.homingSupported = false → 40 ≤ s.dec.nrp.toInt → s.dec.nrp.toInt ≤ 120 →
    s.enc.dp = s.dec.drp → s.enc.larppLast = s.dec.larppLast →
    ∃ t, exec .encode s = .next t ∧
      ∀ u : State, u.dec = s.dec → (∀ n, n < 76 → u.readWord .prmD n = t.readWord .prmE n) →
        ∃ v, exec .decode u = .next v ∧ v.dec.drp = t.enc.dp ∧ v.dec.larppLast = t.enc.larppLast

/-! ### Packer -/

/-- R140, R143: `PACK1` writes the low n bits of its value at the n stream bits from `CUR_TX` on, most significant first, keeps
every other bit of `FRM_TX`, and advances the cursor by n. -/
def Obligations.Pack1Result : Prop :=
  ∀ (n : BitVec 4) (v : Octet) (s : State), 1 ≤ n.toNat → n.toNat ≤ 8 → s.curTx.bitsUsed + n.toNat ≤ 264 →
    ∃ t, exec (.pack1 n v) s = .next t ∧
      t = { s with curTx := t.curTx, flags := doneFlags s.flags, mem := { s.mem with frmTx := t.mem.frmTx } } ∧
      t.curTx.bitsUsed = s.curTx.bitsUsed + n.toNat ∧ SameMemoryButFrameTx s t ∧
      ∀ p, streamBit t .frmTx p =
        if s.curTx.bitsUsed ≤ p ∧ p < s.curTx.bitsUsed + n.toNat then v.getLsbD (s.curTx.bitsUsed + n.toNat - 1 - p)
        else streamBit s .frmTx p

/-- R141, R143: `UNPACK1` gives on `res_val` the n stream bits from `CUR_RX` on, the first the most significant, zero-extended, and
advances the cursor by n; it is the inverse of a `PACK1` at the same cursor position. -/
def Obligations.Unpack1Result : Prop :=
  (∀ (n : BitVec 4) (s : State), 1 ≤ n.toNat → n.toNat ≤ 8 → s.curRx.bitsUsed + n.toNat ≤ 264 →
    ∃ t, exec (.unpack1 n) s = .next t ∧
      t = { s with curRx := t.curRx, resVal := t.resVal, flags := doneFlags s.flags } ∧ SameMemory s t ∧
      t.curRx.bitsUsed = s.curRx.bitsUsed + n.toNat ∧
      ∀ q, t.resVal.getLsbD q =
        (decide (q < n.toNat) && streamBit s .frmRx (s.curRx.bitsUsed + n.toNat - 1 - q))) ∧
  ∀ (n : BitVec 4) (v : Octet) (s t u : State), 1 ≤ n.toNat → n.toNat ≤ 8 → s.curTx.bitsUsed + n.toNat ≤ 264 →
    exec (.pack1 n v) s = .next t → u.curRx = s.curTx → (∀ i, i < 33 → u.readOctet .frmRx i = t.readOctet .frmTx i) →
    ∃ w, exec (.unpack1 n) u = .next w ∧ w.resVal.toNat = v.toNat % 2 ^ n.toNat

/-- R89, R148 (log 15): where `PACK1` and `UNPACK1` stop: a bit count outside 1..8, or a cursor that would pass bit 264. -/
def Obligations.PackerRefusals : Prop :=
  ∀ (n : BitVec 4) (v : Octet) (s : State),
    (n.toNat = 0 ∨ 8 < n.toNat →
      exec (.pack1 n v) s = .refused (.reserved .bitCount) ∧ exec (.unpack1 n) s = .refused (.reserved .bitCount)) ∧
    (1 ≤ n.toNat → n.toNat ≤ 8 → 264 < s.curTx.bitsUsed + n.toNat → exec (.pack1 n v) s = .refused .cursorPastEnd) ∧
    (1 ≤ n.toNat → n.toNat ≤ 8 → 264 < s.curRx.bitsUsed + n.toNat → exec (.unpack1 n) s = .refused .cursorPastEnd)

/-- R142: `CURRST` sets one cursor to (0, 0); buffers are not changed. -/
def Obligations.CurrstResult : Prop :=
  ∀ (sel : CurSel) (s : State), ∃ t, exec (.currst sel) s = .next t ∧ SameMemory s t ∧
    t = { s with
      flags := doneFlags s.flags
      curTx := if sel = .tx then ⟨0, 0⟩ else s.curTx
      curRx := if sel = .tx then s.curRx else ⟨0, 0⟩ } ∧
    (sel = .tx → t.bitsTx = 0) ∧ (sel = .rx → t.bitsRx = 0)

/-- R144, R82, R83, R85: `PACK` writes the signature and the 76 fields of `PRM_E`, each at its place and width, whatever `FRM_TX` held;
the cursor ends at 264. -/
def Obligations.PackResult : Prop :=
  ∀ s : State, ∃ t, exec .pack s = .next t ∧
    t = { s with curTx := t.curTx, flags := doneFlags s.flags, mem := { s.mem with frmTx := t.mem.frmTx } } ∧
    SameMemoryButFrameTx s t ∧ t.curTx = ⟨33, 0⟩ ∧ t.bitsTx = 264 ∧ Signed t .frmTx ∧
    (∀ n, n < 76 → FieldHolds t .frmTx n (s.readWord .prmE n)) ∧
    t.readOctet .frmTx 0 = 0xD0 ||| (((s.readWord .prmE 0).setWidth 8 &&& 0x3F) >>> 2)

/-- R92, R144: "This is an identity, not only a shorthand": `PACK` leaves the very state that `CURRST TX`, `PACK1 0xD, 4` and one
`PACK1` a field leave, whatever well-formed buffers they start from. -/
def Obligations.PackIsPack1Sequence : Prop :=
  ∀ s : State, s.mem.wf = true → ∃ t, exec .pack s = .next t ∧ runAll (packProgram s) s = .next t

/-- R145, R83: `UNPACK` writes all 76 fields, zero-extended, and `valid` says whether the signature is there; `FRM_RX` is not
changed and the cursor ends at 264. -/
def Obligations.UnpackResult : Prop :=
  ∀ s : State, ∃ t, exec .unpack s = .next t ∧
    t = { s with
      curRx := t.curRx, resVal := t.resVal, draws := t.draws
      flags := { doneFlags s.flags with valid := t.flags.valid }
      mem := { s.mem with prmD := t.mem.prmD } } ∧
    SameMemoryButWords .prmD 76 s t ∧ t.curRx = ⟨33, 0⟩ ∧ t.bitsRx = 264 ∧
    (t.flags.valid = true ↔ Signed s .frmRx) ∧
    ∀ n, n < 76 → (t.readWord .prmD n).toNat < 2 ^ fieldWidth n ∧ FieldHolds s .frmRx n (t.readWord .prmD n)

/-- R84: `UNPACK(PACK(P)) = P` for a record within its widths, and `PACK(UNPACK(F)) = F` for a frame with the signature. -/
def Obligations.PackUnpackInverse : Prop :=
  (∀ s t u : State, (∀ n, n < 76 → (s.readWord .prmE n).toNat < 2 ^ fieldWidth n) → exec .pack s = .next t →
    (∀ i, i < 33 → u.readOctet .frmRx i = t.readOctet .frmTx i) →
    ∃ v, exec .unpack u = .next v ∧ v.flags.valid = true ∧ ∀ n, n < 76 → v.readWord .prmD n = s.readWord .prmE n) ∧
  ∀ s t u : State, Signed s .frmRx → exec .unpack s = .next t →
    (∀ n, n < 76 → u.readWord .prmE n = t.readWord .prmD n) →
    ∃ v, exec .pack u = .next v ∧ ∀ i, i < 33 → v.readOctet .frmTx i = s.readOctet .frmRx i

/-- R146, R147: `ISVALID` tests the high nibble of octet 0 of `FRM_RX`, the first four stream bits, and writes `valid` alone;
`PRMEQ` compares all 76 whole words and writes `eq` alone. -/
def Obligations.FrameTests : Prop :=
  ∀ s : State,
    (∃ t, exec .isvalid s = .next t ∧ SameMemory s t ∧
      t = { s with flags := { doneFlags s.flags with valid := t.flags.valid } } ∧
      (t.flags.valid = true ↔ s.readOctet .frmRx 0 &&& 0xF0 = 0xD0) ∧ (t.flags.valid = true ↔ Signed s .frmRx)) ∧
    ∃ t, exec .prmeq s = .next t ∧ SameMemory s t ∧
      t = { s with flags := { doneFlags s.flags with eq := t.flags.eq } } ∧
      (t.flags.eq = true ↔ ∀ n, n < 76 → s.readWord .prmE n = s.readWord .prmD n)

/-! ### ALU test port -/

/-- R110, R111, R116, R117: sums and differences are clamped, at 16 and at 32 bits. -/
def Obligations.AluSums : Prop :=
  ∀ (a b : Word32) (s : State),
    AluShows 0x0 a b (.aluAdd a b) s (· = clamp16 (int16 a + int16 b)) ∧
    AluShows 0x1 a b (.aluSub a b) s (· = clamp16 (int16 a - int16 b)) ∧
    AluShows 0x6 a b (.aluLAdd a b) s (· = clamp32 (a.toInt + b.toInt)) ∧
    AluShows 0x7 a b (.aluLSub a b) s (· = clamp32 (a.toInt - b.toInt))

/-- R112, R113, R118: the products; -32768 times -32768 gives the largest value. -/
def Obligations.AluProducts : Prop :=
  ∀ (a b : Word32) (s : State),
    AluShows 0x2 a b (.aluMult a b) s (· =
      if int16 a = -32768 ∧ int16 b = -32768 then 32767 else int16 a * int16 b / 32768) ∧
    AluShows 0x3 a b (.aluMultR a b) s (· =
      if int16 a = -32768 ∧ int16 b = -32768 then 32767 else (int16 a * int16 b + 16384) / 32768) ∧
    AluShows 0x8 a b (.aluLMult a b) s (· =
      if int16 a = -32768 ∧ int16 b = -32768 then 2147483647 else 2 * (int16 a * int16 b))

/-- R114, R115: the absolute value, 32767 for -32768; the fractional quotient on its domain and for 0 / 0, elsewhere any
value. -/
def Obligations.AluAbsDiv : Prop :=
  ∀ (a b : Word32) (s : State),
    AluShows 0x4 a b (.aluAbs a) s (· = if int16 a = -32768 then 32767 else if int16 a < 0 then -int16 a else int16 a) ∧
    (0 ≤ int16 a → int16 a < int16 b → AluShows 0x5 a b (.aluDiv a b) s (· = int16 a * 32768 / int16 b)) ∧
    (0 ≤ int16 a → int16 a = int16 b → AluShows 0x5 a b (.aluDiv a b) s (· = 32767)) ∧
    AluShows 0x5 a b (.aluDiv a b) s fun _ => True

/-- R119: the smallest number of doublings that reaches the two intervals, at most 30; for 0 any value. -/
def Obligations.AluNorm : Prop :=
  ∀ (a b : Word32) (s : State),
    (a.toInt ≠ 0 → ∃ k : Nat, AluShows 0x9 a b (.aluNorm a) s (· = k) ∧ k ≤ 30 ∧ Normalised (a.toInt * 2 ^ k) ∧
      ∀ m, m < k → ¬ Normalised (a.toInt * 2 ^ m)) ∧
    AluShows 0x9 a b (.aluNorm a) s fun _ => True

/-- R122, R123: the 16-bit shifts, in both directions. -/
def Obligations.AluShifts16 : Prop :=
  ∀ (a b : Word32) (s : State),
    (0 ≤ int16 b →
      AluShows 0xA a b (.aluShl16 a b) s (· = clamp16 (int16 a * 2 ^ (int16 b).toNat)) ∧
      AluShows 0xB a b (.aluShr16 a b) s (· =
        if int16 b ≤ 15 then int16 a / 2 ^ (int16 b).toNat else if int16 a < 0 then -1 else 0)) ∧
    (int16 b < 0 →
      AluShows 0xB a b (.aluShr16 a b) s (· = clamp16 (int16 a * 2 ^ (-int16 b).toNat)) ∧
      AluShows 0xA a b (.aluShl16 a b) s (· =
        if -int16 b ≤ 15 then int16 a / 2 ^ (-int16 b).toNat else if int16 a < 0 then -1 else 0))

/-- R124, R125: the 32-bit shifts, in both directions. -/
def Obligations.AluShifts32 : Prop :=
  ∀ (a b : Word32) (s : State),
    (0 ≤ int16 b →
      AluShows 0xC a b (.aluLShl a b) s (· = clamp32 (a.toInt * 2 ^ (int16 b).toNat)) ∧
      AluShows 0xD a b (.aluLShr a b) s (· =
        if int16 b ≤ 31 then a.toInt / 2 ^ (int16 b).toNat else if a.toInt < 0 then -1 else 0)) ∧
    (int16 b < 0 →
      AluShows 0xD a b (.aluLShr a b) s (· = clamp32 (a.toInt * 2 ^ (-int16 b).toNat)) ∧
      AluShows 0xC a b (.aluLShl a b) s (· =
        if -int16 b ≤ 31 then a.toInt / 2 ^ (-int16 b).toNat else if a.toInt < 0 then -1 else 0))

/-! ### Encoder steps: pre-processing and LPC analysis -/

/-- R243: HOMEDET writes `is_home` alone. -/
def Obligations.HomedetResult : Prop :=
  ∀ s : State, ∃ t, exec .homedet s = .next t ∧ t = { s with work := { s.work with isHome := t.work.isHome } } ∧
    SameMemory s t ∧
    (t.work.isHome = true ↔ s.homingSupported = true ∧ ∀ k, k < 160 → IsHomingSample (s.readWord .pcmIn k))

/-- R160, R162: DOWNSCALE drops the low three bits and quarters the scale; PREEMPH subtracts 28180/32768 of the previous
sample. -/
def Obligations.DownscalePreemph : Prop :=
  ∀ (k : BitVec 8) (s : State), k.toNat < 160 →
    (∃ t, exec (.downscale k) s = .next t ∧ t = { s with work := { s.work with so := t.work.so } } ∧ SameMemory s t ∧
      t.work.so.toInt = 4 * ((s.readWord .pcmIn k.toNat).toInt / 8)) ∧
    ∃ t, exec (.preemph k) s = .next t ∧
      t = { s with enc := { s.enc with mp := s.work.sof }, work := { s.work with s := t.work.s } } ∧ SameMemory s t ∧
      ∀ m : Fin 160, t.work.s[m].toInt =
        if m.val = k.toNat then clamp16 (s.work.sof.toInt + round15 (s.enc.mp.toInt * -28180)) else s.work.s[m].toInt

/-- R161: OFFSETCOMP completes in every state; where `L_z2` is in the range the rule gives it, no operation saturates but the
two 16-bit ones, and the recursion is exact. The clamp on `sof` is the model's, for states in which the new `L_z2` is so large
that the rule's assignment would not fit (log 25). -/
def Obligations.OffsetcompResult : Prop :=
  ∀ s : State, ∃ t, exec .offsetcomp s = .next t ∧
    t = { s with
      enc := { s.enc with z1 := s.work.so, Lz2 := t.enc.Lz2 }
      work := { s.work with
        s1 := t.work.s1, Ls2 := t.work.Ls2, msp := t.work.msp, lsp := t.work.lsp, temp := t.work.temp
        sof := t.work.sof } } ∧
    SameMemory s t ∧
    (-1073741824 ≤ s.enc.Lz2.toInt → s.enc.Lz2.toInt < 1073741824 →
      t.enc.Lz2.toInt =
        s.enc.Lz2.toInt / 32768 * 32735 + clamp16 (s.work.so.toInt - s.enc.z1.toInt) * 32768 +
          round15 (s.enc.Lz2.toInt % 32768 * 32735) ∧
      t.work.sof.toInt = clamp16 ((t.enc.Lz2.toInt + 16384) / 32768))

/-- R163: AUTOCORR finds the largest magnitude, scales, sums without saturation, and scales back. -/
def Obligations.AutocorrResult : Prop :=
  ∀ s : State, ∃ t, exec .autocorr s = .next t ∧
    t = { s with work := { s.work with
      smax := t.work.smax, scalauto := t.work.scalauto, temp := t.work.temp, Lacf := t.work.Lacf, s := t.work.s } } ∧
    SameMemory s t ∧
    IsMax 160 (fun k => mag (val s.work.s k)) t.work.smax.toInt ∧
    t.work.scalauto.toInt = (if t.work.smax.toInt = 0 then 0 else (Nat.log2 t.work.smax.toNat : Int) - 10) ∧
    (∀ k : Fin 9, t.work.Lacf[k].toInt =
      2 * sumTo (160 - k.val) fun i =>
        scaledSample t.work.scalauto.toInt (val s.work.s (i + k.val)) *
          scaledSample t.work.scalauto.toInt (val s.work.s i)) ∧
    ∀ k : Fin 160, t.work.s[k].toInt =
      if 0 < t.work.scalauto.toInt then
        clamp16 (scaledSample t.work.scalauto.toInt s.work.s[k].toInt * 2 ^ t.work.scalauto.toInt.toNat)
      else s.work.s[k].toInt

/-- R164: SCHUR gives zeros for a silent frame; else it normalises and runs the recursion of the rule, one assignment after
another. -/
def Obligations.SchurResult : Prop :=
  ∀ s : State, ∃ t, exec .schur s = .next t ∧
    t = { s with work := { s.work with
      temp := t.work.temp, acf := t.work.acf, P := t.work.P, K := t.work.K, r := t.work.r } } ∧
    SameMemory s t ∧
    (s.work.Lacf[0].toInt = 0 → ∀ i : Fin 8, t.work.r[i] = 0) ∧
    (0 < s.work.Lacf[0].toInt →
      (∀ k : Fin 9, -s.work.Lacf[0].toInt ≤ s.work.Lacf[k].toInt ∧ s.work.Lacf[k].toInt ≤ s.work.Lacf[0].toInt) →
      ∀ n : Nat, Normalised (s.work.Lacf[0].toInt * 2 ^ n) →
        (∀ k : Fin 9, t.work.acf[k].toInt = s.work.Lacf[k].toInt * 2 ^ n / 65536) ∧
        ∀ i : Fin 8, t.work.r[i] =
          schurRule 8 1 (elt t.work.acf) (fun m => elt t.work.acf (9 - m)) (fun m => elt s.work.r (m - 1)) (i.val + 1))

/-- R166, R167, R168: R2LAR is the piecewise-linear map; LARQ scales, offsets, rounds, clips to `MIC..MAC` and makes the code
non-negative. -/
def Obligations.LarCoding : Prop :=
  ∀ s : State,
    (∃ t, exec .r2lar s = .next t ∧ t = { s with work := { s.work with lar := t.work.lar, temp := t.work.temp } } ∧
      SameMemory s t ∧
      ∀ i : Fin 8, t.work.lar[i].toInt =
        (if s.work.r[i].toInt < 0 then -1 else 1) *
          (if mag s.work.r[i].toInt < 22118 then mag s.work.r[i].toInt / 2
           else if mag s.work.r[i].toInt < 31130 then mag s.work.r[i].toInt - 11059
           else 4 * (mag s.work.r[i].toInt - 26112))) ∧
    ∃ t, exec .larq s = .next t ∧ t = { s with work := { s.work with larc := t.work.larc, temp := t.work.temp } } ∧
      SameMemory s t ∧
      ∀ i : Fin 8,
        let A : Int := [20480, 20480, 20480, 20480, 13964, 15360, 8534, 9036].getD i.val 0
        let B : Int := [0, 0, 2048, -2560, 94, -1792, -341, -1144].getD i.val 0
        let MIC : Int := [-32, -32, -16, -16, -8, -8, -4, -4].getD i.val 0
        let MAC : Int := [31, 31, 15, 15, 7, 7, 3, 3].getD i.val 0
        t.work.larc[i].toInt = max MIC (min MAC ((A * s.work.lar[i].toInt / 32768 + B + 256) / 512)) - MIC

/-! ### LAR decoding and the short-term filters -/

/-- R180, R181, R182, with the tables of R168 and R185: LARDEC inverts the code; LARINTERP weighs previous and current frame by zone, each term shifted by
itself; LAR2RP inverts the piecewise-linear map in one row of `rrp`. -/
def Obligations.LarDecoding : Prop :=
  ∀ (side : Side) (zone : BitVec 2) (s : State),
    (∃ t, exec .lardec s = .next t ∧
      t = { s with work := { s.work with larpp := t.work.larpp, temp1 := t.work.temp1, temp2 := t.work.temp2 } } ∧
      SameMemory s t ∧
      ∀ i : Fin 8,
        let INVA : Int := [13107, 13107, 13107, 13107, 19223, 17476, 31454, 29708].getD i.val 0
        let B : Int := [0, 0, 2048, -2560, 94, -1792, -341, -1144].getD i.val 0
        let MIC : Int := [-32, -32, -16, -16, -8, -8, -4, -4].getD i.val 0
        let MAC : Int := [31, 31, 15, 15, 7, 7, 3, 3].getD i.val 0
        0 ≤ s.work.larc[i].toInt → s.work.larc[i].toInt ≤ MAC - MIC →
          t.work.larpp[i].toInt = 2 * round15 (INVA * ((s.work.larc[i].toInt + MIC) * 1024 - B * 2))) ∧
    (∃ t, exec (.larinterp side zone) s = .next t ∧ t = { s with work := { s.work with larp := t.work.larp } } ∧
      SameMemory s t ∧
      ∀ i : Fin 8,
        let last := match side with | .enc => s.enc.larppLast[i].toInt | .dec => s.dec.larppLast[i].toInt
        let cur := s.work.larpp[i].toInt
        (zone = 0 → t.work.larp[i].toInt = last / 4 + cur / 4 + last / 2) ∧
        (zone = 1 → t.work.larp[i].toInt = last / 2 + cur / 2) ∧
        (zone = 2 → t.work.larp[i].toInt = last / 4 + cur / 4 + cur / 2) ∧
        (zone = 3 → t.work.larp[i].toInt = cur)) ∧
    ∃ t, exec (.lar2rp zone) s = .next t ∧
      t = { s with work := { s.work with rrp := t.work.rrp, temp := t.work.temp } } ∧ SameMemory s t ∧
      (∀ z : Fin 4, z.val ≠ zone.toNat → t.work.rrp[z] = s.work.rrp[z]) ∧
      ∀ i : Fin 8, (sub4 t.work.rrp zone)[i].toInt =
        (if s.work.larp[i].toInt < 0 then -1 else 1) *
          (if mag s.work.larp[i].toInt < 11059 then 2 * mag s.work.larp[i].toInt
           else if mag s.work.larp[i].toInt < 20070 then mag s.work.larp[i].toInt + 11059
           else min (mag s.work.larp[i].toInt / 4 + 26112) 32767)

/-- R183: DECODEREFL is LARDEC, then LARINTERP and LAR2RP in each zone; it does not change `LARpp_last`. -/
def Obligations.DecodereflResult : Prop :=
  ∀ (side : Side) (s : State), ∃ t, exec (.decoderefl side) s = .next t ∧ runAll (decodereflProgram side) s = .next t ∧
    t = { s with work := { s.work with
      larpp := t.work.larpp, larp := t.work.larp, rrp := t.work.rrp
      temp := t.work.temp, temp1 := t.work.temp1, temp2 := t.work.temp2 } } ∧
    SameMemory s t

/-- R184: the zone map. -/
def Obligations.K2zoneResult : Prop :=
  ∀ (k : BitVec 8) (s : State), k.toNat < 160 →
    ∃ t, exec (.k2zone k) s = .next t ∧ t = { s with work := { s.work with zone := t.work.zone } } ∧ SameMemory s t ∧
      t.work.zone.toNat = (if k.toNat < 13 then 0 else if k.toNat < 27 then 1 else if k.toNat < 40 then 2 else 3)

/-- R190: STANALYSIS is the lattice: forward errors f and backward errors b of each sample, the previous sample's backward
errors being the memory `u`. -/
def Obligations.StanalysisResult : Prop :=
  ∀ s : State, ∃ t, exec .stanalysis s = .next t ∧
    t = { s with
      enc := { s.enc with u := t.enc.u }
      work := { s.work with
        d := t.work.d, di := t.work.di, sav := t.work.sav, temp := t.work.temp, zone := t.work.zone } } ∧
    SameMemory s t ∧
    ∃ f b : Nat → Nat → Word16,
      (∀ k, k < 160 → f k 0 = elt s.work.s k ∧ b k 0 = elt s.work.s k) ∧
      (∀ k i, k < 160 → i < 8 →
        let before := if k = 0 then elt s.enc.u i else b (k - 1) i
        let rp := elt (sub4 s.work.rrp (k2zone k)) i
        f k (i + 1) = add (f k i) (multR rp before) ∧ b k (i + 1) = add before (multR rp (f k i))) ∧
      (∀ k : Fin 160, t.work.d[k] = f k.val 8) ∧ ∀ i : Fin 8, t.enc.u[i] = b 159 i.val

/-- R191: STSYNTH is the inverse lattice on one sample, coefficient 8 first. -/
def Obligations.StsynthResult : Prop :=
  ∀ (k : BitVec 8) (s : State), k.toNat < 160 → ∃ t, exec (.stsynth k) s = .next t ∧
    t = { s with dec := { s.dec with v := t.dec.v }, work := { s.work with sri := t.work.sri, zone := t.work.zone } } ∧
    SameMemory s t ∧
    ∃ g : Nat → Word16,
      g 8 = elt s.work.wt k.toNat ∧
      (∀ c, c < 8 →
        let rp := elt (sub4 s.work.rrp (k2zone k.toNat)) c
        g c = sub (g (c + 1)) (multR rp (elt s.dec.v c)) ∧ elt t.dec.v (c + 1) = add (elt s.dec.v c) (multR rp (g c))) ∧
      t.work.sri = g 0 ∧ t.dec.v[0] = g 0

/-- R192, R193: DEEMPH adds 28180/32768 of the previous value; UPSCALE doubles with saturation and drops the low three bits,
and writes one sample of `PCM_OUT`. -/
def Obligations.DeemphUpscale : Prop :=
  ∀ (k : BitVec 8) (s : State), k.toNat < 160 →
    (∃ t, exec .deemph s = .next t ∧ t = { s with dec := { s.dec with msr := t.dec.msr } } ∧ SameMemory s t ∧
      t.dec.msr.toInt = clamp16 (s.work.sri.toInt + round15 (s.dec.msr.toInt * 28180))) ∧
    ∃ t, exec (.upscale k) s = .next t ∧ t = { s with mem := { s.mem with pcmOut := t.mem.pcmOut } } ∧
      SameMemoryButWord .pcmOut k.toNat s t ∧
      (t.readWord .pcmOut k.toNat).toInt = 8 * (clamp16 (2 * s.dec.msr.toInt) / 8)

/-! ### Long-term prediction -/

/-- R200: LTPSEARCH finds the lag of largest cross-correlation, the smallest of equals, 40 if none is positive, and codes the
gain against the energy of the history segment at that lag. No sum saturates. -/
def Obligations.LtpsearchResult : Prop :=
  ∀ (j : BitVec 2) (s : State), ∃ t, exec (.ltpsearch j) s = .next t ∧
    t = { s with work := { s.work with
      dmax := t.work.dmax, temp := t.work.temp, scal := t.work.scal, wtLtp := t.work.wtLtp, Lmax := t.work.Lmax
      Lpower := t.work.Lpower, Lresult := t.work.Lresult, Ltemp := t.work.Ltemp, R := t.work.R, S := t.work.S
      Nc := t.work.Nc, bc := t.work.bc } } ∧
    SameMemory s t ∧
    (∀ m : Fin 4, m.val ≠ j.toNat → t.work.Nc[m] = s.work.Nc[m] ∧ t.work.bc[m] = s.work.bc[m]) ∧
    IsMax 40 (fun k => mag (val s.work.d (40 * j.toNat + k))) t.work.dmax.toInt ∧
    let scal := searchShift t.work.dmax.toInt
    let N := (sub4 t.work.Nc j).toNat
    let gain := (sub4 t.work.bc j).toNat
    let most := max 0 (lagSum s j scal N) / 2 ^ (6 - scal)
    let power := 2 * sumTo 40 fun k => val s.enc.dp (120 + k - N) / 8 * (val s.enc.dp (120 + k - N) / 8)
    40 ≤ N ∧ N ≤ 120 ∧
    ((∀ lag, 40 ≤ lag → lag ≤ 120 → lagSum s j scal lag ≤ 0) → N = 40) ∧
    ((∃ lag, 40 ≤ lag ∧ lag ≤ 120 ∧ 0 < lagSum s j scal lag) →
      0 < lagSum s j scal N ∧ (∀ lag, 40 ≤ lag → lag ≤ 120 → lagSum s j scal lag ≤ lagSum s j scal N) ∧
        ∀ lag, 40 ≤ lag → lag < N → lagSum s j scal lag < lagSum s j scal N) ∧
    (most ≤ 0 → gain = 0) ∧
    (0 < most → power ≤ most → gain = 3) ∧
    (0 < most → most < power → ∀ n : Nat, Normalised (power * 2 ^ n) →
      let R := most * 2 ^ n / 65536
      let S := power * 2 ^ n / 65536
      gain = if R ≤ S * 6554 / 32768 then 0 else if R ≤ S * 16384 / 32768 then 1 else if R ≤ S * 26214 / 32768 then 2 else 3)

/-- R202, R204, R201: LTPANALYSIS predicts from the history at the lag and subtracts, for a lag in 40..120 and a gain code in
0..3; DPUPDATE moves the history by 40 and appends the reconstruction. -/
def Obligations.LtpEncoder : Prop :=
  ∀ (j : BitVec 2) (s : State),
    (40 ≤ (sub4 s.work.Nc j).toInt → (sub4 s.work.Nc j).toInt ≤ 120 → (sub4 s.work.bc j).toNat < 4 →
      ∃ t, exec (.ltpanalysis j) s = .next t ∧
        t = { s with work := { s.work with bp := t.work.bp, dpp := t.work.dpp, e := t.work.e } } ∧ SameMemory s t ∧
        ∀ k : Fin 40,
          t.work.dpp[k].toInt =
            round15 ([3277, 11469, 21299, 32767].getD (sub4 s.work.bc j).toNat 0 *
              val s.enc.dp (120 + k.val - (sub4 s.work.Nc j).toNat)) ∧
          t.work.e[k].toInt = clamp16 (val s.work.d (40 * j.toNat + k.val) - t.work.dpp[k].toInt)) ∧
    ∃ t, exec .dpupdate s = .next t ∧ t = { s with enc := { s.enc with dp := t.enc.dp } } ∧ SameMemory s t ∧
      (∀ i, i < 80 → elt t.enc.dp i = elt s.enc.dp (i + 40)) ∧
      ∀ k : Fin 40, val t.enc.dp (80 + k.val) = clamp16 (s.work.ep[k].toInt + s.work.dpp[k].toInt)

/-- R205, R201: LTPSYNTH takes the previous lag where the coded one is outside 40..120, synthesises 40 samples, moves the
history and fills its part of `wt`, for a previous lag in 40..120 (R29) and a gain code in 0..3. -/
def Obligations.LtpsynthResult : Prop :=
  ∀ (j : BitVec 2) (s : State), 40 ≤ s.dec.nrp.toInt → s.dec.nrp.toInt ≤ 120 → (sub4 s.work.bc j).toNat < 4 →
    ∃ t, exec (.ltpsynth j) s = .next t ∧
      t = { s with
        dec := { s.dec with nrp := t.dec.nrp, drp := t.dec.drp }
        work := { s.work with
          Nr := t.work.Nr, brp := t.work.brp, drpp := t.work.drpp, drp := t.work.drp, wt := t.work.wt } } ∧
      SameMemory s t ∧
      t.dec.nrp = (if (sub4 s.work.Nc j).toInt < 40 ∨ 120 < (sub4 s.work.Nc j).toInt then s.dec.nrp else sub4 s.work.Nc j) ∧
      (∀ k : Fin 40, val t.dec.drp (80 + k.val) =
        clamp16 (s.work.erp[k].toInt +
          round15 ([3277, 11469, 21299, 32767].getD (sub4 s.work.bc j).toNat 0 *
            val s.dec.drp (120 + k.val - t.dec.nrp.toNat)))) ∧
      (∀ i, i < 80 → elt t.dec.drp i = elt s.dec.drp (i + 40)) ∧
      ∀ i, i < 160 → elt t.work.wt i =
        if i / 40 = j.toNat then elt t.dec.drp (80 + i % 40) else elt s.work.wt i

/-! ### Regular-pulse excitation -/

/-- R210, R216: WEIGHT is the eleven-tap filter on the sub-segment between zeros, rounded, scaled and clamped. -/
def Obligations.WeightResult : Prop :=
  ∀ s : State, ∃ t, exec .weight s = .next t ∧
    t = { s with work := { s.work with
      wtW := t.work.wtW, x := t.work.x, Lresult := t.work.Lresult, Ltemp := t.work.Ltemp } } ∧
    SameMemory s t ∧
    ∀ k : Fin 40, t.work.x[k].toInt =
      clamp16 ((sumTo 11 (fun i =>
        [-134, -374, 0, 2054, 5741, 8192, 5741, 2054, 0, -374, -134].getD i 0 *
          (if 5 ≤ k.val + i ∧ k.val + i < 45 then val s.work.e (k.val + i - 5) else 0)) + 4096) / 8192)

/-- R211: GRIDSEL takes the grid of largest energy, the smallest of equals, and its thirteen samples. -/
def Obligations.GridselResult : Prop :=
  ∀ (j : BitVec 2) (s : State), ∃ t, exec (.gridsel j) s = .next t ∧
    t = { s with work := { s.work with
      Mc := t.work.Mc, EM := t.work.EM, xM := t.work.xM, Lresult := t.work.Lresult, temp1 := t.work.temp1
      Ltemp := t.work.Ltemp } } ∧
    SameMemory s t ∧
    (∀ m : Fin 4, m.val ≠ j.toNat → t.work.Mc[m] = s.work.Mc[m]) ∧
    let M := (sub4 t.work.Mc j).toNat
    M < 4 ∧ (∀ m, m < 4 → gridSum s m ≤ gridSum s M) ∧ (∀ m, m < M → gridSum s m < gridSum s M) ∧
    ∀ i : Fin 13, t.work.xM[i] = elt s.work.x (M + 3 * i.val)

/-- R212, R213, R217: XMAXQ codes the block maximum logarithmically in 0..63; EXPMANT splits a code 0..63 into `exp` in -4..6
and `mant` in 0..7. -/
def Obligations.MaximumCoding : Prop :=
  ∀ (j : BitVec 2) (s : State),
    (∃ t, exec (.xmaxq j) s = .next t ∧
      t = { s with work := { s.work with
        xmax := t.work.xmax, exp := t.work.exp, itest := t.work.itest, temp := t.work.temp, xmaxc := t.work.xmaxc } } ∧
      SameMemory s t ∧
      (∀ m : Fin 4, m.val ≠ j.toNat → t.work.xmaxc[m] = s.work.xmaxc[m]) ∧
      IsMax 13 (fun i => mag (val s.work.xM i)) t.work.xmax.toInt ∧
      (sub4 t.work.xmaxc j).toInt = maxCode t.work.xmax.toInt ∧ (sub4 t.work.xmaxc j).toNat < 64) ∧
    ∃ t, exec (.expmant j) s = .next t ∧
      t = { s with work := { s.work with exp := t.work.exp, mant := t.work.mant } } ∧ SameMemory s t ∧
      ((sub4 s.work.xmaxc j).toNat < 64 →
        t.work.exp.toInt = codeExp (sub4 s.work.xmaxc j).toInt ∧ t.work.mant.toInt = codeMant (sub4 s.work.xmaxc j).toInt)

/-- R214, R215, R216: APCMQ and APCMINV for `exp` in -4..6 and `mant` in 0..7; the inverse on pulse codes 0..7. Where `exp`
and `mant` are those of the largest magnitude, the left shift does not overflow and the codes are in 0..7. -/
def Obligations.PulseCoding : Prop :=
  ∀ (j : BitVec 2) (s : State), -4 ≤ s.work.exp.toInt → s.work.exp.toInt ≤ 6 → s.work.mant.toNat < 8 →
    (∃ t, exec (.apcmq j) s = .next t ∧
      t = { s with work := { s.work with
        temp := t.work.temp, temp1 := t.work.temp1, temp2 := t.work.temp2, xMc := t.work.xMc } } ∧
      SameMemory s t ∧
      (∀ m : Fin 4, m.val ≠ j.toNat → t.work.xMc[m] = s.work.xMc[m]) ∧
      ∀ i : Fin 13, (sub4 t.work.xMc j)[i].toInt =
        clamp16 (s.work.xM[i].toInt * 2 ^ (6 - s.work.exp.toInt).toNat) *
          [29128, 26215, 23832, 21846, 20165, 18725, 17476, 16384].getD s.work.mant.toNat 0 / 32768 / 4096 + 4 ∧
        ((∃ m, IsMax 13 (fun i => mag (val s.work.xM i)) m ∧ s.work.exp.toInt = codeExp (maxCode m) ∧
          s.work.mant.toInt = codeMant (maxCode m)) →
          -32768 ≤ s.work.xM[i].toInt * 2 ^ (6 - s.work.exp.toInt).toNat ∧
          s.work.xM[i].toInt * 2 ^ (6 - s.work.exp.toInt).toNat ≤ 32767 ∧ (sub4 t.work.xMc j)[i].toNat < 8)) ∧
    ∃ t, exec (.apcminv j) s = .next t ∧
      t = { s with work := { s.work with
        temp := t.work.temp, temp1 := t.work.temp1, temp2 := t.work.temp2, temp3 := t.work.temp3, xMp := t.work.xMp } } ∧
      SameMemory s t ∧
      ∀ i : Fin 13, (sub4 s.work.xMc j)[i].toNat < 8 →
        t.work.xMp[i].toInt = pulseLevel s.work.exp.toInt s.work.mant.toNat (sub4 s.work.xMc j)[i].toInt

/-- R218, R219: GRIDPOS puts the pulses on their grid, in `ep` for the encoder and in `erp` for the decoder; INVAPCM is EXPMANT,
APCMINV and GRIDPOS, and gives for codes in range the values of R217. -/
def Obligations.PulsePositions : Prop :=
  ∀ (side : Side) (j : BitVec 2) (s : State), (sub4 s.work.Mc j).toNat < 4 →
    (∃ t, exec (.gridpos side j) s = .next t ∧ SameMemory s t ∧
      t = { s with work :=
        (match side with
         | .enc => { s.work with ep := t.work.ep }
         | .dec => { s.work with erp := t.work.erp }) } ∧
      Positioned (match side with | .enc => t.work.ep | .dec => t.work.erp) (sub4 s.work.Mc j).toNat (val s.work.xMp)) ∧
    ((sub4 s.work.xmaxc j).toNat < 64 → (∀ i : Fin 13, (sub4 s.work.xMc j)[i].toNat < 8) →
      ∃ t, exec (.invapcm side j) s = .next t ∧ runAll [.expmant j, .apcminv j, .gridpos side j] s = .next t ∧
        SameMemory s t ∧
        t = { s with work := { s.work with
          exp := t.work.exp, mant := t.work.mant, temp := t.work.temp, temp1 := t.work.temp1, temp2 := t.work.temp2
          temp3 := t.work.temp3, xMp := t.work.xMp
          ep := if side = .enc then t.work.ep else s.work.ep
          erp := if side = .enc then s.work.erp else t.work.erp } } ∧
        Positioned (match side with | .enc => t.work.ep | .dec => t.work.erp) (sub4 s.work.Mc j).toNat (fun i =>
          pulseLevel (codeExp (sub4 s.work.xmaxc j).toInt) (codeMant (sub4 s.work.xmaxc j).toInt)
            (val (sub4 s.work.xMc j) i)))

/-! ### Records, rotation, homing, and where a bare step stops -/

/-- R237, R240, R238, R242: EMIT writes the record to `PRM_E` and nothing else; PRMMASK loads the codes from `PRM_D`, masked to
their widths; each copy of LARROT rotates its own side. -/
def Obligations.RecordSteps : Prop :=
  ∀ s : State,
    (∃ t, exec .emit s = .next t ∧ t = { s with mem := { s.mem with prmE := t.mem.prmE } } ∧
      SameMemoryButWords .prmE 76 s t ∧ HoldsRecord s.work (t.readWord .prmE)) ∧
    (∃ t, exec .prmmask s = .next t ∧ SameMemory s t ∧
      t = { s with work := { s.work with
        larc := t.work.larc, Nc := t.work.Nc, bc := t.work.bc, Mc := t.work.Mc, xmaxc := t.work.xmaxc
        xMc := t.work.xMc } } ∧
      HoldsRecord t.work fun n => BitVec.ofNat 16 ((s.readWord .prmD n).toNat % 2 ^ fieldWidth n)) ∧
    (∃ t, exec .larrot s = .next t ∧ SameMemory s t ∧
      t = { s with enc := { s.enc with larppLast := s.work.larpp } }) ∧
    ∃ t, exec .larrotDec s = .next t ∧ SameMemory s t ∧
      t = { s with dec := { s.dec with larppLast := s.work.larpp } }

/-- R244: HOMEAPPLY does nothing with the strap at 0; else it replaces the record after a homing frame, brings the encoder home
on a homing frame, and notes whether this frame was one. The record is that of the table of R246, its 3 at index 67, which is
the model's reading (log 27). -/
def Obligations.HomeapplyResult : Prop :=
  ∀ s : State, ∃ t, exec .homeapply s = .next t ∧ SameMemory s t ∧
    (s.homingSupported = false → t = s) ∧
    (s.homingSupported = true →
      t = { s with
        enc := t.enc
        work := { s.work with
          larc := t.work.larc, Nc := t.work.Nc, bc := t.work.bc, Mc := t.work.Mc, xmaxc := t.work.xmaxc
          xMc := t.work.xMc } } ∧
      (s.enc.lastFrameHome = true → HoldsRecord t.work homingField) ∧
      (s.enc.lastFrameHome = false → t.work = s.work) ∧
      (s.work.isHome = true → t.enc.lastFrameHome = true ∧ EncHome { t.enc with lastFrameHome := false }) ∧
      (s.work.isHome = false → t.enc = { s.enc with lastFrameHome := false }))

/-- The model's choice of log 17, log 3 (R60: "An index outside the range of its space does not exist"): exactly where a step run
alone on a working value no command produces stops, and where DECODE does; everywhere else it completes. A negative `xmaxc`
is what makes INVAPCM's own `mant` leave its table. -/
def Obligations.StepFaults : Prop :=
  ∀ (side : Side) (j : BitVec 2) (k : BitVec 8) (s : State),
    FaultsExactlyIf (160 ≤ k.toNat) (.downscale k) s ∧ FaultsExactlyIf (160 ≤ k.toNat) (.preemph k) s ∧
    FaultsExactlyIf (160 ≤ k.toNat) (.stsynth k) s ∧ FaultsExactlyIf (160 ≤ k.toNat) (.upscale k) s ∧
    FaultsExactlyIf (160 ≤ k.toNat) (.k2zone k) s ∧
    FaultsExactlyIf (OutsideLags (sub4 s.work.Nc j) ∨ 4 ≤ (sub4 s.work.bc j).toNat) (.ltpanalysis j) s ∧
    FaultsExactlyIf ((OutsideLags (sub4 s.work.Nc j) ∧ OutsideLags s.dec.nrp) ∨ 4 ≤ (sub4 s.work.bc j).toNat)
      (.ltpsynth j) s ∧
    FaultsExactlyIf (8 ≤ s.work.mant.toNat) (.apcmq j) s ∧ FaultsExactlyIf (8 ≤ s.work.mant.toNat) (.apcminv j) s ∧
    FaultsExactlyIf (4 ≤ (sub4 s.work.Mc j).toNat) (.gridpos side j) s ∧
    FaultsExactlyIf ((sub4 s.work.xmaxc j).toInt < 0 ∨ 4 ≤ (sub4 s.work.Mc j).toNat) (.invapcm side j) s ∧
    FaultsExactlyIf (OutsideLags s.dec.nrp) .decode s
end

