-- ==== Sys2Proof/Laws/Arith.lean ====
section
/-! SUPPORT. The arithmetic over exact integers: one lemma for each width operation and each primitive, and sums of products
that do not saturate. -/

namespace Sys2Proof.Machine

open Sys2Proof Sys2Proof.Safety

/-! ### Ranges and width operations -/

theorem toInt_range16 (a : Word16) : -32768 ≤ a.toInt ∧ a.toInt ≤ 32767 := by
  have h1 := BitVec.toInt_lt (x := a)
  have h2 := BitVec.le_toInt (x := a)
  constructor <;> simp at h1 h2 <;> omega

theorem toInt_range32 (a : Word32) : -2147483648 ≤ a.toInt ∧ a.toInt ≤ 2147483647 := by
  have h1 := BitVec.toInt_lt (x := a)
  have h2 := BitVec.le_toInt (x := a)
  constructor <;> simp at h1 h2 <;> omega

theorem toInt_ofInt16 {x : Int} (h : -32768 ≤ x) (h' : x ≤ 32767) : (BitVec.ofInt 16 x).toInt = x := by
  rw [BitVec.toInt_ofInt, Int.bmod_def]; split <;> omega

theorem toInt_ofInt32 {x : Int} (h : -2147483648 ≤ x) (h' : x ≤ 2147483647) : (BitVec.ofInt 32 x).toInt = x := by
  rw [BitVec.toInt_ofInt, Int.bmod_def]; split <;> omega

theorem clamp16_range (x : Int) : -32768 ≤ clamp16 x ∧ clamp16 x ≤ 32767 := by unfold clamp16; omega

theorem clamp16_id {x : Int} (h : -32768 ≤ x) (h' : x ≤ 32767) : clamp16 x = x := by unfold clamp16; omega

theorem clamp32_id {x : Int} (h : -2147483648 ≤ x) (h' : x ≤ 2147483647) : clamp32 x = x := by unfold clamp32; omega

theorem toInt_sat16 (x : Int) : (sat16 x).toInt = clamp16 x := by
  unfold sat16 clamp16; exact toInt_ofInt16 (by omega) (by omega)

theorem toInt_sat32 (x : Int) : (sat32 x).toInt = clamp32 x := by
  unfold sat32 clamp32; exact toInt_ofInt32 (by omega) (by omega)

theorem toInt_wrap16 {x : Int} (h : -32768 ≤ x) (h' : x ≤ 32767) : (wrap16 x).toInt = x := toInt_ofInt16 h h'

theorem toInt_wrap32 {x : Int} (h : -2147483648 ≤ x) (h' : x ≤ 2147483647) : (wrap32 x).toInt = x := toInt_ofInt32 h h'

theorem toInt_sext (a : Word16) : (sext a).toInt = a.toInt := by
  unfold sext; exact BitVec.toInt_signExtend_of_le (by omega)

theorem toInt_narrow (a : Word32) : (narrow a).toInt = clamp16 a.toInt := toInt_sat16 _

/-! ### The primitives (R110 to R119) -/

theorem toInt_add (a b : Word16) : (add a b).toInt = clamp16 (a.toInt + b.toInt) := toInt_sat16 _

theorem toInt_sub (a b : Word16) : (sub a b).toInt = clamp16 (a.toInt - b.toInt) := toInt_sat16 _

theorem toInt_lAdd (a b : Word32) : (lAdd a b).toInt = clamp32 (a.toInt + b.toInt) := toInt_sat32 _

theorem toInt_lSub (a b : Word32) : (lSub a b).toInt = clamp32 (a.toInt - b.toInt) := toInt_sat32 _

/-- A product of two int16 values other than -32768 times -32768. -/
theorem mul_range16 {a b : Int} (ha : -32768 ≤ a ∧ a ≤ 32767) (hb : -32768 ≤ b ∧ b ≤ 32767)
    (hn : ¬ (a = -32768 ∧ b = -32768)) : -1073709056 ≤ a * b ∧ a * b ≤ 1073709056 := by
  have key : ∀ x y : Int, -32768 ≤ x → x ≤ 32767 → -32767 ≤ y → y ≤ 32767 → -1073709056 ≤ x * y ∧ x * y ≤ 1073709056 := by
    intro x y h1 h2 h3 h4
    constructor <;> nlinarith
  by_cases h : b = -32768
  · have := key b a hb.1 hb.2 (by omega) ha.2
    rw [Int.mul_comm]; exact this
  · exact key a b ha.1 ha.2 (by omega) hb.2

theorem toInt_mult (a b : Word16) :
    (mult a b).toInt = if a.toInt = -32768 ∧ b.toInt = -32768 then 32767 else a.toInt * b.toInt / 32768 := by
  unfold mult floorShift
  split
  · rfl
  · next h =>
    have := mul_range16 (toInt_range16 a) (toInt_range16 b) h
    norm_num
    exact toInt_wrap16 (by omega) (by omega)

theorem toInt_multR (a b : Word16) :
    (multR a b).toInt = if a.toInt = -32768 ∧ b.toInt = -32768 then 32767 else round15 (a.toInt * b.toInt) := by
  unfold multR floorShift round15
  split
  · rfl
  · next h =>
    have := mul_range16 (toInt_range16 a) (toInt_range16 b) h
    norm_num
    exact toInt_wrap16 (by omega) (by omega)

theorem toInt_sAbs (a : Word16) : (sAbs a).toInt = mag a.toInt := by
  have := toInt_range16 a
  unfold sAbs mag
  split
  · next h => rw [h]; rfl
  · split
    · rw [toInt_wrap16 (by omega) (by omega)]; omega
    · rfl

theorem mag_range {x : Int} (h : -32768 ≤ x) (h' : x ≤ 32767) : 0 ≤ mag x ∧ mag x ≤ 32767 := by
  unfold mag; split <;> omega

/-- `div` on its domain. -/
theorem toInt_div {n d : Word16} (h0 : 0 ≤ n.toInt) (h : n.toInt ≤ d.toInt) :
    (div n d).toInt = if n.toInt = d.toInt then 32767 else n.toInt * 32768 / d.toInt := by
  unfold div
  by_cases hz : n.toInt = 0 ∧ d.toInt = 0
  · rw [if_pos hz, if_pos (by omega)]; rfl
  · rw [if_neg hz, if_pos ⟨h0, h⟩]
    split
    · rfl
    · next hne =>
      have hd : 0 < d.toInt := by omega
      have h1 : 0 ≤ n.toInt * 32768 / d.toInt := Int.ediv_nonneg (by omega) (by omega)
      have h2 : n.toInt * 32768 / d.toInt < 32768 := Int.ediv_lt_of_lt_mul hd (by omega)
      exact toInt_wrap16 (by omega) (by omega)

theorem toInt_lMult (a b : Word16) :
    (lMult a b).toInt = if a.toInt = -32768 ∧ b.toInt = -32768 then 2147483647 else 2 * (a.toInt * b.toInt) := by
  unfold lMult
  split
  · rfl
  · next h =>
    have := mul_range16 (toInt_range16 a) (toInt_range16 b) h
    exact toInt_wrap32 (by omega) (by omega)

/-- The count of `norm`: the first number of doublings that reaches the intervals, if the fuel suffices. -/
theorem normCount_spec {fuel : Nat} {x : Int} (hx : -2147483648 ≤ x ∧ x ≤ 2147483647)
    (hf : 1073741824 ≤ |x| * 2 ^ fuel) :
    normCount fuel x ≤ fuel ∧ Normalised (x * 2 ^ normCount fuel x) ∧
      ∀ m, m < normCount fuel x → ¬ Normalised (x * 2 ^ m) := by
  induction fuel generalizing x with
  | zero =>
    refine ⟨Nat.le_refl _, ?_, fun m hm => by simp [normCount] at hm⟩
    simp only [normCount, pow_zero, Int.mul_one] at hf ⊢
    unfold Normalised
    rcases abs_cases x with h | h <;> omega
  | succ fuel ih =>
    unfold normCount
    split
    · next h =>
      refine ⟨Nat.zero_le _, ?_, fun m hm => absurd hm (Nat.not_lt_zero m)⟩
      simp only [pow_zero, Int.mul_one]
      unfold Normalised; omega
    · next h =>
      have hf' : 1073741824 ≤ |2 * x| * 2 ^ fuel := by
        rw [abs_mul, pow_succ] at *; norm_num; linarith
      obtain ⟨h1, h2, h3⟩ := ih (x := 2 * x) (by omega) hf'
      refine ⟨by omega, ?_, ?_⟩
      · have : x * 2 ^ (normCount fuel (2 * x) + 1) = 2 * x * 2 ^ normCount fuel (2 * x) := by ring
        rw [this]; exact h2
      · intro m hm
        cases m with
        | zero => simp only [pow_zero, Int.mul_one]; unfold Normalised; omega
        | succ m =>
          have : x * 2 ^ (m + 1) = 2 * x * 2 ^ m := by ring
          rw [this]; exact h3 m (by omega)

/-- `norm` of a nonzero value (R119). -/
theorem norm_spec {L : Word32} (h : L.toInt ≠ 0) :
    (norm L).toInt = normCount 31 L.toInt ∧ normCount 31 L.toInt ≤ 30 ∧
      Normalised (L.toInt * 2 ^ normCount 31 L.toInt) ∧
      ∀ m, m < normCount 31 L.toInt → ¬ Normalised (L.toInt * 2 ^ m) := by
  have hr := toInt_range32 L
  have habs : 1 ≤ |L.toInt| := Int.one_le_abs h
  have h30 := normCount_spec (fuel := 30) hr (by norm_num; linarith)
  have h31 := normCount_spec (fuel := 31) hr (by norm_num; linarith)
  have hle : normCount 31 L.toInt ≤ 30 := by
    by_contra hgt
    exact h31.2.2 _ (by omega : normCount 30 L.toInt < _) h30.2.1
  refine ⟨?_, hle, h31.2⟩
  unfold norm
  rw [if_neg h]
  have : (BitVec.ofNat 16 (normCount 31 L.toInt)).toInt = (normCount 31 L.toInt : Int) := by
    rw [← BitVec.ofInt_natCast, toInt_ofInt16 (by omega) (by omega)]
  exact this

/-- At most one number of doublings reaches the positive interval. -/
theorem normalised_unique {x : Int} (hx : 0 < x) {m n : Nat} (hm : Normalised (x * 2 ^ m)) (hn : Normalised (x * 2 ^ n)) :
    m = n := by
  have key : ∀ m n : Nat, m < n → Normalised (x * 2 ^ m) → Normalised (x * 2 ^ n) → False := by
    intro m n hlt hm hn
    have h1 : x * 2 ^ (m + 1) ≤ x * 2 ^ n :=
      Int.mul_le_mul_of_nonneg_left (pow_le_pow_right₀ (by norm_num) hlt) (by omega)
    have h2 : x * 2 ^ (m + 1) = 2 * (x * 2 ^ m) := by ring
    have h3 : 0 < x * 2 ^ m := by positivity
    unfold Normalised at hm hn; omega
  rcases Nat.lt_trichotomy m n with h | h | h
  · exact (key m n h hm hn).elim
  · exact h
  · exact (key n m h hn hm).elim

/-! ### Shifts (R122 to R125) -/

/-- A floor division by a power of two stays in a range around 0. -/
theorem ediv_pow_range {x lo hi : Int} (n : Nat) (h : lo ≤ x) (h' : x ≤ hi) (hlo : lo ≤ 0) (hhi : 0 ≤ hi) :
    lo ≤ x / 2 ^ n ∧ x / 2 ^ n ≤ hi := by
  have hp : (0 : Int) < 2 ^ n := by positivity
  have h1 : (1 : Int) ≤ 2 ^ n := hp
  constructor
  · rw [Int.le_ediv_iff_mul_le hp]; nlinarith
  · exact Int.le_of_lt_add_one (Int.ediv_lt_of_lt_mul hp (by nlinarith))

/-- A floor division by 2^n where x lies in [-2^n, 2^n). -/
theorem ediv_pow_sign {x : Int} {n : Nat} (h : -2 ^ n ≤ x) (h' : x < 2 ^ n) : x / 2 ^ n = if x < 0 then -1 else 0 := by
  have hp : (0 : Int) < 2 ^ n := by positivity
  split
  · next hx => rw [Int.ediv_eq_iff_of_pos hp]; constructor <;> linarith
  · exact Int.ediv_eq_zero_of_lt (by omega) h'

theorem toInt_shiftRight16 {a : Int} (n : Nat) (h : -32768 ≤ a) (h' : a ≤ 32767) :
    (shiftRight16 a n).toInt = a / 2 ^ n := by
  unfold shiftRight16 floorShift
  split
  · have := ediv_pow_range n h h' (by omega) (by omega)
    exact toInt_wrap16 this.1 this.2
  · next hn =>
    have hp : (32768 : Int) ≤ 2 ^ n := by
      calc (32768 : Int) = 2 ^ 15 := by norm_num
        _ ≤ 2 ^ n := pow_le_pow_right₀ (by norm_num) (by omega)
    rw [ediv_pow_sign (n := n) (by omega) (by omega)]
    split <;> rfl

theorem toInt_shiftRight32 {a : Int} (n : Nat) (h : -2147483648 ≤ a) (h' : a ≤ 2147483647) :
    (shiftRight32 a n).toInt = a / 2 ^ n := by
  unfold shiftRight32 floorShift
  split
  · have := ediv_pow_range n h h' (by omega) (by omega)
    exact toInt_wrap32 this.1 this.2
  · next hn =>
    have hp : (2147483648 : Int) ≤ 2 ^ n := by
      calc (2147483648 : Int) = 2 ^ 31 := by norm_num
        _ ≤ 2 ^ n := pow_le_pow_right₀ (by norm_num) (by omega)
    rw [ediv_pow_sign (n := n) (by omega) (by omega)]
    split <;> rfl

theorem toInt_shl16 {a n : Word16} (h : 0 ≤ n.toInt) : (shl16 a n).toInt = clamp16 (a.toInt * 2 ^ n.toInt.toNat) := by
  unfold shl16; rw [if_pos h]; exact toInt_sat16 _

theorem toInt_shl16_neg {a n : Word16} (h : n.toInt < 0) : (shl16 a n).toInt = a.toInt / 2 ^ (-n.toInt).toNat := by
  unfold shl16; rw [if_neg (by omega)]; exact toInt_shiftRight16 _ (toInt_range16 a).1 (toInt_range16 a).2

theorem toInt_shr16 {a n : Word16} (h : 0 ≤ n.toInt) : (shr16 a n).toInt = a.toInt / 2 ^ n.toInt.toNat := by
  unfold shr16; rw [if_pos h]; exact toInt_shiftRight16 _ (toInt_range16 a).1 (toInt_range16 a).2

theorem toInt_shr16_neg {a n : Word16} (h : n.toInt < 0) :
    (shr16 a n).toInt = clamp16 (a.toInt * 2 ^ (-n.toInt).toNat) := by
  unfold shr16; rw [if_neg (by omega)]; exact toInt_sat16 _

theorem toInt_lShl {a : Word32} {n : Word16} (h : 0 ≤ n.toInt) :
    (lShl a n).toInt = clamp32 (a.toInt * 2 ^ n.toInt.toNat) := by
  unfold lShl; rw [if_pos h]; exact toInt_sat32 _

theorem toInt_lShl_neg {a : Word32} {n : Word16} (h : n.toInt < 0) :
    (lShl a n).toInt = a.toInt / 2 ^ (-n.toInt).toNat := by
  unfold lShl; rw [if_neg (by omega)]; exact toInt_shiftRight32 _ (toInt_range32 a).1 (toInt_range32 a).2

theorem toInt_lShr {a : Word32} {n : Word16} (h : 0 ≤ n.toInt) : (lShr a n).toInt = a.toInt / 2 ^ n.toInt.toNat := by
  unfold lShr; rw [if_pos h]; exact toInt_shiftRight32 _ (toInt_range32 a).1 (toInt_range32 a).2

theorem toInt_lShr_neg {a : Word32} {n : Word16} (h : n.toInt < 0) :
    (lShr a n).toInt = clamp32 (a.toInt * 2 ^ (-n.toInt).toNat) := by
  unfold lShr; rw [if_neg (by omega)]; exact toInt_sat32 _

/-! ### Sums of products -/

/-- A sum of doubled products of pairs none of which saturates: where `|acc|` plus a bound c on each term times their number
stays within int32, the sum is exact. -/
theorem toInt_macSum {pairs : List (Word16 × Word16)} {acc : Word32} {c : Int}
    (hb : ∀ p ∈ pairs, |2 * (p.1.toInt * p.2.toInt)| ≤ c) (hc : c ≤ 2147483647)
    (hs : |acc.toInt| + c * pairs.length ≤ 2147483647) :
    (macSum acc pairs).toInt = acc.toInt + (pairs.map fun p => 2 * (p.1.toInt * p.2.toInt)).sum := by
  induction pairs generalizing acc with
  | nil => simp [macSum]
  | cons p ps ih =>
    have hp := hb p (by simp)
    have hc0 : 0 ≤ c := le_trans (abs_nonneg _) hp
    have hm : (lMult p.1 p.2).toInt = 2 * (p.1.toInt * p.2.toInt) := by
      rw [toInt_lMult, if_neg]
      rintro ⟨h1, h2⟩
      rw [h1, h2] at hp; norm_num at hp; omega
    simp only [List.length_cons, Nat.cast_add, Nat.cast_one] at hs
    have hlen : 0 ≤ c * (ps.length : Int) := by positivity
    have hsum : |acc.toInt + 2 * (p.1.toInt * p.2.toInt)| ≤ |acc.toInt| + c :=
      le_trans (abs_add_le _ _) (by linarith)
    have hexp : c * ((ps.length : Int) + 1) = c * ps.length + c := by ring
    have hb' := abs_le.mp hsum
    have hadd : (lAdd acc (lMult p.1 p.2)).toInt = acc.toInt + 2 * (p.1.toInt * p.2.toInt) := by
      rw [toInt_lAdd, hm, clamp32_id] <;> linarith
    show (macSum (lAdd acc (lMult p.1 p.2)) ps).toInt = _
    rw [ih (fun q hq => hb q (by simp [hq])) (by rw [hadd]; linarith), hadd]
    simp only [List.map_cons, List.sum_cons]
    ring

/-! ### Arrays -/

theorem elt_eq {w n : Nat} (v : Vector (BitVec w) n) {i : Nat} (h : i < n) : elt v i = v[i] := by
  simp [elt, h]

theorem elt_ofFn {w n : Nat} (f : Fin n → BitVec w) {i : Nat} (h : i < n) : elt (Vector.ofFn f) i = f ⟨i, h⟩ := by
  rw [elt_eq _ h]; simp

theorem sub4_set4 {α : Type} (v : Vector α 4) (j : BitVec 2) (x : α) : sub4 (set4 v j x) j = x := by
  simp [sub4, set4]

theorem getElem_set4_ne {α : Type} (v : Vector α 4) (j : BitVec 2) (x : α) {i : Nat} (h : i < 4) (hn : i ≠ j.toNat) :
    (set4 v j x)[i] = v[i] := by
  unfold set4; rw [Vector.getElem_set_ne]; omega

/-- `maxAbs` finds the largest clamped magnitude (R163, R200, R212). -/
theorem maxAbs_spec (l : List Word16) :
    0 ≤ (maxAbs l).toInt ∧ (∀ x ∈ l, mag x.toInt ≤ (maxAbs l).toInt) ∧
      ((maxAbs l).toInt = 0 ∨ ∃ x ∈ l, mag x.toInt = (maxAbs l).toInt) := by
  have key : ∀ (l : List Word16) (m : Word16),
      let r := l.foldl (fun m x => if (sAbs x).toInt > m.toInt then sAbs x else m) m
      m.toInt ≤ r.toInt ∧ (∀ x ∈ l, mag x.toInt ≤ r.toInt) ∧ (r = m ∨ ∃ x ∈ l, mag x.toInt = r.toInt) := by
    intro l
    induction l with
    | nil => intro m; simp
    | cons y ys ih =>
      intro m
      simp only [List.foldl_cons]
      have h := ih (if (sAbs y).toInt > m.toInt then sAbs y else m)
      simp only at h
      obtain ⟨h1, h2, h3⟩ := h
      have hy := toInt_sAbs y
      have hmx : ∀ z : Word16, z = (if (sAbs y).toInt > m.toInt then sAbs y else m) →
          m.toInt ≤ z.toInt ∧ mag y.toInt ≤ z.toInt := by
        rintro z rfl
        split <;> omega
      have hz := hmx _ rfl
      refine ⟨le_trans hz.1 h1, ?_, ?_⟩
      · intro x hx
        rcases List.mem_cons.mp hx with rfl | hx
        · exact le_trans hz.2 h1
        · exact h2 x hx
      · rcases h3 with h3 | ⟨x, hx, h3⟩
        · by_cases hc : (sAbs y).toInt > m.toInt
          · right; exact ⟨y, by simp, by rw [h3, if_pos hc, hy]⟩
          · left; rw [h3, if_neg hc]
        · right; exact ⟨x, by simp [hx], h3⟩
  have h := key l 0
  simp only at h
  refine ⟨?_, h.2.1, ?_⟩
  · exact h.1
  · rcases h.2.2 with h3 | h3
    · left
      show (maxAbs l).toInt = 0
      unfold maxAbs; rw [h3]; rfl
    · right; exact h3

end Sys2Proof.Machine
end

