-- ==== Sys2Proof/Laws/State.lean ====
section
/-! SUPPORT. What each update of the state leaves in each field, one lemma a field, so that no proof unfolds a record
update. -/

namespace Sys2Proof.Machine

open Sys2Proof

/-! ### `onWork` -/

@[simp] theorem onWork_enc (s : State) (f : Work → Work) : (s.onWork f).enc = s.enc := rfl
@[simp] theorem onWork_dec (s : State) (f : Work → Work) : (s.onWork f).dec = s.dec := rfl
@[simp] theorem onWork_curTx (s : State) (f : Work → Work) : (s.onWork f).curTx = s.curTx := rfl
@[simp] theorem onWork_curRx (s : State) (f : Work → Work) : (s.onWork f).curRx = s.curRx := rfl
@[simp] theorem onWork_flags (s : State) (f : Work → Work) : (s.onWork f).flags = s.flags := rfl
@[simp] theorem onWork_resVal (s : State) (f : Work → Work) : (s.onWork f).resVal = s.resVal := rfl
@[simp] theorem onWork_aluY (s : State) (f : Work → Work) : (s.onWork f).aluY = s.aluY := rfl
@[simp] theorem onWork_homingSupported (s : State) (f : Work → Work) :
    (s.onWork f).homingSupported = s.homingSupported := rfl
@[simp] theorem onWork_mem (s : State) (f : Work → Work) : (s.onWork f).mem = s.mem := rfl
@[simp] theorem onWork_work (s : State) (f : Work → Work) : (s.onWork f).work = f s.work := rfl
@[simp] theorem onWork_inputs (s : State) (f : Work → Work) : (s.onWork f).inputs = s.inputs := rfl
@[simp] theorem onWork_epoch (s : State) (f : Work → Work) : (s.onWork f).epoch = s.epoch := rfl
@[simp] theorem onWork_draws (s : State) (f : Work → Work) : (s.onWork f).draws = s.draws := rfl

/-! ### `onEnc` -/

@[simp] theorem onEnc_enc (s : State) (f : EncState → EncState) : (s.onEnc f).enc = f s.enc := rfl
@[simp] theorem onEnc_dec (s : State) (f : EncState → EncState) : (s.onEnc f).dec = s.dec := rfl
@[simp] theorem onEnc_curTx (s : State) (f : EncState → EncState) : (s.onEnc f).curTx = s.curTx := rfl
@[simp] theorem onEnc_curRx (s : State) (f : EncState → EncState) : (s.onEnc f).curRx = s.curRx := rfl
@[simp] theorem onEnc_flags (s : State) (f : EncState → EncState) : (s.onEnc f).flags = s.flags := rfl
@[simp] theorem onEnc_resVal (s : State) (f : EncState → EncState) : (s.onEnc f).resVal = s.resVal := rfl
@[simp] theorem onEnc_aluY (s : State) (f : EncState → EncState) : (s.onEnc f).aluY = s.aluY := rfl
@[simp] theorem onEnc_homingSupported (s : State) (f : EncState → EncState) :
    (s.onEnc f).homingSupported = s.homingSupported := rfl
@[simp] theorem onEnc_mem (s : State) (f : EncState → EncState) : (s.onEnc f).mem = s.mem := rfl
@[simp] theorem onEnc_work (s : State) (f : EncState → EncState) : (s.onEnc f).work = s.work := rfl
@[simp] theorem onEnc_inputs (s : State) (f : EncState → EncState) : (s.onEnc f).inputs = s.inputs := rfl
@[simp] theorem onEnc_epoch (s : State) (f : EncState → EncState) : (s.onEnc f).epoch = s.epoch := rfl
@[simp] theorem onEnc_draws (s : State) (f : EncState → EncState) : (s.onEnc f).draws = s.draws := rfl

/-! ### `onDec` -/

@[simp] theorem onDec_enc (s : State) (f : DecState → DecState) : (s.onDec f).enc = s.enc := rfl
@[simp] theorem onDec_dec (s : State) (f : DecState → DecState) : (s.onDec f).dec = f s.dec := rfl
@[simp] theorem onDec_curTx (s : State) (f : DecState → DecState) : (s.onDec f).curTx = s.curTx := rfl
@[simp] theorem onDec_curRx (s : State) (f : DecState → DecState) : (s.onDec f).curRx = s.curRx := rfl
@[simp] theorem onDec_flags (s : State) (f : DecState → DecState) : (s.onDec f).flags = s.flags := rfl
@[simp] theorem onDec_resVal (s : State) (f : DecState → DecState) : (s.onDec f).resVal = s.resVal := rfl
@[simp] theorem onDec_aluY (s : State) (f : DecState → DecState) : (s.onDec f).aluY = s.aluY := rfl
@[simp] theorem onDec_homingSupported (s : State) (f : DecState → DecState) :
    (s.onDec f).homingSupported = s.homingSupported := rfl
@[simp] theorem onDec_mem (s : State) (f : DecState → DecState) : (s.onDec f).mem = s.mem := rfl
@[simp] theorem onDec_work (s : State) (f : DecState → DecState) : (s.onDec f).work = s.work := rfl
@[simp] theorem onDec_inputs (s : State) (f : DecState → DecState) : (s.onDec f).inputs = s.inputs := rfl
@[simp] theorem onDec_epoch (s : State) (f : DecState → DecState) : (s.onDec f).epoch = s.epoch := rfl
@[simp] theorem onDec_draws (s : State) (f : DecState → DecState) : (s.onDec f).draws = s.draws := rfl

/-! ### `startCommand` -/

@[simp] theorem startCommand_enc (s : State) : (startCommand s).enc = s.enc := rfl
@[simp] theorem startCommand_dec (s : State) : (startCommand s).dec = s.dec := rfl
@[simp] theorem startCommand_curTx (s : State) : (startCommand s).curTx = s.curTx := rfl
@[simp] theorem startCommand_curRx (s : State) : (startCommand s).curRx = s.curRx := rfl
@[simp] theorem startCommand_flags (s : State) :
    (startCommand s).flags = { s.flags with busy := true, done := false } := rfl
@[simp] theorem startCommand_resVal (s : State) : (startCommand s).resVal = s.resVal := rfl
@[simp] theorem startCommand_aluY (s : State) : (startCommand s).aluY = s.aluY := rfl
@[simp] theorem startCommand_homingSupported (s : State) : (startCommand s).homingSupported = s.homingSupported := rfl
@[simp] theorem startCommand_mem (s : State) : (startCommand s).mem = s.mem := rfl
@[simp] theorem startCommand_work (s : State) : (startCommand s).work = s.work := rfl
@[simp] theorem startCommand_inputs (s : State) : (startCommand s).inputs = s.inputs := rfl
@[simp] theorem startCommand_epoch (s : State) : (startCommand s).epoch = s.epoch := rfl
@[simp] theorem startCommand_draws (s : State) : (startCommand s).draws = s.draws := rfl

/-! ### `finishCommand` -/

@[simp] theorem finishCommand_enc (s : State) : (finishCommand s).enc = s.enc := rfl
@[simp] theorem finishCommand_dec (s : State) : (finishCommand s).dec = s.dec := rfl
@[simp] theorem finishCommand_curTx (s : State) : (finishCommand s).curTx = s.curTx := rfl
@[simp] theorem finishCommand_curRx (s : State) : (finishCommand s).curRx = s.curRx := rfl
@[simp] theorem finishCommand_flags (s : State) :
    (finishCommand s).flags = { s.flags with busy := false, done := true } := rfl
@[simp] theorem finishCommand_resVal (s : State) : (finishCommand s).resVal = s.resVal := rfl
@[simp] theorem finishCommand_aluY (s : State) : (finishCommand s).aluY = s.aluY := rfl
@[simp] theorem finishCommand_homingSupported (s : State) : (finishCommand s).homingSupported = s.homingSupported := rfl
@[simp] theorem finishCommand_mem (s : State) : (finishCommand s).mem = s.mem := rfl
@[simp] theorem finishCommand_work (s : State) : (finishCommand s).work = s.work := rfl
@[simp] theorem finishCommand_inputs (s : State) : (finishCommand s).inputs = s.inputs := rfl
@[simp] theorem finishCommand_epoch (s : State) : (finishCommand s).epoch = s.epoch := rfl
@[simp] theorem finishCommand_draws (s : State) : (finishCommand s).draws = s.draws := rfl

/-! ### `setValid` -/

@[simp] theorem setValid_enc (b : Bool) (s : State) : (setValid b s).enc = s.enc := rfl
@[simp] theorem setValid_dec (b : Bool) (s : State) : (setValid b s).dec = s.dec := rfl
@[simp] theorem setValid_curTx (b : Bool) (s : State) : (setValid b s).curTx = s.curTx := rfl
@[simp] theorem setValid_curRx (b : Bool) (s : State) : (setValid b s).curRx = s.curRx := rfl
@[simp] theorem setValid_flags (b : Bool) (s : State) : (setValid b s).flags = { s.flags with valid := b } := rfl
@[simp] theorem setValid_resVal (b : Bool) (s : State) : (setValid b s).resVal = s.resVal := rfl
@[simp] theorem setValid_aluY (b : Bool) (s : State) : (setValid b s).aluY = s.aluY := rfl
@[simp] theorem setValid_homingSupported (b : Bool) (s : State) :
    (setValid b s).homingSupported = s.homingSupported := rfl
@[simp] theorem setValid_mem (b : Bool) (s : State) : (setValid b s).mem = s.mem := rfl
@[simp] theorem setValid_work (b : Bool) (s : State) : (setValid b s).work = s.work := rfl
@[simp] theorem setValid_inputs (b : Bool) (s : State) : (setValid b s).inputs = s.inputs := rfl
@[simp] theorem setValid_epoch (b : Bool) (s : State) : (setValid b s).epoch = s.epoch := rfl
@[simp] theorem setValid_draws (b : Bool) (s : State) : (setValid b s).draws = s.draws := rfl

/-! ### `setEq` -/

@[simp] theorem setEq_enc (b : Bool) (s : State) : (setEq b s).enc = s.enc := rfl
@[simp] theorem setEq_dec (b : Bool) (s : State) : (setEq b s).dec = s.dec := rfl
@[simp] theorem setEq_curTx (b : Bool) (s : State) : (setEq b s).curTx = s.curTx := rfl
@[simp] theorem setEq_curRx (b : Bool) (s : State) : (setEq b s).curRx = s.curRx := rfl
@[simp] theorem setEq_flags (b : Bool) (s : State) : (setEq b s).flags = { s.flags with eq := b } := rfl
@[simp] theorem setEq_resVal (b : Bool) (s : State) : (setEq b s).resVal = s.resVal := rfl
@[simp] theorem setEq_aluY (b : Bool) (s : State) : (setEq b s).aluY = s.aluY := rfl
@[simp] theorem setEq_homingSupported (b : Bool) (s : State) : (setEq b s).homingSupported = s.homingSupported := rfl
@[simp] theorem setEq_mem (b : Bool) (s : State) : (setEq b s).mem = s.mem := rfl
@[simp] theorem setEq_work (b : Bool) (s : State) : (setEq b s).work = s.work := rfl
@[simp] theorem setEq_inputs (b : Bool) (s : State) : (setEq b s).inputs = s.inputs := rfl
@[simp] theorem setEq_epoch (b : Bool) (s : State) : (setEq b s).epoch = s.epoch := rfl
@[simp] theorem setEq_draws (b : Bool) (s : State) : (setEq b s).draws = s.draws := rfl

/-! ### `writeWord` -/

@[simp] theorem writeWord_enc (s : State) (b : WordBuf) (i : Nat) (v : Word16) : (s.writeWord b i v).enc = s.enc := rfl
@[simp] theorem writeWord_dec (s : State) (b : WordBuf) (i : Nat) (v : Word16) : (s.writeWord b i v).dec = s.dec := rfl
@[simp] theorem writeWord_curTx (s : State) (b : WordBuf) (i : Nat) (v : Word16) :
    (s.writeWord b i v).curTx = s.curTx := rfl
@[simp] theorem writeWord_curRx (s : State) (b : WordBuf) (i : Nat) (v : Word16) :
    (s.writeWord b i v).curRx = s.curRx := rfl
@[simp] theorem writeWord_flags (s : State) (b : WordBuf) (i : Nat) (v : Word16) :
    (s.writeWord b i v).flags = s.flags := rfl
@[simp] theorem writeWord_resVal (s : State) (b : WordBuf) (i : Nat) (v : Word16) :
    (s.writeWord b i v).resVal = s.resVal := rfl
@[simp] theorem writeWord_aluY (s : State) (b : WordBuf) (i : Nat) (v : Word16) :
    (s.writeWord b i v).aluY = s.aluY := rfl
@[simp] theorem writeWord_homingSupported (s : State) (b : WordBuf) (i : Nat) (v : Word16) :
    (s.writeWord b i v).homingSupported = s.homingSupported := rfl
@[simp] theorem writeWord_mem (s : State) (b : WordBuf) (i : Nat) (v : Word16) :
    (s.writeWord b i v).mem = s.mem.setWords b (Mem.write (s.mem.words b) i v) := rfl
@[simp] theorem writeWord_work (s : State) (b : WordBuf) (i : Nat) (v : Word16) :
    (s.writeWord b i v).work = s.work := rfl
@[simp] theorem writeWord_inputs (s : State) (b : WordBuf) (i : Nat) (v : Word16) :
    (s.writeWord b i v).inputs = s.inputs := rfl
@[simp] theorem writeWord_epoch (s : State) (b : WordBuf) (i : Nat) (v : Word16) :
    (s.writeWord b i v).epoch = s.epoch := rfl
@[simp] theorem writeWord_draws (s : State) (b : WordBuf) (i : Nat) (v : Word16) :
    (s.writeWord b i v).draws = s.draws := rfl

/-! ### `writeOctet` -/

@[simp] theorem writeOctet_enc (s : State) (b : OctetBuf) (i : Nat) (v : Octet) :
    (s.writeOctet b i v).enc = s.enc := rfl
@[simp] theorem writeOctet_dec (s : State) (b : OctetBuf) (i : Nat) (v : Octet) :
    (s.writeOctet b i v).dec = s.dec := rfl
@[simp] theorem writeOctet_curTx (s : State) (b : OctetBuf) (i : Nat) (v : Octet) :
    (s.writeOctet b i v).curTx = s.curTx := rfl
@[simp] theorem writeOctet_curRx (s : State) (b : OctetBuf) (i : Nat) (v : Octet) :
    (s.writeOctet b i v).curRx = s.curRx := rfl
@[simp] theorem writeOctet_flags (s : State) (b : OctetBuf) (i : Nat) (v : Octet) :
    (s.writeOctet b i v).flags = s.flags := rfl
@[simp] theorem writeOctet_resVal (s : State) (b : OctetBuf) (i : Nat) (v : Octet) :
    (s.writeOctet b i v).resVal = s.resVal := rfl
@[simp] theorem writeOctet_aluY (s : State) (b : OctetBuf) (i : Nat) (v : Octet) :
    (s.writeOctet b i v).aluY = s.aluY := rfl
@[simp] theorem writeOctet_homingSupported (s : State) (b : OctetBuf) (i : Nat) (v : Octet) :
    (s.writeOctet b i v).homingSupported = s.homingSupported := rfl
@[simp] theorem writeOctet_mem (s : State) (b : OctetBuf) (i : Nat) (v : Octet) :
    (s.writeOctet b i v).mem = s.mem.setOctets b (Mem.write (s.mem.octets b) i v) := rfl
@[simp] theorem writeOctet_work (s : State) (b : OctetBuf) (i : Nat) (v : Octet) :
    (s.writeOctet b i v).work = s.work := rfl
@[simp] theorem writeOctet_inputs (s : State) (b : OctetBuf) (i : Nat) (v : Octet) :
    (s.writeOctet b i v).inputs = s.inputs := rfl
@[simp] theorem writeOctet_epoch (s : State) (b : OctetBuf) (i : Nat) (v : Octet) :
    (s.writeOctet b i v).epoch = s.epoch := rfl
@[simp] theorem writeOctet_draws (s : State) (b : OctetBuf) (i : Nat) (v : Octet) :
    (s.writeOctet b i v).draws = s.draws := rfl

/-! ### `dropWork` -/

@[simp] theorem dropWork_enc (s : State) : (dropWork s).enc = s.enc := rfl
@[simp] theorem dropWork_dec (s : State) : (dropWork s).dec = s.dec := rfl
@[simp] theorem dropWork_curTx (s : State) : (dropWork s).curTx = s.curTx := rfl
@[simp] theorem dropWork_curRx (s : State) : (dropWork s).curRx = s.curRx := rfl
@[simp] theorem dropWork_flags (s : State) : (dropWork s).flags = s.flags := rfl
@[simp] theorem dropWork_resVal (s : State) : (dropWork s).resVal = s.resVal := rfl
@[simp] theorem dropWork_aluY (s : State) : (dropWork s).aluY = s.aluY := rfl
@[simp] theorem dropWork_homingSupported (s : State) : (dropWork s).homingSupported = s.homingSupported := rfl
@[simp] theorem dropWork_mem (s : State) : (dropWork s).mem = s.mem := rfl
@[simp] theorem dropWork_work (s : State) : (dropWork s).work = Work.blank := rfl
@[simp] theorem dropWork_inputs (s : State) : (dropWork s).inputs = s.inputs := rfl
@[simp] theorem dropWork_epoch (s : State) : (dropWork s).epoch = s.epoch := rfl
@[simp] theorem dropWork_draws (s : State) : (dropWork s).draws = s.draws := rfl

/-! ### `homeEncoder` -/

@[simp] theorem homeEncoder_enc (s : State) : (homeEncoder s).enc = EncState.home := rfl
@[simp] theorem homeEncoder_dec (s : State) : (homeEncoder s).dec = s.dec := rfl
@[simp] theorem homeEncoder_curTx (s : State) : (homeEncoder s).curTx = s.curTx := rfl
@[simp] theorem homeEncoder_curRx (s : State) : (homeEncoder s).curRx = s.curRx := rfl
@[simp] theorem homeEncoder_flags (s : State) : (homeEncoder s).flags = s.flags := rfl
@[simp] theorem homeEncoder_resVal (s : State) : (homeEncoder s).resVal = s.resVal := rfl
@[simp] theorem homeEncoder_aluY (s : State) : (homeEncoder s).aluY = s.aluY := rfl
@[simp] theorem homeEncoder_homingSupported (s : State) : (homeEncoder s).homingSupported = s.homingSupported := rfl
@[simp] theorem homeEncoder_mem (s : State) : (homeEncoder s).mem = s.mem := rfl
@[simp] theorem homeEncoder_work (s : State) : (homeEncoder s).work = s.work := rfl
@[simp] theorem homeEncoder_inputs (s : State) : (homeEncoder s).inputs = s.inputs := rfl
@[simp] theorem homeEncoder_epoch (s : State) : (homeEncoder s).epoch = s.epoch := rfl
@[simp] theorem homeEncoder_draws (s : State) : (homeEncoder s).draws = s.draws := rfl

/-! ### `selfReset` -/

@[simp] theorem selfReset_enc (s : State) :
    (selfReset s).enc = { EncState.home with lastFrameHome := s.enc.lastFrameHome } := rfl
@[simp] theorem selfReset_dec (s : State) : (selfReset s).dec = s.dec := rfl
@[simp] theorem selfReset_curTx (s : State) : (selfReset s).curTx = s.curTx := rfl
@[simp] theorem selfReset_curRx (s : State) : (selfReset s).curRx = s.curRx := rfl
@[simp] theorem selfReset_flags (s : State) : (selfReset s).flags = s.flags := rfl
@[simp] theorem selfReset_resVal (s : State) : (selfReset s).resVal = s.resVal := rfl
@[simp] theorem selfReset_aluY (s : State) : (selfReset s).aluY = s.aluY := rfl
@[simp] theorem selfReset_homingSupported (s : State) : (selfReset s).homingSupported = s.homingSupported := rfl
@[simp] theorem selfReset_mem (s : State) : (selfReset s).mem = s.mem := rfl
@[simp] theorem selfReset_work (s : State) : (selfReset s).work = s.work := rfl
@[simp] theorem selfReset_inputs (s : State) : (selfReset s).inputs = s.inputs := rfl
@[simp] theorem selfReset_epoch (s : State) : (selfReset s).epoch = s.epoch := rfl
@[simp] theorem selfReset_draws (s : State) : (selfReset s).draws = s.draws := rfl

/-! ### `homeDecoder` -/

@[simp] theorem homeDecoder_enc (s : State) : (homeDecoder s).enc = s.enc := rfl
@[simp] theorem homeDecoder_dec (s : State) : (homeDecoder s).dec = DecState.home := rfl
@[simp] theorem homeDecoder_curTx (s : State) : (homeDecoder s).curTx = s.curTx := rfl
@[simp] theorem homeDecoder_curRx (s : State) : (homeDecoder s).curRx = s.curRx := rfl
@[simp] theorem homeDecoder_flags (s : State) : (homeDecoder s).flags = s.flags := rfl
@[simp] theorem homeDecoder_resVal (s : State) : (homeDecoder s).resVal = s.resVal := rfl
@[simp] theorem homeDecoder_aluY (s : State) : (homeDecoder s).aluY = s.aluY := rfl
@[simp] theorem homeDecoder_homingSupported (s : State) : (homeDecoder s).homingSupported = s.homingSupported := rfl
@[simp] theorem homeDecoder_mem (s : State) : (homeDecoder s).mem = s.mem := rfl
@[simp] theorem homeDecoder_work (s : State) : (homeDecoder s).work = s.work := rfl
@[simp] theorem homeDecoder_inputs (s : State) : (homeDecoder s).inputs = s.inputs := rfl
@[simp] theorem homeDecoder_epoch (s : State) : (homeDecoder s).epoch = s.epoch := rfl
@[simp] theorem homeDecoder_draws (s : State) : (homeDecoder s).draws = s.draws := rfl

/-! ### `homePacker` -/

@[simp] theorem homePacker_enc (s : State) : (homePacker s).enc = s.enc := rfl
@[simp] theorem homePacker_dec (s : State) : (homePacker s).dec = s.dec := rfl
@[simp] theorem homePacker_curTx (s : State) : (homePacker s).curTx = Cursor.zero := rfl
@[simp] theorem homePacker_curRx (s : State) : (homePacker s).curRx = Cursor.zero := rfl
@[simp] theorem homePacker_flags (s : State) :
    (homePacker s).flags = { s.flags with valid := false, eq := false } := rfl
@[simp] theorem homePacker_resVal (s : State) : (homePacker s).resVal = s.resVal := rfl
@[simp] theorem homePacker_aluY (s : State) : (homePacker s).aluY = s.aluY := rfl
@[simp] theorem homePacker_homingSupported (s : State) : (homePacker s).homingSupported = s.homingSupported := rfl
@[simp] theorem homePacker_mem (s : State) : (homePacker s).mem = s.mem := rfl
@[simp] theorem homePacker_work (s : State) : (homePacker s).work = s.work := rfl
@[simp] theorem homePacker_inputs (s : State) : (homePacker s).inputs = s.inputs := rfl
@[simp] theorem homePacker_epoch (s : State) : (homePacker s).epoch = s.epoch := rfl
@[simp] theorem homePacker_draws (s : State) : (homePacker s).draws = s.draws := rfl

/-! ### `presentRequest` -/

@[simp] theorem presentRequest_enc (r : Request) (s : State) : (presentRequest r s).enc = s.enc := rfl
@[simp] theorem presentRequest_dec (r : Request) (s : State) : (presentRequest r s).dec = s.dec := rfl
@[simp] theorem presentRequest_curTx (r : Request) (s : State) : (presentRequest r s).curTx = s.curTx := rfl
@[simp] theorem presentRequest_curRx (r : Request) (s : State) : (presentRequest r s).curRx = s.curRx := rfl
@[simp] theorem presentRequest_flags (r : Request) (s : State) : (presentRequest r s).flags = s.flags := rfl
@[simp] theorem presentRequest_resVal (r : Request) (s : State) : (presentRequest r s).resVal = s.resVal := rfl
@[simp] theorem presentRequest_aluY (r : Request) (s : State) : (presentRequest r s).aluY = s.aluY := rfl
@[simp] theorem presentRequest_homingSupported (r : Request) (s : State) :
    (presentRequest r s).homingSupported = s.homingSupported := rfl
@[simp] theorem presentRequest_mem (r : Request) (s : State) : (presentRequest r s).mem = s.mem := rfl
@[simp] theorem presentRequest_work (r : Request) (s : State) : (presentRequest r s).work = s.work := rfl
@[simp] theorem presentRequest_inputs (r : Request) (s : State) :
    (presentRequest r s).inputs = .req r :: s.inputs := rfl
@[simp] theorem presentRequest_epoch (r : Request) (s : State) : (presentRequest r s).epoch = s.epoch := rfl
@[simp] theorem presentRequest_draws (r : Request) (s : State) : (presentRequest r s).draws = s.draws := rfl

/-! ### `drawResVal` -/

@[simp] theorem drawResVal_enc (s : State) : (drawResVal s).enc = s.enc := rfl
@[simp] theorem drawResVal_dec (s : State) : (drawResVal s).dec = s.dec := rfl
@[simp] theorem drawResVal_curTx (s : State) : (drawResVal s).curTx = s.curTx := rfl
@[simp] theorem drawResVal_curRx (s : State) : (drawResVal s).curRx = s.curRx := rfl
@[simp] theorem drawResVal_flags (s : State) : (drawResVal s).flags = s.flags := rfl
@[simp] theorem drawResVal_resVal (s : State) : (drawResVal s).resVal = Config.resVal s.draws := rfl
@[simp] theorem drawResVal_aluY (s : State) : (drawResVal s).aluY = s.aluY := rfl
@[simp] theorem drawResVal_homingSupported (s : State) : (drawResVal s).homingSupported = s.homingSupported := rfl
@[simp] theorem drawResVal_mem (s : State) : (drawResVal s).mem = s.mem := rfl
@[simp] theorem drawResVal_work (s : State) : (drawResVal s).work = s.work := rfl
@[simp] theorem drawResVal_inputs (s : State) : (drawResVal s).inputs = s.inputs := rfl
@[simp] theorem drawResVal_epoch (s : State) : (drawResVal s).epoch = s.epoch := rfl
@[simp] theorem drawResVal_draws (s : State) : (drawResVal s).draws = s.draws + 1 := rfl

/-! ### `packBit` -/

@[simp] theorem packBit_enc (x : Bool) (s : State) : (packBit x s).enc = s.enc := rfl
@[simp] theorem packBit_dec (x : Bool) (s : State) : (packBit x s).dec = s.dec := rfl
@[simp] theorem packBit_curTx (x : Bool) (s : State) : (packBit x s).curTx = s.curTx.advance := rfl
@[simp] theorem packBit_curRx (x : Bool) (s : State) : (packBit x s).curRx = s.curRx := rfl
@[simp] theorem packBit_flags (x : Bool) (s : State) : (packBit x s).flags = s.flags := rfl
@[simp] theorem packBit_resVal (x : Bool) (s : State) : (packBit x s).resVal = s.resVal := rfl
@[simp] theorem packBit_aluY (x : Bool) (s : State) : (packBit x s).aluY = s.aluY := rfl
@[simp] theorem packBit_homingSupported (x : Bool) (s : State) :
    (packBit x s).homingSupported = s.homingSupported := rfl
@[simp] theorem packBit_mem (x : Bool) (s : State) :
    (packBit x s).mem = (s.writeOctet .frmTx s.curTx.bytePtr.toNat
      (putBit (s.readOctet .frmTx s.curTx.bytePtr.toNat) (s.curTx.bitPosition packOrder) x)).mem := rfl
@[simp] theorem packBit_work (x : Bool) (s : State) : (packBit x s).work = s.work := rfl
@[simp] theorem packBit_inputs (x : Bool) (s : State) : (packBit x s).inputs = s.inputs := rfl
@[simp] theorem packBit_epoch (x : Bool) (s : State) : (packBit x s).epoch = s.epoch := rfl
@[simp] theorem packBit_draws (x : Bool) (s : State) : (packBit x s).draws = s.draws := rfl

/-! ### `State.reset` -/

@[simp] theorem reset_enc : State.reset.enc = EncState.home := rfl
@[simp] theorem reset_dec : State.reset.dec = DecState.home := rfl
@[simp] theorem reset_mem : State.reset.mem = Memory.empty := rfl
@[simp] theorem reset_inputs : State.reset.inputs = [] := rfl

end Sys2Proof.Machine
end

