-- ==== Sys2Proof/Laws/Memory.lean ====
section
/-! SUPPORT. Buffers: a read after a write, and the canonical form (R60). -/

namespace Sys2Proof.Machine

open Sys2Proof

/-! ### One buffer -/

/-- A read after a write: the value at its index, every other index as before. -/
theorem Mem.read?_write {w : Nat} (m : Mem w) (i k : Nat) (x : BitVec w) :
    Mem.read? (Mem.write m i x) k = if i = k then some x else Mem.read? m k := by
  induction m with
  | nil => simp [Mem.write, Mem.read?]
  | cons h m ih =>
    obtain ⟨a, v⟩ := h
    unfold Mem.write
    split
    · simp [Mem.read?]
    · split
      · subst i
        simp only [Mem.read?]
        split <;> simp_all
      · simp only [Mem.read?, ih]
        split <;> split <;> simp_all

/-- Lowering the bound keeps the canonical form. -/
theorem Mem.wfFrom_mono {w : Nat} {len lo lo' : Nat} {m : Mem w} (h : Mem.wfFrom len lo m = true) (hl : lo' ≤ lo) :
    Mem.wfFrom len lo' m = true := by
  cases m with
  | nil => rfl
  | cons p m =>
    simp only [Mem.wfFrom, Bool.and_eq_true, decide_eq_true_eq] at h ⊢
    exact ⟨⟨by omega, h.1.2⟩, h.2⟩

/-- A write inside the buffer keeps the canonical form. -/
theorem Mem.wfFrom_write {w : Nat} {len i : Nat} {x : BitVec w} (hi : i < len) {lo : Nat} {m : Mem w}
    (h : Mem.wfFrom len lo m = true) (hlo : lo ≤ i) : Mem.wfFrom len lo (Mem.write m i x) = true := by
  induction m generalizing lo with
  | nil => simp [Mem.write, Mem.wfFrom, hi, hlo]
  | cons p m ih =>
    obtain ⟨a, v⟩ := p
    simp only [Mem.wfFrom, Bool.and_eq_true, decide_eq_true_eq] at h
    unfold Mem.write
    split
    · simp only [Mem.wfFrom, Bool.and_eq_true, decide_eq_true_eq]
      exact ⟨⟨hlo, hi⟩, ⟨by omega, h.1.2⟩, h.2⟩
    · split
      · subst i
        simp only [Mem.wfFrom, Bool.and_eq_true, decide_eq_true_eq]
        exact ⟨⟨hlo, hi⟩, h.2⟩
      · simp only [Mem.wfFrom, Bool.and_eq_true, decide_eq_true_eq]
        exact ⟨h.1, ih h.2 (by omega)⟩

/-- A write inside the buffer keeps the canonical form. -/
theorem Mem.wf_write {w : Nat} {len i : Nat} {x : BitVec w} {m : Mem w} (hi : i < len) (h : Mem.wf len m = true) :
    Mem.wf len (Mem.write m i x) = true := Mem.wfFrom_write hi h (Nat.zero_le i)

/-- An index below the bound of a canonical buffer is not listed. -/
theorem Mem.read?_below {w : Nat} {len lo i : Nat} {m : Mem w} (h : Mem.wfFrom len lo m = true) (hi : i < lo) :
    Mem.read? m i = none := by
  induction m generalizing lo with
  | nil => rfl
  | cons p m ih =>
    obtain ⟨a, v⟩ := p
    simp only [Mem.wfFrom, Bool.and_eq_true, decide_eq_true_eq] at h
    simp only [Mem.read?]
    rw [if_neg (by omega)]
    exact ih h.2 (by omega)

/-- Canonical buffers that read the same are the same list. -/
theorem Mem.ext_read? {w : Nat} {len lo : Nat} {m m' : Mem w} (h : Mem.wfFrom len lo m = true)
    (h' : Mem.wfFrom len lo m' = true) (hr : ∀ i, Mem.read? m i = Mem.read? m' i) : m = m' := by
  induction m generalizing lo m' with
  | nil =>
    cases m' with
    | nil => rfl
    | cons p m' => have := hr p.1; simp [Mem.read?] at this
  | cons p m ih =>
    obtain ⟨a, v⟩ := p
    cases m' with
    | nil => have := hr a; simp [Mem.read?] at this
    | cons p' m' =>
      obtain ⟨a', v'⟩ := p'
      simp only [Mem.wfFrom, Bool.and_eq_true, decide_eq_true_eq] at h h'
      have key : a = a' := by
        rcases Nat.lt_trichotomy a a' with hlt | heq | hgt
        · have := hr a
          simp only [Mem.read?, if_true] at this
          rw [if_neg (by omega), Mem.read?_below h'.2 (by omega)] at this
          simp at this
        · exact heq
        · have := hr a'
          simp only [Mem.read?, if_true] at this
          rw [if_neg (by omega), Mem.read?_below h.2 (by omega)] at this
          simp at this
      subst key
      have hv : v = v' := by have := hr a; simpa [Mem.read?] using this
      subst hv
      have ht : m = m' := ih h.2 h'.2 fun i => by
        by_cases hia : a = i
        · subst hia; rw [Mem.read?_below h.2 (by omega), Mem.read?_below h'.2 (by omega)]
        · have := hr i; simpa [Mem.read?, hia] using this
      rw [ht]

/-! ### The six buffers -/

@[simp] theorem Memory.words_setWords (m : Memory) (b c : WordBuf) (x : Mem 16) :
    (m.setWords b x).words c = if b = c then x else m.words c := by
  cases b <;> cases c <;> rfl

@[simp] theorem Memory.octets_setWords (m : Memory) (b : WordBuf) (c : OctetBuf) (x : Mem 16) :
    (m.setWords b x).octets c = m.octets c := by
  cases b <;> cases c <;> rfl

@[simp] theorem Memory.octets_setOctets (m : Memory) (b c : OctetBuf) (x : Mem 8) :
    (m.setOctets b x).octets c = if b = c then x else m.octets c := by
  cases b <;> cases c <;> rfl

@[simp] theorem Memory.words_setOctets (m : Memory) (b : OctetBuf) (c : WordBuf) (x : Mem 8) :
    (m.setOctets b x).words c = m.words c := by
  cases b <;> cases c <;> rfl

/-- The canonical form, buffer by buffer. -/
theorem Memory.wf_iff (m : Memory) :
    m.wf = true ↔ (∀ b, Mem.wf b.len (m.words b) = true) ∧ ∀ b, Mem.wf b.len (m.octets b) = true := by
  constructor
  · intro h
    simp only [Memory.wf, Bool.and_eq_true] at h
    obtain ⟨⟨⟨⟨⟨h1, h2⟩, h3⟩, h4⟩, h5⟩, h6⟩ := h
    exact ⟨fun b => by cases b <;> assumption, fun b => by cases b <;> assumption⟩
  · rintro ⟨h, h'⟩
    simp only [Memory.wf, Bool.and_eq_true]
    exact ⟨⟨⟨⟨⟨h .pcmIn, h .prmE⟩, h .prmD⟩, h .pcmOut⟩, h' .frmTx⟩, h' .frmRx⟩

/-- Replacing a buffer by a canonical one keeps the canonical form. -/
theorem Memory.wf_setWords {m : Memory} {b : WordBuf} {x : Mem 16} (h : m.wf = true) (hx : Mem.wf b.len x = true) :
    (m.setWords b x).wf = true := by
  rw [Memory.wf_iff] at h ⊢
  refine ⟨fun c => ?_, fun c => by simpa using h.2 c⟩
  rw [Memory.words_setWords]
  split
  · next hbc => subst hbc; exact hx
  · exact h.1 c

/-- Replacing a frame buffer by a canonical one keeps the canonical form. -/
theorem Memory.wf_setOctets {m : Memory} {b : OctetBuf} {x : Mem 8} (h : m.wf = true) (hx : Mem.wf b.len x = true) :
    (m.setOctets b x).wf = true := by
  rw [Memory.wf_iff] at h ⊢
  refine ⟨fun c => by simpa using h.1 c, fun c => ?_⟩
  rw [Memory.octets_setOctets]
  split
  · next hbc => subst hbc; exact hx
  · exact h.2 c

/-- Unwritten buffers are canonical. -/
theorem Memory.wf_empty : Memory.empty.wf = true := rfl

/-- Reset leaves canonical buffers. -/
theorem reset_wf : State.reset.mem.wf = true := rfl

/-! ### Reads and writes of the state -/

/-- A read of a 16-bit element after a write of one. -/
theorem State.readWord_writeWord (s : State) (b c : WordBuf) (i k : Nat) (v : Word16) :
    (s.writeWord b i v).readWord c k = if b = c ∧ i = k then v else s.readWord c k := by
  unfold State.readWord
  simp only [writeWord_mem, writeWord_epoch, Memory.words_setWords]
  by_cases hb : b = c
  · subst hb
    rw [if_pos rfl, Mem.read?_write]
    by_cases hi : i = k <;> simp [hi]
  · simp [hb]

/-- A read of an octet after a write of a 16-bit element. -/
@[simp] theorem State.readOctet_writeWord (s : State) (b : WordBuf) (c : OctetBuf) (i k : Nat) (v : Word16) :
    (s.writeWord b i v).readOctet c k = s.readOctet c k := by
  simp [State.readOctet]

/-- A read of an octet after a write of one. -/
theorem State.readOctet_writeOctet (s : State) (b c : OctetBuf) (i k : Nat) (v : Octet) :
    (s.writeOctet b i v).readOctet c k = if b = c ∧ i = k then v else s.readOctet c k := by
  unfold State.readOctet
  simp only [writeOctet_mem, writeOctet_epoch, Memory.octets_setOctets]
  by_cases hb : b = c
  · subst hb
    rw [if_pos rfl, Mem.read?_write]
    by_cases hi : i = k <;> simp [hi]
  · simp [hb]

/-- A read of a 16-bit element after a write of an octet. -/
@[simp] theorem State.readWord_writeOctet (s : State) (b : OctetBuf) (c : WordBuf) (i k : Nat) (v : Octet) :
    (s.writeOctet b i v).readWord c k = s.readWord c k := by
  simp [State.readWord]

/-- A read depends on the buffers and the epoch alone. -/
theorem State.readWord_congr {s t : State} (hm : t.mem = s.mem) (he : t.epoch = s.epoch) (b : WordBuf) (i : Nat) :
    t.readWord b i = s.readWord b i := by
  simp [State.readWord, hm, he]

/-- A read depends on the buffers and the epoch alone. -/
theorem State.readOctet_congr {s t : State} (hm : t.mem = s.mem) (he : t.epoch = s.epoch) (b : OctetBuf) (i : Nat) :
    t.readOctet b i = s.readOctet b i := by
  simp [State.readOctet, hm, he]

/-- A write inside a buffer keeps the canonical form. -/
theorem State.wf_writeWord {s : State} {b : WordBuf} {i : Nat} {v : Word16} (h : s.mem.wf = true) (hi : i < b.len) :
    (s.writeWord b i v).mem.wf = true := by
  rw [writeWord_mem]
  exact Memory.wf_setWords h (Mem.wf_write hi ((Memory.wf_iff _).1 h |>.1 b))

/-- A write inside a frame buffer keeps the canonical form. -/
theorem State.wf_writeOctet {s : State} {b : OctetBuf} {i : Nat} {v : Octet} (h : s.mem.wf = true) (hi : i < b.len) :
    (s.writeOctet b i v).mem.wf = true := by
  rw [writeOctet_mem]
  exact Memory.wf_setOctets h (Mem.wf_write hi ((Memory.wf_iff _).1 h |>.2 b))

/-- Writing consecutive elements changes the buffers alone. -/
theorem State.writeWords_eq (s : State) (b : WordBuf) (i : Nat) (l : List Word16) :
    s.writeWords b i l = { s with mem := s.mem.setWords b ((s.writeWords b i l).mem.words b) } := by
  induction l generalizing s i with
  | nil => cases b <;> rfl
  | cons v vs ih => rw [State.writeWords, ih]; cases b <;> rfl

/-- A read after writing consecutive elements. -/
theorem State.readWord_writeWords (s : State) (b c : WordBuf) (i k : Nat) (l : List Word16) :
    (s.writeWords b i l).readWord c k =
      if b = c ∧ i ≤ k then l.getD (k - i) (s.readWord c k) else s.readWord c k := by
  induction l generalizing s i with
  | nil => simp [State.writeWords]
  | cons v vs ih =>
    rw [State.writeWords, ih, State.readWord_writeWord]
    by_cases hb : b = c
    · by_cases hik : i = k
      · subst hik; simp [hb]
      · by_cases hle : i ≤ k
        · have h1 : i + 1 ≤ k := by omega
          have h2 : k - i = (k - (i + 1)) + 1 := by omega
          simp [hb, hik, hle, h1, h2]
        · have h1 : ¬ i + 1 ≤ k := by omega
          simp [hb, hik, hle, h1]
    · simp [hb]

/-- A read of an octet after writing 16-bit elements. -/
@[simp] theorem State.readOctet_writeWords (s : State) (b : WordBuf) (c : OctetBuf) (i k : Nat) (l : List Word16) :
    (s.writeWords b i l).readOctet c k = s.readOctet c k := by
  induction l generalizing s i with
  | nil => rfl
  | cons v vs ih => rw [State.writeWords, ih, State.readOctet_writeWord]

/-- Writing consecutive elements inside a buffer keeps the canonical form. -/
theorem State.wf_writeWords {s : State} {b : WordBuf} {i : Nat} {l : List Word16} (h : s.mem.wf = true)
    (hl : i + l.length ≤ b.len) : (s.writeWords b i l).mem.wf = true := by
  induction l generalizing s i with
  | nil => exact h
  | cons v vs ih =>
    simp only [List.length_cons] at hl
    exact ih (State.wf_writeWord h (by omega)) (by omega)

end Sys2Proof.Machine
end

