-- ==== Sys2Proof/Laws/Ops.lean ====
section
/-! SUPPORT. How a command, a step and an ALU operation end; cursors; what packing and unpacking a value does to the bit
stream of a frame. -/

namespace Sys2Proof.Machine

open Sys2Proof Sys2Proof.Safety

/-! ### How an instruction ends -/

/-- A command answers a next state, always, and only this one (R230). -/
theorem runCommand_next {f : State → State} {s t : State} :
    runCommand f s = .next t ↔ t = finishCommand (f (startCommand s)) := by
  unfold runCommand; constructor
  · intro h; cases h; rfl
  · rintro rfl; rfl

/-- A step answers a next state exactly where what it addresses exists, and only this one. -/
theorem runStep_next {b : Bool} {f : State → State} {s t : State} :
    runStep b f s = .next t ↔ b = true ∧ t = f s := by
  cases b
  · simp [runStep]
  · simp only [runStep, if_true, true_and]
    constructor
    · intro h; cases h; rfl
    · rintro rfl; rfl

/-- A step stops exactly where what it addresses does not exist. -/
theorem runStep_fault {b : Bool} {f : State → State} {s : State} :
    runStep b f s = .fault .noSuchElement ↔ b = false := by
  cases b <;> simp [runStep]

/-- An ALU operation answers a next state, always, in which `alu_y` alone differs (R126). -/
theorem showAlu_next {y : Word32} {s t : State} : showAlu y s = .next t ↔ t = { s with aluY := y } := by
  unfold showAlu; constructor
  · intro h; cases h; rfl
  · rintro rfl; rfl

/-! ### Cursors -/

/-- A cursor is determined by its number of bits used (R143). -/
theorem Cursor.eq_of_bitsUsed {c d : Cursor} (h : c.bitsUsed = d.bitsUsed) : c = d := by
  obtain ⟨B, b⟩ := c
  obtain ⟨B', b'⟩ := d
  simp only [Cursor.bitsUsed] at h
  have h1 := b.isLt
  have h2 := b'.isLt
  have hB : B = B' := BitVec.eq_of_toNat_eq (by omega)
  have hb : b = b' := BitVec.eq_of_toNat_eq (by omega)
  rw [hB, hb]

theorem Cursor.ok_iff (c : Cursor) : c.ok = true ↔ c.bitsUsed ≤ 264 := by simp [Cursor.ok]

@[simp] theorem Cursor.bitsUsed_zero : Cursor.zero.bitsUsed = 0 := rfl

/-- Octet and bit of a cursor, from its number of bits used. -/
theorem Cursor.div_mod (c : Cursor) : c.bitsUsed / 8 = c.bytePtr.toNat ∧ c.bitsUsed % 8 = c.bitPtr.toNat := by
  have := c.bitPtr.isLt
  unfold Cursor.bitsUsed
  omega

/-- Inside the frame a cursor advances by one bit (R140). -/
theorem Cursor.bitsUsed_advance {c : Cursor} (h : c.bitsUsed < 264) : c.advance.bitsUsed = c.bitsUsed + 1 := by
  obtain ⟨B, b⟩ := c
  have hb := b.isLt
  have hB := B.isLt
  simp only [Cursor.bitsUsed] at h
  unfold Cursor.advance
  split
  · next h7 =>
    have h7' : b.toNat = 7 := by
      have h7'' : b = 7 := h7
      rw [h7'']; rfl
    simp only [Cursor.bitsUsed, BitVec.toNat_add]
    have : (1 : BitVec 6).toNat = 1 := rfl
    have h0 : (0 : BitVec 3).toNat = 0 := rfl
    rw [this, h0]
    omega
  · next h7 =>
    have h7' : b.toNat ≠ 7 := fun he => h7 (BitVec.eq_of_toNat_eq he)
    simp only [Cursor.bitsUsed, BitVec.toNat_add]
    have : (1 : BitVec 3).toNat = 1 := rfl
    rw [this]
    omega

/-! ### Bits of an octet and of the stream -/

/-- `putBit` sets the bit it names and keeps the others (R140). -/
theorem getLsbD_putBit (o : Octet) (b : Nat) (x : Bool) (k : Nat) (hb : b < 8) :
    (putBit o b x).getLsbD k = if k = b then x else o.getLsbD k := by
  have h1 : ∀ j, ((1 : Octet) <<< b).getLsbD j = decide (j = b) := by
    intro j
    rw [BitVec.getLsbD_shiftLeft]
    have : (1 : Octet).getLsbD (j - b) = decide (j - b = 0) := by
      show (1#8).getLsbD (j - b) = _
      rw [BitVec.getLsbD_one]; simp
    rw [this]
    by_cases hj : j = b
    · subst hj; simp [hb]
    · by_cases hlt : j < b
      · simp [hlt, hj]
      · have : ¬ (j - b = 0) := by omega
        simp [hj, this]
  have h2 : (if x then (1 : Octet) <<< b else 0).getLsbD k = (x && decide (k = b)) := by
    cases x
    · exact BitVec.getLsbD_zero
    · rw [if_pos rfl, h1]; rfl
  unfold putBit
  rw [BitVec.getLsbD_or, BitVec.getLsbD_and, BitVec.getLsbD_not, h1, h2]
  by_cases hk : k = b
  · subst hk
    cases x <;> simp
  · by_cases hk8 : k < 8
    · rw [decide_eq_false hk, decide_eq_true hk8, if_neg hk]; cases x <;> simp
    · have h8 : o.getLsbD k = false := BitVec.getLsbD_of_ge _ _ (by omega)
      rw [decide_eq_false hk, h8, if_neg hk]; cases x <;> simp

/-- The stream after one bit is packed: the bit at the cursor, every other bit as before (R62, R140). -/
theorem streamBit_packBit (x : Bool) (s : State) (p : Nat) :
    streamBit (packBit x s) .frmTx p = if p = s.curTx.bitsUsed then x else streamBit s .frmTx p := by
  have hdm := s.curTx.div_mod
  have hb := s.curTx.bitPtr.isLt
  have hro : ∀ i, (packBit x s).readOctet .frmTx i =
      if s.curTx.bytePtr.toNat = i then
        putBit (s.readOctet .frmTx s.curTx.bytePtr.toNat) (7 - s.curTx.bitPtr.toNat) x
      else s.readOctet .frmTx i := by
    intro i
    have := State.readOctet_writeOctet s .frmTx .frmTx s.curTx.bytePtr.toNat i
      (putBit (s.readOctet .frmTx s.curTx.bytePtr.toNat) (7 - s.curTx.bitPtr.toNat) x)
    refine Eq.trans this ?_
    by_cases hi : s.curTx.bytePtr.toNat = i
    · rw [if_pos ⟨rfl, hi⟩, if_pos hi]
    · rw [if_neg fun h => hi h.2, if_neg hi]
  unfold streamBit
  rw [hro]
  by_cases hp : p = s.curTx.bitsUsed
  · subst hp
    rw [hdm.1, hdm.2, if_pos rfl, if_pos rfl, getLsbD_putBit _ _ _ _ (by omega), if_pos rfl]
  · rw [if_neg hp]
    split
    · next hB =>
      rw [getLsbD_putBit _ _ _ _ (by omega), if_neg (by omega), hB]
    · rfl

/-- Packing a bit inside the frame keeps the canonical form. -/
theorem wf_packBit {x : Bool} {s : State} (h : s.mem.wf = true) (hc : s.curTx.bitsUsed < 264) :
    (packBit x s).mem.wf = true := by
  rw [packBit_mem]
  refine State.wf_writeOctet h ?_
  have := s.curTx.div_mod
  show s.curTx.bytePtr.toNat < 33
  omega

/-- Packing a value, most significant bit first. -/
theorem packValue_succ (v : Octet) (n : Nat) (s : State) :
    packValue v (n + 1) s = packValue v n (packBit (v.getLsbD n) s) := by
  simp [packValue, bitOrder, packOrder, List.range_succ]

@[simp] theorem packValue_zero (v : Octet) (s : State) : packValue v 0 s = s := rfl

/-- Packing a bit changes `FRM_TX` and `CUR_TX` alone. -/
theorem packBit_frame (x : Bool) (s : State) :
    packBit x s =
      { s with curTx := s.curTx.advance, mem := { s.mem with frmTx := (packBit x s).mem.frmTx } } := rfl

/-- Everything packing a value does (R140): the cursor moves by n; the n stream bits from the cursor on hold the low n bits of
the value, most significant first; every other bit, every octet outside the frame and everything else is as before. -/
theorem packValue_spec (v : Octet) {n : Nat} {s : State} (h : s.curTx.bitsUsed + n ≤ 264) :
    (packValue v n s).curTx.bitsUsed = s.curTx.bitsUsed + n ∧
    (∀ p, streamBit (packValue v n s) .frmTx p =
      if s.curTx.bitsUsed ≤ p ∧ p < s.curTx.bitsUsed + n then v.getLsbD (s.curTx.bitsUsed + n - 1 - p)
      else streamBit s .frmTx p) ∧
    (∀ i, 33 ≤ i → (packValue v n s).readOctet .frmTx i = s.readOctet .frmTx i) ∧
    packValue v n s =
      { s with
        curTx := (packValue v n s).curTx
        mem := { s.mem with frmTx := (packValue v n s).mem.frmTx } } ∧
    (s.mem.wf = true → (packValue v n s).mem.wf = true) := by
  induction n generalizing s with
  | zero => exact ⟨rfl, fun p => by rw [packValue_zero, if_neg (by omega)], fun _ _ => rfl, rfl, id⟩
  | succ n ih =>
    rw [packValue_succ]
    have hlt : s.curTx.bitsUsed < 264 := by omega
    have hadv : (packBit (v.getLsbD n) s).curTx.bitsUsed = s.curTx.bitsUsed + 1 := Cursor.bitsUsed_advance hlt
    obtain ⟨h1, h2, h3, h4, h5⟩ := ih (s := packBit (v.getLsbD n) s) (by omega)
    refine ⟨by omega, ?_, ?_, ?_, fun hw => h5 (wf_packBit hw hlt)⟩
    · intro p
      rw [h2 p, hadv, streamBit_packBit]
      by_cases hp : p = s.curTx.bitsUsed
      · subst hp
        rw [if_neg (by omega), if_pos rfl, if_pos (by omega)]
        congr 1; omega
      · by_cases hin : s.curTx.bitsUsed + 1 ≤ p ∧ p < s.curTx.bitsUsed + 1 + n
        · rw [if_pos hin, if_pos (by omega)]; congr 1; omega
        · rw [if_neg hin, if_neg hp, if_neg (by omega)]
    · intro i hi
      rw [h3 i hi]
      have := State.readOctet_writeOctet s .frmTx .frmTx s.curTx.bytePtr.toNat i
        (putBit (s.readOctet .frmTx s.curTx.bytePtr.toNat) (s.curTx.bitPosition packOrder) (v.getLsbD n))
      have hdm := s.curTx.div_mod
      rw [if_neg (by omega)] at this
      exact this
    · rw [h4]; rfl

/-- Unpacking a bit: the value gains the stream bit at the cursor, and the cursor alone moves (R141). -/
theorem frameBit_eq (s : State) : frameBit s s.curRx = streamBit s .frmRx s.curRx.bitsUsed := by
  have hdm := s.curRx.div_mod
  unfold frameBit streamBit
  rw [hdm.1, hdm.2]
  rfl

/-- Everything unpacking a value does (R141): bit q of the value is the stream bit `n - 1 - q` places past the cursor, higher
bits are those of the start value, the cursor moves by n and nothing else changes. -/
theorem unpackFold_spec {n : Nat} {o : Octet} {s : State} (hn : n ≤ 8) (h : s.curRx.bitsUsed + n ≤ 264) :
    ((List.range n).reverse.foldl unpackBit (o, s)).2 =
      { s with curRx := ((List.range n).reverse.foldl unpackBit (o, s)).2.curRx } ∧
    ((List.range n).reverse.foldl unpackBit (o, s)).2.curRx.bitsUsed = s.curRx.bitsUsed + n ∧
    ∀ q, ((List.range n).reverse.foldl unpackBit (o, s)).1.getLsbD q =
      (o.getLsbD q || (decide (q < n) && streamBit s .frmRx (s.curRx.bitsUsed + n - 1 - q))) := by
  induction n generalizing o s with
  | zero => refine ⟨rfl, rfl, fun q => by simp⟩
  | succ n ih =>
    have hr : (List.range (n + 1)).reverse = n :: (List.range n).reverse := by simp [List.range_succ]
    rw [hr, List.foldl_cons]
    have hlt : s.curRx.bitsUsed < 264 := by omega
    have hadv : s.curRx.advance.bitsUsed = s.curRx.bitsUsed + 1 := Cursor.bitsUsed_advance hlt
    obtain ⟨h1, h2, h3⟩ := ih (o := (unpackBit (o, s) n).1) (s := (unpackBit (o, s) n).2) (by omega)
      (by show s.curRx.advance.bitsUsed + n ≤ 264; omega)
    have hpair : unpackBit (o, s) n = ((unpackBit (o, s) n).1, (unpackBit (o, s) n).2) := rfl
    rw [hpair]
    refine ⟨by rw [h1]; rfl, ?_, ?_⟩
    · rw [h2]
      show s.curRx.advance.bitsUsed + n = _
      omega
    · intro q
      rw [h3 q]
      have hs : ∀ p, streamBit (unpackBit (o, s) n).2 .frmRx p = streamBit s .frmRx p := fun p => rfl
      have hc : (unpackBit (o, s) n).2.curRx.bitsUsed = s.curRx.bitsUsed + 1 := hadv
      have ho : (unpackBit (o, s) n).1.getLsbD q =
          (o.getLsbD q || (decide (q = n) && streamBit s .frmRx s.curRx.bitsUsed)) := by
        show (o ||| (if frameBit s s.curRx then (1 : Octet) <<< n else 0)).getLsbD q = _
        rw [BitVec.getLsbD_or, frameBit_eq]
        congr 1
        cases hb : streamBit s .frmRx s.curRx.bitsUsed
        · simp
        · simp only [if_true, Bool.and_true]
          rw [BitVec.getLsbD_shiftLeft]
          show (_ && _ && (1#8).getLsbD (q - n)) = _
          rw [BitVec.getLsbD_one]
          by_cases hq : q = n
          · subst hq; simp; omega
          · by_cases hqn : q < n
            · simp [hqn, hq]
            · have : ¬ (q - n = 0) := by omega
              simp [this, hq]
      rw [ho, hs, hc, Bool.or_assoc]
      congr 1
      by_cases hq : q = n
      · subst hq
        simp
      · have h1 : s.curRx.bitsUsed + 1 + n - 1 - q = s.curRx.bitsUsed + (n + 1) - 1 - q := by omega
        rw [h1]
        by_cases hqn : q < n
        · have : q < n + 1 := by omega
          simp [hq, hqn]; omega
        · have h' : ¬ q < n + 1 := by omega
          rw [decide_eq_false hq, decide_eq_false hqn, decide_eq_false h']; simp

/-- Everything `unpackValue` does (R141). -/
theorem unpackValue_spec {n : Nat} {s : State} (hn : n ≤ 8) (h : s.curRx.bitsUsed + n ≤ 264) :
    (unpackValue n s).2 = { s with curRx := (unpackValue n s).2.curRx } ∧
    (unpackValue n s).2.curRx.bitsUsed = s.curRx.bitsUsed + n ∧
    ∀ q, (unpackValue n s).1.getLsbD q =
      (decide (q < n) && streamBit s .frmRx (s.curRx.bitsUsed + n - 1 - q)) := by
  have := unpackFold_spec (o := 0) hn h
  refine ⟨this.1, this.2.1, fun q => ?_⟩
  have h3 := this.2.2 q
  rw [show (0 : Octet).getLsbD q = false from BitVec.getLsbD_zero, Bool.false_or] at h3
  exact h3

end Sys2Proof.Machine
end

