-- ==== Sys2Proof/Laws/Frames.lean ====
section
/-! SUPPORT. What each step of the sequencer may change: one frame a step. The fields under the quantifier are those the step
may write; everything else is as before. -/

namespace Sys2Proof.Machine

open Sys2Proof

theorem stepHomedet_frame (s : State) :
    ∃ y0, stepHomedet s = { s with work := { s.work with
      isHome := y0 } } :=
  ⟨_, rfl⟩

theorem stepDownscale_frame (k : Nat) (s : State) :
    ∃ y0, stepDownscale k s = { s with work := { s.work with
      so := y0 } } :=
  ⟨_, rfl⟩

theorem stepAutocorr_frame (s : State) :
    ∃ y0 y1 y2 y3 y4, stepAutocorr s = { s with work := { s.work with
      smax := y0, scalauto := y1, temp := y2, Lacf := y3, s := y4 } } :=
  ⟨_, _, _, _, _, rfl⟩

theorem stepR2lar_frame (s : State) :
    ∃ y0 y1, stepR2lar s = { s with work := { s.work with
      lar := y0, temp := y1 } } :=
  ⟨_, _, rfl⟩

theorem stepLarq_frame (s : State) :
    ∃ y0 y1, stepLarq s = { s with work := { s.work with
      larc := y0, temp := y1 } } :=
  ⟨_, _, rfl⟩

theorem stepLardec_frame (s : State) :
    ∃ y0 y1 y2, stepLardec s = { s with work := { s.work with
      larpp := y0, temp1 := y1, temp2 := y2 } } :=
  ⟨_, _, _, rfl⟩

theorem stepLarinterp_frame (side : Side) (zone : BitVec 2) (s : State) :
    ∃ y0, stepLarinterp side zone s = { s with work := { s.work with
      larp := y0 } } :=
  ⟨_, rfl⟩

theorem stepLar2rp_frame (zone : BitVec 2) (s : State) :
    ∃ y0 y1, stepLar2rp zone s = { s with work := { s.work with
      rrp := y0, temp := y1 } } :=
  ⟨_, _, rfl⟩

theorem stepK2zone_frame (k : Nat) (s : State) :
    ∃ y0, stepK2zone k s = { s with work := { s.work with
      zone := y0 } } :=
  ⟨_, rfl⟩

theorem stepLtpanalysis_frame (j : BitVec 2) (s : State) :
    ∃ y0 y1 y2, stepLtpanalysis j s = { s with work := { s.work with
      bp := y0, dpp := y1, e := y2 } } :=
  ⟨_, _, _, rfl⟩

theorem stepWeight_frame (s : State) :
    ∃ y0 y1 y2 y3, stepWeight s = { s with work := { s.work with
      wtW := y0, x := y1, Lresult := y2, Ltemp := y3 } } :=
  ⟨_, _, _, _, rfl⟩

theorem stepGridsel_frame (j : BitVec 2) (s : State) :
    ∃ y0 y1 y2 y3 y4 y5, stepGridsel j s = { s with work := { s.work with
      Mc := y0, EM := y1, xM := y2, Lresult := y3, temp1 := y4, Ltemp := y5 } } :=
  ⟨_, _, _, _, _, _, rfl⟩

theorem stepXmaxq_frame (j : BitVec 2) (s : State) :
    ∃ y0 y1 y2 y3 y4, stepXmaxq j s = { s with work := { s.work with
      xmax := y0, exp := y1, itest := y2, temp := y3, xmaxc := y4 } } :=
  ⟨_, _, _, _, _, rfl⟩

theorem stepExpmant_frame (j : BitVec 2) (s : State) :
    ∃ y0 y1, stepExpmant j s = { s with work := { s.work with
      exp := y0, mant := y1 } } :=
  ⟨_, _, rfl⟩

theorem stepApcmq_frame (j : BitVec 2) (s : State) :
    ∃ y0 y1 y2 y3, stepApcmq j s = { s with work := { s.work with
      temp1 := y0, temp2 := y1, temp := y2, xMc := y3 } } :=
  ⟨_, _, _, _, rfl⟩

theorem stepApcminv_frame (j : BitVec 2) (s : State) :
    ∃ y0 y1 y2 y3 y4, stepApcminv j s = { s with work := { s.work with
      temp1 := y0, temp2 := y1, temp3 := y2, temp := y3, xMp := y4 } } :=
  ⟨_, _, _, _, _, rfl⟩

theorem stepPrmmask_frame (s : State) :
    ∃ y0 y1 y2 y3 y4 y5, stepPrmmask s = { s with work := { s.work with
      larc := y0, Nc := y1, bc := y2, Mc := y3, xmaxc := y4, xMc := y5 } } :=
  ⟨_, _, _, _, _, _, rfl⟩

theorem stepSchur_frame (s : State) :
    ∃ y0 y1 y2 y3 y4, stepSchur s = { s with work := { s.work with
      temp := y0, acf := y1, P := y2, K := y3, r := y4 } } := by
  unfold stepSchur State.onWork
  by_cases h : s.work.Lacf[0].toInt = 0
  · simp only [h, if_true]; exact ⟨_, _, _, _, _, rfl⟩
  · simp only [h, if_false]; exact ⟨_, _, _, _, _, rfl⟩

/-- The gain part of LTPSEARCH writes `temp`, `R`, `S` and the code alone (R200 part 5). -/
theorem searchGain_frame (j : BitVec 2) (Lmax Lpower : Word32) (w : Work) :
    ∃ y0 y1 y2 y3, searchGain j Lmax Lpower w = { w with temp := y0, R := y1, S := y2, bc := set4 w.bc j y3 } := by
  unfold searchGain
  split
  · exact ⟨_, _, _, _, rfl⟩
  · split <;> exact ⟨_, _, _, _, rfl⟩

theorem stepLtpsearch_frame (j : BitVec 2) (s : State) :
    ∃ y0 y1 y2 y3 y4 y5 y6 y7 y8 y9 y10 y11, stepLtpsearch j s = { s with work := { s.work with
      dmax := y0, temp := y1, scal := y2, wtLtp := y3, Lmax := y4, Lpower := y5, Lresult := y6, Ltemp := y7, R := y8
      S := y9, Nc := set4 s.work.Nc j y10, bc := set4 s.work.bc j y11 } } := by
  unfold stepLtpsearch State.onWork
  dsimp only
  obtain ⟨a, b, c, d, h⟩ := searchGain_frame j
    (lShr (searchLag (Vector.ofFn fun k : Fin 40 =>
        shr16 (subSegment s.work.d j)[k] (searchScale (maxAbs (subSegment s.work.d j).toList))).toList s.enc.dp).2
      (sub 6 (searchScale (maxAbs (subSegment s.work.d j).toList))))
    _ _
  rw [h]
  exact ⟨_, _, _, _, _, _, _, _, _, _, _, _, rfl⟩

theorem stepGridpos_frame (side : Side) (j : BitVec 2) (s : State) :
    ∃ y0, stepGridpos side j s = { s with work :=
      (match side with
       | .enc => { s.work with ep := y0 }
       | .dec => { s.work with erp := y0 }) } := by
  cases side <;> exact ⟨_, rfl⟩

/-- LARINTERP and LAR2RP in a list of zones. -/
theorem zones_fold_frame (side : Side) (l : List (BitVec 2)) (s : State) :
    ∃ y0 y1 y2, l.foldl (fun s zone => stepLar2rp zone (stepLarinterp side zone s)) s = { s with work := { s.work with
      larp := y0, rrp := y1, temp := y2 } } := by
  induction l generalizing s with
  | nil => exact ⟨_, _, _, rfl⟩
  | cons z l ih =>
    obtain ⟨a, h⟩ := stepLarinterp_frame side z s
    obtain ⟨b0, b1, h'⟩ := stepLar2rp_frame z (stepLarinterp side z s)
    obtain ⟨c0, c1, c2, h''⟩ := ih (stepLar2rp z (stepLarinterp side z s))
    rw [List.foldl_cons, h'', h', h]
    exact ⟨_, _, _, rfl⟩

theorem stepDecoderefl_frame (side : Side) (s : State) :
    ∃ y0 y1 y2 y3 y4 y5, stepDecoderefl side s = { s with work := { s.work with
      larpp := y0, larp := y1, rrp := y2, temp := y3, temp1 := y4, temp2 := y5 } } := by
  unfold stepDecoderefl
  obtain ⟨a0, a1, a2, h⟩ := stepLardec_frame s
  obtain ⟨b0, b1, b2, h'⟩ := zones_fold_frame side quarters (stepLardec s)
  rw [h', h]
  exact ⟨_, _, _, _, _, _, rfl⟩

theorem stepOffsetcomp_frame (s : State) :
    ∃ y0 y1 y2 y3 y4 y5 y6, stepOffsetcomp s = { s with
      enc := { s.enc with z1 := s.work.so, Lz2 := y0 }
      work := { s.work with s1 := y1, msp := y2, lsp := y3, temp := y4, Ls2 := y5, sof := y6 } } :=
  ⟨_, _, _, _, _, _, _, rfl⟩

theorem stepPreemph_frame (k : Nat) (s : State) :
    ∃ y0, stepPreemph k s = { s with
      enc := { s.enc with mp := s.work.sof }
      work := { s.work with s := s.work.s.setIfInBounds k y0 } } :=
  ⟨_, rfl⟩

/-- One sample of STANALYSIS. -/
theorem stanalysisSample_frame (s : State) (k : Fin 160) :
    ∃ y0 y1 y2 y3 y4 y5, stanalysisSample s k = { s with
      enc := { s.enc with u := y0 }
      work := { s.work with d := s.work.d.set k y1, di := y2, sav := y3, temp := y4, zone := y5 } } :=
  ⟨_, _, _, _, _, _, rfl⟩

theorem stanalysis_fold_frame (l : List (Fin 160)) (s : State) :
    ∃ y0 y1 y2 y3 y4 y5, l.foldl stanalysisSample s = { s with
      enc := { s.enc with u := y0 }
      work := { s.work with d := y1, di := y2, sav := y3, temp := y4, zone := y5 } } := by
  induction l generalizing s with
  | nil => exact ⟨_, _, _, _, _, _, rfl⟩
  | cons k l ih =>
    obtain ⟨a0, a1, a2, a3, a4, a5, h⟩ := stanalysisSample_frame s k
    obtain ⟨b0, b1, b2, b3, b4, b5, h'⟩ := ih (stanalysisSample s k)
    rw [List.foldl_cons, h', h]
    exact ⟨_, _, _, _, _, _, rfl⟩

theorem stepStanalysis_frame (s : State) :
    ∃ y0 y1 y2 y3 y4 y5, stepStanalysis s = { s with
      enc := { s.enc with u := y0 }
      work := { s.work with d := y1, di := y2, sav := y3, temp := y4, zone := y5 } } :=
  stanalysis_fold_frame _ s

theorem stepDpupdate_frame (s : State) : ∃ y0, stepDpupdate s = { s with enc := { s.enc with dp := y0 } } := ⟨_, rfl⟩

theorem stepLtpsynth_frame (j : BitVec 2) (s : State) :
    ∃ y0 y1 y2 y3 y4 y5, stepLtpsynth j s = { s with
      dec := { s.dec with nrp := saneLag (sub4 s.work.Nc j) s.dec.nrp, drp := y0 }
      work := { s.work with Nr := y1, brp := y2, drpp := y3, drp := y4, wt := y5 } } :=
  ⟨_, _, _, _, _, _, rfl⟩

theorem stepStsynth_frame (k : Nat) (s : State) :
    ∃ y0 y1, stepStsynth k s = { s with
      dec := { s.dec with v := y0 }
      work := { s.work with sri := y1, zone := k2zone k } } :=
  ⟨_, _, rfl⟩

theorem stepDeemph_frame (s : State) : ∃ y0, stepDeemph s = { s with dec := { s.dec with msr := y0 } } := ⟨_, rfl⟩

theorem stepUpscale_frame (k : Nat) (s : State) : ∃ v, stepUpscale k s = s.writeWord .pcmOut k v := ⟨_, rfl⟩

theorem stepEmit_frame (s : State) : ∃ y0, stepEmit s = { s with mem := { s.mem with prmE := y0 } } :=
  ⟨_, State.writeWords_eq s .prmE 0 _⟩

theorem stepLarrot_frame (s : State) :
    stepLarrot s = { s with enc := { s.enc with larppLast := s.work.larpp } } := rfl

theorem stepLarrotDec_frame (s : State) :
    stepLarrotDec s = { s with dec := { s.dec with larppLast := s.work.larpp } } := rfl

/-- Loading a record writes the working codes alone (R240, R244). -/
theorem loadRecord_frame (f : List Word16) (w : Work) :
    ∃ y0 y1 y2 y3 y4 y5, loadRecord f w = { w with
      larc := y0, Nc := y1, bc := y2, Mc := y3, xmaxc := y4, xMc := y5 } :=
  ⟨_, _, _, _, _, _, rfl⟩

/-- Everything HOMEAPPLY does, by the strap (R244). -/
theorem stepHomeapply_eq (s : State) :
    stepHomeapply s =
      if s.homingSupported then
        { s with
          work := if s.enc.lastFrameHome then loadRecord tblHOMING s.work else s.work
          enc := if s.work.isHome then { EncState.home with lastFrameHome := true }
            else { s.enc with lastFrameHome := false } }
      else s := by
  have hw : (loadRecord tblHOMING s.work).isHome = s.work.isHome := rfl
  generalize hr : loadRecord tblHOMING s.work = w at hw
  unfold stepHomeapply noteHoming homeIfHoming overwriteRecord State.onWork State.onEnc selfReset State.onEnc
  rw [hr]
  cases hh : s.homingSupported
  · rfl
  · cases hl : s.enc.lastFrameHome <;> cases hi : s.work.isHome <;> simp [hi, hw, hh]

/-- Pre-processing of one sample. -/
theorem preprocessSample_frame (s : State) (k : Nat) :
    ∃ y0 y1 y2 y3 y4 y5 y6 y7 y8 y9 y10, preprocessSample s k = { s with
      enc := { s.enc with z1 := y0, Lz2 := y1, mp := y2 }
      work := { s.work with
        so := y3, s1 := y4, msp := y5, lsp := y6, temp := y7, Ls2 := y8, sof := y9, s := s.work.s.setIfInBounds k y10 } } := by
  unfold preprocessSample
  obtain ⟨a, h⟩ := stepDownscale_frame k s
  obtain ⟨b0, b1, b2, b3, b4, b5, b6, h'⟩ := stepOffsetcomp_frame (stepDownscale k s)
  obtain ⟨c, h''⟩ := stepPreemph_frame k (stepOffsetcomp (stepDownscale k s))
  rw [h'', h', h]
  exact ⟨_, _, _, _, _, _, _, _, _, _, _, rfl⟩

theorem preprocess_fold_frame (l : List Nat) (s : State) :
    ∃ y0 y1 y2 y3 y4 y5 y6 y7 y8 y9 y10, l.foldl preprocessSample s = { s with
      enc := { s.enc with z1 := y0, Lz2 := y1, mp := y2 }
      work := { s.work with so := y3, s1 := y4, msp := y5, lsp := y6, temp := y7, Ls2 := y8, sof := y9, s := y10 } } := by
  induction l generalizing s with
  | nil => exact ⟨_, _, _, _, _, _, _, _, _, _, _, rfl⟩
  | cons k l ih =>
    obtain ⟨a0, a1, a2, a3, a4, a5, a6, a7, a8, a9, a10, h⟩ := preprocessSample_frame s k
    obtain ⟨b0, b1, b2, b3, b4, b5, b6, b7, b8, b9, b10, h'⟩ := ih (preprocessSample s k)
    rw [List.foldl_cons, h', h]
    exact ⟨_, _, _, _, _, _, _, _, _, _, _, rfl⟩

/-- Synthesis of one sample. -/
theorem synthesizeSample_frame (s : State) (k : Nat) :
    ∃ y0 y1 y2 y3, synthesizeSample s k = { s with
      dec := { s.dec with v := y0, msr := y1 }
      mem := { s.mem with pcmOut := Mem.write s.mem.pcmOut k y2 }
      work := { s.work with sri := y3, zone := k2zone k } } := by
  unfold synthesizeSample
  obtain ⟨a, b, h⟩ := stepStsynth_frame k s
  obtain ⟨c, h'⟩ := stepDeemph_frame (stepStsynth k s)
  obtain ⟨v, h''⟩ := stepUpscale_frame k (stepDeemph (stepStsynth k s))
  rw [h'', h', h]
  exact ⟨_, _, _, _, rfl⟩

theorem synthesis_fold_frame (l : List Nat) (s : State) :
    ∃ y0 y1 y2 y3 y4, l.foldl synthesizeSample s = { s with
      dec := { s.dec with v := y0, msr := y1 }
      mem := { s.mem with pcmOut := y2 }
      work := { s.work with sri := y3, zone := y4 } } := by
  induction l generalizing s with
  | nil => exact ⟨_, _, _, _, _, rfl⟩
  | cons k l ih =>
    obtain ⟨a0, a1, a2, a3, h⟩ := synthesizeSample_frame s k
    obtain ⟨b0, b1, b2, b3, b4, h'⟩ := ih (synthesizeSample s k)
    rw [List.foldl_cons, h', h]
    exact ⟨_, _, _, _, _, rfl⟩

end Sys2Proof.Machine
end

