-- ==== Sys2Proof/Laws/PerInstr.lean ====
section
/-! SUPPORT. Statements made for every instruction as syntax, one lemma a constructor. `DecodeEncode`: a well-formed
instruction decodes from its own encoding (R86, R87, R88). -/

namespace Sys2Proof.Laws

open Sys2Proof

/-- The opcode of an assembled command word. -/
theorem cwOpcode_append (o n : BitVec 4) (v : Octet) : cwOpcode (o ++ n ++ v) = o := by
  apply BitVec.eq_of_getLsbD_eq
  intro i hi
  simp only [cwOpcode, BitVec.getLsbD_extractLsb', BitVec.getLsbD_append]
  rw [if_neg (by omega), if_neg (by omega)]
  simp only [hi, decide_true, Bool.true_and]
  congr 1
  omega

/-- The operand `n` of an assembled command word. -/
theorem cwN_append (o n : BitVec 4) (v : Octet) : cwN (o ++ n ++ v) = n := by
  apply BitVec.eq_of_getLsbD_eq
  intro i hi
  simp only [cwN, BitVec.getLsbD_extractLsb', BitVec.getLsbD_append]
  rw [if_neg (by omega), if_pos (by omega)]
  simp only [hi, decide_true, Bool.true_and]
  congr 1
  omega

/-- The operand `val` of an assembled command word. -/
theorem cwVal_append (o n : BitVec 4) (v : Octet) : cwVal (o ++ n ++ v) = v := by
  apply BitVec.eq_of_getLsbD_eq
  intro i hi
  simp only [cwVal, BitVec.getLsbD_extractLsb', BitVec.getLsbD_append]
  rw [if_pos (by omega)]
  simp [hi]

/-- Decode and encode agree on an instruction. -/
def DecodeEncode.Statement (i : Instr) : Prop := i.wellFormed = true → decode (encode i) = .ok i

theorem DecodeEncode.nop : DecodeEncode.Statement .nop := fun _ => rfl

theorem DecodeEncode.reset : DecodeEncode.Statement .reset := fun _ => rfl

theorem DecodeEncode.resetEnc : DecodeEncode.Statement .resetEnc := fun _ => rfl

theorem DecodeEncode.resetDec : DecodeEncode.Statement .resetDec := fun _ => rfl

theorem DecodeEncode.encode : DecodeEncode.Statement .encode := fun _ => rfl

theorem DecodeEncode.decode : DecodeEncode.Statement .decode := fun _ => rfl

theorem DecodeEncode.pack : DecodeEncode.Statement .pack := fun _ => rfl

theorem DecodeEncode.unpack : DecodeEncode.Statement .unpack := fun _ => rfl

theorem DecodeEncode.isvalid : DecodeEncode.Statement .isvalid := fun _ => rfl

theorem DecodeEncode.prmeq : DecodeEncode.Statement .prmeq := fun _ => rfl

theorem DecodeEncode.pack1 (n : BitVec 4) (val : Octet) : DecodeEncode.Statement (.pack1 n val) := by
  intro h
  show decodeCmd (0xA ++ n ++ val) = _
  unfold decodeCmd
  rw [cwOpcode_append]
  show decodePack1 (0xA ++ n ++ val) = _
  unfold decodePack1
  rw [cwN_append, cwVal_append]
  exact if_pos h

theorem DecodeEncode.unpack1 (n : BitVec 4) : DecodeEncode.Statement (.unpack1 n) := by
  intro h
  show decodeCmd (0xB ++ n ++ (0 : Octet)) = _
  unfold decodeCmd
  rw [cwOpcode_append]
  show decodeUnpack1 (0xB ++ n ++ (0 : Octet)) = _
  unfold decodeUnpack1
  rw [cwN_append, cwVal_append, if_neg (by simp)]
  exact if_pos h

theorem DecodeEncode.currst (sel : CurSel) : DecodeEncode.Statement (.currst sel) := by
  intro _
  cases sel <;> rfl

theorem DecodeEncode.aluAdd (a : Word32) (b : Word32) : DecodeEncode.Statement (.aluAdd a b) := fun _ => rfl

theorem DecodeEncode.aluSub (a : Word32) (b : Word32) : DecodeEncode.Statement (.aluSub a b) := fun _ => rfl

theorem DecodeEncode.aluMult (a : Word32) (b : Word32) : DecodeEncode.Statement (.aluMult a b) := fun _ => rfl

theorem DecodeEncode.aluMultR (a : Word32) (b : Word32) : DecodeEncode.Statement (.aluMultR a b) := fun _ => rfl

theorem DecodeEncode.aluAbs (a : Word32) : DecodeEncode.Statement (.aluAbs a) := fun _ => rfl

theorem DecodeEncode.aluDiv (a : Word32) (b : Word32) : DecodeEncode.Statement (.aluDiv a b) := fun _ => rfl

theorem DecodeEncode.aluLAdd (a : Word32) (b : Word32) : DecodeEncode.Statement (.aluLAdd a b) := fun _ => rfl

theorem DecodeEncode.aluLSub (a : Word32) (b : Word32) : DecodeEncode.Statement (.aluLSub a b) := fun _ => rfl

theorem DecodeEncode.aluLMult (a : Word32) (b : Word32) : DecodeEncode.Statement (.aluLMult a b) := fun _ => rfl

theorem DecodeEncode.aluNorm (a : Word32) : DecodeEncode.Statement (.aluNorm a) := fun _ => rfl

theorem DecodeEncode.aluShl16 (a : Word32) (b : Word32) : DecodeEncode.Statement (.aluShl16 a b) := fun _ => rfl

theorem DecodeEncode.aluShr16 (a : Word32) (b : Word32) : DecodeEncode.Statement (.aluShr16 a b) := fun _ => rfl

theorem DecodeEncode.aluLShl (a : Word32) (b : Word32) : DecodeEncode.Statement (.aluLShl a b) := fun _ => rfl

theorem DecodeEncode.aluLShr (a : Word32) (b : Word32) : DecodeEncode.Statement (.aluLShr a b) := fun _ => rfl

theorem DecodeEncode.homedet : DecodeEncode.Statement .homedet := fun _ => rfl

theorem DecodeEncode.downscale (k : BitVec 8) : DecodeEncode.Statement (.downscale k) := fun h => if_pos h

theorem DecodeEncode.offsetcomp : DecodeEncode.Statement .offsetcomp := fun _ => rfl

theorem DecodeEncode.preemph (k : BitVec 8) : DecodeEncode.Statement (.preemph k) := fun h => if_pos h

theorem DecodeEncode.autocorr : DecodeEncode.Statement .autocorr := fun _ => rfl

theorem DecodeEncode.schur : DecodeEncode.Statement .schur := fun _ => rfl

theorem DecodeEncode.r2lar : DecodeEncode.Statement .r2lar := fun _ => rfl

theorem DecodeEncode.larq : DecodeEncode.Statement .larq := fun _ => rfl

theorem DecodeEncode.lardec : DecodeEncode.Statement .lardec := fun _ => rfl

theorem DecodeEncode.larinterp (side : Side) (zone : BitVec 2) : DecodeEncode.Statement (.larinterp side zone) := fun _ => rfl

theorem DecodeEncode.lar2rp (zone : BitVec 2) : DecodeEncode.Statement (.lar2rp zone) := fun _ => rfl

theorem DecodeEncode.stanalysis : DecodeEncode.Statement .stanalysis := fun _ => rfl

theorem DecodeEncode.ltpsearch (j : BitVec 2) : DecodeEncode.Statement (.ltpsearch j) := fun _ => rfl

theorem DecodeEncode.ltpanalysis (j : BitVec 2) : DecodeEncode.Statement (.ltpanalysis j) := fun _ => rfl

theorem DecodeEncode.weight : DecodeEncode.Statement .weight := fun _ => rfl

theorem DecodeEncode.gridsel (j : BitVec 2) : DecodeEncode.Statement (.gridsel j) := fun _ => rfl

theorem DecodeEncode.xmaxq (j : BitVec 2) : DecodeEncode.Statement (.xmaxq j) := fun _ => rfl

theorem DecodeEncode.expmant (j : BitVec 2) : DecodeEncode.Statement (.expmant j) := fun _ => rfl

theorem DecodeEncode.apcmq (j : BitVec 2) : DecodeEncode.Statement (.apcmq j) := fun _ => rfl

theorem DecodeEncode.apcminv (j : BitVec 2) : DecodeEncode.Statement (.apcminv j) := fun _ => rfl

theorem DecodeEncode.gridpos (side : Side) (j : BitVec 2) : DecodeEncode.Statement (.gridpos side j) := fun _ => rfl

theorem DecodeEncode.dpupdate : DecodeEncode.Statement .dpupdate := fun _ => rfl

theorem DecodeEncode.emit : DecodeEncode.Statement .emit := fun _ => rfl

theorem DecodeEncode.larrot : DecodeEncode.Statement .larrot := fun _ => rfl

theorem DecodeEncode.larrotDec : DecodeEncode.Statement .larrotDec := fun _ => rfl

theorem DecodeEncode.homeapply : DecodeEncode.Statement .homeapply := fun _ => rfl

theorem DecodeEncode.prmmask : DecodeEncode.Statement .prmmask := fun _ => rfl

theorem DecodeEncode.ltpsynth (j : BitVec 2) : DecodeEncode.Statement (.ltpsynth j) := fun _ => rfl

theorem DecodeEncode.stsynth (k : BitVec 8) : DecodeEncode.Statement (.stsynth k) := fun h => if_pos h

theorem DecodeEncode.deemph : DecodeEncode.Statement .deemph := fun _ => rfl

theorem DecodeEncode.upscale (k : BitVec 8) : DecodeEncode.Statement (.upscale k) := fun h => if_pos h

theorem DecodeEncode.k2zone (k : BitVec 8) : DecodeEncode.Statement (.k2zone k) := fun h => if_pos h

theorem DecodeEncode.decoderefl (side : Side) : DecodeEncode.Statement (.decoderefl side) := fun _ => rfl

theorem DecodeEncode.invapcm (side : Side) (j : BitVec 2) : DecodeEncode.Statement (.invapcm side j) := fun _ => rfl

end Sys2Proof.Laws
end

