-- ==== Sys2Proof/Laws/Step.lean ====
section
/-! SUPPORT. What a step of the machine is, action by action, and sequences of instructions. -/

namespace Sys2Proof.Machine

open Sys2Proof Sys2Proof.Safety

/-- With no action waiting the block holds its state (R266). -/
theorem step_idle {s : State} (h : s.inputs = []) : step s = .next s := by
  unfold step takeInput; rw [h]

/-- A step runs the host's next action on the state without it. -/
theorem step_input {s : State} {a : Input} {rest : List Input} (h : s.inputs = a :: rest) :
    step s = runInput a { s with inputs := rest } := by
  unfold step takeInput; rw [h]

/-- A request runs the meaning of the instruction it decodes to. -/
theorem runRequest_ok {r : Request} {i : Instr} {s : State} (hb : barred s r = false) (hd : decode r = .ok i) :
    runRequest r s = exec i s := by
  unfold runRequest; rw [hb, hd]; rfl

/-- A request that is no instruction does what a reserved request does. -/
theorem runRequest_error {r : Request} {why : Reserved} {s : State} (hb : barred s r = false)
    (hd : decode r = .error why) : runRequest r s = runReserved r why s := by
  unfold runRequest; rw [hb, hd]; rfl

/-- A reserved request that answers a next state came in at the ALU port and changed `alu_y` alone. -/
theorem runReserved_next {r : Request} {why : Reserved} {s t : State} (h : runReserved r why s = .next t) :
    ∃ op a b, r = .alu op a b ∧ t = { s with aluY := Config.aluReserved op a b } := by
  cases r with
  | alu op a b => exact ⟨op, a, b, rfl, showAlu_next.mp h⟩
  | cmd _ => cases h
  | step _ _ => cases h

/-- A request that answers a next state is an instruction, or a reserved ALU select that changed `alu_y` alone. -/
theorem runRequest_next {r : Request} {s t : State} (h : runRequest r s = .next t) :
    barred s r = false ∧
      ((∃ i, decode r = .ok i ∧ exec i s = .next t) ∨
        ∃ op a b, r = .alu op a b ∧ t = { s with aluY := Config.aluReserved op a b }) := by
  cases hb : barred s r with
  | true => unfold runRequest at h; rw [hb] at h; cases h
  | false =>
    refine ⟨rfl, ?_⟩
    cases hd : decode r with
    | ok i => rw [runRequest_ok hb hd] at h; exact .inl ⟨i, rfl, h⟩
    | error why => rw [runRequest_error hb hd] at h; exact .inr (runReserved_next h)

/-- Running a sequence in two parts. -/
theorem runAll_append (l l' : List Instr) (s : State) :
    runAll (l ++ l') s =
      (match runAll l s with
       | .next t => runAll l' t
       | .fault r => .fault r
       | .refused r => .refused r) := by
  induction l generalizing s with
  | nil => rfl
  | cons i l ih =>
    simp only [List.cons_append, runAll]
    cases exec i s with
    | next t => exact ih t
    | fault r => rfl
    | refused r => rfl

/-- A first instruction that answers a next state. -/
theorem runAll_cons {i : Instr} {l : List Instr} {s t : State} (h : exec i s = .next t) :
    runAll (i :: l) s = runAll l t := by
  simp only [runAll, h]

/-- A first part that answers a next state. -/
theorem runAll_append_next {l l' : List Instr} {s t : State} (h : runAll l s = .next t) :
    runAll (l ++ l') s = runAll l' t := by
  rw [runAll_append, h]

/-- A loop whose body always completes is a fold of its body. -/
theorem runAll_flatMap {α : Type} (body : α → List Instr) (f : State → α → State) (l : List α)
    (h : ∀ a ∈ l, ∀ s, runAll (body a) s = .next (f s a)) (s : State) :
    runAll (l.flatMap body) s = .next (l.foldl f s) := by
  induction l generalizing s with
  | nil => rfl
  | cons a l ih =>
    rw [List.flatMap_cons, runAll_append_next (h a (by simp) s), List.foldl_cons]
    exact ih (fun b hb => h b (by simp [hb])) _

end Sys2Proof.Machine
end

