-- ==== Sys2Proof/Tests/Slice0.lean ====
section
/-! SUPPORT. Tests: ill-formed terms, words written out from the encoding tables, one step on a small state with a result that
spec/ states, and for each statement with hypotheses a state that meets them. -/

namespace Sys2Proof.Tests

open Sys2Proof Sys2Proof.Machine Sys2Proof.Safety

set_option Elab.async false

/-! ### Ill-formed instructions (R5, R89) -/

theorem test_wf_pack1_none : Instr.wellFormed (.pack1 0 0) = false := rfl
theorem test_wf_pack1_nine : Instr.wellFormed (.pack1 9 0) = false := rfl
theorem test_wf_pack1_eight : Instr.wellFormed (.pack1 8 0) = true := rfl
theorem test_wf_unpack1_none : Instr.wellFormed (.unpack1 0) = false := rfl
theorem test_wf_unpack1_nine : Instr.wellFormed (.unpack1 9) = false := rfl
theorem test_wf_downscale : Instr.wellFormed (.downscale 160) = false := rfl
theorem test_wf_preemph : Instr.wellFormed (.preemph 160) = false := rfl
theorem test_wf_stsynth : Instr.wellFormed (.stsynth 255) = false := rfl
theorem test_wf_upscale : Instr.wellFormed (.upscale 160) = false := rfl
theorem test_wf_k2zone : Instr.wellFormed (.k2zone 160) = false := rfl
theorem test_wf_k2zone_last : Instr.wellFormed (.k2zone 159) = true := rfl

/-! ### Words written out from the tables of R86, R87, R88 -/

theorem test_decode_nop : decode (.cmd 0b0000000000000000) = .ok .nop := rfl
theorem test_decode_reset : decode (.cmd 0b0001000000000000) = .ok .reset := rfl
theorem test_decode_reset_enc : decode (.cmd 0b0010000000000000) = .ok .resetEnc := rfl
theorem test_decode_reset_dec : decode (.cmd 0b0011000000000000) = .ok .resetDec := rfl
theorem test_decode_encode : decode (.cmd 0b0100000000000000) = .ok .encode := rfl
theorem test_decode_decode : decode (.cmd 0b0101000000000000) = .ok .decode := rfl
theorem test_decode_pack : decode (.cmd 0b0110000000000000) = .ok .pack := rfl
theorem test_decode_unpack : decode (.cmd 0b0111000000000000) = .ok .unpack := rfl
theorem test_decode_isvalid : decode (.cmd 0b1000000000000000) = .ok .isvalid := rfl
theorem test_decode_prmeq : decode (.cmd 0b1001000000000000) = .ok .prmeq := rfl
theorem test_decode_pack1 : decode (.cmd 0b1010001110000101) = .ok (.pack1 0b0011 0b10000101) := rfl
theorem test_decode_unpack1 : decode (.cmd 0b1011100000000000) = .ok (.unpack1 0b1000) := rfl
theorem test_decode_currst_tx : decode (.cmd 0b1100000000000000) = .ok (.currst .tx) := rfl
theorem test_decode_currst_rx : decode (.cmd 0b1100000100000000) = .ok (.currst .rx) := rfl
theorem test_decode_aluAdd : ∀ a b, decode (.alu 0b0000 a b) = .ok (.aluAdd a b) := fun _ _ => rfl
theorem test_decode_aluSub : ∀ a b, decode (.alu 0b0001 a b) = .ok (.aluSub a b) := fun _ _ => rfl
theorem test_decode_aluMult : ∀ a b, decode (.alu 0b0010 a b) = .ok (.aluMult a b) := fun _ _ => rfl
theorem test_decode_aluMultR : ∀ a b, decode (.alu 0b0011 a b) = .ok (.aluMultR a b) := fun _ _ => rfl
theorem test_decode_aluAbs : ∀ a b, decode (.alu 0b0100 a b) = .ok (.aluAbs a) := fun _ _ => rfl
theorem test_decode_aluDiv : ∀ a b, decode (.alu 0b0101 a b) = .ok (.aluDiv a b) := fun _ _ => rfl
theorem test_decode_aluLAdd : ∀ a b, decode (.alu 0b0110 a b) = .ok (.aluLAdd a b) := fun _ _ => rfl
theorem test_decode_aluLSub : ∀ a b, decode (.alu 0b0111 a b) = .ok (.aluLSub a b) := fun _ _ => rfl
theorem test_decode_aluLMult : ∀ a b, decode (.alu 0b1000 a b) = .ok (.aluLMult a b) := fun _ _ => rfl
theorem test_decode_aluNorm : ∀ a b, decode (.alu 0b1001 a b) = .ok (.aluNorm a) := fun _ _ => rfl
theorem test_decode_aluShl16 : ∀ a b, decode (.alu 0b1010 a b) = .ok (.aluShl16 a b) := fun _ _ => rfl
theorem test_decode_aluShr16 : ∀ a b, decode (.alu 0b1011 a b) = .ok (.aluShr16 a b) := fun _ _ => rfl
theorem test_decode_aluLShl : ∀ a b, decode (.alu 0b1100 a b) = .ok (.aluLShl a b) := fun _ _ => rfl
theorem test_decode_aluLShr : ∀ a b, decode (.alu 0b1101 a b) = .ok (.aluLShr a b) := fun _ _ => rfl
theorem test_decode_homedet : ∀ o, decode (.step 0b000000 o) = .ok .homedet := fun _ => rfl
theorem test_decode_downscale : decode (.step 0b000001 { k := 159 }) = .ok (.downscale 159) := rfl
theorem test_decode_offsetcomp : ∀ o, decode (.step 0b000010 o) = .ok .offsetcomp := fun _ => rfl
theorem test_decode_preemph : decode (.step 0b000011 { k := 159 }) = .ok (.preemph 159) := rfl
theorem test_decode_autocorr : ∀ o, decode (.step 0b000100 o) = .ok .autocorr := fun _ => rfl
theorem test_decode_schur : ∀ o, decode (.step 0b000101 o) = .ok .schur := fun _ => rfl
theorem test_decode_r2lar : ∀ o, decode (.step 0b000110 o) = .ok .r2lar := fun _ => rfl
theorem test_decode_larq : ∀ o, decode (.step 0b000111 o) = .ok .larq := fun _ => rfl
theorem test_decode_lardec : ∀ o, decode (.step 0b001000 o) = .ok .lardec := fun _ => rfl
theorem test_decode_larinterp : ∀ o, decode (.step 0b001001 o) = .ok (.larinterp o.side o.zone) := fun _ => rfl
theorem test_decode_lar2rp : ∀ o, decode (.step 0b001010 o) = .ok (.lar2rp o.zone) := fun _ => rfl
theorem test_decode_stanalysis : ∀ o, decode (.step 0b001011 o) = .ok .stanalysis := fun _ => rfl
theorem test_decode_ltpsearch : ∀ o, decode (.step 0b001100 o) = .ok (.ltpsearch o.j) := fun _ => rfl
theorem test_decode_ltpanalysis : ∀ o, decode (.step 0b001101 o) = .ok (.ltpanalysis o.j) := fun _ => rfl
theorem test_decode_weight : ∀ o, decode (.step 0b001110 o) = .ok .weight := fun _ => rfl
theorem test_decode_gridsel : ∀ o, decode (.step 0b001111 o) = .ok (.gridsel o.j) := fun _ => rfl
theorem test_decode_xmaxq : ∀ o, decode (.step 0b010000 o) = .ok (.xmaxq o.j) := fun _ => rfl
theorem test_decode_expmant : ∀ o, decode (.step 0b010001 o) = .ok (.expmant o.j) := fun _ => rfl
theorem test_decode_apcmq : ∀ o, decode (.step 0b010010 o) = .ok (.apcmq o.j) := fun _ => rfl
theorem test_decode_apcminv : ∀ o, decode (.step 0b010011 o) = .ok (.apcminv o.j) := fun _ => rfl
theorem test_decode_gridpos : ∀ o, decode (.step 0b010100 o) = .ok (.gridpos o.side o.j) := fun _ => rfl
theorem test_decode_dpupdate : ∀ o, decode (.step 0b010101 o) = .ok .dpupdate := fun _ => rfl
theorem test_decode_emit : ∀ o, decode (.step 0b010110 o) = .ok .emit := fun _ => rfl
theorem test_decode_larrot : decode (.step 0b010111 {}) = .ok .larrot := rfl
theorem test_decode_larrotDec : decode (.step 0b010111 { side := .dec }) = .ok .larrotDec := rfl
theorem test_decode_homeapply : ∀ o, decode (.step 0b011000 o) = .ok .homeapply := fun _ => rfl
theorem test_decode_prmmask : ∀ o, decode (.step 0b011001 o) = .ok .prmmask := fun _ => rfl
theorem test_decode_ltpsynth : ∀ o, decode (.step 0b011010 o) = .ok (.ltpsynth o.j) := fun _ => rfl
theorem test_decode_stsynth : decode (.step 0b011011 { k := 159 }) = .ok (.stsynth 159) := rfl
theorem test_decode_deemph : ∀ o, decode (.step 0b011100 o) = .ok .deemph := fun _ => rfl
theorem test_decode_upscale : decode (.step 0b011101 { k := 159 }) = .ok (.upscale 159) := rfl
theorem test_decode_k2zone : decode (.step 0b011110 { k := 159 }) = .ok (.k2zone 159) := rfl
theorem test_decode_decoderefl : ∀ o, decode (.step 0b011111 o) = .ok (.decoderefl o.side) := fun _ => rfl
theorem test_decode_invapcm : ∀ o, decode (.step 0b100000 o) = .ok (.invapcm o.side o.j) := fun _ => rfl
theorem test_decode_reserved_opcode : decode (.cmd 0b1101000000000000) = .error .opcode := rfl
theorem test_decode_reserved_operand : decode (.cmd 0b0100000000000001) = .error .unusedOperand := rfl
theorem test_decode_reserved_unpack1 : decode (.cmd 0b1011100000000001) = .error .unusedOperand := rfl
theorem test_decode_reserved_currst : decode (.cmd 0b1100001000000000) = .error .unusedOperand := rfl
theorem test_decode_reserved_count : decode (.cmd 0b1010100100000000) = .error .bitCount := rfl
theorem test_decode_reserved_alu : decode (.alu 0b1110 0 0) = .error .aluOp := rfl
theorem test_decode_reserved_step : decode (.step 0b100001 {}) = .error .stepId := rfl
theorem test_decode_reserved_sample : decode (.step 0b000001 { k := 160 }) = .error .sample := rfl

/-! ### Helpers -/

/-- The state after an instruction; the state before it where it stops. -/
def after (i : Instr) (s : State) : State :=
  match exec i s with
  | .next t => t
  | .fault _ => s
  | .refused _ => s

/-- Whether an instruction answers a next state. -/
def completes (i : Instr) (s : State) : Bool :=
  match exec i s with
  | .next _ => true
  | .fault _ => false
  | .refused _ => false

/-- What the ALU port shows. -/
def shows (i : Instr) : Int := (after i State.reset).aluY.toInt

/-- The reset state with some working values changed. -/
def work (f : Work → Work) : State := State.reset.onWork f

/-- The reset state with one action waiting. -/
def waiting (a : Input) : State := { State.reset with inputs := [a] }

/-- A frame of zeros but for some first values. -/
def first {w n : Nat} (l : List (BitVec w)) : Vector (BitVec w) n := Vector.ofFn fun i => l.getD i.val 0

/-! ### Commands -/

theorem test_nop : (after .nop State.reset).status = 0b0010 := by decide
/-- R234: after a decode `RESET_DEC` gives `nrp` = 40. -/
theorem test_reset_dec : (after .resetDec { State.reset with dec := { DecState.home with nrp := 82 } }).dec.nrp = 40 := by decide
theorem test_reset_enc : (after .resetEnc { State.reset with enc := { EncState.home with z1 := 7908 } }).enc.z1 = 0 := by decide
theorem test_reset_flags : (after .reset { State.reset with flags := ⟨false, true, true, true⟩ }).status = 0b0010 := by decide

/-- The 160 samples of HOME (47_top_operations.md). -/
def homeFrame : State :=
  { State.reset with mem := { Memory.empty with pcmIn := (List.range 160).map fun i => (i, 8) } }

/-- R161, R235: after HOME `z1` = 4. -/
theorem test_encode_home : (after .encode homeFrame).enc.z1 = 4 := by decide +kernel
theorem test_encode_done : (after .encode State.reset).status = 0b0010 := by decide +kernel

/-- A record of 76 words `0xFFFF` (R239). -/
def onesRecord : State :=
  { State.reset with mem := { Memory.empty with prmD := (List.range 76).map fun i => (i, 0xFFFF) } }

/-- R205: a record of all ones leaves `nrp` at 40. -/
theorem test_decode_ones : (after .decode onesRecord).dec.nrp = 40 := by decide +kernel

/-- R140: `PACK1 0b101, 3` then `PACK1 0b01010101, 8` gives `0xAA, 0xA0`. -/
theorem test_pack1 :
    (after (.pack1 8 0x55) (after (.pack1 3 5) { State.reset with mem := { Memory.empty with frmTx := [(0, 0), (1, 0)] } })).mem.frmTx
      = [(0, 0xAA), (1, 0xA0)] := by decide +kernel
/-- R141: from `0xAA, 0xA0` `UNPACK1 3` then `UNPACK1 8` gives 85. -/
theorem test_unpack1 :
    (after (.unpack1 8) (after (.unpack1 3) { State.reset with mem := { Memory.empty with frmRx := [(0, 0xAA), (1, 0xA0)] } })).resVal
      = 85 := by decide +kernel
theorem test_currst : (after (.currst .rx) { State.reset with curRx := ⟨33, 0⟩ }).bitsRx = 0 := by decide
/-- R144: the all-zero record packs to `0xD0`. -/
theorem test_pack :
    ((after .pack { State.reset with mem := { Memory.empty with prmE := (List.range 76).map fun i => (i, 0) } }).mem.frmTx.headD (1, 1))
      = (0, 0xD0) := by decide +kernel
/-- R145: a frame that begins `D2 57` gives `LARc[0]` = 9. -/
theorem test_unpack :
    (after .unpack { State.reset with mem := { Memory.empty with frmRx := (List.range 33).map fun i => (i, [0xD2, 0x57].getD i 0) } }).mem.prmD.headD (1, 1)
      = (0, 9) := by decide +kernel
/-- R146: `0xD2` is valid, `0x0D` is not. -/
theorem test_isvalid : (after .isvalid { State.reset with mem := { Memory.empty with frmRx := [(0, 0xD2)] } }).flags.valid = true := by
  decide +kernel
theorem test_isvalid_low : (after .isvalid { State.reset with mem := { Memory.empty with frmRx := [(0, 0x0D)] } }).flags.valid = false := by
  decide +kernel
/-- R147: records that differ in a bit above the width differ. -/
theorem test_prmeq :
    (after .prmeq { State.reset with mem := { Memory.empty with
      prmE := (List.range 76).map fun i => (i, 3), prmD := (List.range 76).map fun i => (i, if i = 75 then 0x103 else 3) } }).flags.eq
      = false := by decide +kernel

/-! ### ALU: the examples of 40_alu.md -/

theorem test_add : shows (.aluAdd 32000 1000) = 32767 := by decide
theorem test_sub : shows (.aluSub 0 0x8000) = 32767 := by decide
theorem test_mult : shows (.aluMult 0x8000 16383) = -16383 := by decide
theorem test_mult_min : shows (.aluMult 0x8000 0x8000) = 32767 := by decide
theorem test_mult_r : shows (.aluMultR 0x8000 16384) = -16384 := by decide
theorem test_mult_r_up : shows (.aluMultR 1 16384) = 1 := by decide
theorem test_abs : shows (.aluAbs 0x8000) = 32767 := by decide
theorem test_div : shows (.aluDiv 8192 16384) = 16384 := by decide
theorem test_div_zero : shows (.aluDiv 0 0) = 32767 := by decide
theorem test_l_add : shows (.aluLAdd 0x7FFFFFFF 1) = 2147483647 := by decide
theorem test_l_sub : shows (.aluLSub 0x80000000 1) = -2147483648 := by decide
theorem test_l_mult : shows (.aluLMult 16384 16384) = 536870912 := by decide
theorem test_norm : shows (.aluNorm 0x3FFFFFFF) = 1 := by decide +kernel
theorem test_norm_neg : shows (.aluNorm 0xC0000000) = 0 := by decide +kernel
theorem test_shl16 : shows (.aluShl16 2048 4) = 32767 := by decide
theorem test_shl16_neg : shows (.aluShl16 1 0xFFFF) = 0 := by decide
theorem test_shr16 : shows (.aluShr16 0xFFF7 3) = -2 := by decide
theorem test_l_shl : shows (.aluLShl 32767 16) = 2147418112 := by decide
theorem test_l_shr : shows (.aluLShr 0x80000000 16) = -32768 := by decide

/-! ### Encoder steps: the examples of their rules -/

theorem test_homedet : (after .homedet { homeFrame with homingSupported := true }).work.isHome = true := by decide +kernel
theorem test_downscale :
    (after (.downscale 0) { State.reset with mem := { Memory.empty with pcmIn := [(0, 0xFFFF)] } }).work.so.toInt = -4 := by
  decide +kernel
theorem test_offsetcomp :
    ((after .offsetcomp (work fun w => { w with so := 4 })).enc.Lz2.toInt,
     (after .offsetcomp (work fun w => { w with so := 4 })).work.sof.toInt) = (131072, 4) := by decide +kernel
theorem test_preemph :
    elt (after (.preemph 7) { work fun w => { w with sof := 4 } with enc := { EncState.home with mp := 4 } }).work.s 7 = 1 := by
  decide +kernel
/-- R163: a sample of 32767 is rescaled to 2048 and clamps back to 32767. -/
theorem test_autocorr_saturates :
    elt (after .autocorr (work fun w => { w with s := first [32767] })).work.s 0 = 32767 := by decide +kernel
theorem test_autocorr_scale : (after .autocorr (work fun w => { w with s := first [4] })).work.scalauto.toInt = -8 := by decide +kernel
/-- R164: the reflection coefficients of HOME. -/
theorem test_schur :
    (after .schur (work fun w => { w with Lacf := #v[296, 270, 268, 266, 264, 262, 260, 258, 256] })).work.r.toList.map BitVec.toInt
      = [-29889, -14314, -8462, -5345, -3446, -2252, -1437, -941] := by decide +kernel
theorem test_r2lar :
    (after .r2lar (work fun w => { w with r := first [22117, 22118, 31129, 31130, 32767, 0x8000] })).work.lar.toList.map BitVec.toInt
      = [11058, 11059, 20070, 20072, 26620, -26620, 0, 0] := by decide +kernel
theorem test_larq :
    (after .larq State.reset).work.larc.toList.map BitVec.toInt = [32, 32, 20, 11, 8, 5, 3, 2] := by decide +kernel
theorem test_lardec :
    (after .lardec (work fun w => { w with larc := #v[9, 23, 15, 8, 7, 3, 3, 2] })).work.larpp.toList.map BitVec.toInt
      = [-18842, -7372, -4096, -2458, -1422, -1638, -656, 436] := by decide +kernel
/-- R181: 1 and 3 in zone 1 give 1. -/
theorem test_larinterp :
    elt (after (.larinterp .dec 1) { work fun w => { w with larpp := first [3] } with
      dec := { DecState.home with larppLast := first [1] } }).work.larp 0 = 1 := by decide +kernel
theorem test_lar2rp :
    (sub4 (after (.lar2rp 2) (work fun w => { w with larp := first [11058, 11059, 20069, 20070, 26619, 26624, 0x999A, 0x8000] })).work.rrp 2).toList.map
      BitVec.toInt = [22116, 22118, 31128, 31129, 32766, 32767, -32665, -32767] := by decide +kernel
/-- R183: T1 as the first frame, zone 0. -/
theorem test_decoderefl :
    (sub4 (after (.decoderefl .enc) (work fun w => { w with larc := #v[42, 38, 24, 12, 8, 6, 5, 2] })).work.rrp 0).toList.map BitVec.toInt
      = [4096, 2458, 1638, 410, -110, 818, 1638, 218] := by decide +kernel
theorem test_k2zone_39 : (after (.k2zone 39) State.reset).work.zone = 2 := by decide +kernel
theorem test_k2zone_40 : (after (.k2zone 40) State.reset).work.zone = 3 := by decide +kernel
/-- R190: T1, first sample: the stages as the worked sample has them. -/
theorem test_stanalysis :
    ((analysisSample #v[4096, 2458, 1638, 410, 0xFF92, 818, 1638, 218] (first []) 0xE0C0).u.toList.map BitVec.toInt).take 3
      = [-8000, -1000, -600] := by decide +kernel

/-! ### Long-term prediction and RPE: the examples of their rules -/

theorem test_ltpsearch : sub4 (after (.ltpsearch 1) State.reset).work.Nc 1 = 40 := by decide +kernel
/-- R202, T1, j = 1: `QLB[2]` on 1664 predicts 1082, and 6288 leaves 5206. -/
theorem test_ltpanalysis :
    elt (after (.ltpanalysis 0) { work fun w => { w with Nc := #v[42, 0, 0, 0], bc := #v[2, 0, 0, 0], d := first [0, 0, 0, 0, 0, 6288] } with
      enc := { EncState.home with dp := Vector.ofFn fun i => if i.val = 83 then 1664 else 0 } }).work.e 5 = 5206 := by decide +kernel
theorem test_weight :
    ((after .weight (work fun w => { w with e := first [1000] })).work.x.toList.map BitVec.toInt).take 6
      = [1000, 701, 251, 0, -46, -16] := by decide +kernel
/-- R211: a tie goes to the smallest grid. -/
theorem test_gridsel : sub4 (after (.gridsel 3) (work fun w => { w with x := first [4, 4, 3, 3] })).work.Mc 3 = 0 := by decide +kernel
theorem test_xmaxq : sub4 (after (.xmaxq 0) (work fun w => { w with xM := first [1562, 0xCFA1, 7880] })).work.xmaxc 0 = 52 := by
  decide +kernel
theorem test_xmaxq_top : sub4 (after (.xmaxq 0) (work fun w => { w with xM := first [0x8000] })).work.xmaxc 0 = 63 := by decide +kernel
theorem test_expmant :
    (fun s => (s.work.exp.toInt, s.work.mant.toInt)) (after (.expmant 2) (work fun w => { w with xmaxc := #v[0, 0, 52, 0] })) = (5, 4) := by
  decide +kernel
theorem test_expmant_small :
    (fun s => (s.work.exp.toInt, s.work.mant.toInt)) (after (.expmant 2) (work fun w => { w with xmaxc := #v[0, 0, 1, 0] })) = (-3, 7) := by
  decide +kernel
theorem test_apcmq :
    ((sub4 (after (.apcmq 0) (work fun w => { w with exp := 5, mant := 4, xM := first [1562, 0xCFA1, 7880] })).work.xMc 0).toList.map
      BitVec.toInt).take 4 = [4, 0, 6, 4] := by decide +kernel
theorem test_apcminv :
    ((after (.apcminv 0) (work fun w => { w with exp := 5, mant := 4, xMc := set4 w.xMc 0 (first [4, 0, 5, 6]) })).work.xMp.toList.map
      BitVec.toInt).take 4 = [1664, -11647, 4992, 8320] := by decide +kernel
theorem test_gridpos :
    ((after (.gridpos .enc 0) (work fun w => { w with Mc := #v[3, 0, 0, 0], xMp := first [1664, 0xF980] })).work.ep.toList.map
      BitVec.toInt).take 8 = [0, 0, 0, 1664, 0, 0, -1664, 0] := by decide +kernel
/-- R219 with R217: code 52 and pulse code 4 give 1664 at the first place of grid 3. -/
theorem test_invapcm :
    elt (after (.invapcm .dec 0) (work fun w => { w with Mc := #v[3, 0, 0, 0], xmaxc := #v[52, 0, 0, 0], xMc := set4 w.xMc 0 (first [4]) })).work.erp 3
      = 1664 := by decide +kernel
theorem test_dpupdate :
    elt (after .dpupdate (work fun w => { w with ep := first [0, 13440], dpp := first [1082, 0] })).enc.dp 81 = 13440 := by decide +kernel

/-! ### Records and the decoder: the examples of their rules -/

theorem test_emit : (after .emit (work fun w => { w with Nc := #v[42, 40, 40, 82] })).readWord .prmE 59 = 82 := by decide +kernel
theorem test_larrot : elt (after .larrot (work fun w => { w with larpp := first [8192] })).enc.larppLast 0 = 8192 := by decide +kernel
theorem test_larrotDec : elt (after .larrotDec (work fun w => { w with larpp := first [8192] })).dec.larppLast 0 = 8192 := by decide +kernel
/-- R244 (a), R246: field 67 of the record after a homing frame is 3. -/
theorem test_homeapply :
    elt (sub4 (after .homeapply { State.reset with homingSupported := true, enc := { EncState.home with lastFrameHome := true } }).work.xMc 3) 4
      = 3 := by decide +kernel
/-- R240: `0xFFFF` in `PRM_D[8]` gives 127. -/
theorem test_prmmask : sub4 (after .prmmask onesRecord).work.Nc 0 = 127 := by decide +kernel
/-- R205: the lag 127 is replaced by `nrp`. -/
theorem test_ltpsynth : (after (.ltpsynth 1) (work fun w => { w with Nc := #v[40, 127, 40, 40] })).dec.nrp = 40 := by decide +kernel
/-- R191, T1, k = 3. -/
theorem test_stsynth :
    (fun s : State => (s.work.sri.toInt, s.dec.v.toList.map BitVec.toInt)) (after (.stsynth 3) (work fun w => { w with
      wt := first [0, 0, 0, 1664], rrp := set4 w.rrp 0 #v[4096, 2458, 1638, 410, 0xFF92, 818, 1638, 218] }))
      = (1664, [1664, 208, 125, 83, 21, -6, 42, 83, 11]) := by decide +kernel
theorem test_deemph :
    (after .deemph { work fun w => { w with sri := 0xFF16 } with dec := { DecState.home with msr := 1664 } }).dec.msr.toInt = 1197 := by
  decide +kernel
theorem test_upscale :
    ((after (.upscale 159) { State.reset with dec := { DecState.home with msr := 0xFC62 } }).readWord .pcmOut 159).toInt = -1856 := by
  decide +kernel

/-! ### The machine as a whole -/

theorem test_reset_inv : BlockInv State.reset := by unfold BlockInv; decide
/-- The word `0x4000` of the opcode table runs ENCODE as the first instruction. -/
theorem test_fetch : (State.reset.withFetchWord 16 0x4000).inputs = [.req (encode .encode)] := rfl
theorem test_table_word : decodeTableWord 16 0xC100 = some (.currst .rx) := rfl

/-! ### For each statement with hypotheses, states and operands that meet them, at the ends of their ranges -/

theorem witness_DecodeEncode :
    Instr.wellFormed (.pack1 8 255) = true ∧ Instr.wellFormed (.unpack1 1) = true ∧ Instr.wellFormed (.upscale 159) = true :=
  ⟨rfl, rfl, rfl⟩

theorem witness_EncodeDecodePorts :
    decode (.cmd 0xA8FF) = .ok (.pack1 8 255) ∧ decode (.alu 0x4 1 2) = .ok (.aluAbs 1) := ⟨rfl, rfl⟩

/-- Each reserved clause of R89 at a bound, and a word beside it that is not reserved; the ALU selects on both sides of 14. -/
theorem witness_ReservedRequests :
    [0xD000, 0xFFFF, 0x0001, 0x9FFF, 0xA000, 0xA900, 0xAFFF, 0xB801, 0xB000, 0xB900, 0xC001, 0xC200, 0xCFFF].map
        (fun cw => match step (waiting (.req (.cmd cw))) with | .refused (.reserved _) => true | _ => false)
      = List.replicate 13 true ∧
    [0x0000, 0x9000, 0xA100, 0xA8FF, 0xB100, 0xB800, 0xC000, 0xC100].map
        (fun cw => match decode (.cmd cw) with | .ok _ => true | .error _ => false) = List.replicate 8 true ∧
    (waiting (.req (.alu 14 0 0))).inputs = [.req (.alu 14 0 0)] ∧ (waiting (.req (.alu 13 0 0))).flags.busy = false ∧
    (13 : BitVec 4).toNat < 14 := by decide +kernel

/-- A reserved ALU select completes and changes `alu_y` alone (U14). -/
theorem test_alu_reserved (a b : Word32) :
    step (waiting (.req (.alu 15 a b))) = .next { State.reset with aluY := Config.aluReserved 15 a b } := rfl

/-- A command that runs, one that is barred, and an idle block. -/
theorem witness_StepRunsDecoded :
    (waiting (.req (.cmd 0x9000))).inputs = [.req (.cmd 0x9000)] ∧ barred (waiting (.req (.cmd 0x9000))) (.cmd 0x9000) = false ∧
    decode (.cmd 0x9000) = .ok .prmeq ∧
    barred { waiting (.req (.cmd 0)) with flags := ⟨true, false, false, false⟩ } (.cmd 0) = true ∧ State.reset.inputs = [] :=
  ⟨rfl, rfl, rfl, rfl, rfl⟩

theorem witness_ResetState : (waiting .rst).inputs = [.rst] := rfl

theorem witness_StepKeepsInv :
    BlockInv (waiting (.req (.cmd 0x0000))) ∧ step (waiting (.req (.cmd 0x0000))) = .next (after .nop State.reset) ∧
    ¬ ((waiting (.req (.cmd 0x0000))).flags.busy = true ∧ (waiting (.req (.cmd 0x0000))).flags.done = true) :=
  ⟨by unfold BlockInv; decide, rfl, by decide⟩

/-- The cursor ends exactly at bit 264. -/
theorem witness_PortRequestsComplete :
    BlockInv { State.reset with curTx := ⟨32, 0⟩, curRx := ⟨32, 7⟩ } ∧ PortRequest (.cmd 0xA8FF) ∧ PortRequest (.alu 0 1 2) ∧
    decode (.cmd 0xA8FF) = .ok (.pack1 8 255) ∧ decode (.cmd 0xB100) = .ok (.unpack1 1) ∧
    CursorFits (.pack1 8 255) { State.reset with curTx := ⟨32, 0⟩, curRx := ⟨32, 7⟩ } ∧
    CursorFits (.unpack1 1) { State.reset with curTx := ⟨32, 0⟩, curRx := ⟨32, 7⟩ } := by
  refine ⟨by unfold BlockInv; decide, trivial, trivial, rfl, rfl, ?_, ?_⟩ <;> unfold CursorFits <;> decide

/-- The last element and the first one that does not exist, idle and busy. -/
theorem witness_HostActions :
    (waiting (.writeWord .pcmIn 159 8)).inputs = [.writeWord .pcmIn 159 8] ∧ 159 < WordBuf.pcmIn.len ∧ WordBuf.prmE.len ≤ 76 ∧
    (waiting (.writeOctet .frmRx 32 8)).inputs = [.writeOctet .frmRx 32 8] ∧ 32 < OctetBuf.frmRx.len ∧ OctetBuf.frmTx.len ≤ 33 ∧
    (waiting (.strap true)).inputs = [.strap true] ∧ State.reset.flags.busy = false ∧ (startCommand State.reset).flags.busy = true := by
  refine ⟨rfl, ?_, ?_, rfl, ?_, ?_, rfl, rfl, rfl⟩ <;> decide

theorem witness_Lifecycle :
    (waiting (.req (.cmd 0x0000))).inputs = [.req (.cmd 0x0000)] ∧ (∀ id o, Input.req (.cmd 0x0000) ≠ .req (.step id o)) ∧
    step (waiting (.req (.cmd 0x0000))) = .next (after .nop State.reset) :=
  ⟨rfl, fun _ _ h => (nomatch h), rfl⟩

/-- Two states that differ in a working value, an output and the decoder. -/
theorem witness_EncodeIsFunction :
    State.reset.enc = (work fun w => { w with so := 7 }).enc ∧
    State.reset.homingSupported = (work fun w => { w with so := 7 }).homingSupported ∧
    ∀ k, k < 160 → State.reset.readWord .pcmIn k = (work fun w => { w with so := 7 }).readWord .pcmIn k :=
  ⟨rfl, rfl, fun _ _ => rfl⟩

/-- The strap at 1, with and without a homing frame before. -/
theorem witness_EncodeHoming :
    ({ homeFrame with homingSupported := true }).homingSupported = true ∧
    ({ homeFrame with homingSupported := true, enc := { EncState.home with lastFrameHome := true } }).enc.lastFrameHome = true ∧
    ∀ k, k < 160 → IsHomingSample (homeFrame.readWord .pcmIn k) := by
  refine ⟨rfl, rfl, ?_⟩; unfold IsHomingSample; decide +kernel

/-- `nrp` at both ends. -/
theorem witness_DecodeResult :
    40 ≤ (40 : Word16).toInt ∧ (40 : Word16).toInt ≤ 120 ∧ 40 ≤ (120 : Word16).toInt ∧ (120 : Word16).toInt ≤ 120 ∧
    State.reset.dec.nrp = 40 ∧ ({ State.reset with dec := { DecState.home with nrp := 120 } }).dec.nrp = 120 := by decide

theorem witness_DecodeIsItsSteps : 40 ≤ State.reset.dec.nrp.toInt ∧ State.reset.dec.nrp.toInt ≤ 120 := by decide

/-- Two records that differ above the width of a field. -/
theorem witness_DecodeIsFunction :
    onesRecord.dec = (onesRecord.writeWord .prmD 0 0x3F).dec ∧ 40 ≤ onesRecord.dec.nrp.toInt ∧ onesRecord.dec.nrp.toInt ≤ 120 ∧
    (∀ n, n < 76 → (onesRecord.readWord .prmD n).toNat % 2 ^ fieldWidth n =
      ((onesRecord.writeWord .prmD 0 0x3F).readWord .prmD n).toNat % 2 ^ fieldWidth n) ∧
    onesRecord.readWord .prmD 0 ≠ (onesRecord.writeWord .prmD 0 0x3F).readWord .prmD 0 := by decide +kernel

/-- A common reset, and a host that copies the record. -/
theorem witness_DecoderFollowsEncoder :
    State.reset.homingSupported = false ∧ 40 ≤ State.reset.dec.nrp.toInt ∧ State.reset.dec.nrp.toInt ≤ 120 ∧
    State.reset.enc.dp = State.reset.dec.drp ∧ State.reset.enc.larppLast = State.reset.dec.larppLast ∧
    ∀ t : State, t.dec = State.reset.dec → ∃ u : State, u.dec = State.reset.dec ∧
      ∀ n, n < 76 → u.readWord .prmD n = t.readWord .prmE n := by
  refine ⟨rfl, by decide, by decide, rfl, rfl, fun t ht => ⟨t.writeWords .prmD 0 (t.readWords .prmE 76), ?_, fun n hn => ?_⟩⟩
  · rw [State.writeWords_eq]; exact ht
  · rw [State.readWord_writeWords, if_pos ⟨rfl, Nat.zero_le n⟩]
    simp [State.readWords, hn]

/-- One bit at the end of the frame, and eight. -/
theorem witness_Pack1Result :
    1 ≤ (1 : BitVec 4).toNat ∧ (8 : BitVec 4).toNat ≤ 8 ∧ (⟨32, 7⟩ : Cursor).bitsUsed + (1 : BitVec 4).toNat ≤ 264 ∧
    (⟨32, 0⟩ : Cursor).bitsUsed + (8 : BitVec 4).toNat ≤ 264 := by decide

/-- The host copies what `PACK1` wrote. -/
theorem witness_Unpack1Result :
    (⟨32, 0⟩ : Cursor).bitsUsed + (8 : BitVec 4).toNat ≤ 264 ∧
    ∃ t u : State, exec (.pack1 8 0xA5) State.reset = .next t ∧ u.curRx = State.reset.curTx ∧
      ∀ i, i < 33 → u.readOctet .frmRx i = t.readOctet .frmTx i := by
  refine ⟨by decide, after (.pack1 8 0xA5) State.reset, { State.reset with
    mem := { Memory.empty with
      frmRx := (List.range 33).map fun i => (i, (after (.pack1 8 0xA5) State.reset).readOctet .frmTx i) } }, rfl, rfl, ?_⟩
  generalize after (.pack1 8 0xA5) State.reset = t
  intro i hi
  interval_cases i <;> rfl

/-- Both ends of the reserved counts, and a cursor one bit too far. -/
theorem witness_PackerRefusals :
    (0 : BitVec 4).toNat = 0 ∧ 8 < (9 : BitVec 4).toNat ∧ 264 < (⟨32, 1⟩ : Cursor).bitsUsed + (8 : BitVec 4).toNat ∧
    264 < (⟨33, 0⟩ : Cursor).bitsUsed + (1 : BitVec 4).toNat := by decide

theorem witness_PackIsPack1Sequence : State.reset.mem.wf = true := rfl

/-- The all-zero record, and a frame that is the signature and zeros. -/
def zeroRecord : State :=
  { State.reset with mem := { Memory.empty with
    prmE := (List.range 76).map fun i => (i, 0)
    frmRx := (List.range 33).map fun i => (i, if i = 0 then 0xD0 else 0) } }

theorem witness_PackUnpackInverse :
    (∀ n, n < 76 → (zeroRecord.readWord .prmE n).toNat < 2 ^ fieldWidth n) ∧ completes .pack zeroRecord = true ∧
    (∀ i, i < 33 → zeroRecord.readOctet .frmRx i = (after .pack zeroRecord).readOctet .frmTx i) ∧
    Signed zeroRecord .frmRx ∧ completes .unpack zeroRecord = true ∧
    ∀ n, n < 76 → zeroRecord.readWord .prmE n = (after .unpack zeroRecord).readWord .prmD n := by
  refine ⟨?_, ?_, ?_, ?_, ?_, ?_⟩
  · decide +kernel
  · decide +kernel
  · decide +kernel
  · unfold Signed; decide +kernel
  · decide +kernel
  · decide +kernel

/-- The domain of `div` at its ends. -/
theorem witness_AluAbsDiv :
    0 ≤ int16 0 ∧ int16 0 < int16 1 ∧ int16 32766 < int16 32767 ∧ int16 0 = int16 0 ∧ int16 32767 = int16 32767 := by decide

theorem witness_AluNorm : (1 : Word32).toInt ≠ 0 ∧ (0x80000000 : Word32).toInt ≠ 0 := by decide

theorem witness_AluShifts16 : 0 ≤ int16 0 ∧ 0 ≤ int16 32767 ∧ int16 0xFFFF < 0 ∧ int16 0x8000 < 0 := by decide

theorem witness_AluShifts32 : 0 ≤ int16 31 ∧ 0 ≤ int16 32 ∧ int16 0xFFE1 < 0 ∧ int16 0xFFE0 < 0 := by decide

theorem witness_sample : (0 : BitVec 8).toNat < 160 ∧ (159 : BitVec 8).toNat < 160 := by decide

theorem witness_OffsetcompResult :
    -1073741824 ≤ (0xC0000000 : Word32).toInt ∧ (0x3FFFFFFF : Word32).toInt < 1073741824 := by decide

/-- A silent frame, and HOME's sums. -/
theorem witness_SchurResult :
    State.reset.work.Lacf[0].toInt = 0 ∧
    (fun s : State => 0 < s.work.Lacf[0].toInt ∧
      (∀ k : Fin 9, -s.work.Lacf[0].toInt ≤ s.work.Lacf[k].toInt ∧ s.work.Lacf[k].toInt ≤ s.work.Lacf[0].toInt) ∧
      Normalised (s.work.Lacf[0].toInt * 2 ^ 22))
      (work fun w => { w with Lacf := #v[296, 270, 268, 266, 264, 262, 260, 258, 256] }) := by
  refine ⟨rfl, ?_, ?_, ?_⟩
  · decide +kernel
  · decide +kernel
  · unfold Normalised; decide +kernel

/-- The first and the last code of a coefficient. -/
theorem witness_LarDecoding :
    0 ≤ (0 : Word16).toInt ∧ (63 : Word16).toInt ≤ 31 - -32 ∧ (7 : Word16).toInt ≤ 3 - -4 := by decide

/-- One sample in sub-segment 0, one sample in the history, 50 samples before it. -/
def oneLag (x : Word16) : State :=
  { work fun w => { w with d := first [x] } with
    enc := { EncState.home with dp := Vector.ofFn fun i => if i.val = 70 then 1000 else 0 } }

/-- No lag with a positive sum; a lag with one: at 1000 the maximum equals the energy 31250, at 500 it lies between 0 and the
energy, and the normalisation that both need. -/
theorem witness_LtpsearchResult :
    (fun s : State => ∀ i : Fin 81, lagSum s 0 6 (40 + i.val) ≤ 0) State.reset ∧
    (0 < lagSum (oneLag 1000) 0 (searchShift 1000) 50 ∧ lagSum (oneLag 1000) 0 (searchShift 1000) 50 / 2 ^ 5 = 31250) ∧
    (searchShift 500 = 0 ∧ max 0 (lagSum (oneLag 500) 0 0 50) / 2 ^ 6 = 15625 ∧
      (2 * sumTo 40 fun k => val (oneLag 500).enc.dp (120 + k - 50) / 8 * (val (oneLag 500).enc.dp (120 + k - 50) / 8)) = 31250) ∧
    Normalised (31250 * 2 ^ 16) := by
  refine ⟨?_, ?_, ?_, ?_⟩
  · decide +kernel
  · decide +kernel
  · decide +kernel
  · unfold Normalised; decide

/-- A lag at each end and the largest gain code. -/
theorem witness_LtpEncoder :
    40 ≤ (40 : Word16).toInt ∧ (120 : Word16).toInt ≤ 120 ∧ (3 : Word16).toNat < 4 ∧
    (sub4 (work fun w => { w with Nc := #v[40, 120, 40, 40], bc := #v[0, 3, 0, 0] }).work.Nc 1) = 120 := by decide

theorem witness_LtpsynthResult :
    40 ≤ State.reset.dec.nrp.toInt ∧ State.reset.dec.nrp.toInt ≤ 120 ∧ (sub4 State.reset.work.bc 3).toNat < 4 ∧
    (sub4 (work fun w => { w with Nc := #v[39, 121, 40, 120] }).work.Nc 1).toInt > 120 := by decide

theorem witness_MaximumCoding :
    (sub4 (work fun w => { w with xmaxc := #v[0, 63, 15, 16] }).work.xmaxc 1).toNat < 64 := by decide

/-- `exp` and `mant` at their ends; the codes of the maximum of thirteen samples. -/
theorem witness_PulseCoding :
    -4 ≤ (0xFFFC : Word16).toInt ∧ (6 : Word16).toInt ≤ 6 ∧ (7 : Word16).toNat < 8 ∧
    IsMax 13 (fun i => mag (val (first [0x8000] : Vector Word16 13) i)) 32767 ∧
    codeExp (maxCode 32767) = 6 ∧ codeMant (maxCode 32767) = 7 := by
  refine ⟨by decide, by decide, by decide, ⟨by decide, ?_, .inr ⟨0, by decide, by decide +kernel⟩⟩, by decide +kernel, by decide +kernel⟩
  decide +kernel

/-- The last grid, the last code, the last pulse code. -/
theorem witness_PulsePositions :
    (fun s : State => (sub4 s.work.Mc 0).toNat < 4 ∧ (sub4 s.work.xmaxc 0).toNat < 64 ∧
      ∀ i : Fin 13, (sub4 s.work.xMc 0)[i].toNat < 8)
      (work fun w => { w with Mc := #v[3, 0, 0, 0], xmaxc := #v[63, 0, 0, 0], xMc := set4 w.xMc 0 (Vector.replicate 13 7) }) := by
  decide +kernel

/-- The strap at each value, each of the two bits at each value. -/
theorem witness_HomeapplyResult :
    State.reset.homingSupported = false ∧ ({ State.reset with homingSupported := true }).homingSupported = true ∧
    (work fun w => { w with isHome := true }).work.isHome = true ∧ State.reset.work.isHome = false ∧
    ({ State.reset with enc := { EncState.home with lastFrameHome := true } }).enc.lastFrameHome = true ∧
    State.reset.enc.lastFrameHome = false := ⟨rfl, rfl, rfl, rfl, rfl, rfl⟩

/-- Between: the lag found at 500 is 50, and its gain code 1 (15625 is not above 31250 / 2). -/
theorem test_ltpsearch_between :
    (sub4 (after (.ltpsearch 0) (oneLag 500)).work.Nc 0).toNat = 50 ∧
    (sub4 (after (.ltpsearch 0) (oneLag 500)).work.bc 0).toNat = 1 := by decide +kernel

/-- Each clause at its bound, on both sides. -/
theorem witness_StepFaults :
    160 ≤ (160 : BitVec 8).toNat ∧ ¬ 160 ≤ (159 : BitVec 8).toNat ∧ OutsideLags 39 ∧ OutsideLags 121 ∧ ¬ OutsideLags 40 ∧
    ¬ OutsideLags 120 ∧ 4 ≤ (4 : Word16).toNat ∧ ¬ 4 ≤ (3 : Word16).toNat ∧ 8 ≤ (8 : Word16).toNat ∧ ¬ 8 ≤ (7 : Word16).toNat ∧
    (0xFFFF : Word16).toInt < 0 ∧ ¬ (0 : Word16).toInt < 0 := by unfold OutsideLags; decide

end Sys2Proof.Tests
end

/-! PROOFS. The block as a whole (10_state.md): the invariant, the host's actions, the life of the codec state, reset.
First what each step, command and packer effect may change and that it keeps the data part of the invariant; from that the
five obligations. -/

namespace Sys2Proof.BlockState

open Sys2Proof Sys2Proof.Machine Sys2Proof.Safety

/-! ### The data part of the invariant -/

/-- `BlockInv` without `busy` = 0: what also holds while a command runs. -/
structure DataInv (s : State) : Prop where
  wf : s.mem.wf = true
  curTx : s.curTx.bitsUsed ≤ 264
  curRx : s.curRx.bitsUsed ≤ 264
  nrp : lagOk s.dec.nrp = true

theorem blockInv_iff (s : State) : BlockInv s ↔ DataInv s ∧ s.flags.busy = false := by
  simp only [BlockInv, Cursor.ok_iff]
  constructor
  · rintro ⟨hm, ht, hr, hn, hb⟩
    exact ⟨⟨hm, ht, hr, hn⟩, hb⟩
  · rintro ⟨⟨hm, ht, hr, hn⟩, hb⟩
    exact ⟨hm, ht, hr, hn, hb⟩

/-- What every action does to the invariant: the data part is kept, and the flags are untouched or `busy` is 0. -/
structure Keeps (s t : State) : Prop where
  data : DataInv s → DataInv t
  flags : t.flags = s.flags ∨ t.flags.busy = false

theorem Keeps.blockInv {s t : State} (h : Keeps s t) (hs : BlockInv s) : BlockInv t := by
  obtain ⟨hd, hb⟩ := (blockInv_iff s).mp hs
  refine (blockInv_iff t).mpr ⟨h.data hd, ?_⟩
  rcases h.flags with hf | hf
  · rw [hf, hb]
  · exact hf

theorem Keeps.not_busy_and_done {s t : State} (h : Keeps s t) (hs : ¬ (s.flags.busy = true ∧ s.flags.done = true)) :
    ¬ (t.flags.busy = true ∧ t.flags.done = true) := by
  rcases h.flags with hf | hf
  · rwa [hf]
  · simp [hf]

theorem runStep_keeps (b : Bool) (f : State → State) {s t : State} (h : runStep b f s = .next t)
    (hf : b = true → Keeps s (f s)) : Keeps s t := by
  obtain ⟨hb, rfl⟩ := runStep_next.mp h
  exact hf hb

/-- A command ends with `busy` = 0 (R230), so its effect need only keep the data part. -/
theorem runCommand_keeps (f : State → State) {s t : State} (h : runCommand f s = .next t)
    (hf : DataInv (startCommand s) → DataInv (f (startCommand s))) : Keeps s t := by
  rw [runCommand_next] at h
  subst h
  refine ⟨fun hs => ?_, .inr rfl⟩
  obtain ⟨hm, ht, hr, hn⟩ := hf ⟨hs.wf, hs.curTx, hs.curRx, hs.nrp⟩
  exact ⟨hm, ht, hr, hn⟩

theorem showAlu_keeps {y : Word32} {s t : State} (h : showAlu y s = .next t) : Keeps s t := by
  rw [showAlu_next] at h
  subst h
  exact ⟨fun hs => ⟨hs.wf, hs.curTx, hs.curRx, hs.nrp⟩, .inl rfl⟩

/-! ### What the steps of the sequencer may change -/

/-- Nothing but working values differs. -/
def WorkOnly (s t : State) : Prop := ∃ w, t = { s with work := w }

/-- What a step of ENCODE may change: the encoder state, the working values and `PRM_E`. -/
structure EncoderStep (s t : State) : Prop where
  frame : ∃ e w m, t = { s with enc := e, work := w, mem := { s.mem with prmE := m } }
  wf : s.mem.wf = true → t.mem.wf = true

/-- What a step of DECODE may change: the decoder state, the working values and `PCM_OUT`. -/
structure DecoderStep (s t : State) : Prop where
  frame : ∃ d w m, t = { s with dec := d, work := w, mem := { s.mem with pcmOut := m } }
  wf : s.mem.wf = true → t.mem.wf = true
  nrp : lagOk s.dec.nrp = true → lagOk t.dec.nrp = true

theorem WorkOnly.refl (s : State) : WorkOnly s s := ⟨_, rfl⟩

/-- One more step that is written as a change of the working values. -/
theorem WorkOnly.onWork {s t : State} {f : Work → Work} (h : WorkOnly s t) : WorkOnly s (t.onWork f) := by
  obtain ⟨w, rfl⟩ := h
  exact ⟨_, rfl⟩

theorem onWork_workOnly (s : State) (f : Work → Work) : WorkOnly s (s.onWork f) := (WorkOnly.refl s).onWork

theorem WorkOnly.encoderStep {s t : State} (h : WorkOnly s t) : EncoderStep s t := by
  obtain ⟨w, rfl⟩ := h
  exact ⟨⟨_, _, _, rfl⟩, id⟩

theorem WorkOnly.decoderStep {s t : State} (h : WorkOnly s t) : DecoderStep s t := by
  obtain ⟨w, rfl⟩ := h
  exact ⟨⟨_, _, _, rfl⟩, id, id⟩

/-- A change of encoder state and working values alone is one of an encoder step. -/
theorem EncoderStep.of_frame {s t : State} (h : ∃ e w, t = { s with enc := e, work := w }) : EncoderStep s t := by
  obtain ⟨e, w, rfl⟩ := h
  exact ⟨⟨_, _, _, rfl⟩, id⟩

/-- A change of decoder state and working values that leaves `nrp` is one of a decoder step. -/
theorem DecoderStep.of_frame {s t : State}
    (h : ∃ d w, t = { s with dec := d, work := w } ∧ d.nrp = s.dec.nrp) : DecoderStep s t := by
  obtain ⟨d, w, rfl, hn⟩ := h
  exact ⟨⟨_, _, _, rfl⟩, id, fun h => hn ▸ h⟩

theorem EncoderStep.refl (s : State) : EncoderStep s s := ⟨⟨_, _, _, rfl⟩, id⟩

theorem DecoderStep.refl (s : State) : DecoderStep s s := ⟨⟨_, _, _, rfl⟩, id, id⟩

theorem EncoderStep.trans {s t u : State} (h : EncoderStep s t) (h' : EncoderStep t u) : EncoderStep s u := by
  refine ⟨?_, h'.wf ∘ h.wf⟩
  obtain ⟨e, w, m, rfl⟩ := h.frame
  obtain ⟨e', w', m', rfl⟩ := h'.frame
  exact ⟨_, _, _, rfl⟩

theorem DecoderStep.trans {s t u : State} (h : DecoderStep s t) (h' : DecoderStep t u) : DecoderStep s u := by
  refine ⟨?_, h'.wf ∘ h.wf, h'.nrp ∘ h.nrp⟩
  obtain ⟨d, w, m, rfl⟩ := h.frame
  obtain ⟨d', w', m', rfl⟩ := h'.frame
  exact ⟨_, _, _, rfl⟩

/-- A loop of encoder steps is an encoder step. -/
theorem EncoderStep.foldl {α : Type} {f : State → α → State} (l : List α) (s : State)
    (h : ∀ s, ∀ a ∈ l, EncoderStep s (f s a)) : EncoderStep s (l.foldl f s) :=
  List.foldlRecOn l f (motive := EncoderStep s) (.refl s) fun _ ih a ha => ih.trans (h _ a ha)

/-- A loop of decoder steps is a decoder step. -/
theorem DecoderStep.foldl {α : Type} {f : State → α → State} (l : List α) (s : State)
    (h : ∀ s, ∀ a ∈ l, DecoderStep s (f s a)) : DecoderStep s (l.foldl f s) :=
  List.foldlRecOn l f (motive := DecoderStep s) (.refl s) fun _ ih a ha => ih.trans (h _ a ha)

theorem EncoderStep.dataInv {s t : State} (h : EncoderStep s t) (hs : DataInv s) : DataInv t := by
  have hwf := h.wf hs.wf
  obtain ⟨e, w, m, rfl⟩ := h.frame
  exact ⟨hwf, hs.curTx, hs.curRx, hs.nrp⟩

theorem DecoderStep.dataInv {s t : State} (h : DecoderStep s t) (hs : DataInv s) : DataInv t := by
  have hwf := h.wf hs.wf
  have hnrp := h.nrp hs.nrp
  obtain ⟨d, w, m, rfl⟩ := h.frame
  exact ⟨hwf, hs.curTx, hs.curRx, hnrp⟩

theorem EncoderStep.dec {s t : State} (h : EncoderStep s t) : t.dec = s.dec := by
  obtain ⟨e, w, m, rfl⟩ := h.frame; rfl

theorem DecoderStep.enc {s t : State} (h : DecoderStep s t) : t.enc = s.enc := by
  obtain ⟨d, w, m, rfl⟩ := h.frame; rfl

theorem EncoderStep.keeps {s t : State} (h : EncoderStep s t) : Keeps s t := by
  refine ⟨h.dataInv, .inl ?_⟩
  obtain ⟨e, w, m, rfl⟩ := h.frame; rfl

theorem DecoderStep.keeps {s t : State} (h : DecoderStep s t) : Keeps s t := by
  refine ⟨h.dataInv, .inl ?_⟩
  obtain ⟨d, w, m, rfl⟩ := h.frame; rfl

theorem WorkOnly.keeps {s t : State} (h : WorkOnly s t) : Keeps s t := h.encoderStep.keeps

theorem onWork_keeps (s : State) (f : Work → Work) : Keeps s (s.onWork f) := (onWork_workOnly s f).keeps

/-! ### The steps, one by one -/

theorem stepDecoderefl_workOnly (side : Side) (s : State) : WorkOnly s (stepDecoderefl side s) := by
  obtain ⟨_, _, _, _, _, _, h⟩ := stepDecoderefl_frame side s
  exact ⟨_, h⟩

theorem stepInvapcm_workOnly (side : Side) (j : BitVec 2) (s : State) : WorkOnly s (stepInvapcm side j s) := by
  unfold stepInvapcm
  exact .onWork <| .onWork <| onWork_workOnly s _

theorem stepOffsetcomp_encoderStep (s : State) : EncoderStep s (stepOffsetcomp s) := .of_frame ⟨_, _, rfl⟩

theorem stepPreemph_encoderStep (k : Nat) (s : State) : EncoderStep s (stepPreemph k s) := .of_frame ⟨_, _, rfl⟩

theorem stepStanalysis_encoderStep (s : State) : EncoderStep s (stepStanalysis s) := by
  obtain ⟨_, _, _, _, _, _, h⟩ := stepStanalysis_frame s
  exact .of_frame ⟨_, _, h⟩

theorem stepDpupdate_encoderStep (s : State) : EncoderStep s (stepDpupdate s) := .of_frame ⟨_, _, rfl⟩

theorem stepLarrot_encoderStep (s : State) : EncoderStep s (stepLarrot s) := .of_frame ⟨_, _, rfl⟩

theorem stepHomeapply_encoderStep (s : State) : EncoderStep s (stepHomeapply s) := by
  rw [stepHomeapply_eq]
  split
  · exact .of_frame ⟨_, _, rfl⟩
  · exact .refl s

/-- EMIT writes the 76 fields of a record, so `PRM_E` stays canonical (R60, R237). -/
theorem stepEmit_encoderStep (s : State) : EncoderStep s (stepEmit s) := by
  obtain ⟨m, h⟩ := stepEmit_frame s
  refine ⟨⟨_, _, m, h⟩, fun hwf => State.wf_writeWords hwf ?_⟩
  simp [recordOf, WordBuf.len]

/-- The sanity test keeps a legal lag legal (R29, R205). -/
theorem lagOk_saneLag {x nrp : Word16} (h : lagOk nrp = true) : lagOk (saneLag x nrp) = true := by
  unfold saneLag
  split
  · exact h
  · simp only [lagOk, Bool.and_eq_true, decide_eq_true_eq]; omega

theorem stepLtpsynth_decoderStep (j : BitVec 2) (s : State) : DecoderStep s (stepLtpsynth j s) :=
  ⟨⟨_, _, _, rfl⟩, id, lagOk_saneLag⟩

theorem stepStsynth_decoderStep (k : Nat) (s : State) : DecoderStep s (stepStsynth k s) := .of_frame ⟨_, _, rfl, rfl⟩

theorem stepDeemph_decoderStep (s : State) : DecoderStep s (stepDeemph s) := .of_frame ⟨_, _, rfl, rfl⟩

theorem stepLarrotDec_decoderStep (s : State) : DecoderStep s (stepLarrotDec s) := .of_frame ⟨_, _, rfl, rfl⟩

theorem stepUpscale_decoderStep {k : Nat} (hk : k < 160) (s : State) : DecoderStep s (stepUpscale k s) :=
  ⟨⟨_, _, _, rfl⟩, fun hwf => State.wf_writeWord hwf hk, id⟩

/-! ### ENCODE and DECODE -/

theorem preprocessSample_encoderStep (s : State) (k : Nat) : EncoderStep s (preprocessSample s k) :=
  (onWork_workOnly s _).encoderStep.trans <| (stepOffsetcomp_encoderStep _).trans (stepPreemph_encoderStep k _)

theorem encodeSegment_encoderStep (s : State) (j : BitVec 2) : EncoderStep s (encodeSegment s j) :=
  have codes : WorkOnly s (stepGridpos .enc j (stepApcminv j (stepApcmq j (stepExpmant j (stepXmaxq j (stepGridsel j
      (stepWeight (stepLtpanalysis j (stepLtpsearch j s))))))))) :=
    .onWork <| .onWork <| .onWork <| .onWork <| .onWork <| .onWork <| .onWork <| .onWork <| onWork_workOnly s _
  codes.encoderStep.trans (stepDpupdate_encoderStep _)

/-- The four steps between the loop over the samples and DECODEREFL (R235 steps 3 to 6) write working values alone. -/
theorem lpcSteps_workOnly (s : State) : WorkOnly s (stepLarq (stepR2lar (stepSchur (stepAutocorr s)))) :=
  .onWork <| .onWork <| .onWork <| onWork_workOnly s _

theorem encodeAnalysis_encoderStep (s : State) : EncoderStep s (encodeAnalysis s) :=
  have samples := EncoderStep.foldl (List.range 160) (stepHomedet s) fun s k _ => preprocessSample_encoderStep s k
  (onWork_workOnly s _).encoderStep.trans <| samples.trans <| (lpcSteps_workOnly _).encoderStep.trans <|
    (stepDecoderefl_workOnly .enc _).encoderStep.trans (stepStanalysis_encoderStep _)

theorem encodeFinish_encoderStep (s : State) : EncoderStep s (encodeFinish s) :=
  (stepLarrot_encoderStep s).trans <| (stepHomeapply_encoderStep _).trans (stepEmit_encoderStep _)

/-- ENCODE is an encoder step (R235). -/
theorem encodeSteps_encoderStep (s : State) : EncoderStep s (encodeSteps s) :=
  have segments := EncoderStep.foldl quarters (encodeAnalysis s) fun s j _ => encodeSegment_encoderStep s j
  (encodeAnalysis_encoderStep s).trans <| segments.trans (encodeFinish_encoderStep _)

theorem decodeSegment_decoderStep (s : State) (j : BitVec 2) : DecoderStep s (decodeSegment s j) :=
  have codes : WorkOnly s (stepGridpos .dec j (stepApcminv j (stepExpmant j s))) :=
    .onWork <| .onWork <| onWork_workOnly s _
  codes.decoderStep.trans (stepLtpsynth_decoderStep j _)

theorem synthesizeSample_decoderStep {k : Nat} (hk : k < 160) (s : State) : DecoderStep s (synthesizeSample s k) :=
  (stepStsynth_decoderStep k s).trans <| (stepDeemph_decoderStep _).trans (stepUpscale_decoderStep hk _)

/-- DECODE is a decoder step (R239). -/
theorem decodeSteps_decoderStep (s : State) : DecoderStep s (decodeSteps s) :=
  have segments := DecoderStep.foldl quarters (stepPrmmask s) fun s j _ => decodeSegment_decoderStep s j
  have samples := DecoderStep.foldl (List.range 160) (stepDecoderefl .dec (quarters.foldl decodeSegment (stepPrmmask s)))
    fun s _ hk => synthesizeSample_decoderStep (List.mem_range.mp hk) s
  (onWork_workOnly s _).decoderStep.trans <| segments.trans <| (stepDecoderefl_workOnly .dec _).decoderStep.trans <|
    samples.trans (stepLarrotDec_decoderStep _)

/-! ### The packer -/

/-- Packing a value inside the frame keeps the data part (R140, R148). -/
theorem dataInv_packValue {s : State} (hs : DataInv s) {n : Nat} (h : s.curTx.bitsUsed + n ≤ 264) (v : Octet) :
    DataInv (packValue v n s) := by
  obtain ⟨hcur, -, -, hframe, hwf⟩ := packValue_spec v h
  refine ⟨hwf hs.wf, by omega, ?_, ?_⟩
  · rw [hframe]; exact hs.curRx
  · rw [hframe]; exact hs.nrp

/-- Packing fields that end inside the frame keeps the data part (R144). -/
theorem dataInv_packFields {ws : List Nat} {n : Nat} {s : State} (hs : DataInv s)
    (h : s.curTx.bitsUsed + ws.sum ≤ 264) : DataInv (packFields ws n s) := by
  induction ws generalizing n s with
  | nil => exact hs
  | cons w ws ih =>
    rw [List.sum_cons] at h
    have hw : s.curTx.bitsUsed + w ≤ 264 := by omega
    obtain ⟨hcur, -⟩ := packValue_spec ((s.readWord .prmE n).setWidth 8) hw
    exact ih (dataInv_packValue hs hw _) (by omega)

theorem wf_zeroFrame : Mem.wf 33 zeroFrame = true := by decide

/-- The 76 fields fill what the signature leaves of the 264 bits (R81, R83). -/
theorem sum_tblWIDTH : tblWIDTH.sum = 260 := rfl

theorem tblWIDTH_le : ∀ w ∈ tblWIDTH, w ≤ 8 := by decide

/-- `PACK` writes the signature and fields of 4 + 260 bits in all (R81, R144). -/
theorem dataInv_packEffect {s : State} (hs : DataInv s) : DataInv (packEffect s) := by
  have h0 : DataInv { s with curTx := Cursor.zero, mem := s.mem.setOctets .frmTx zeroFrame } :=
    ⟨Memory.wf_setOctets hs.wf wf_zeroFrame, by simp, hs.curRx, hs.nrp⟩
  have hw : Cursor.zero.bitsUsed + 4 ≤ 264 := by simp
  obtain ⟨hcur, -⟩ := packValue_spec 0xD
    (s := { s with curTx := Cursor.zero, mem := s.mem.setOctets .frmTx zeroFrame }) hw
  refine dataInv_packFields (dataInv_packValue h0 hw 0xD) ?_
  rw [hcur, Cursor.bitsUsed_zero, sum_tblWIDTH]

/-- Unpacking a value inside the frame keeps the data part (R141, R148). -/
theorem dataInv_unpackValue {s : State} (hs : DataInv s) {n : Nat} (hn : n ≤ 8) (h : s.curRx.bitsUsed + n ≤ 264) :
    DataInv (unpackValue n s).2 := by
  obtain ⟨hframe, hcur, -⟩ := unpackValue_spec hn h
  rw [hframe]
  exact ⟨hs.wf, hs.curTx, hcur ▸ h, hs.nrp⟩

/-- Unpacking fields that end inside the frame and inside `PRM_D` keeps the data part (R145). -/
theorem dataInv_unpackFields {ws : List Nat} {n : Nat} {s : State} (hs : DataInv s) (hw : ∀ w ∈ ws, w ≤ 8)
    (h : s.curRx.bitsUsed + ws.sum ≤ 264) (hn : n + ws.length ≤ 76) : DataInv (unpackFields ws n s) := by
  induction ws generalizing n s with
  | nil => exact hs
  | cons w ws ih =>
    rw [List.sum_cons] at h
    rw [List.length_cons] at hn
    obtain ⟨hw8, hws⟩ := List.forall_mem_cons.mp hw
    have hin : s.curRx.bitsUsed + w ≤ 264 := by omega
    obtain ⟨-, hcur, -⟩ := unpackValue_spec hw8 hin
    obtain ⟨hm, ht, hr, hp⟩ := dataInv_unpackValue hs hw8 hin
    refine ih (n := n + 1) ⟨State.wf_writeWord hm ?_, ht, hr, hp⟩ hws ?_ (by omega)
    · show n < 76; omega
    · show (unpackValue w s).2.curRx.bitsUsed + ws.sum ≤ 264; omega

theorem dataInv_drawResVal {s : State} (hs : DataInv s) : DataInv (drawResVal s) :=
  ⟨hs.wf, hs.curTx, hs.curRx, hs.nrp⟩

/-- `UNPACK` reads the signature and fields of 4 + 260 bits in all into 76 elements (R81, R145). -/
theorem dataInv_unpackEffect {s : State} (hs : DataInv s) : DataInv (unpackEffect s) := by
  have hw : Cursor.zero.bitsUsed + 4 ≤ 264 := by simp
  have h0 : DataInv { s with curRx := Cursor.zero } := ⟨hs.wf, hs.curTx, by simp, hs.nrp⟩
  obtain ⟨-, hcur, -⟩ := unpackValue_spec (n := 4) (s := { s with curRx := Cursor.zero }) (by omega) hw
  obtain ⟨hm, ht, hr, hp⟩ := dataInv_unpackValue h0 (by omega) hw
  have hsig : DataInv (unpackSignature { s with curRx := Cursor.zero }) := ⟨hm, ht, hr, hp⟩
  have hfit : (unpackSignature { s with curRx := Cursor.zero }).curRx.bitsUsed + tblWIDTH.sum ≤ 264 := by
    show (unpackValue 4 { s with curRx := Cursor.zero }).2.curRx.bitsUsed + tblWIDTH.sum ≤ 264
    rw [hcur, Cursor.bitsUsed_zero, sum_tblWIDTH]
  exact dataInv_drawResVal (dataInv_unpackFields hsig tblWIDTH_le hfit (Nat.le_refl 76))

/-- `PACK1` runs only where its bits fit in the frame (R148). -/
theorem execPack1_next {n : BitVec 4} {v : Octet} {s t : State} (h : execPack1 n v s = .next t) :
    s.curTx.bitsUsed + n.toNat ≤ 264 ∧ runCommand (packValue v n.toNat) s = .next t := by
  unfold execPack1 at h
  split at h
  · split at h
    · next hfit => exact ⟨hfit, h⟩
    · cases h
  · cases h

/-- `UNPACK1` runs only on 1 to 8 bits that fit in the frame (R89, R148). -/
theorem execUnpack1_next {n : BitVec 4} {s t : State} (h : execUnpack1 n s = .next t) :
    n.toNat ≤ 8 ∧ s.curRx.bitsUsed + n.toNat ≤ 264 ∧ runCommand (unpack1Effect n.toNat) s = .next t := by
  unfold execUnpack1 at h
  split at h
  · next hn =>
    simp only [bitCountOk, Bool.and_eq_true, decide_eq_true_eq] at hn
    split at h
    · next hfit => exact ⟨hn.2, hfit, h⟩
    · cases h
  · cases h

theorem execDecode_next {s t : State} (h : execDecode s = .next t) :
    runCommand (fun s => dropWork (decodeSteps s)) s = .next t := by
  unfold execDecode at h
  split at h
  · exact h
  · cases h

/-! ### Every instruction keeps the invariant -/

/-- `CURRST` sets one cursor to 0 (R142). -/
theorem execCurrst_keeps {sel : CurSel} {s t : State} (h : execCurrst sel s = .next t) : Keeps s t := by
  unfold execCurrst at h
  cases sel with
  | tx => exact runCommand_keeps _ h fun hs => ⟨hs.wf, by simp, hs.curRx, hs.nrp⟩
  | rx => exact runCommand_keeps _ h fun hs => ⟨hs.wf, hs.curTx, by simp, hs.nrp⟩

theorem execPack1_keeps {n : BitVec 4} {v : Octet} {s t : State} (h : execPack1 n v s = .next t) : Keeps s t := by
  obtain ⟨hfit, hrun⟩ := execPack1_next h
  exact runCommand_keeps _ hrun fun hs => dataInv_packValue hs hfit v

theorem execUnpack1_keeps {n : BitVec 4} {s t : State} (h : execUnpack1 n s = .next t) : Keeps s t := by
  obtain ⟨hn, hfit, hrun⟩ := execUnpack1_next h
  refine runCommand_keeps _ hrun fun hs => ?_
  obtain ⟨hm, ht, hr, hp⟩ := dataInv_unpackValue hs hn hfit
  exact ⟨hm, ht, hr, hp⟩

theorem lagOk_home : lagOk DecState.home.nrp = true := by decide

/-- Each instruction is a command with its effect, an ALU operation, or a step with what it may change. -/
theorem exec_keeps {i : Instr} {s t : State} (h : exec i s = .next t) : Keeps s t := by
  cases i with
  | nop => exact runCommand_keeps id h id
  | reset =>
    rw [exec, execReset] at h
    exact runCommand_keeps _ h fun hs => ⟨hs.wf, by simp, by simp, lagOk_home⟩
  | resetEnc => exact runCommand_keeps homeEncoder h fun hs => ⟨hs.wf, hs.curTx, hs.curRx, hs.nrp⟩
  | resetDec => exact runCommand_keeps homeDecoder h fun hs => ⟨hs.wf, hs.curTx, hs.curRx, lagOk_home⟩
  | encode =>
    rw [exec, execEncode] at h
    exact runCommand_keeps _ h ((encodeSteps_encoderStep _).trans (onWork_workOnly _ _).encoderStep).dataInv
  | decode =>
    exact runCommand_keeps _ (execDecode_next h)
      ((decodeSteps_decoderStep _).trans (onWork_workOnly _ _).decoderStep).dataInv
  | pack =>
    rw [exec, execPack] at h
    exact runCommand_keeps _ h dataInv_packEffect
  | unpack =>
    rw [exec, execUnpack] at h
    exact runCommand_keeps _ h dataInv_unpackEffect
  | isvalid =>
    rw [exec, execIsvalid] at h
    exact runCommand_keeps _ h fun hs => ⟨hs.wf, hs.curTx, hs.curRx, hs.nrp⟩
  | prmeq =>
    rw [exec, execPrmeq] at h
    exact runCommand_keeps _ h fun hs => ⟨hs.wf, hs.curTx, hs.curRx, hs.nrp⟩
  | pack1 n v => exact execPack1_keeps h
  | unpack1 n => exact execUnpack1_keeps h
  | currst sel => exact execCurrst_keeps h
  | aluAdd a b | aluSub a b | aluMult a b | aluMultR a b | aluDiv a b | aluLAdd a b | aluLSub a b | aluLMult a b
  | aluShl16 a b | aluShr16 a b | aluLShl a b | aluLShr a b | aluAbs a | aluNorm a => exact showAlu_keeps h
  | homedet => exact runStep_keeps true stepHomedet h fun _ => onWork_keeps s _
  | autocorr => exact runStep_keeps true stepAutocorr h fun _ => onWork_keeps s _
  | schur => exact runStep_keeps true stepSchur h fun _ => onWork_keeps s _
  | r2lar => exact runStep_keeps true stepR2lar h fun _ => onWork_keeps s _
  | larq => exact runStep_keeps true stepLarq h fun _ => onWork_keeps s _
  | lardec => exact runStep_keeps true stepLardec h fun _ => onWork_keeps s _
  | weight => exact runStep_keeps true stepWeight h fun _ => onWork_keeps s _
  | prmmask => exact runStep_keeps true stepPrmmask h fun _ => onWork_keeps s _
  | larinterp side zone => exact runStep_keeps true (stepLarinterp side zone) h fun _ => onWork_keeps s _
  | gridpos side j => exact runStep_keeps _ (stepGridpos side j) h fun _ => onWork_keeps s _
  | lar2rp zone => exact runStep_keeps true (stepLar2rp zone) h fun _ => onWork_keeps s _
  | downscale k => exact runStep_keeps _ (stepDownscale k.toNat) h fun _ => onWork_keeps s _
  | k2zone k => exact runStep_keeps _ (stepK2zone k.toNat) h fun _ => onWork_keeps s _
  | ltpsearch j => exact runStep_keeps true (stepLtpsearch j) h fun _ => onWork_keeps s _
  | ltpanalysis j => exact runStep_keeps _ (stepLtpanalysis j) h fun _ => onWork_keeps s _
  | gridsel j => exact runStep_keeps true (stepGridsel j) h fun _ => onWork_keeps s _
  | xmaxq j => exact runStep_keeps true (stepXmaxq j) h fun _ => onWork_keeps s _
  | expmant j => exact runStep_keeps true (stepExpmant j) h fun _ => onWork_keeps s _
  | apcmq j => exact runStep_keeps _ (stepApcmq j) h fun _ => onWork_keeps s _
  | apcminv j => exact runStep_keeps _ (stepApcminv j) h fun _ => onWork_keeps s _
  | decoderefl side =>
    exact runStep_keeps true (stepDecoderefl side) h fun _ => (stepDecoderefl_workOnly side s).keeps
  | invapcm side j => exact runStep_keeps _ (stepInvapcm side j) h fun _ => (stepInvapcm_workOnly side j s).keeps
  | offsetcomp => exact runStep_keeps true stepOffsetcomp h fun _ => (stepOffsetcomp_encoderStep s).keeps
  | stanalysis => exact runStep_keeps true stepStanalysis h fun _ => (stepStanalysis_encoderStep s).keeps
  | dpupdate => exact runStep_keeps true stepDpupdate h fun _ => (stepDpupdate_encoderStep s).keeps
  | emit => exact runStep_keeps true stepEmit h fun _ => (stepEmit_encoderStep s).keeps
  | larrot => exact runStep_keeps true stepLarrot h fun _ => (stepLarrot_encoderStep s).keeps
  | homeapply => exact runStep_keeps true stepHomeapply h fun _ => (stepHomeapply_encoderStep s).keeps
  | larrotDec => exact runStep_keeps true stepLarrotDec h fun _ => (stepLarrotDec_decoderStep s).keeps
  | deemph => exact runStep_keeps true stepDeemph h fun _ => (stepDeemph_decoderStep s).keeps
  | preemph k => exact runStep_keeps _ (stepPreemph k.toNat) h fun _ => (stepPreemph_encoderStep k.toNat s).keeps
  | ltpsynth j => exact runStep_keeps _ (stepLtpsynth j) h fun _ => (stepLtpsynth_decoderStep j s).keeps
  | stsynth k => exact runStep_keeps _ (stepStsynth k.toNat) h fun _ => (stepStsynth_decoderStep k.toNat s).keeps
  | upscale k =>
    exact runStep_keeps _ (stepUpscale k.toNat) h fun hk => (stepUpscale_decoderStep (of_decide_eq_true hk) s).keeps

/-! ### Every step of the machine keeps the invariant -/

/-- What a host write of a 16-bit element can do: nothing but write an element that exists (R60, R61). -/
theorem hostWriteWord_next {b : WordBuf} {i : Nat} {v : Word16} {s t : State} (h : hostWriteWord b i v s = .next t) :
    i < b.len ∧ t = s.writeWord b i v := by
  unfold hostWriteWord at h
  split at h
  · cases h
  · split at h
    · next hi => cases h; exact ⟨hi, rfl⟩
    · cases h

/-- What a host write of an octet can do: nothing but write an octet that exists (R60, R61). -/
theorem hostWriteOctet_next {b : OctetBuf} {i : Nat} {v : Octet} {s t : State} (h : hostWriteOctet b i v s = .next t) :
    i < b.len ∧ t = s.writeOctet b i v := by
  unfold hostWriteOctet at h
  split at h
  · cases h
  · split at h
    · next hi => cases h; exact ⟨hi, rfl⟩
    · cases h

theorem runInput_keeps {a : Input} {s t : State} (h : runInput a s = .next t) : Keeps s t := by
  cases a with
  | req r =>
    obtain ⟨-, ⟨i, -, hi⟩ | ⟨op, a, b, -, rfl⟩⟩ := runRequest_next h
    · exact exec_keeps hi
    · exact showAlu_keeps (showAlu_next.mpr rfl)
  | writeWord b i v =>
    obtain ⟨hi, rfl⟩ := hostWriteWord_next h
    exact ⟨fun hs => ⟨State.wf_writeWord hs.wf hi, hs.curTx, hs.curRx, hs.nrp⟩, .inl rfl⟩
  | writeOctet b i v =>
    obtain ⟨hi, rfl⟩ := hostWriteOctet_next h
    exact ⟨fun hs => ⟨State.wf_writeOctet hs.wf hi, hs.curTx, hs.curRx, hs.nrp⟩, .inl rfl⟩
  | strap homing =>
    cases h
    exact ⟨fun hs => ⟨hs.wf, hs.curTx, hs.curRx, hs.nrp⟩, .inl rfl⟩
  | rst =>
    cases h
    exact ⟨fun _ => ⟨Memory.wf_empty, Nat.zero_le _, Nat.zero_le _, lagOk_home⟩, .inr rfl⟩

/-- Taking the action from the list touches nothing the invariant speaks of. -/
theorem step_keeps {s t : State} (h : step s = .next t) : Keeps s t := by
  cases hin : s.inputs with
  | nil =>
    rw [step_idle hin] at h
    cases h
    exact ⟨id, .inl rfl⟩
  | cons a rest =>
    rw [step_input hin] at h
    obtain ⟨hdata, hflags⟩ := runInput_keeps h
    exact ⟨fun hs => hdata ⟨hs.wf, hs.curTx, hs.curRx, hs.nrp⟩, hflags⟩

/-- Settles O8: every action of the host keeps the data part and either leaves the flags or ends with `busy` = 0. -/
theorem stepKeepsInv : Obligations.StepKeepsInv :=
  ⟨fun _ _ hs h => (step_keeps h).blockInv hs, fun _ _ hs h => (step_keeps h).not_busy_and_done hs⟩

/-! ### Which requests stand for which instructions -/

/-- A word is its three fields (R86). -/
theorem cmdWord_fields (cw : BitVec 16) : cmdWord (cwOpcode cw) (cwN cw) (cwVal cw) = .cmd cw := by
  have hcw : cwOpcode cw ++ cwN cw ++ cwVal cw = cw := by
    apply BitVec.eq_of_getLsbD_eq
    intro i hi
    simp only [cwOpcode, cwN, cwVal, BitVec.getLsbD_append, BitVec.getLsbD_extractLsb']
    split
    · simp [*]
    · split
      · next h8 h4 => simp only [h4, decide_true, Bool.true_and]; congr 1; omega
      · next h8 h4 =>
        have : i - 8 - 4 < 4 := by omega
        simp only [this, decide_true, Bool.true_and]; congr 1; omega
  exact congrArg Request.cmd hcw

/-- A word of a command without operands is the encoding of that command (R86). -/
theorem encode_of_plainCommand {cw : BitVec 16} {o : BitVec 4} {i j : Instr} (hi : encode i = cmdWord o 0 0)
    (ho : (cwOpcode cw).toNat = o.toNat) (h : plainCommand cw i = .ok j) : encode j = .cmd cw := by
  unfold plainCommand at h
  split at h
  · next hz =>
    cases h
    have hn : cwN cw = (cw.extractLsb' 0 12).extractLsb' 8 4 := by
      simp [cwN, BitVec.extractLsb'_extractLsb'_of_le]
    have hv : cwVal cw = (cw.extractLsb' 0 12).extractLsb' 0 8 := by
      simp [cwVal, BitVec.extractLsb'_extractLsb'_of_le]
    rw [hz] at hn hv
    rw [hi, ← cmdWord_fields cw, BitVec.eq_of_toNat_eq ho, hn, hv]
    rfl
  · cases h

theorem encode_of_decodePack1 {cw : BitVec 16} {i : Instr} (ho : (cwOpcode cw).toNat = 10)
    (h : decodePack1 cw = .ok i) : encode i = .cmd cw := by
  unfold decodePack1 at h
  split at h
  · cases h
    rw [← cmdWord_fields cw, BitVec.eq_of_toNat_eq (y := 0xA) ho, encode]
  · cases h

theorem encode_of_decodeUnpack1 {cw : BitVec 16} {i : Instr} (ho : (cwOpcode cw).toNat = 11)
    (h : decodeUnpack1 cw = .ok i) : encode i = .cmd cw := by
  unfold decodeUnpack1 at h
  split at h
  · cases h
  · next hv =>
    split at h
    · cases h
      rw [← cmdWord_fields cw, BitVec.eq_of_toNat_eq (y := 0xB) ho, Decidable.not_not.mp hv, encode]
    · cases h

/-- A `CURRST` word is determined by its operand bit, the rest being fixed by the mask (R86). -/
theorem currst_word {cw : BitVec 16} (h : cw &&& 0xFEFF = 0xC000) : cw = if cw.getLsbD 8 then 0xC100 else 0xC000 := by
  have hsplit : cw = (cw &&& 0xFEFF) ||| (cw &&& BitVec.twoPow 16 8) := by
    rw [← BitVec.and_or_distrib_left]
    exact BitVec.and_allOnes.symm
  rw [h, BitVec.and_twoPow] at hsplit
  refine hsplit.trans ?_
  split <;> rfl

theorem encode_of_decodeCurrst {cw : BitVec 16} {i : Instr} (h : decodeCurrst cw = .ok i) : encode i = .cmd cw := by
  unfold decodeCurrst at h
  split at h
  · next hm =>
    cases h
    have hcw := currst_word hm
    by_cases hb : cw.getLsbD 8 = true
    · rw [if_pos hb] at hcw ⊢
      exact congrArg Request.cmd hcw.symm
    · rw [if_neg hb] at hcw ⊢
      exact congrArg Request.cmd hcw.symm
  · cases h

/-- R86: a command word that is accepted is the encoding of its instruction. -/
theorem encode_of_decode_cmd {cw : BitVec 16} {i : Instr} (h : decode (.cmd cw) = .ok i) : encode i = .cmd cw := by
  change decodeCmd cw = .ok i at h
  unfold decodeCmd at h
  split at h
  · next ho => exact encode_of_plainCommand (o := 0) rfl ho h
  · next ho => exact encode_of_plainCommand (o := 1) rfl ho h
  · next ho => exact encode_of_plainCommand (o := 2) rfl ho h
  · next ho => exact encode_of_plainCommand (o := 3) rfl ho h
  · next ho => exact encode_of_plainCommand (o := 4) rfl ho h
  · next ho => exact encode_of_plainCommand (o := 5) rfl ho h
  · next ho => exact encode_of_plainCommand (o := 6) rfl ho h
  · next ho => exact encode_of_plainCommand (o := 7) rfl ho h
  · next ho => exact encode_of_plainCommand (o := 8) rfl ho h
  · next ho => exact encode_of_plainCommand (o := 9) rfl ho h
  · next ho => exact encode_of_decodePack1 ho h
  · next ho => exact encode_of_decodeUnpack1 ho h
  · exact encode_of_decodeCurrst h
  · cases h

/-- R87: an ALU request that is accepted is the encoding of its instruction, up to an `alu_b` that may be ignored. -/
theorem encode_of_decode_alu {op : BitVec 4} {a b : Word32} {i : Instr} (h : decode (.alu op a b) = .ok i) :
    ∃ b', encode i = .alu op a b' := by
  change decodeAlu op a b = .ok i at h
  have hop : op = BitVec.ofNat 4 op.toNat := by simp
  unfold decodeAlu at h
  rw [hop]
  split at h <;> cases h <;> (next ho => rw [ho]; exact ⟨_, rfl⟩)

/-! ### The life of the codec state -/

/-- The commands that may change the persistent encoder state (R45). -/
def encoderCommands : List Instr := [.encode, .reset, .resetEnc]

/-- The commands that may change the persistent decoder state (R45). -/
def decoderCommands : List Instr := [.decode, .reset, .resetDec]

/-- The persistent state of encoder and decoder is as before. -/
def SameCodec (s t : State) : Prop := t.enc = s.enc ∧ t.dec = s.dec

theorem SameCodec.trans {s t u : State} (h : SameCodec s t) (h' : SameCodec t u) : SameCodec s u :=
  ⟨h'.1.trans h.1, h'.2.trans h.2⟩

theorem packValue_sameCodec (v : Octet) (n : Nat) (s : State) : SameCodec s (packValue v n s) :=
  List.foldlRecOn (bitOrder packOrder n) _ (motive := SameCodec s) ⟨rfl, rfl⟩ fun _ ih _ _ => ih.trans ⟨rfl, rfl⟩

theorem packFields_sameCodec (ws : List Nat) (n : Nat) (s : State) : SameCodec s (packFields ws n s) := by
  induction ws generalizing n s with
  | nil => exact ⟨rfl, rfl⟩
  | cons w ws ih => exact (packValue_sameCodec _ w s).trans (ih (n + 1) _)

theorem packEffect_sameCodec (s : State) : SameCodec s (packEffect s) :=
  (packValue_sameCodec 0xD 4 { s with curTx := Cursor.zero, mem := s.mem.setOctets .frmTx zeroFrame }).trans
    (packFields_sameCodec tblWIDTH 0 _)

theorem unpackValue_sameCodec (n : Nat) (s : State) : SameCodec s (unpackValue n s).2 :=
  List.foldlRecOn (bitOrder packOrder n) unpackBit (motive := fun p => SameCodec s p.2) ⟨rfl, rfl⟩
    fun _ ih _ _ => ih.trans ⟨rfl, rfl⟩

theorem unpackFields_sameCodec (ws : List Nat) (n : Nat) (s : State) : SameCodec s (unpackFields ws n s) := by
  induction ws generalizing n s with
  | nil => exact ⟨rfl, rfl⟩
  | cons w ws ih =>
    have hw : SameCodec s ((unpackValue w s).2.writeWord .prmD n ((unpackValue w s).1.setWidth 16)) :=
      unpackValue_sameCodec w s
    exact hw.trans (ih (n + 1) _)

theorem unpackEffect_sameCodec (s : State) : SameCodec s (unpackEffect s) := by
  have hsig : SameCodec s (unpackSignature { s with curRx := Cursor.zero }) :=
    unpackValue_sameCodec 4 { s with curRx := Cursor.zero }
  have hfields := hsig.trans (unpackFields_sameCodec tblWIDTH 0 _)
  unfold unpackEffect
  exact ⟨(drawResVal_enc _).trans hfields.1, (drawResVal_dec _).trans hfields.2⟩

theorem runCommand_sameCodec (f : State → State) {s t : State} (h : runCommand f s = .next t)
    (hf : SameCodec (startCommand s) (f (startCommand s))) : SameCodec s t := by
  rw [runCommand_next] at h
  subst h
  exact hf

theorem showAlu_sameCodec {y : Word32} {s t : State} (h : showAlu y s = .next t) : SameCodec s t := by
  rw [showAlu_next] at h
  subst h
  exact ⟨rfl, rfl⟩

theorem execCurrst_sameCodec {sel : CurSel} {s t : State} (h : execCurrst sel s = .next t) : SameCodec s t := by
  unfold execCurrst at h
  cases sel with
  | tx => exact runCommand_sameCodec _ h ⟨rfl, rfl⟩
  | rx => exact runCommand_sameCodec _ h ⟨rfl, rfl⟩

theorem execEncode_dec {s t : State} (h : execEncode s = .next t) : t.dec = s.dec := by
  rw [execEncode, runCommand_next] at h
  rw [h, finishCommand_dec, dropWork_dec, (encodeSteps_encoderStep _).dec, startCommand_dec]

theorem execDecode_enc {s t : State} (h : execDecode s = .next t) : t.enc = s.enc := by
  have hrun := execDecode_next h
  rw [runCommand_next] at hrun
  rw [hrun, finishCommand_enc, dropWork_enc, (decodeSteps_decoderStep _).enc, startCommand_enc]

/-- Which port instructions leave the codec state alone (R45). -/
def LeavesCodec (i : Instr) (s t : State) : Prop :=
  (i ∉ encoderCommands → t.enc = s.enc) ∧ (i ∉ decoderCommands → t.dec = s.dec)

theorem SameCodec.leavesCodec {s t : State} (h : SameCodec s t) (i : Instr) : LeavesCodec i s t :=
  ⟨fun _ => h.1, fun _ => h.2⟩

/-- R45, instruction by instruction. A step is no port instruction. -/
theorem exec_leavesCodec {i : Instr} {s t : State} (hp : PortRequest (encode i)) (h : exec i s = .next t) :
    LeavesCodec i s t := by
  cases i with
  | encode => exact ⟨fun hi => absurd (by decide) hi, fun _ => execEncode_dec h⟩
  | decode => exact ⟨fun _ => execDecode_enc h, fun hi => absurd (by decide) hi⟩
  | reset => exact ⟨fun hi => absurd (by decide) hi, fun hi => absurd (by decide) hi⟩
  | resetEnc =>
    refine ⟨fun hi => absurd (by decide) hi, fun _ => ?_⟩
    rw [exec, execResetEnc, runCommand_next] at h
    rw [h]; rfl
  | resetDec =>
    refine ⟨fun _ => ?_, fun hi => absurd (by decide) hi⟩
    rw [exec, execResetDec, runCommand_next] at h
    rw [h]; rfl
  | nop => exact (runCommand_sameCodec id h ⟨rfl, rfl⟩).leavesCodec _
  | pack =>
    rw [exec, execPack] at h
    exact (runCommand_sameCodec _ h (packEffect_sameCodec _)).leavesCodec _
  | unpack =>
    rw [exec, execUnpack] at h
    exact (runCommand_sameCodec _ h (unpackEffect_sameCodec _)).leavesCodec _
  | isvalid =>
    rw [exec, execIsvalid] at h
    exact (runCommand_sameCodec _ h ⟨rfl, rfl⟩).leavesCodec _
  | prmeq =>
    rw [exec, execPrmeq] at h
    exact (runCommand_sameCodec _ h ⟨rfl, rfl⟩).leavesCodec _
  | pack1 n v => exact (runCommand_sameCodec _ (execPack1_next h).2 (packValue_sameCodec v _ _)).leavesCodec _
  | unpack1 n =>
    obtain ⟨-, -, hrun⟩ := execUnpack1_next h
    exact (runCommand_sameCodec _ hrun (unpackValue_sameCodec n.toNat (startCommand s))).leavesCodec _
  | currst sel => exact (execCurrst_sameCodec h).leavesCodec _
  | aluAdd a b | aluSub a b | aluMult a b | aluMultR a b | aluDiv a b | aluLAdd a b | aluLSub a b | aluLMult a b
  | aluShl16 a b | aluShr16 a b | aluLShl a b | aluLShr a b | aluAbs a | aluNorm a =>
    exact (showAlu_sameCodec h).leavesCodec _
  | _ => exact hp.elim

/-- The words of the commands that may change the encoder state (R86). -/
theorem word_of_encoderCommand {i : Instr} {cw : BitVec 16} (he : encode i = .cmd cw) (hi : i ∈ encoderCommands) :
    cw = 0x4000 ∨ cw = 0x1000 ∨ cw = 0x2000 := by
  simp only [encoderCommands, List.mem_cons, List.not_mem_nil, or_false] at hi
  rcases hi with rfl | rfl | rfl <;> cases he <;> decide

/-- The words of the commands that may change the decoder state (R86). -/
theorem word_of_decoderCommand {i : Instr} {cw : BitVec 16} (he : encode i = .cmd cw) (hi : i ∈ decoderCommands) :
    cw = 0x5000 ∨ cw = 0x1000 ∨ cw = 0x3000 := by
  simp only [decoderCommands, List.mem_cons, List.not_mem_nil, or_false] at hi
  rcases hi with rfl | rfl | rfl <;> cases he <;> decide

/-- An ALU request stands for no command. -/
theorem not_command_of_alu {i : Instr} {op : BitVec 4} {a b : Word32} (he : encode i = .alu op a b) :
    i ∉ encoderCommands ∧ i ∉ decoderCommands := by
  simp only [encoderCommands, decoderCommands, List.mem_cons, List.not_mem_nil, or_false]
  constructor <;> rintro (rfl | rfl | rfl) <;> cases he

/-- R45 for one action of the host. -/
theorem runInput_codec {a : Input} {s t : State} (hstep : ∀ id o, a ≠ .req (.step id o))
    (h : runInput a s = .next t) :
    (a ≠ .rst → a ≠ .req (.cmd 0x4000) → a ≠ .req (.cmd 0x1000) → a ≠ .req (.cmd 0x2000) → t.enc = s.enc) ∧
    (a ≠ .rst → a ≠ .req (.cmd 0x5000) → a ≠ .req (.cmd 0x1000) → a ≠ .req (.cmd 0x3000) → t.dec = s.dec) := by
  cases a with
  | rst => exact ⟨fun hr => absurd rfl hr, fun hr => absurd rfl hr⟩
  | strap homing => cases h; exact ⟨fun _ _ _ _ => rfl, fun _ _ _ _ => rfl⟩
  | writeWord b i v =>
    obtain ⟨-, rfl⟩ := hostWriteWord_next h
    exact ⟨fun _ _ _ _ => rfl, fun _ _ _ _ => rfl⟩
  | writeOctet b i v =>
    obtain ⟨-, rfl⟩ := hostWriteOctet_next h
    exact ⟨fun _ _ _ _ => rfl, fun _ _ _ _ => rfl⟩
  | req r =>
    obtain ⟨-, ⟨i, hd, hi⟩ | ⟨op, x, y, -, rfl⟩⟩ := runRequest_next h
    · cases r with
      | step id o => exact absurd rfl (hstep id o)
      | cmd cw =>
        have he := encode_of_decode_cmd hd
        obtain ⟨henc, hdec⟩ := exec_leavesCodec (by rw [he]; trivial) hi
        refine ⟨fun _ h4 h1 h2 => henc fun hmem => ?_, fun _ h5 h1 h3 => hdec fun hmem => ?_⟩
        · rcases word_of_encoderCommand he hmem with rfl | rfl | rfl
          · exact h4 rfl
          · exact h1 rfl
          · exact h2 rfl
        · rcases word_of_decoderCommand he hmem with rfl | rfl | rfl
          · exact h5 rfl
          · exact h1 rfl
          · exact h3 rfl
      | alu op x y =>
        obtain ⟨y', he⟩ := encode_of_decode_alu hd
        obtain ⟨henc, hdec⟩ := exec_leavesCodec (by rw [he]; trivial) hi
        obtain ⟨hne, hnd⟩ := not_command_of_alu he
        exact ⟨fun _ _ _ _ => henc hne, fun _ _ _ _ => hdec hnd⟩
    · exact ⟨fun _ _ _ _ => rfl, fun _ _ _ _ => rfl⟩

/-- Settles O11, action by action of the host. -/
theorem lifecycle : Obligations.Lifecycle := by
  intro s t a rest hin hstep h
  rw [step_input hin] at h
  exact runInput_codec (s := { s with inputs := rest }) hstep h

/-! ### The host's own writes -/

/-- A write of one 16-bit element, as the frame says it. -/
theorem writeWord_sameMemoryButWord (s : State) (b : WordBuf) (i : Nat) (v : Word16) :
    SameMemoryButWord b i s (s.writeWord b i v) := by
  refine ⟨fun c k hne => ?_, fun c k => State.readOctet_writeWord s b c i k v⟩
  rw [State.readWord_writeWord, if_neg]
  rintro ⟨rfl, rfl⟩
  simp at hne

/-- A host write of a 16-bit element: refused while busy, a fault outside the buffer, else a write (R60, R61). -/
theorem hostWriteWord_spec (s : State) (b : WordBuf) (i : Nat) (v : Word16) :
    (s.flags.busy = true → hostWriteWord b i v s = .refused .hostWhileBusy) ∧
    (s.flags.busy = false → b.len ≤ i → hostWriteWord b i v s = .fault .noSuchElement) ∧
    (s.flags.busy = false → i < b.len → hostWriteWord b i v s = .next (s.writeWord b i v)) := by
  refine ⟨fun hb => ?_, fun hb hi => ?_, fun hb hi => ?_⟩
  · simp [hostWriteWord, hb]
  · simp [hostWriteWord, hb, hi]
  · simp [hostWriteWord, hb, hi]

/-- A host write of an octet, likewise. -/
theorem hostWriteOctet_spec (s : State) (b : OctetBuf) (i : Nat) (v : Octet) :
    (s.flags.busy = true → hostWriteOctet b i v s = .refused .hostWhileBusy) ∧
    (s.flags.busy = false → b.len ≤ i → hostWriteOctet b i v s = .fault .noSuchElement) ∧
    (s.flags.busy = false → i < b.len → hostWriteOctet b i v s = .next (s.writeOctet b i v)) := by
  refine ⟨fun hb => ?_, fun hb hi => ?_, fun hb hi => ?_⟩
  · simp [hostWriteOctet, hb]
  · simp [hostWriteOctet, hb, hi]
  · simp [hostWriteOctet, hb, hi]

/-- Settles O10, the three clauses one after another, each by where the write goes. -/
theorem hostActions : Obligations.HostActions := by
  refine ⟨fun s b i v rest hin => ?_, fun s b i v rest hin => ?_, fun s h rest hin => step_input hin⟩
  · rw [step_input hin]
    obtain ⟨hbusy, hout, hinside⟩ := hostWriteWord_spec { s with inputs := rest } b i v
    refine ⟨hbusy, hout, fun hb hi => ⟨_, hinside hb hi, rfl, ?_, writeWord_sameMemoryButWord _ b i v⟩⟩
    rw [State.readWord_writeWord, if_pos ⟨rfl, rfl⟩]
  · rw [step_input hin]
    obtain ⟨hbusy, hout, hinside⟩ := hostWriteOctet_spec { s with inputs := rest } b i v
    refine ⟨hbusy, hout, fun hb hi => ⟨_, hinside hb hi, rfl, ?_, fun c k => State.readWord_writeOctet _ b c i k v,
      fun c k hne => ?_⟩⟩
    · rw [State.readOctet_writeOctet, if_pos ⟨rfl, rfl⟩]
    · rw [State.readOctet_writeOctet, if_neg]
      · rfl
      · rintro ⟨rfl, rfl⟩
        simp at hne

/-! ### Reset -/

theorem encHome_home : EncHome EncState.home := by simp [EncHome, EncState.home]

theorem decHome_home : DecHome DecState.home := by simp [DecHome, DecState.home]

/-- The layout of `STATUS` (R46). -/
theorem status_toNat (s : State) :
    s.status.toNat = s.flags.busy.toNat + 2 * s.flags.done.toNat + 4 * s.flags.valid.toNat + 8 * s.flags.eq.toNat := by
  have bits : ∀ b d v e : Bool, (BitVec.ofBool e ++ BitVec.ofBool v ++ BitVec.ofBool d ++ BitVec.ofBool b).toNat =
      b.toNat + 2 * d.toNat + 4 * v.toNat + 8 * e.toNat := by decide
  exact bits _ _ _ _

theorem status_eq_zero {s : State} (h : s.flags = Flags.zero) : s.status = 0 := by
  rw [State.status, h]
  rfl

theorem status_startCommand (s : State) : (startCommand s).status.toNat % 4 = 1 := by
  rw [status_toNat]
  simp only [startCommand_flags, Bool.toNat_true, Bool.toNat_false]
  omega

theorem status_finishCommand (s : State) : (finishCommand s).status.toNat % 4 = 2 := by
  rw [status_toNat]
  simp only [finishCommand_flags, Bool.toNat_true, Bool.toNat_false]
  omega

theorem read?_empty_words (b : WordBuf) (i : Nat) : Mem.read? (Memory.empty.words b) i = none := by
  cases b <;> rfl

theorem read?_empty_octets (b : OctetBuf) (i : Nat) : Mem.read? (Memory.empty.octets b) i = none := by
  cases b <;> rfl

/-- Settles O6: the home state in `State.reset` and after `rst`, and the layout of `STATUS`. -/
theorem resetState : Obligations.ResetState := by
  refine ⟨⟨encHome_home, decHome_home, rfl, rfl, rfl⟩, fun s rest hin => ?_, rfl, fun s =>
    ⟨status_toNat s, status_startCommand s, status_finishCommand s⟩⟩
  exact ⟨applyRst { s with inputs := rest }, step_input hin, encHome_home, decHome_home, rfl, rfl, rfl, rfl, rfl, rfl,
    read?_empty_words, read?_empty_octets, status_eq_zero rfl⟩

/-- Settles O7: unwritten buffers are canonical, both cursors are at 0 and `nrp` is 40. -/
theorem resetInv : Obligations.ResetInv :=
  (blockInv_iff State.reset).mpr ⟨⟨reset_wf, Nat.zero_le _, Nat.zero_le _, lagOk_home⟩, rfl⟩

end Sys2Proof.BlockState

/-! PROOFS. Memory (20_memory.md): where an instruction addresses an element that does not exist (R60), and what a step of the
machine runs. Each step of the sequencer stops by its own test, so the statement about stops comes down to what the tests of a
sample, a lag, an index and a code of the block maximum say. -/

namespace Sys2Proof.Addressing

open Sys2Proof Sys2Proof.Machine Sys2Proof.Safety

/-! ### The tests of what is addressed -/

theorem sampleOk_eq_false {k : BitVec 8} : sampleOk k = false ↔ 160 ≤ k.toNat := by simp [sampleOk]

theorem indexOk_eq_false {i : Word16} {n : Nat} : indexOk i n = false ↔ n ≤ i.toNat := by simp [indexOk]

theorem lagOk_eq_false {lag : Word16} : lagOk lag = false ↔ OutsideLags lag := by
  simp only [lagOk, OutsideLags, Bool.and_eq_false_iff, decide_eq_false_iff_not, not_le]

/-- The sanity test leaves an illegal lag only where the coded lag and `nrp` are both illegal (R205). -/
theorem outsideLags_saneLag {x nrp : Word16} : OutsideLags (saneLag x nrp) ↔ OutsideLags x ∧ OutsideLags nrp := by
  unfold saneLag
  split
  · next hx => exact ⟨fun h => ⟨hx, h⟩, And.right⟩
  · next hx => exact ⟨fun h => (hx h).elim, fun h => (hx h.1).elim⟩

/-- A word as an unsigned index into a table: its value, where that is not negative, and past every table where it is. -/
theorem le_toNat_iff {x : Word16} {n : Nat} (hn : n ≤ 32768) : n ≤ x.toNat ↔ x.toInt < 0 ∨ n ≤ x.toInt := by
  have hx := x.isLt
  rw [BitVec.toInt_eq_toNat_cond]
  split <;> omega

/-! ### `mant` of a code (R213) -/

theorem toInt_shl16_one (m : Word16) : (shl16 m 1).toInt = clamp16 (2 * m.toInt) := by
  rw [toInt_shl16 (by decide), Int.mul_comm]; rfl

theorem toInt_shl16_three (e : Word16) : (shl16 e 3).toInt = clamp16 (8 * e.toInt) := by
  rw [toInt_shl16 (by decide), Int.mul_comm]; rfl

theorem toInt_shr16_three (c : Word16) : (shr16 c 3).toInt = c.toInt / 8 := toInt_shr16 (by decide)

theorem toInt_sub_eight (m : Word16) : (sub m 8).toInt = clamp16 (m.toInt - 8) := toInt_sub m 8

/-- One turn of the normalisation. -/
theorem toInt_doubled (m : Word16) : (add (shl16 m 1) 1).toInt = clamp16 (clamp16 (2 * m.toInt) + 1) := by
  rw [toInt_add, toInt_shl16_one]; rfl

/-- The normalisation never brings a negative `mant` up to 0. -/
theorem normalizeMant_neg (n : Nat) {exp mant : Word16} (h : mant.toInt < 0) :
    (normalizeMant n (exp, mant)).2.toInt < 0 := by
  induction n generalizing exp mant with
  | zero => exact h
  | succ n ih =>
    rw [normalizeMant, if_pos (by omega)]
    refine ih ?_
    rw [toInt_doubled]
    unfold clamp16
    omega

/-- A positive `mant` ends in 8..15 where the doublings at hand can bring it above 7. -/
theorem normalizeMant_range (n : Nat) {exp mant : Word16} (hpos : 0 < mant.toInt) (hle : mant.toInt ≤ 15)
    (h : 8 < (mant.toInt + 1) * 2 ^ n) :
    8 ≤ (normalizeMant n (exp, mant)).2.toInt ∧ (normalizeMant n (exp, mant)).2.toInt ≤ 15 := by
  induction n generalizing exp mant with
  | zero => simp only [normalizeMant]; omega
  | succ n ih =>
    rw [normalizeMant]
    split
    · next h7 =>
      have hdouble : (add (shl16 mant 1) 1).toInt = 2 * mant.toInt + 1 := by
        rw [toInt_doubled]
        unfold clamp16
        omega
      refine ih (by omega) (by omega) ?_
      calc 8 < (mant.toInt + 1) * 2 ^ (n + 1) := h
        _ = ((add (shl16 mant 1) 1).toInt + 1) * 2 ^ n := by rw [hdouble]; ring
    · next h7 => exact ⟨not_le.mp h7, hle⟩

/-- EXPMANT starts from `exp` 0 and the code itself, up to code 15. -/
theorem expMant_of_le {c : Word16} (h : c.toInt ≤ 15) (h0 : c.toInt ≠ 0) :
    (expMant c).2 = sub (normalizeMant 3 (0, c)).2 8 := by
  have hmant : sub c (shl16 0 3) = c := by
    apply BitVec.eq_of_toInt_eq
    have hzero : shl16 0 3 = 0 := by decide
    rw [hzero, toInt_sub]
    simpa using clamp16_id (toInt_range16 c).1 (toInt_range16 c).2
  simp only [expMant, if_neg (show ¬ c.toInt > 15 by omega), hmant, if_neg h0]

/-- Above 15 EXPMANT has nothing to normalise: `mant` is `c % 8`. -/
theorem toInt_expMant_of_gt {c : Word16} (h : 15 < c.toInt) : (expMant c).2.toInt = c.toInt % 8 := by
  have hr := toInt_range16 c
  have hexp : (sub (shr16 c 3) 1).toInt = c.toInt / 8 - 1 := by
    rw [toInt_sub, toInt_shr16_three]
    exact clamp16_id (x := c.toInt / 8 - 1) (by omega) (by omega)
  have hmant : (sub c (shl16 (sub (shr16 c 3) 1) 3)).toInt = c.toInt % 8 + 8 := by
    rw [toInt_sub, toInt_shl16_three, hexp]
    unfold clamp16
    omega
  have h0 : ¬ (sub c (shl16 (sub (shr16 c 3) 1) 3)).toInt = 0 := by omega
  have h7 : ¬ (sub c (shl16 (sub (shr16 c 3) 1) 3)).toInt ≤ 7 := by omega
  simp only [expMant, if_pos h, if_neg h0, normalizeMant, if_neg h7]
  rw [toInt_sub_eight, hmant]
  unfold clamp16
  omega

/-- The `mant` of a code is that of a table entry, or negative as the code is (R213). -/
theorem toInt_expMant_range (c : Word16) :
    (c.toInt < 0 → (expMant c).2.toInt < 0) ∧ (0 ≤ c.toInt → 0 ≤ (expMant c).2.toInt ∧ (expMant c).2.toInt < 8) := by
  rcases lt_trichotomy c.toInt 0 with hneg | hzero | hpos
  · have hn := normalizeMant_neg 3 (exp := 0) hneg
    rw [expMant_of_le (by omega) (by omega), toInt_sub_eight]
    unfold clamp16
    omega
  · have hmant : (expMant 0).2 = 7 := by decide
    obtain rfl : c = 0 := BitVec.eq_of_toInt_eq hzero
    rw [hmant]
    decide
  · by_cases h15 : c.toInt ≤ 15
    · have hn := normalizeMant_range 3 (exp := 0) hpos h15 (by omega)
      rw [expMant_of_le h15 (by omega), toInt_sub_eight]
      unfold clamp16
      omega
    · rw [toInt_expMant_of_gt (by omega)]
      omega

/-- INVAPCM's own `mant` leaves its table exactly for a negative code (R213, R219). -/
theorem indexOk_expMant_eq_false {c : Word16} : indexOk (expMant c).2 8 = false ↔ c.toInt < 0 := by
  obtain ⟨hneg, hnonneg⟩ := toInt_expMant_range c
  rw [indexOk_eq_false, le_toNat_iff (by omega)]
  omega

/-! ### Where a step and DECODE stop -/

/-- A step stops exactly where its test of what it addresses fails. -/
theorem faultsExactlyIf_of_runStep {P : Prop} {i : Instr} {b : Bool} {f : State → State} {s : State}
    (hexec : exec i s = runStep b f s) (hP : b = false ↔ P) : FaultsExactlyIf P i s := by
  unfold FaultsExactlyIf
  rw [hexec, ← hP]
  exact ⟨runStep_fault.mpr, fun hb => ⟨f s, runStep_next.mpr ⟨eq_true_of_ne_false hb, rfl⟩⟩⟩

/-- DECODE stops exactly where the lag it keeps is illegal (R29). -/
theorem decode_faultsExactlyIf (s : State) : FaultsExactlyIf (OutsideLags s.dec.nrp) .decode s := by
  unfold FaultsExactlyIf
  rw [← lagOk_eq_false, show exec .decode s = execDecode s from rfl]
  unfold execDecode
  constructor
  · intro h
    rw [h]
    rfl
  · intro h
    rw [if_pos (eq_true_of_ne_false h)]
    exact ⟨_, rfl⟩

/-- Settles O60: each step's test fails exactly under its clause, and DECODE tests `nrp`. -/
theorem stepFaults : Obligations.StepFaults := by
  intro side j k s
  have hsample := sampleOk_eq_false (k := k)
  refine ⟨faultsExactlyIf_of_runStep rfl hsample, faultsExactlyIf_of_runStep rfl hsample,
    faultsExactlyIf_of_runStep rfl hsample, faultsExactlyIf_of_runStep rfl hsample,
    faultsExactlyIf_of_runStep rfl hsample, faultsExactlyIf_of_runStep rfl ?ltpanalysis,
    faultsExactlyIf_of_runStep rfl ?ltpsynth, faultsExactlyIf_of_runStep rfl indexOk_eq_false,
    faultsExactlyIf_of_runStep rfl indexOk_eq_false, faultsExactlyIf_of_runStep rfl indexOk_eq_false,
    faultsExactlyIf_of_runStep rfl ?invapcm, decode_faultsExactlyIf s⟩
  case ltpanalysis => rw [Bool.and_eq_false_iff, lagOk_eq_false, indexOk_eq_false]
  case ltpsynth => rw [Bool.and_eq_false_iff, lagOk_eq_false, outsideLags_saneLag, indexOk_eq_false]
  case invapcm => rw [Bool.and_eq_false_iff, indexOk_expMant_eq_false, indexOk_eq_false]

/-! ### A step of the machine -/

/-- A request the host may not make is refused by name (R61, R230). -/
theorem runRequest_barred {r : Request} {s : State} (hb : barred s r = true) :
    runRequest r s = .refused .hostWhileBusy := by
  unfold runRequest; rw [hb]; rfl

/-- Whether a request is barred does not depend on the actions that wait. -/
theorem barred_inputs (s : State) (rest : List Input) (r : Request) :
    barred { s with inputs := rest } r = barred s r := by
  cases r <;> rfl

/-- Settles O4: the host's next action is run on the state without it, where it is barred as before. -/
theorem stepRunsDecoded : Obligations.StepRunsDecoded := by
  refine ⟨fun s r rest i hin hb hd => ?runs, fun s r rest hin hb => ?refused, fun s hin => step_idle hin⟩
  case runs =>
    have hb' : barred { s with inputs := rest } r = false := (barred_inputs s rest r).trans hb
    exact (step_input hin).trans (runRequest_ok hb' hd)
  case refused =>
    have hb' : barred { s with inputs := rest } r = true := (barred_inputs s rest r).trans hb
    exact (step_input hin).trans (runRequest_barred hb')

end Sys2Proof.Addressing

/-! PROOFS. The instruction encoding (30_encoding.md): the decoder reads back what the encoder writes, the command words and ALU
selects that stand for an instruction and those that stand for none. -/

namespace Sys2Proof.Encoding

open Sys2Proof Sys2Proof.Machine Sys2Proof.Safety Sys2Proof.Laws Sys2Proof.BlockState

/-! ### From instruction to request and back -/

/-- Settles O1, row by row of the opcode table; `PACK1` and `UNPACK1` use their bit count, the sample steps their index. -/
theorem decodeEncode : Obligations.DecodeEncode := by
  intro i
  cases i with
  | nop => exact DecodeEncode.nop
  | reset => exact DecodeEncode.reset
  | resetEnc => exact DecodeEncode.resetEnc
  | resetDec => exact DecodeEncode.resetDec
  | encode => exact DecodeEncode.encode
  | decode => exact DecodeEncode.decode
  | pack => exact DecodeEncode.pack
  | unpack => exact DecodeEncode.unpack
  | isvalid => exact DecodeEncode.isvalid
  | prmeq => exact DecodeEncode.prmeq
  | pack1 n val => exact DecodeEncode.pack1 n val
  | unpack1 n => exact DecodeEncode.unpack1 n
  | currst sel => exact DecodeEncode.currst sel
  | aluAdd a b => exact DecodeEncode.aluAdd a b
  | aluSub a b => exact DecodeEncode.aluSub a b
  | aluMult a b => exact DecodeEncode.aluMult a b
  | aluMultR a b => exact DecodeEncode.aluMultR a b
  | aluAbs a => exact DecodeEncode.aluAbs a
  | aluDiv a b => exact DecodeEncode.aluDiv a b
  | aluLAdd a b => exact DecodeEncode.aluLAdd a b
  | aluLSub a b => exact DecodeEncode.aluLSub a b
  | aluLMult a b => exact DecodeEncode.aluLMult a b
  | aluNorm a => exact DecodeEncode.aluNorm a
  | aluShl16 a b => exact DecodeEncode.aluShl16 a b
  | aluShr16 a b => exact DecodeEncode.aluShr16 a b
  | aluLShl a b => exact DecodeEncode.aluLShl a b
  | aluLShr a b => exact DecodeEncode.aluLShr a b
  | homedet => exact DecodeEncode.homedet
  | downscale k => exact DecodeEncode.downscale k
  | offsetcomp => exact DecodeEncode.offsetcomp
  | preemph k => exact DecodeEncode.preemph k
  | autocorr => exact DecodeEncode.autocorr
  | schur => exact DecodeEncode.schur
  | r2lar => exact DecodeEncode.r2lar
  | larq => exact DecodeEncode.larq
  | lardec => exact DecodeEncode.lardec
  | larinterp side zone => exact DecodeEncode.larinterp side zone
  | lar2rp zone => exact DecodeEncode.lar2rp zone
  | stanalysis => exact DecodeEncode.stanalysis
  | ltpsearch j => exact DecodeEncode.ltpsearch j
  | ltpanalysis j => exact DecodeEncode.ltpanalysis j
  | weight => exact DecodeEncode.weight
  | gridsel j => exact DecodeEncode.gridsel j
  | xmaxq j => exact DecodeEncode.xmaxq j
  | expmant j => exact DecodeEncode.expmant j
  | apcmq j => exact DecodeEncode.apcmq j
  | apcminv j => exact DecodeEncode.apcminv j
  | gridpos side j => exact DecodeEncode.gridpos side j
  | dpupdate => exact DecodeEncode.dpupdate
  | emit => exact DecodeEncode.emit
  | larrot => exact DecodeEncode.larrot
  | larrotDec => exact DecodeEncode.larrotDec
  | homeapply => exact DecodeEncode.homeapply
  | prmmask => exact DecodeEncode.prmmask
  | ltpsynth j => exact DecodeEncode.ltpsynth j
  | stsynth k => exact DecodeEncode.stsynth k
  | deemph => exact DecodeEncode.deemph
  | upscale k => exact DecodeEncode.upscale k
  | k2zone k => exact DecodeEncode.k2zone k
  | decoderefl side => exact DecodeEncode.decoderefl side
  | invapcm side j => exact DecodeEncode.invapcm side j

/-! ### The command words -/

theorem toNat_cwOpcode (cw : BitVec 16) : (cwOpcode cw).toNat = cw.toNat / 0x1000 := by
  have := cw.isLt
  simp only [cwOpcode, BitVec.extractLsb'_toNat, Nat.shiftRight_eq_div_pow]
  omega

theorem toNat_cwN (cw : BitVec 16) : (cwN cw).toNat = cw.toNat / 0x100 % 16 := by
  simp [cwN, BitVec.extractLsb'_toNat, Nat.shiftRight_eq_div_pow]

theorem cwVal_eq_zero_iff (cw : BitVec 16) : cwVal cw = 0 ↔ cw.toNat % 0x100 = 0 := by
  rw [← BitVec.toNat_inj]
  simp [cwVal, BitVec.extractLsb'_toNat]

theorem bitCountOk_iff (n : BitVec 4) : bitCountOk n = true ↔ 1 ≤ n.toNat ∧ n.toNat ≤ 8 := by
  simp [bitCountOk]

/-- Which reading of a command word its opcode selects (R86): none from 0xD on. -/
theorem decodeCmd_cases (cw : BitVec 16) :
    ((cwOpcode cw).toNat < 10 ∧ ∃ i : Instr, i.wellFormed = true ∧ decodeCmd cw = plainCommand cw i) ∨
    ((cwOpcode cw).toNat = 10 ∧ decodeCmd cw = decodePack1 cw) ∨
    ((cwOpcode cw).toNat = 11 ∧ decodeCmd cw = decodeUnpack1 cw) ∨
    ((cwOpcode cw).toNat = 12 ∧ decodeCmd cw = decodeCurrst cw) ∨
    (12 < (cwOpcode cw).toNat ∧ decodeCmd cw = .error .opcode) := by
  have ho := (cwOpcode cw).isLt
  unfold decodeCmd
  generalize (cwOpcode cw).toNat = o at ho ⊢
  interval_cases o <;> simp <;> exact ⟨_, rfl, rfl⟩

theorem plainCommand_ok_iff {cw : BitVec 16} {i j : Instr} :
    plainCommand cw i = .ok j ↔ cw.toNat % 0x1000 = 0 ∧ i = j := by
  have hz : cw.extractLsb' 0 12 = 0 ↔ cw.toNat % 0x1000 = 0 := by
    rw [← BitVec.toNat_inj]
    simp [BitVec.extractLsb'_toNat]
  unfold plainCommand
  split <;> simp_all

theorem decodePack1_ok_iff {cw : BitVec 16} {i : Instr} :
    decodePack1 cw = .ok i ↔ bitCountOk (cwN cw) = true ∧ .pack1 (cwN cw) (cwVal cw) = i := by
  unfold decodePack1
  split <;> simp_all

theorem decodeUnpack1_ok_iff {cw : BitVec 16} {i : Instr} :
    decodeUnpack1 cw = .ok i ↔ cwVal cw = 0 ∧ bitCountOk (cwN cw) = true ∧ .unpack1 (cwN cw) = i := by
  unfold decodeUnpack1
  split
  · simp_all
  · split <;> simp_all

/-- `CURRST` has two words, one for each cursor (R86, R142). -/
theorem decodeCurrst_ok_iff {cw : BitVec 16} {i : Instr} :
    decodeCurrst cw = .ok i ↔ (cw = 0xC000 ∧ i = .currst .tx) ∨ (cw = 0xC100 ∧ i = .currst .rx) := by
  constructor
  · intro h
    have he := encode_of_decodeCurrst h
    unfold decodeCurrst at h
    split at h
    · cases h
      by_cases hb : cw.getLsbD 8 = true
      · rw [if_pos hb] at he ⊢
        cases he
        exact .inr ⟨rfl, rfl⟩
      · rw [if_neg hb] at he ⊢
        cases he
        exact .inl ⟨rfl, rfl⟩
    · cases h
  · rintro (⟨rfl, rfl⟩ | ⟨rfl, rfl⟩) <;> rfl

/-- A command word that is accepted is a well-formed instruction (R86, R89). -/
theorem wellFormed_of_decode_cmd {cw : BitVec 16} {i : Instr} (h : decode (.cmd cw) = .ok i) : i.wellFormed = true := by
  change decodeCmd cw = .ok i at h
  rcases decodeCmd_cases cw with ⟨-, j, hj, hd⟩ | ⟨-, hd⟩ | ⟨-, hd⟩ | ⟨-, hd⟩ | ⟨-, hd⟩ <;> rw [hd] at h
  · obtain ⟨-, rfl⟩ := plainCommand_ok_iff.mp h
    exact hj
  · obtain ⟨hn, rfl⟩ := decodePack1_ok_iff.mp h
    exact hn
  · obtain ⟨-, hn, rfl⟩ := decodeUnpack1_ok_iff.mp h
    exact hn
  · obtain ⟨-, rfl⟩ | ⟨-, rfl⟩ := decodeCurrst_ok_iff.mp h <;> rfl
  · cases h

/-- Only `ABS` and `NORM` lose the operand `alu_b` (R87). -/
theorem alu_b_of_decode_alu {op : BitVec 4} {a b b' : Word32} {i : Instr} (h : decode (.alu op a b) = .ok i)
    (he : encode i = .alu op a b') (hAbs : op ≠ 0x4) (hNorm : op ≠ 0x9) : b' = b := by
  cases i with
  | aluAdd x y | aluSub x y | aluMult x y | aluMultR x y | aluDiv x y | aluLAdd x y | aluLSub x y | aluLMult x y
  | aluShl16 x y | aluShr16 x y | aluLShl x y | aluLShr x y => cases he; cases h; rfl
  | aluAbs x => cases he; exact absurd rfl hAbs
  | aluNorm x => cases he; exact absurd rfl hNorm
  | currst sel => cases sel <;> cases he
  | _ => cases he

/-- Settles O2: encoding undoes decoding at both ports. -/
theorem encodeDecodePorts : Obligations.EncodeDecodePorts := by
  refine ⟨fun cw i h => ⟨encode_of_decode_cmd h, wellFormed_of_decode_cmd h⟩, fun op a b i h => ?_⟩
  obtain ⟨b', he⟩ := encode_of_decode_alu h
  exact ⟨b', he, alu_b_of_decode_alu h he⟩

/-- Settles O5: each word is read by evaluating the decoder on it. -/
theorem decodeWords : Obligations.DecodeWords :=
  ⟨rfl, rfl, rfl, rfl, rfl, fun _ _ => rfl, fun _ => rfl, fun _ => rfl⟩

/-! ### The reserved requests -/

/-- The command words that R89 calls reserved, by value. -/
def ReservedWord (cw : BitVec 16) : Prop :=
  0xD000 ≤ cw.toNat ∨
  (cw.toNat < 0xA000 ∧ cw.toNat % 0x1000 ≠ 0) ∨
  (cw.toNat / 0x1000 = 0xA ∧ (cw.toNat / 0x100 % 16 = 0 ∨ 8 < cw.toNat / 0x100 % 16)) ∨
  (cw.toNat / 0x1000 = 0xB ∧ (cw.toNat % 0x100 ≠ 0 ∨ cw.toNat / 0x100 % 16 = 0 ∨ 8 < cw.toNat / 0x100 % 16)) ∨
  (cw.toNat / 0x1000 = 0xC ∧ cw.toNat ≠ 0xC000 ∧ cw.toNat ≠ 0xC100)

/-- The decoder accepts exactly the command words that are not reserved (R89). -/
theorem decode_cmd_ok_iff (cw : BitVec 16) : (∃ i, decode (.cmd cw) = .ok i) ↔ ¬ ReservedWord cw := by
  change (∃ i, decodeCmd cw = .ok i) ↔ _
  have hcur : ∀ w : BitVec 16, cw = w ↔ cw.toNat = w.toNat := fun w => BitVec.toNat_inj.symm
  unfold ReservedWord
  rcases decodeCmd_cases cw with ⟨ho, j, -, hd⟩ | ⟨ho, hd⟩ | ⟨ho, hd⟩ | ⟨ho, hd⟩ | ⟨ho, hd⟩ <;>
    rw [toNat_cwOpcode] at ho <;> simp only [hd]
  · simp only [plainCommand_ok_iff, exists_and_left, exists_eq', and_true]
    omega
  · simp only [decodePack1_ok_iff, bitCountOk_iff, toNat_cwN, exists_and_left, exists_eq', and_true]
    omega
  · simp only [decodeUnpack1_ok_iff, bitCountOk_iff, toNat_cwN, cwVal_eq_zero_iff, exists_and_left, exists_eq', and_true]
    omega
  · simp only [decodeCurrst_ok_iff, hcur, exists_or, exists_and_left, exists_eq, and_true, BitVec.reduceToNat]
    omega
  · simp only [reduceCtorEq, exists_false, false_iff, not_not]
    omega

/-- A command completes: it is not refused (R230). -/
theorem runCommand_ne_refused (f : State → State) (s : State) (r : Refusal) : runCommand f s ≠ .refused r :=
  fun h => nomatch h

/-- A well-formed command is not refused as reserved, whatever else stops it (R89, R148). -/
theorem exec_command_ne_reserved {i : Instr} {cw : BitVec 16} (he : encode i = .cmd cw) (hw : i.wellFormed = true)
    (s : State) (why : Reserved) : exec i s ≠ .refused (.reserved why) := by
  cases i with
  | nop => exact runCommand_ne_refused id s _
  | resetEnc => exact runCommand_ne_refused homeEncoder s _
  | resetDec => exact runCommand_ne_refused homeDecoder s _
  | pack => exact runCommand_ne_refused packEffect s _
  | unpack => exact runCommand_ne_refused unpackEffect s _
  | reset => rw [exec, execReset]; exact runCommand_ne_refused _ s _
  | encode => rw [exec, execEncode]; exact runCommand_ne_refused _ s _
  | isvalid => rw [exec, execIsvalid]; exact runCommand_ne_refused _ s _
  | prmeq => rw [exec, execPrmeq]; exact runCommand_ne_refused _ s _
  | currst sel =>
    rw [exec]
    unfold execCurrst
    cases sel with
    | tx => exact runCommand_ne_refused _ s _
    | rx => exact runCommand_ne_refused _ s _
  | decode =>
    rw [exec, execDecode]
    split
    · exact runCommand_ne_refused _ s _
    · exact fun h => nomatch h
  | pack1 n v =>
    rw [exec, execPack1, if_pos (show bitCountOk n = true from hw)]
    split
    · exact runCommand_ne_refused _ s _
    · exact fun h => nomatch h
  | unpack1 n =>
    rw [exec, execUnpack1, if_pos (show bitCountOk n = true from hw)]
    split
    · exact runCommand_ne_refused _ s _
    · exact fun h => nomatch h
  | _ => cases he

/-- With `busy` = 0 a command word is refused as reserved exactly where it decodes to nothing (R89; log 15). -/
theorem runRequest_cmd_reserved_iff {cw : BitVec 16} {s : State} (hb : s.flags.busy = false) :
    (∃ why, runRequest (.cmd cw) s = .refused (.reserved why)) ↔ ¬ ∃ i, decode (.cmd cw) = .ok i := by
  have hb' : barred s (.cmd cw) = false := hb
  cases hd : decode (.cmd cw) with
  | ok i =>
    rw [runRequest_ok hb' hd]
    simpa using exec_command_ne_reserved (encode_of_decode_cmd hd) (wellFormed_of_decode_cmd hd) s
  | error why =>
    rw [runRequest_error hb' hd]
    simp [runReserved]

/-- An ALU select below 14 is an operation that shows some value; 14 and 15 are none (R87, R89). -/
theorem decodeAlu_cases (op : BitVec 4) (a b : Word32) :
    (op.toNat < 14 ∧ ∃ i, decodeAlu op a b = .ok i ∧ ∃ y, ∀ s, exec i s = showAlu y s) ∨
    (14 ≤ op.toNat ∧ decodeAlu op a b = .error .aluOp) := by
  have ho := op.isLt
  unfold decodeAlu
  generalize op.toNat = o at ho ⊢
  interval_cases o <;> simp <;> exact ⟨_, fun _ => rfl⟩

theorem decode_alu_ok_iff (op : BitVec 4) (a b : Word32) : (∃ i, decode (.alu op a b) = .ok i) ↔ op.toNat < 14 := by
  change (∃ i, decodeAlu op a b = .ok i) ↔ _
  rcases decodeAlu_cases op a b with ⟨ho, i, hd, -⟩ | ⟨ho, hd⟩ <;> rw [hd]
  · simp [ho]
  · simp [ho]

/-- With `busy` = 0 every ALU request shows some value, a reserved one too (R87, U14; log 30). -/
theorem runRequest_alu {op : BitVec 4} {a b : Word32} {s : State} (hb : s.flags.busy = false) :
    ∃ y, runRequest (.alu op a b) s = showAlu y s := by
  have hb' : barred s (.alu op a b) = false := hb
  rcases decodeAlu_cases op a b with ⟨-, i, hd, y, hy⟩ | ⟨-, hd⟩
  · exact ⟨y, (runRequest_ok hb' hd).trans (hy s)⟩
  · exact ⟨_, runRequest_error hb' hd⟩

/-- Settles O3: command words by what the decoder accepts, ALU selects by what the port shows. -/
theorem reservedRequests : Obligations.ReservedRequests := by
  refine ⟨fun s cw rest hin hb => ?command, fun s op a b rest hin hb => ⟨decode_alu_ok_iff op a b, ?alu⟩⟩
  case command =>
    rw [step_input hin]
    exact (runRequest_cmd_reserved_iff (s := { s with inputs := rest }) hb).trans ((decode_cmd_ok_iff cw).not.trans not_not)
  case alu =>
    rw [step_input hin]
    obtain ⟨y, hy⟩ := runRequest_alu (op := op) (a := a) (b := b) (s := { s with inputs := rest }) hb
    exact ⟨_, hy, rfl, fun _ _ => rfl, fun _ _ => rfl⟩

end Sys2Proof.Encoding

/-! PROOFS. The frame parameter packer (41_packer.md) over a whole frame: what `PACK` and `UNPACK` do to the 264 stream bits, that
they undo each other, and that `PACK` is its own sequence of `PACK1`s. -/

namespace Sys2Proof.FramePacker

open Sys2Proof Sys2Proof.Machine Sys2Proof.Safety Sys2Proof.BlockState Sys2Proof.Encoding

/-! ### Where `PACK1` and `UNPACK1` run and where they stop -/

theorem execPack1_of_fits {n : BitVec 4} {v : Octet} {s : State} (hn : bitCountOk n = true)
    (h : s.curTx.bitsUsed + n.toNat ≤ 264) : execPack1 n v s = runCommand (packValue v n.toNat) s := by
  rw [execPack1, if_pos hn, if_pos h]

theorem execPack1_of_past {n : BitVec 4} {v : Octet} {s : State} (hn : bitCountOk n = true)
    (h : 264 < s.curTx.bitsUsed + n.toNat) : execPack1 n v s = .refused .cursorPastEnd := by
  rw [execPack1, if_pos hn, if_neg (by omega)]

theorem execUnpack1_of_past {n : BitVec 4} {s : State} (hn : bitCountOk n = true)
    (h : 264 < s.curRx.bitsUsed + n.toNat) : execUnpack1 n s = .refused .cursorPastEnd := by
  rw [execUnpack1, if_pos hn, if_neg (by omega)]

/-- Settles O25: a reserved count stops both first; a legal one runs only within the frame. -/
theorem packerRefusals : Obligations.PackerRefusals := by
  intro n v s
  refine ⟨fun hn => ?_, fun h1 h8 hpast => execPack1_of_past ((bitCountOk_iff n).mpr ⟨h1, h8⟩) hpast,
    fun h1 h8 hpast => execUnpack1_of_past ((bitCountOk_iff n).mpr ⟨h1, h8⟩) hpast⟩
  have hbad : ¬ bitCountOk n = true := by rw [bitCountOk_iff]; omega
  exact ⟨if_neg hbad, if_neg hbad⟩

/-! ### The layout of a frame -/

theorem fieldWidth_range {n : Nat} (hn : n < 76) : 1 ≤ fieldWidth n ∧ fieldWidth n ≤ 8 := by
  have h : ∀ k < 76, 1 ≤ fieldWidth k ∧ fieldWidth k ≤ 8 := by decide
  exact h n hn

/-- The fields lie one behind another (R83). -/
theorem fieldStart_succ {n : Nat} (hn : n < 76) : fieldStart (n + 1) = fieldStart n + fieldWidth n := by
  have h : ∀ k < 76, fieldStart (k + 1) = fieldStart k + fieldWidth k := by decide
  exact h n hn

/-- The fields start behind the signature and end with the frame (R82, R83). -/
theorem fieldStart_ends : fieldStart 0 = 4 ∧ fieldStart 76 = 264 := by decide

/-- The width table is the closed form of the widths (R81). -/
theorem tblWIDTH_eq : tblWIDTH = (List.range' 0 76).map fieldWidth := by decide

theorem fieldStart_le {n m : Nat} (h : n ≤ m) (hm : m ≤ 76) : fieldStart n ≤ fieldStart m := by
  induction m, h using Nat.le_induction with
  | base => exact Nat.le_refl _
  | succ m _ ih =>
    rw [fieldStart_succ (by omega)]
    have := ih (by omega)
    omega

/-- Every field ends within the frame (R83). -/
theorem fieldEnd_le {n : Nat} (hn : n < 76) : fieldStart n + fieldWidth n ≤ 264 := by
  rw [← fieldStart_succ hn, ← fieldStart_ends.2]
  exact fieldStart_le hn (Nat.le_refl 76)

/-- Every stream bit of the first m fields belongs to one of them. -/
theorem exists_field {m p : Nat} (hm : m ≤ 76) (h4 : 4 ≤ p) (hp : p < fieldStart m) :
    ∃ n q, n < m ∧ q < fieldWidth n ∧ p = fieldStart n + q := by
  induction m with
  | zero =>
    rw [fieldStart_ends.1] at hp
    omega
  | succ m ih =>
    rw [fieldStart_succ (by omega)] at hp
    by_cases hin : fieldStart m ≤ p
    · exact ⟨m, p - fieldStart m, by omega, by omega, by omega⟩
    · obtain ⟨n, q, hn, hq, he⟩ := ih (by omega) (by omega)
      exact ⟨n, q, by omega, hq, he⟩

/-! ### Frames by their stream bits -/

/-- An octet of a frame is its eight stream bits (R62). -/
theorem readOctet_eq_of_streamBit {s t : State} {b c : OctetBuf} {i : Nat}
    (h : ∀ p, p / 8 = i → streamBit s b p = streamBit t c p) : s.readOctet b i = t.readOctet c i := by
  apply BitVec.eq_of_getLsbD_eq
  intro k hk
  have hp := h (8 * i + (7 - k)) (by omega)
  unfold streamBit at hp
  rwa [show (8 * i + (7 - k)) / 8 = i by omega, show 7 - (8 * i + (7 - k)) % 8 = k by omega] at hp

/-- The stream bits of a frame are those of its 33 octets (R62). -/
theorem streamBit_congr {s t : State} {b c : OctetBuf} (h : ∀ i, i < 33 → s.readOctet b i = t.readOctet c i) {p : Nat}
    (hp : p < 264) : streamBit s b p = streamBit t c p := by
  unfold streamBit
  rw [h _ (by omega)]

/-- A frame is the signature and this record (R82, R83, R84). -/
structure FrameHolds (s : State) (b : OctetBuf) (f : Nat → Word16) : Prop where
  signed : Signed s b
  fields : ∀ n, n < 76 → FieldHolds s b n (f n)

/-- The four signature bits, by position (R85). -/
theorem signed_iff (s : State) (b : OctetBuf) :
    Signed s b ↔ ∀ p, p < 4 → streamBit s b p = (0xD : Octet).getLsbD (3 - p) := by
  constructor
  · rintro ⟨h0, h1, h2, h3⟩ p hp
    interval_cases p
    · exact h0
    · exact h1
    · exact h2
    · exact h3
  · intro h
    exact ⟨h 0 (by omega), h 1 (by omega), h 2 (by omega), h 3 (by omega)⟩

/-- The signature and the record determine all 264 bits of a frame. -/
theorem FrameHolds.streamBit_eq {s t : State} {b c : OctetBuf} {f : Nat → Word16} (hs : FrameHolds s b f)
    (ht : FrameHolds t c f) {p : Nat} (hp : p < 264) : streamBit s b p = streamBit t c p := by
  by_cases h4 : p < 4
  · rw [(signed_iff s b).mp hs.signed p h4, (signed_iff t c).mp ht.signed p h4]
  · obtain ⟨n, q, hn, hq, rfl⟩ := exists_field (Nat.le_refl 76) (by omega) (fieldStart_ends.2 ▸ hp)
    rw [hs.fields n hn q hq, ht.fields n hn q hq]

theorem FrameHolds.readOctet_eq {s t : State} {b c : OctetBuf} {f : Nat → Word16} (hs : FrameHolds s b f)
    (ht : FrameHolds t c f) {i : Nat} (hi : i < 33) : s.readOctet b i = t.readOctet c i :=
  readOctet_eq_of_streamBit fun p hp => hs.streamBit_eq ht (by omega)

/-- A copy of a frame holds the same record. -/
theorem FrameHolds.copy {s t : State} {b c : OctetBuf} {f : Nat → Word16} (hs : FrameHolds s b f)
    (h : ∀ i, i < 33 → t.readOctet c i = s.readOctet b i) : FrameHolds t c f := by
  have hbit : ∀ p, p < 264 → streamBit t c p = streamBit s b p := fun p hp => streamBit_congr h hp
  refine ⟨(signed_iff t c).mpr fun p hp => ?_, fun n hn q hq => ?_⟩
  · rw [hbit p (by omega), (signed_iff s b).mp hs.signed p hp]
  · have hend := fieldEnd_le hn
    rw [hbit _ (by omega), hs.fields n hn q hq]

/-- A word within a width has no bit from there on. -/
theorem getLsbD_of_toNat_lt {w n k : Nat} {x : BitVec w} (h : x.toNat < 2 ^ n) (hk : n ≤ k) : x.getLsbD k = false := by
  rw [← BitVec.testBit_toNat]
  exact Nat.testBit_eq_false_of_lt (h.trans_le (Nat.pow_le_pow_right (by omega) hk))

/-- A field read from a frame is the only word within its width that the frame holds there (R84). -/
theorem fieldHolds_unique {s : State} {b : OctetBuf} {n : Nat} {x y : Word16} (hx : FieldHolds s b n x)
    (hy : FieldHolds s b n y) (hxw : x.toNat < 2 ^ fieldWidth n) (hyw : y.toNat < 2 ^ fieldWidth n) : x = y := by
  apply BitVec.eq_of_getLsbD_eq
  intro k _
  by_cases hk : k < fieldWidth n
  · have h := (hx (fieldWidth n - 1 - k) (by omega)).symm.trans (hy (fieldWidth n - 1 - k) (by omega))
    rwa [show fieldWidth n - 1 - (fieldWidth n - 1 - k) = k by omega] at h
  · rw [getLsbD_of_toNat_lt hxw (by omega), getLsbD_of_toNat_lt hyw (by omega)]

/-! ### Packing a frame -/

/-- Nothing but `FRM_TX` and `CUR_TX` differs. -/
def TxOnly (s t : State) : Prop := ∃ c m, t = { s with curTx := c, mem := { s.mem with frmTx := m } }

theorem TxOnly.refl (s : State) : TxOnly s s := ⟨_, _, rfl⟩

theorem TxOnly.trans {s t u : State} (h : TxOnly s t) (h' : TxOnly t u) : TxOnly s u := by
  obtain ⟨c, m, rfl⟩ := h
  obtain ⟨c', m', rfl⟩ := h'
  exact ⟨_, _, rfl⟩

theorem TxOnly.readWord {s t : State} (h : TxOnly s t) (b : WordBuf) (i : Nat) : t.readWord b i = s.readWord b i := by
  obtain ⟨c, m, rfl⟩ := h
  cases b <;> rfl

theorem TxOnly.flags {s t : State} (h : TxOnly s t) : t.flags = s.flags := by
  obtain ⟨c, m, rfl⟩ := h
  rfl

theorem packValue_txOnly (v : Octet) (n : Nat) (s : State) : TxOnly s (packValue v n s) :=
  List.foldlRecOn (bitOrder packOrder n) _ (motive := TxOnly s) (TxOnly.refl s) fun t ih _ _ =>
    ih.trans ⟨_, _, packBit_frame _ t⟩

/-- Every octet that the cursor has entered is listed in `FRM_TX`. -/
def EnteredListed (s : State) : Prop :=
  ∀ i, 8 * i < s.curTx.bitsUsed → (Mem.read? s.mem.frmTx i).isSome = true

theorem enteredListed_packBit {x : Bool} {s : State} (h : s.curTx.bitsUsed < 264) (hs : EnteredListed s) :
    EnteredListed (packBit x s) := by
  intro i hi
  have hcur : (packBit x s).curTx.bitsUsed = s.curTx.bitsUsed + 1 := Cursor.bitsUsed_advance h
  obtain ⟨hdiv, -⟩ := s.curTx.div_mod
  change (Mem.read? (Mem.write s.mem.frmTx _ _) i).isSome = true
  rw [Mem.read?_write]
  split
  · rfl
  · exact hs i (by omega)

theorem enteredListed_packValue {v : Octet} {n : Nat} {s : State} (h : s.curTx.bitsUsed + n ≤ 264)
    (hs : EnteredListed s) : EnteredListed (packValue v n s) := by
  induction n generalizing s with
  | zero => exact hs
  | succ n ih =>
    have hcur : (packBit (v.getLsbD n) s).curTx.bitsUsed = s.curTx.bitsUsed + 1 := Cursor.bitsUsed_advance (by omega)
    rw [packValue_succ]
    exact ih (by omega) (enteredListed_packBit (by omega) hs)

/-- Packing a value inside the frame keeps P. -/
def KeptByPacking (P : State → Prop) : Prop :=
  ∀ (v : Octet) (w : Nat) (s : State), s.curTx.bitsUsed + w ≤ 264 → P s → P (packValue v w s)

/-- Packing fields moves the cursor by their widths, and keeps what packing one value keeps (R144). -/
theorem packFields_keeps {P : State → Prop} (hP : KeptByPacking P) {ws : List Nat} {n : Nat} {s : State}
    (h : s.curTx.bitsUsed + ws.sum ≤ 264) (hs : P s) :
    (packFields ws n s).curTx.bitsUsed = s.curTx.bitsUsed + ws.sum ∧ P (packFields ws n s) := by
  induction ws generalizing n s with
  | nil => exact ⟨rfl, hs⟩
  | cons w ws ih =>
    rw [List.sum_cons] at h ⊢
    have hw : s.curTx.bitsUsed + w ≤ 264 := by omega
    obtain ⟨hcur, -⟩ := packValue_spec ((s.readWord .prmE n).setWidth 8) hw
    obtain ⟨hend, hkept⟩ := ih (n := n + 1) (s := packValue ((s.readWord .prmE n).setWidth 8) w s) (by omega)
      (hP _ w s hw hs)
    exact ⟨by rw [packFields, hend, hcur, Nat.add_assoc], hkept⟩

/-- A value packed at the place of a field is that field (R83, R84). -/
theorem fieldHolds_packValue {n : Nat} {x : Word16} {s : State} (hn : n < 76) (hc : s.curTx.bitsUsed = fieldStart n)
    (h : s.curTx.bitsUsed + fieldWidth n ≤ 264) :
    FieldHolds (packValue (x.setWidth 8) (fieldWidth n) s) .frmTx n x := by
  intro q hq
  obtain ⟨-, hbits, -⟩ := packValue_spec (x.setWidth 8) h
  obtain ⟨-, h8⟩ := fieldWidth_range hn
  rw [hbits, if_pos (by omega), BitVec.getLsbD_setWidth, decide_eq_true (by omega), Bool.true_and]
  congr 1
  omega

/-- Packing the fields n to n + m - 1 at their places: each is there, and what stands before them is kept (R83, R144). -/
theorem packFields_fields {n m : Nat} {s : State} (hm : n + m ≤ 76) (hc : s.curTx.bitsUsed = fieldStart n) :
    (∀ p, p < fieldStart n →
      streamBit (packFields ((List.range' n m).map fieldWidth) n s) .frmTx p = streamBit s .frmTx p) ∧
    ∀ k, n ≤ k → k < n + m →
      FieldHolds (packFields ((List.range' n m).map fieldWidth) n s) .frmTx k (s.readWord .prmE k) := by
  induction m generalizing n s with
  | zero => exact ⟨fun _ _ => rfl, fun k _ _ => by omega⟩
  | succ m ih =>
    have hnext := fieldStart_succ (show n < 76 by omega)
    have hend := fieldEnd_le (show n < 76 by omega)
    have hfit : s.curTx.bitsUsed + fieldWidth n ≤ 264 := by omega
    obtain ⟨hcur, hbits, -⟩ := packValue_spec ((s.readWord .prmE n).setWidth 8) hfit
    rw [List.range'_succ, List.map_cons, packFields]
    obtain ⟨hbefore, hfields⟩ := ih (n := n + 1) (by omega) (by rw [hcur, hc, hnext])
    refine ⟨fun p hp => ?_, fun k hk hkm => ?_⟩
    · rw [hbefore p (by omega), hbits, if_neg (by omega)]
    · rcases Nat.eq_or_lt_of_le hk with rfl | hlt
      · intro q hq
        rw [hbefore _ (by omega)]
        exact fieldHolds_packValue (by omega) hc hfit q hq
      · have hread := (packValue_txOnly ((s.readWord .prmE n).setWidth 8) (fieldWidth n) s).readWord .prmE k
        exact hread ▸ hfields k hlt (by omega)

/-- The signature and the 76 fields, from the cursor on: `PACK` without the clearing of cursor and frame (R144). -/
def packRecord (s : State) : State := packFields tblWIDTH 0 (packValue 0xD 4 s)

/-- What `PACK` packs into: the cursor at 0 and a frame of zeros (R144). -/
def clearFrame (s : State) : State := { s with curTx := Cursor.zero, mem := s.mem.setOctets .frmTx zeroFrame }

@[simp] theorem clearFrame_curTx (s : State) : (clearFrame s).curTx = Cursor.zero := rfl

/-- Clearing the frame keeps the record. -/
theorem readWord_clearFrame (s : State) : (clearFrame (startCommand s)).readWord .prmE = s.readWord .prmE := by
  funext n
  simp [State.readWord, clearFrame]

/-- The 4 + 260 bits fill the frame, and what packing one value keeps is kept (R81, R144). -/
theorem packRecord_keeps {P : State → Prop} (hP : KeptByPacking P) {s : State} (hc : s.curTx = Cursor.zero) (hs : P s) :
    (packRecord s).curTx.bitsUsed = 264 ∧ P (packRecord s) := by
  have hfit : s.curTx.bitsUsed + 4 ≤ 264 := by rw [hc, Cursor.bitsUsed_zero]; omega
  obtain ⟨hcur, -⟩ := packValue_spec 0xD hfit
  rw [hc, Cursor.bitsUsed_zero] at hcur
  obtain ⟨hend, hkept⟩ := packFields_keeps hP (ws := tblWIDTH) (n := 0) (by rw [hcur, sum_tblWIDTH]) (hP 0xD 4 s hfit hs)
  exact ⟨by rw [packRecord, hend, hcur, sum_tblWIDTH], hkept⟩

/-- A packed record leaves the cursor at the end, canonical buffers, and every octet of the frame listed (R144). -/
theorem packRecord_full {s : State} (hw : s.mem.wf = true) (hc : s.curTx = Cursor.zero) :
    (packRecord s).curTx.bitsUsed = 264 ∧ (packRecord s).mem.wf = true ∧ EnteredListed (packRecord s) := by
  have hlisted : EnteredListed s := fun i hi => by rw [hc, Cursor.bitsUsed_zero] at hi; omega
  refine packRecord_keeps (P := fun t => t.mem.wf = true ∧ EnteredListed t) (fun v w t hfit ht => ?_) hc ⟨hw, hlisted⟩
  obtain ⟨-, -, -, -, hwf⟩ := packValue_spec v hfit
  exact ⟨hwf ht.1, enteredListed_packValue hfit ht.2⟩

theorem packRecord_txOnly {s : State} (hc : s.curTx = Cursor.zero) : TxOnly s (packRecord s) :=
  (packRecord_keeps (P := TxOnly s) (fun v w t _ ht => ht.trans (packValue_txOnly v w t)) hc (TxOnly.refl s)).2

/-- What stands in `FRM_TX` after packing a record: the signature and the record (R82, R83, R85, R144). -/
theorem packRecord_frameHolds {s : State} (hc : s.curTx = Cursor.zero) :
    FrameHolds (packRecord s) .frmTx (s.readWord .prmE) := by
  obtain ⟨hcur, hbits, -⟩ := packValue_spec (n := 4) (s := s) 0xD (by rw [hc, Cursor.bitsUsed_zero]; omega)
  rw [hc, Cursor.bitsUsed_zero] at hcur
  obtain ⟨hbefore, hfields⟩ := packFields_fields (n := 0) (m := 76) (s := packValue 0xD 4 s) (by omega) hcur
  unfold packRecord
  rw [tblWIDTH_eq]
  refine ⟨(signed_iff _ _).mpr fun p hp => ?_, fun n hn => ?_⟩
  · rw [hbefore p hp, hbits, hc, Cursor.bitsUsed_zero, if_pos (by omega)]
  · exact (packValue_txOnly 0xD 4 s).readWord .prmE n ▸ hfields n (by omega) (by omega)

@[simp] theorem readWord_finishCommand (s : State) (b : WordBuf) (i : Nat) :
    (finishCommand s).readWord b i = s.readWord b i := rfl

@[simp] theorem readOctet_finishCommand (s : State) (b : OctetBuf) (i : Nat) :
    (finishCommand s).readOctet b i = s.readOctet b i := rfl

theorem exec_pack (s : State) : exec .pack s = .next (finishCommand (packRecord (clearFrame (startCommand s)))) := rfl

/-- `PACK` completes, with the record of `PRM_E` in `FRM_TX` (R144). -/
theorem exec_pack_frameHolds (s : State) : ∃ t, exec .pack s = .next t ∧ FrameHolds t .frmTx (s.readWord .prmE) := by
  refine ⟨_, exec_pack s, ?_⟩
  have hrecord := packRecord_frameHolds (clearFrame_curTx (startCommand s))
  rw [readWord_clearFrame] at hrecord
  exact hrecord.copy fun i _ => readOctet_finishCommand _ .frmTx i

/-! ### Unpacking a frame -/

/-- A value read at the cursor, as a record word: within its width, its most significant bit first (R84, R141). -/
theorem unpackValue_word {w : Nat} {s : State} (hw : w ≤ 8) (h : s.curRx.bitsUsed + w ≤ 264) :
    ((unpackValue w s).1.setWidth 16).toNat < 2 ^ w ∧
    ∀ q, q < w →
      streamBit s .frmRx (s.curRx.bitsUsed + q) = ((unpackValue w s).1.setWidth 16).getLsbD (w - 1 - q) := by
  obtain ⟨-, -, hbits⟩ := unpackValue_spec hw h
  refine ⟨Nat.lt_pow_two_of_testBit _ fun k hk => ?_, fun q hq => ?_⟩
  · rw [BitVec.testBit_toNat, BitVec.getLsbD_setWidth, hbits, decide_eq_false (p := k < w) (by omega), Bool.false_and,
      Bool.and_false]
  · rw [BitVec.getLsbD_setWidth, hbits, decide_eq_true (by omega), decide_eq_true (by omega), Bool.true_and, Bool.true_and]
    congr 1
    omega

/-- One field unpacked into `PRM_D`: the frame is as before, and so is every other element (R145). -/
theorem unpackField_spec {n w : Nat} {s : State} (hw : w ≤ 8) (h : s.curRx.bitsUsed + w ≤ 264) :
    let t := (unpackValue w s).2.writeWord .prmD n ((unpackValue w s).1.setWidth 16)
    t.curRx.bitsUsed = s.curRx.bitsUsed + w ∧ t.flags = s.flags ∧ (∀ p, streamBit t .frmRx p = streamBit s .frmRx p) ∧
    ∀ k, t.readWord .prmD k = if n = k then (unpackValue w s).1.setWidth 16 else s.readWord .prmD k := by
  obtain ⟨hframe, hcur, -⟩ := unpackValue_spec hw h
  refine ⟨hcur, ?_, fun p => ?_, fun k => ?_⟩
  · rw [writeWord_flags, hframe]
  · rw [streamBit, State.readOctet_writeWord, hframe]
    rfl
  · rw [State.readWord_writeWord]
    simp only [true_and]
    rw [hframe]
    rfl

/-- Unpacking the fields n to n + m - 1 at their places: each element gets its field, those before are kept (R83, R145). -/
theorem unpackFields_fields {n m : Nat} {s : State} (hm : n + m ≤ 76) (hc : s.curRx.bitsUsed = fieldStart n) :
    let t := unpackFields ((List.range' n m).map fieldWidth) n s
    t.flags = s.flags ∧ (∀ k, k < n → t.readWord .prmD k = s.readWord .prmD k) ∧
    ∀ k, n ≤ k → k < n + m →
      (t.readWord .prmD k).toNat < 2 ^ fieldWidth k ∧ FieldHolds s .frmRx k (t.readWord .prmD k) := by
  induction m generalizing n s with
  | zero => exact ⟨rfl, fun _ _ => rfl, fun k _ _ => by omega⟩
  | succ m ih =>
    have hnext := fieldStart_succ (show n < 76 by omega)
    have hend := fieldEnd_le (show n < 76 by omega)
    obtain ⟨-, h8⟩ := fieldWidth_range (show n < 76 by omega)
    have hfit : s.curRx.bitsUsed + fieldWidth n ≤ 264 := by omega
    obtain ⟨hwidth, hword⟩ := unpackValue_word h8 hfit
    obtain ⟨hcur, hflags, hframe, hread⟩ := unpackField_spec (n := n) h8 hfit
    rw [List.range'_succ, List.map_cons, unpackFields]
    obtain ⟨hflags', hbefore, hfields⟩ := ih (n := n + 1) (by omega) (by rw [hcur, hc, hnext])
    refine ⟨hflags'.trans hflags, fun k hk => ?_, fun k hk hkm => ?_⟩
    · rw [hbefore k (by omega), hread, if_neg (by omega)]
    · rcases Nat.eq_or_lt_of_le hk with rfl | hlt
      · rw [hbefore n (by omega), hread, if_pos rfl]
        exact ⟨hwidth, fun q hq => hc ▸ hword q hq⟩
      · obtain ⟨hkw, hkf⟩ := hfields k hlt (by omega)
        exact ⟨hkw, fun q hq => (hframe _).symm.trans (hkf q hq)⟩

/-- A signed frame is found valid (R85, R145). -/
theorem unpackSignature_valid {s : State} (hc : s.curRx = Cursor.zero) (hs : Signed s .frmRx) :
    (unpackSignature s).flags.valid = true := by
  obtain ⟨-, -, hbits⟩ := unpackValue_spec (n := 4) (s := s) (by omega) (by rw [hc, Cursor.bitsUsed_zero]; omega)
  rw [signed_iff] at hs
  have hval : (unpackValue 4 s).1 = 0xD := by
    apply BitVec.eq_of_getLsbD_eq
    intro q hq
    rw [hbits, hc, Cursor.bitsUsed_zero]
    by_cases h4 : q < 4
    · rw [decide_eq_true h4, Bool.true_and, hs _ (by omega)]
      congr 1
      omega
    · rw [decide_eq_false h4, Bool.false_and, getLsbD_of_toNat_lt (n := 4) (by decide) (by omega)]
  exact beq_iff_eq.mpr hval

@[simp] theorem readWord_drawResVal (s : State) (b : WordBuf) (i : Nat) :
    (drawResVal s).readWord b i = s.readWord b i := rfl

theorem exec_unpack (s : State) :
    exec .unpack s = .next (finishCommand (drawResVal (unpackFields tblWIDTH 0
      (unpackSignature { startCommand s with curRx := Cursor.zero })))) := rfl

/-- Reading the signature moves the cursor past it and leaves the frame (R145). -/
theorem unpackSignature_frame {s : State} (hc : s.curRx = Cursor.zero) :
    (unpackSignature s).curRx.bitsUsed = 4 ∧ ∀ p, streamBit (unpackSignature s) .frmRx p = streamBit s .frmRx p := by
  have hfit : s.curRx.bitsUsed + 4 ≤ 264 := by rw [hc, Cursor.bitsUsed_zero]; omega
  obtain ⟨hframe, hcur, -⟩ := unpackValue_spec (by omega) hfit
  rw [hc] at hcur
  refine ⟨hcur, fun p => ?_⟩
  change streamBit (unpackValue 4 s).2 .frmRx p = _
  rw [hframe]
  rfl

/-- `UNPACK` completes, with the fields of `FRM_RX` in `PRM_D` and `valid` on a signed frame (R145). -/
theorem exec_unpack_record (s : State) :
    ∃ t, exec .unpack s = .next t ∧ (Signed s .frmRx → t.flags.valid = true) ∧
      ∀ n, n < 76 → (t.readWord .prmD n).toNat < 2 ^ fieldWidth n ∧ FieldHolds s .frmRx n (t.readWord .prmD n) := by
  refine ⟨_, exec_unpack s, ?_⟩
  generalize hs₀ : ({ startCommand s with curRx := Cursor.zero } : State) = s₀
  have hc : s₀.curRx = Cursor.zero := by rw [← hs₀]
  have hframe : ∀ p, streamBit s₀ .frmRx p = streamBit s .frmRx p := fun p => by rw [← hs₀]; rfl
  obtain ⟨hcur, hsame⟩ := unpackSignature_frame hc
  obtain ⟨hflags, -, hfields⟩ := unpackFields_fields (n := 0) (m := 76) (s := unpackSignature s₀) (by omega) hcur
  rw [← tblWIDTH_eq] at hflags hfields
  refine ⟨fun hs => ?_, fun n hn => ?_⟩
  · have hs' : Signed s₀ .frmRx := by simpa only [Signed, hframe] using hs
    rw [finishCommand_flags, drawResVal_flags, hflags]
    exact unpackSignature_valid hc hs'
  · obtain ⟨hw, hf⟩ := hfields n (by omega) (by omega)
    rw [readWord_finishCommand, readWord_drawResVal]
    exact ⟨hw, fun q hq => ((hsame _).trans (hframe _)).symm.trans (hf q hq)⟩

/-- Settles O30: the frame determines the record within its widths, and the record with the signature the frame. -/
theorem packUnpackInverse : Obligations.PackUnpackInverse := by
  refine ⟨fun s t u hwidth hpack hcopy => ?record, fun s t u hsigned hunpack hcopy => ?frame⟩
  case record =>
    obtain ⟨t', ht', hframe⟩ := exec_pack_frameHolds s
    obtain rfl : t' = t := by rw [hpack] at ht'; cases ht'; rfl
    obtain ⟨hsigned, hfields⟩ := hframe.copy hcopy
    obtain ⟨v, hv, hvalid, hrecord⟩ := exec_unpack_record u
    refine ⟨v, hv, hvalid hsigned, fun n hn => ?_⟩
    obtain ⟨hvw, hvf⟩ := hrecord n hn
    exact fieldHolds_unique hvf (hfields n hn) hvw (hwidth n hn)
  case frame =>
    obtain ⟨t', ht', -, hrecord⟩ := exec_unpack_record s
    obtain rfl : t' = t := by rw [hunpack] at ht'; cases ht'; rfl
    obtain ⟨v, hv, hframe⟩ := exec_pack_frameHolds u
    have hs : FrameHolds s .frmRx (u.readWord .prmE) := ⟨hsigned, fun n hn => hcopy n hn ▸ (hrecord n hn).2⟩
    exact ⟨v, hv, fun i hi => hframe.readOctet_eq hs hi⟩

/-! ### `PACK` as a sequence of `PACK1` -/

/-- An index past the end of a canonical buffer is not listed. -/
theorem read?_eq_none_of_ge {w len lo i : Nat} {m : Mem w} (h : Mem.wfFrom len lo m = true) (hi : len ≤ i) :
    Mem.read? m i = none := by
  induction m generalizing lo with
  | nil => rfl
  | cons p m ih =>
    obtain ⟨a, v⟩ := p
    simp only [Mem.wfFrom, Bool.and_eq_true, decide_eq_true_eq] at h
    obtain ⟨⟨-, ha⟩, hm⟩ := h
    rw [Mem.read?, if_neg (by omega)]
    exact ih hm

/-- A listed octet is the one that is read. -/
theorem read?_frmTx_of_isSome {s : State} {i : Nat} (h : (Mem.read? s.mem.frmTx i).isSome = true) :
    Mem.read? s.mem.frmTx i = some (s.readOctet .frmTx i) := by
  obtain ⟨o, ho⟩ := Option.isSome_iff_exists.mp h
  simp [State.readOctet, Memory.octets, ho]

/-- Once the cursor has passed the whole frame, `FRM_TX` lists all of its 33 octets and no others. -/
theorem read?_frmTx_of_full {s : State} (hw : s.mem.wf = true) (hc : s.curTx.bitsUsed = 264) (hl : EnteredListed s)
    (i : Nat) : Mem.read? s.mem.frmTx i = if i < 33 then some (s.readOctet .frmTx i) else none := by
  split
  · exact read?_frmTx_of_isSome (hl i (by omega))
  · have hbuf : Mem.wf 33 s.mem.frmTx = true := ((Memory.wf_iff _).mp hw).2 .frmTx
    exact read?_eq_none_of_ge hbuf (by omega)

theorem frmTx_eq_of_reads {s t : State} (hs : s.mem.wf = true) (ht : t.mem.wf = true)
    (h : ∀ i, Mem.read? s.mem.frmTx i = Mem.read? t.mem.frmTx i) : s.mem.frmTx = t.mem.frmTx :=
  Mem.ext_read? (((Memory.wf_iff _).mp hs).2 .frmTx) (((Memory.wf_iff _).mp ht).2 .frmTx) h

/-- Packing one record leaves one cursor and one frame, whatever `FRM_TX` held before (R92, R144). -/
theorem packRecord_unique {s s' : State} (hw : s.mem.wf = true) (hw' : s'.mem.wf = true) (hc : s.curTx = Cursor.zero)
    (hc' : s'.curTx = Cursor.zero) (hrec : s'.readWord .prmE = s.readWord .prmE) :
    (packRecord s').curTx = (packRecord s).curTx ∧ (packRecord s').mem.frmTx = (packRecord s).mem.frmTx := by
  have hread := packRecord_frameHolds hc
  have hread' := hrec ▸ packRecord_frameHolds hc'
  obtain ⟨hcur, hwf, hlist⟩ := packRecord_full hw hc
  obtain ⟨hcur', hwf', hlist'⟩ := packRecord_full hw' hc'
  refine ⟨Cursor.eq_of_bitsUsed (hcur'.trans hcur.symm), ?_⟩
  refine frmTx_eq_of_reads hwf' hwf fun i => ?_
  rw [read?_frmTx_of_full hwf' hcur' hlist', read?_frmTx_of_full hwf hcur hlist]
  split
  · next hi => rw [hread'.readOctet_eq hread hi]
  · rfl

/-- Packing looks at no flag. -/
theorem packValue_flags (v : Octet) (n : Nat) (s : State) (f : Flags) :
    packValue v n { s with flags := f } = { packValue v n s with flags := f } := by
  induction n generalizing s with
  | zero => rfl
  | succ n ih =>
    rw [packValue_succ, packValue_succ, ← ih]
    rfl

/-- After a command has ended, a `PACK1` inside the frame is just the packing of its value (R140, R230). -/
theorem exec_pack1_of_done {n : BitVec 4} {v : Octet} {s : State} (hd : doneFlags s.flags = s.flags)
    (hn : bitCountOk n = true) (h : s.curTx.bitsUsed + n.toNat ≤ 264) :
    exec (.pack1 n v) s = .next (packValue v n.toNat s) := by
  have hflags : doneFlags (packValue v n.toNat s).flags = (packValue v n.toNat s).flags := by
    rw [(packValue_txOnly v n.toNat s).flags, hd]
  have hfinish : finishCommand (packValue v n.toNat (startCommand s)) = packValue v n.toNat s := by
    calc finishCommand (packValue v n.toNat (startCommand s))
        = { packValue v n.toNat s with flags := doneFlags s.flags } := by
          rw [startCommand, packValue_flags]; rfl
      _ = packValue v n.toNat s := by rw [hd, ← (packValue_txOnly v n.toNat s).flags]
  rw [exec, execPack1_of_fits hn h, runCommand_next]
  exact hfinish.symm

/-- The `PACK1` of a record field at its width (R92). -/
def packField (f : Nat → Word16) (n : Nat) : Instr := .pack1 (BitVec.ofNat 4 (fieldWidth n)) ((f n).setWidth 8)

theorem packProgram_eq (s : State) :
    packProgram s = .currst .tx :: .pack1 4 0xD :: (List.range' 0 76).map (packField (s.readWord .prmE)) := by
  rw [packProgram, List.range_eq_range']
  rfl

/-- One `PACK1` a field is the packing of the fields (R92). -/
theorem runAll_packFields {f : Nat → Word16} {n m : Nat} {s : State} (hd : doneFlags s.flags = s.flags) (hm : n + m ≤ 76)
    (hc : s.curTx.bitsUsed = fieldStart n) (hf : s.readWord .prmE = f) :
    runAll ((List.range' n m).map (packField f)) s = .next (packFields ((List.range' n m).map fieldWidth) n s) := by
  induction m generalizing n s with
  | zero => rfl
  | succ m ih =>
    have hnext := fieldStart_succ (show n < 76 by omega)
    have hend := fieldEnd_le (show n < 76 by omega)
    obtain ⟨h1, h8⟩ := fieldWidth_range (show n < 76 by omega)
    have hcount : (BitVec.ofNat 4 (fieldWidth n)).toNat = fieldWidth n := by
      rw [BitVec.toNat_ofNat, Nat.mod_eq_of_lt (by omega)]
    have hfit : s.curTx.bitsUsed + fieldWidth n ≤ 264 := by omega
    have hexec : exec (packField f n) s = .next (packValue ((s.readWord .prmE n).setWidth 8) (fieldWidth n) s) := by
      rw [packField, exec_pack1_of_done hd ((bitCountOk_iff _).mpr (by omega)) (by omega), hcount, hf]
    have htx := packValue_txOnly ((s.readWord .prmE n).setWidth 8) (fieldWidth n) s
    obtain ⟨hcur, -⟩ := packValue_spec ((s.readWord .prmE n).setWidth 8) hfit
    rw [List.range'_succ, List.map_cons, List.map_cons, runAll_cons hexec, packFields]
    exact ih (by rw [htx.flags, hd]) (by omega) (by rw [hcur, hc, hnext]) (by rw [← hf]; exact funext (htx.readWord .prmE))

/-- What `CURRST TX` leaves (R142). -/
def resetCurTx (s : State) : State := { s with curTx := Cursor.zero, flags := doneFlags s.flags }

theorem exec_currst_tx (s : State) : exec (.currst .tx) s = .next (resetCurTx s) := rfl

/-- The sequence of `PACK1`s packs the record into the frame as it stands (R92). -/
theorem runAll_packProgram (s : State) : runAll (packProgram s) s = .next (packRecord (resetCurTx s)) := by
  have hsig : exec (.pack1 4 0xD) (resetCurTx s) = .next (packValue 0xD 4 (resetCurTx s)) :=
    exec_pack1_of_done rfl rfl (by decide : Cursor.zero.bitsUsed + 4 ≤ 264)
  have htx := packValue_txOnly 0xD 4 (resetCurTx s)
  obtain ⟨hcur, -⟩ := packValue_spec (n := 4) (s := resetCurTx s) 0xD (by decide : Cursor.zero.bitsUsed + 4 ≤ 264)
  rw [packProgram_eq, runAll_cons (exec_currst_tx s), runAll_cons hsig,
    runAll_packFields (f := s.readWord .prmE) (by rw [htx.flags]; rfl) (by omega) hcur (funext (htx.readWord .prmE)),
    packRecord, tblWIDTH_eq]

/-- Settles O28: both pack one record from bit 0 on, and a packed record leaves nothing of the frame before it. -/
theorem packIsPack1Sequence : Obligations.PackIsPack1Sequence := by
  intro s hw
  refine ⟨_, exec_pack s, (runAll_packProgram s).trans (congrArg Host.Outcome.next ?_)⟩
  have hclear : (clearFrame (startCommand s)).mem.wf = true := Memory.wf_setOctets hw wf_zeroFrame
  obtain ⟨hcur, hmem⟩ := packRecord_unique (s := clearFrame (startCommand s)) (s' := resetCurTx s) hclear hw rfl rfl
    (readWord_clearFrame s).symm
  obtain ⟨c, m, hpack⟩ := packRecord_txOnly (s := clearFrame (startCommand s)) rfl
  obtain ⟨c', m', hseq⟩ := packRecord_txOnly (s := resetCurTx s) rfl
  rw [hpack, hseq] at hcur hmem ⊢
  obtain rfl : c' = c := hcur
  obtain rfl : m' = m := hmem
  rfl

end Sys2Proof.FramePacker

/-! PROOFS. The ALU test port (40_alu.md): what each of the fourteen selects shows on `alu_y`. The primitives are evaluated in
the laws of the arithmetic; here their values meet the port. -/

namespace Sys2Proof.AluPort

open Sys2Proof Sys2Proof.Machine Sys2Proof.Safety

/-! ### The port -/

/-- An operation with a 32-bit result shows it and changes nothing else (R126). -/
theorem aluShows_of_long {op : BitVec 4} {a b y : Word32} {i : Instr} {s : State} {P : Int → Prop}
    (hd : decode (.alu op a b) = .ok i) (he : exec i s = showAlu y s) (hp : P y.toInt) : AluShows op a b i s P :=
  ⟨hd, _, he.trans (showAlu_next.mpr rfl), rfl, ⟨fun _ _ => rfl, fun _ _ => rfl⟩, hp⟩

/-- An operation with a 16-bit result shows it sign-extended, so its value is the result's (R87, R126). -/
theorem aluShows_of_word {op : BitVec 4} {a b : Word32} {y : Word16} {i : Instr} {s : State} {P : Int → Prop}
    (hd : decode (.alu op a b) = .ok i) (he : exec i s = showAlu (sext y) s) (hp : P y.toInt) : AluShows op a b i s P :=
  aluShows_of_long hd he (toInt_sext y ▸ hp)

/-! ### The forms in which the rules give the values -/

/-- The magnitude of an int16, with -32768 told apart (R114). -/
theorem mag_eq_of_int16 {x : Int} (h : -32768 ≤ x) :
    mag x = if x = -32768 then 32767 else if x < 0 then -x else x := by
  unfold mag
  split <;> split <;> omega

/-- A right shift by more than w of a value in [-2^w, 2^w) leaves the sign alone (R123, R125). -/
theorem floor_eq_sign_of_gt {x c : Int} {w : Nat} (h : -2 ^ w ≤ x) (h' : x < 2 ^ w) :
    x / 2 ^ c.toNat = if c ≤ w then x / 2 ^ c.toNat else if x < 0 then -1 else 0 := by
  by_cases hc : c ≤ w
  · rw [if_pos hc]
  · have hpow : (2 : Int) ^ w ≤ 2 ^ c.toNat := pow_le_pow_right₀ (by norm_num) (by omega)
    rw [if_neg hc, ediv_pow_sign (by omega) (by omega)]

theorem floor_int16 (x : Word16) (c : Int) :
    x.toInt / 2 ^ c.toNat = if c ≤ 15 then x.toInt / 2 ^ c.toNat else if x.toInt < 0 then -1 else 0 :=
  floor_eq_sign_of_gt (w := 15) (toInt_range16 x).1 (Int.lt_add_one_of_le (toInt_range16 x).2)

theorem floor_int32 (x : Word32) (c : Int) :
    x.toInt / 2 ^ c.toNat = if c ≤ 31 then x.toInt / 2 ^ c.toNat else if x.toInt < 0 then -1 else 0 :=
  floor_eq_sign_of_gt (w := 31) (toInt_range32 x).1 (Int.lt_add_one_of_le (toInt_range32 x).2)

/-! ### The fourteen operations -/

/-- Settles O32: the four operations clamp the exact result once. -/
theorem aluSums : Obligations.AluSums := by
  intro a b s
  refine ⟨?add, ?sub, ?lAdd, ?lSub⟩
  case add => exact aluShows_of_word rfl rfl (toInt_add (lo16 a) (lo16 b))
  case sub => exact aluShows_of_word rfl rfl (toInt_sub (lo16 a) (lo16 b))
  case lAdd => exact aluShows_of_long rfl rfl (toInt_lAdd a b)
  case lSub => exact aluShows_of_long rfl rfl (toInt_lSub a b)

/-- Settles O33: apart from the one pair that is told apart, the product fits, so nothing is lost in narrowing it. -/
theorem aluProducts : Obligations.AluProducts := by
  intro a b s
  refine ⟨?mult, ?multR, ?lMult⟩
  case mult => exact aluShows_of_word rfl rfl (toInt_mult (lo16 a) (lo16 b))
  case multR => exact aluShows_of_word rfl rfl (toInt_multR (lo16 a) (lo16 b))
  case lMult => exact aluShows_of_long rfl rfl (toInt_lMult (lo16 a) (lo16 b))

/-- Settles O34: `ABS` by the magnitude; `DIV` by the two branches of its domain, 0 / 0 in the second. -/
theorem aluAbsDiv : Obligations.AluAbsDiv := by
  intro a b s
  refine ⟨?abs, ?divBelow, ?divEqual, ?divAny⟩
  case abs =>
    exact aluShows_of_word rfl rfl ((toInt_sAbs (lo16 a)).trans (mag_eq_of_int16 (toInt_range16 (lo16 a)).1))
  case divBelow =>
    intro h0 hlt
    exact aluShows_of_word rfl rfl ((toInt_div h0 hlt.le).trans (if_neg hlt.ne))
  case divEqual =>
    intro h0 heq
    exact aluShows_of_word rfl rfl ((toInt_div h0 heq.le).trans (if_pos heq))
  case divAny => exact aluShows_of_word rfl rfl trivial

/-- Settles O35: the count of `norm` is the first that reaches the intervals. -/
theorem aluNorm : Obligations.AluNorm := by
  intro a b s
  refine ⟨fun h0 => ?_, aluShows_of_word rfl rfl trivial⟩
  obtain ⟨hval, hle, hnorm, hfirst⟩ := norm_spec h0
  exact ⟨normCount 31 a.toInt, aluShows_of_word rfl rfl hval, hle, hnorm, hfirst⟩

/-- Settles O36: by the sign of the count; a right shift past the sign bit keeps the sign alone. -/
theorem aluShifts16 : Obligations.AluShifts16 := by
  intro a b s
  refine ⟨fun hcount => ⟨?left, ?right⟩, fun hcount => ⟨?rightNeg, ?leftNeg⟩⟩
  case left => exact aluShows_of_word rfl rfl (toInt_shl16 hcount)
  case right => exact aluShows_of_word rfl rfl ((toInt_shr16 hcount).trans (floor_int16 (lo16 a) (int16 b)))
  case rightNeg => exact aluShows_of_word rfl rfl (toInt_shr16_neg hcount)
  case leftNeg => exact aluShows_of_word rfl rfl ((toInt_shl16_neg hcount).trans (floor_int16 (lo16 a) (-int16 b)))

/-- Settles O37: as at 16 bits, with a 32-bit operand and the same 16-bit count. -/
theorem aluShifts32 : Obligations.AluShifts32 := by
  intro a b s
  refine ⟨fun hcount => ⟨?left, ?right⟩, fun hcount => ⟨?rightNeg, ?leftNeg⟩⟩
  case left => exact aluShows_of_long rfl rfl (toInt_lShl hcount)
  case right => exact aluShows_of_long rfl rfl ((toInt_lShr hcount).trans (floor_int32 a (int16 b)))
  case rightNeg => exact aluShows_of_long rfl rfl (toInt_lShr_neg hcount)
  case leftNeg => exact aluShows_of_long rfl rfl ((toInt_lShl_neg hcount).trans (floor_int32 a (-int16 b)))

end Sys2Proof.AluPort

/-! PROOFS. The commands of the packer (41_packer.md), one by one: what each leaves in its cursor, its frame or record and its
flag, and that everything else is as before. `PACK` drops what its buffer lists past the 33 octets, so its statement,
made for every state, needs canonical buffers. -/

namespace Sys2Proof.PackerCommands

open Sys2Proof Sys2Proof.Machine Sys2Proof.Safety Sys2Proof.BlockState Sys2Proof.Encoding Sys2Proof.FramePacker

/-! ### `CURRST` -/

/-- Settles O26, cursor by cursor. -/
theorem currstResult : Obligations.CurrstResult := by
  intro sel s
  cases sel with
  | tx => exact ⟨_, rfl, ⟨fun _ _ => rfl, fun _ _ => rfl⟩, rfl, fun _ => rfl, nofun⟩
  | rx => exact ⟨_, rfl, ⟨fun _ _ => rfl, fun _ _ => rfl⟩, rfl, nofun, fun _ => rfl⟩

/-! ### Commands that write `FRM_TX` -/

/-- A command whose effect is on `FRM_TX` and `CUR_TX` alone changes those and the command flags (R230). -/
theorem finishCommand_of_txOnly {s t : State} (h : TxOnly (startCommand s) t) :
    finishCommand t =
      { s with
        curTx := (finishCommand t).curTx
        flags := doneFlags s.flags
        mem := { s.mem with frmTx := (finishCommand t).mem.frmTx } } := by
  obtain ⟨c, m, rfl⟩ := h
  rfl

theorem sameMemoryButFrameTx_of_txOnly {s t : State} (h : TxOnly (startCommand s) t)
    (hpast : ∀ i, 33 ≤ i → t.readOctet .frmTx i = s.readOctet .frmTx i) :
    SameMemoryButFrameTx s (finishCommand t) := by
  refine ⟨fun b i => h.readWord b i, fun b i hbi => ?_⟩
  cases b with
  | frmTx => exact hpast i (hbi.resolve_left fun hne => hne rfl)
  | frmRx =>
    obtain ⟨c, m, rfl⟩ := h
    rfl

theorem exec_pack1 {n : BitVec 4} {v : Octet} {s : State} (hn : bitCountOk n = true)
    (h : s.curTx.bitsUsed + n.toNat ≤ 264) :
    exec (.pack1 n v) s = .next (finishCommand (packValue v n.toNat (startCommand s))) :=
  execPack1_of_fits hn h

/-- Settles O23: a `PACK1` that fits is the packing of its value between the two flag updates. -/
theorem pack1Result : Obligations.Pack1Result := by
  intro n v s h1 h8 hfit
  have htx := packValue_txOnly v n.toNat (startCommand s)
  obtain ⟨hcur, hbits, hpast, -⟩ := packValue_spec (s := startCommand s) v hfit
  exact ⟨_, exec_pack1 ((bitCountOk_iff n).mpr ⟨h1, h8⟩) hfit, finishCommand_of_txOnly htx, hcur,
    sameMemoryButFrameTx_of_txOnly htx hpast, hbits⟩

/-! ### `PACK` -/

/-- Clearing the frame and packing a record touch `FRM_TX` and `CUR_TX` alone (R144). -/
theorem packRecord_clearFrame_txOnly (s : State) : TxOnly s (packRecord (clearFrame s)) :=
  TxOnly.trans ⟨_, _, rfl⟩ (packRecord_txOnly (clearFrame_curTx s))

/-- Past the frame nothing is listed once `PACK` has replaced the buffer (R144, log 24). -/
theorem readOctet_packRecord_past (s : State) {i : Nat} (hi : 33 ≤ i) :
    (packRecord (clearFrame s)).readOctet .frmTx i = Config.unwrittenOctet s.epoch .frmTx i := by
  have hclear : (clearFrame s).readOctet .frmTx i = Config.unwrittenOctet s.epoch .frmTx i := by
    have hnone : Mem.read? zeroFrame i = none := read?_eq_none_of_ge wf_zeroFrame hi
    simp [State.readOctet, clearFrame, hnone]
  refine (packRecord_keeps (P := fun t => t.readOctet .frmTx i = Config.unwrittenOctet s.epoch .frmTx i)
    (fun v w t hfit ht => ?_) (clearFrame_curTx s) hclear).2
  obtain ⟨-, -, hpast, -⟩ := packValue_spec v hfit
  rw [hpast i hi, ht]

/-- The first octet of a frame: the signature before the top four of the six bits of `LARc[0]` (R85). -/
theorem readOctet_zero_of_frameHolds {s : State} {b : OctetBuf} {f : Nat → Word16} (h : FrameHolds s b f) :
    s.readOctet b 0 = 0xD0 ||| (((f 0).setWidth 8 &&& 0x3F) >>> 2) := by
  apply BitVec.eq_of_getLsbD_eq
  intro k hk
  by_cases h4 : k < 4
  · have hlar : streamBit s b (4 + (3 - k)) = (f 0).getLsbD (5 - (3 - k)) := h.fields 0 (by omega) (3 - k)
      (by rw [show fieldWidth 0 = 6 from rfl]; omega)
    interval_cases k <;> simpa [streamBit] using hlar
  · have hsig := (signed_iff s b).mp h.signed (7 - k) (by omega)
    interval_cases k <;> simpa [streamBit] using hsig

/-- A record fills the frame (R81, R83). -/
theorem bitsUsed_packRecord {s : State} (hc : s.curTx = Cursor.zero) : (packRecord s).curTx.bitsUsed = 264 :=
  (packRecord_keeps (P := fun _ => True) (fun _ _ _ _ h => h) hc trivial).1

/-- The cursor of a whole frame (R143). -/
theorem cursor_finishCommand_of_end {t : State} (h : t.curTx.bitsUsed = 264) :
    (finishCommand t).curTx = ⟨33, 0⟩ ∧ (finishCommand t).bitsTx = 264 :=
  ⟨Cursor.eq_of_bitsUsed h, congrArg (BitVec.ofNat 9) h⟩

/-- A canonical `FRM_TX` lists nothing past the frame (R60). -/
theorem readOctet_frmTx_past {s : State} (hw : s.mem.wf = true) {i : Nat} (hi : 33 ≤ i) :
    s.readOctet .frmTx i = Config.unwrittenOctet s.epoch .frmTx i := by
  have hnone : Mem.read? s.mem.frmTx i = none := read?_eq_none_of_ge (((Memory.wf_iff _).mp hw).2 .frmTx) hi
  simp [State.readOctet, Memory.octets, hnone]

/-- With canonical buffers everything that O27 says holds: `PACK` finds nothing past the frame that it could drop (R60,
R144). -/
theorem exec_pack_of_wf {s : State} (hw : s.mem.wf = true) :
    ∃ t, exec .pack s = .next t ∧
      t = { s with curTx := t.curTx, flags := doneFlags s.flags, mem := { s.mem with frmTx := t.mem.frmTx } } ∧
      SameMemoryButFrameTx s t ∧ t.curTx = ⟨33, 0⟩ ∧ t.bitsTx = 264 ∧ FrameHolds t .frmTx (s.readWord .prmE) ∧
      t.readOctet .frmTx 0 = 0xD0 ||| (((s.readWord .prmE 0).setWidth 8 &&& 0x3F) >>> 2) := by
  have htx := packRecord_clearFrame_txOnly (startCommand s)
  have hpast : ∀ i, 33 ≤ i → (packRecord (clearFrame (startCommand s))).readOctet .frmTx i = s.readOctet .frmTx i :=
    fun _ hi => (readOctet_packRecord_past _ hi).trans (readOctet_frmTx_past hw hi).symm
  obtain ⟨hcur, hbits⟩ := cursor_finishCommand_of_end (bitsUsed_packRecord (clearFrame_curTx (startCommand s)))
  obtain ⟨t, ht, hframe⟩ := exec_pack_frameHolds s
  obtain rfl := Host.Outcome.next.inj ((exec_pack s).symm.trans ht)
  exact ⟨_, ht, finishCommand_of_txOnly htx, sameMemoryButFrameTx_of_txOnly htx hpast, hcur, hbits, hframe,
    readOctet_zero_of_frameHolds hframe⟩

/-- Refutes O27: it asks of every state that the octets past the frame stay, and a buffer that is not canonical can list one
there. `PACK` replaces the whole list, so the octet is lost and a free value is read in its place. -/
theorem not_packResult : ¬ Obligations.PackResult := by
  intro h
  obtain ⟨t, ht, -, ⟨-, hoctets⟩, -⟩ :=
    h { State.reset with mem := { Memory.empty with frmTx := [(33, Config.unwrittenOctet 0 .frmTx 33 + 1)] } }
  obtain rfl := Host.Outcome.next.inj ((exec_pack _).symm.trans ht)
  have hlost := hoctets .frmTx 33 (.inr (Nat.le_refl 33))
  rw [readOctet_finishCommand, readOctet_packRecord_past _ (Nat.le_refl 33)] at hlost
  change Config.unwrittenOctet 0 .frmTx 33 = Config.unwrittenOctet 0 .frmTx 33 + 1 at hlost
  bv_omega

/-! ### `UNPACK1` -/

theorem exec_unpack1 {n : BitVec 4} {s : State} (hn : bitCountOk n = true) (h : s.curRx.bitsUsed + n.toNat ≤ 264) :
    exec (.unpack1 n) s = .next (finishCommand (unpack1Effect n.toNat (startCommand s))) := by
  rw [exec, execUnpack1, if_pos hn, if_pos h, runCommand]

/-- An `UNPACK1` that fits shows the n stream bits at the cursor, moves the cursor past them and changes no buffer (R141). -/
theorem exec_unpack1_reads {n : BitVec 4} {s : State} (h1 : 1 ≤ n.toNat) (h8 : n.toNat ≤ 8)
    (hfit : s.curRx.bitsUsed + n.toNat ≤ 264) :
    ∃ t, exec (.unpack1 n) s = .next t ∧
      t = { s with curRx := t.curRx, resVal := t.resVal, flags := doneFlags s.flags } ∧ SameMemory s t ∧
      t.curRx.bitsUsed = s.curRx.bitsUsed + n.toNat ∧
      ∀ q, t.resVal.getLsbD q =
        (decide (q < n.toNat) && streamBit s .frmRx (s.curRx.bitsUsed + n.toNat - 1 - q)) := by
  obtain ⟨hframe, hcur, hbits⟩ := unpackValue_spec (s := startCommand s) h8 hfit
  have ht : finishCommand (unpack1Effect n.toNat (startCommand s)) =
      { s with
        curRx := (unpackValue n.toNat (startCommand s)).2.curRx
        resVal := (unpackValue n.toNat (startCommand s)).1
        flags := doneFlags s.flags } := by
    rw [unpack1Effect, hframe]
    rfl
  exact ⟨_, (exec_unpack1 ((bitCountOk_iff n).mpr ⟨h1, h8⟩) hfit).trans (congrArg _ ht), rfl,
    ⟨fun _ _ => rfl, fun _ _ => rfl⟩, hcur, hbits⟩

/-- Settles O24: the inverse reads, bit by bit, what `PACK1` put at the same stream positions (O23). -/
theorem unpack1Result : Obligations.Unpack1Result := by
  refine ⟨fun n s => exec_unpack1_reads, fun n v s t u h1 h8 hfit hpack hcur hcopy => ?_⟩
  obtain ⟨t', ht', -, -, -, hwrote⟩ := pack1Result n v s h1 h8 hfit
  obtain rfl := Host.Outcome.next.inj (ht'.symm.trans hpack)
  obtain ⟨w, hw, -, -, -, hread⟩ := exec_unpack1_reads (s := u) h1 h8 (hcur ▸ hfit)
  refine ⟨w, hw, Nat.eq_of_testBit_eq fun q => ?_⟩
  rw [Nat.testBit_mod_two_pow, BitVec.testBit_toNat, BitVec.testBit_toNat, hread, hcur]
  by_cases hq : q < n.toNat
  · rw [streamBit_congr hcopy (by omega), hwrote, if_pos (by omega)]
    congr 2
    omega
  · rw [decide_eq_false hq, Bool.false_and, Bool.false_and]

/-! ### `UNPACK` -/

/-- Nothing but `PRM_D`, `CUR_RX` and `valid` differs. -/
def RxOnly (s t : State) : Prop :=
  ∃ c v m, t = { s with curRx := c, flags := { s.flags with valid := v }, mem := { s.mem with prmD := m } }

theorem RxOnly.refl (s : State) : RxOnly s s := ⟨_, _, _, rfl⟩

theorem RxOnly.trans {s t u : State} (h : RxOnly s t) (h' : RxOnly t u) : RxOnly s u := by
  obtain ⟨c, v, m, rfl⟩ := h
  obtain ⟨c', v', m', rfl⟩ := h'
  exact ⟨_, _, _, rfl⟩

theorem RxOnly.readWord {s t : State} (h : RxOnly s t) {b : WordBuf} (hb : b ≠ .prmD) (i : Nat) :
    t.readWord b i = s.readWord b i := by
  obtain ⟨c, v, m, rfl⟩ := h
  cases b with
  | prmD => exact absurd rfl hb
  | pcmIn | prmE | pcmOut => rfl

theorem RxOnly.readOctet {s t : State} (h : RxOnly s t) (b : OctetBuf) (i : Nat) :
    t.readOctet b i = s.readOctet b i := by
  obtain ⟨c, v, m, rfl⟩ := h
  cases b <;> rfl

/-- Unpacking fields moves the cursor by their widths and writes their elements of `PRM_D` alone (R145). -/
theorem unpackFields_keeps {ws : List Nat} {n : Nat} {s : State} (hw : ∀ w ∈ ws, w ≤ 8)
    (h : s.curRx.bitsUsed + ws.sum ≤ 264) :
    RxOnly s (unpackFields ws n s) ∧ (unpackFields ws n s).curRx.bitsUsed = s.curRx.bitsUsed + ws.sum ∧
    ∀ k, n + ws.length ≤ k → (unpackFields ws n s).readWord .prmD k = s.readWord .prmD k := by
  induction ws generalizing n s with
  | nil => exact ⟨RxOnly.refl s, rfl, fun _ _ => rfl⟩
  | cons w ws ih =>
    rw [List.sum_cons] at h ⊢
    obtain ⟨hw8, hws⟩ := List.forall_mem_cons.mp hw
    have hfit : s.curRx.bitsUsed + w ≤ 264 := by omega
    obtain ⟨hframe, -⟩ := unpackValue_spec hw8 hfit
    obtain ⟨hcur, -, -, hread⟩ := unpackField_spec (n := n) hw8 hfit
    have hone : RxOnly s ((unpackValue w s).2.writeWord .prmD n ((unpackValue w s).1.setWidth 16)) := by
      rw [hframe]
      exact ⟨_, _, _, rfl⟩
    obtain ⟨hrx, hend, hpast⟩ := ih (n := n + 1)
      (s := (unpackValue w s).2.writeWord .prmD n ((unpackValue w s).1.setWidth 16)) hws (by omega)
    rw [unpackFields]
    refine ⟨hone.trans hrx, by rw [hend, hcur, Nat.add_assoc], fun k hk => ?_⟩
    rw [List.length_cons] at hk
    rw [hpast k (by omega), hread, if_neg (by omega)]

theorem unpackSignature_rxOnly {s : State} (h : s.curRx.bitsUsed + 4 ≤ 264) : RxOnly s (unpackSignature s) := by
  obtain ⟨hframe, -⟩ := unpackValue_spec (by omega) h
  rw [unpackSignature, hframe]
  exact ⟨_, _, _, rfl⟩

theorem unpackSignature_readWord {s : State} (h : s.curRx.bitsUsed + 4 ≤ 264) (b : WordBuf) (i : Nat) :
    (unpackSignature s).readWord b i = s.readWord b i := by
  obtain ⟨hframe, -⟩ := unpackValue_spec (by omega) h
  rw [unpackSignature, hframe]
  rfl

/-- `UNPACK` finds exactly the signed frames valid (R85, R145). -/
theorem unpackSignature_valid_iff {s : State} (hc : s.curRx = Cursor.zero) :
    (unpackSignature s).flags.valid = true ↔ Signed s .frmRx := by
  refine ⟨fun hv => (signed_iff s .frmRx).mpr fun p hp => ?_, unpackSignature_valid hc⟩
  obtain ⟨-, -, hbits⟩ := unpackValue_spec (n := 4) (s := s) (by omega) (by rw [hc, Cursor.bitsUsed_zero]; omega)
  have hval : (unpackValue 4 s).1 = 0xD := beq_iff_eq.mp hv
  have hbit := hbits (3 - p)
  rw [hval, hc, Cursor.bitsUsed_zero, decide_eq_true (by omega), Bool.true_and] at hbit
  rw [hbit]
  congr 1
  omega

/-- What `UNPACK` reads its record from: the cursor at 0 (R145). -/
def rewindRx (s : State) : State := { s with curRx := Cursor.zero }

/-- The signature and the 76 fields, from the cursor on: `UNPACK` without the rewinding of the cursor (R145). -/
def unpackRecord (s : State) : State := unpackFields tblWIDTH 0 (unpackSignature s)

/-- Everything unpacking a record does: the signature is read into `valid` and the fields into `PRM_D`, 4 + 260 bits in all
(R81, R145). -/
theorem unpackRecord_spec {s : State} (hc : s.curRx = Cursor.zero) :
    RxOnly s (unpackRecord s) ∧ (unpackRecord s).curRx = ⟨33, 0⟩ ∧
    ((unpackRecord s).flags.valid = true ↔ Signed s .frmRx) ∧
    (∀ k, 76 ≤ k → (unpackRecord s).readWord .prmD k = s.readWord .prmD k) ∧
    ∀ k, k < 76 → ((unpackRecord s).readWord .prmD k).toNat < 2 ^ fieldWidth k ∧
      FieldHolds s .frmRx k ((unpackRecord s).readWord .prmD k) := by
  have hfit : s.curRx.bitsUsed + 4 ≤ 264 := by rw [hc, Cursor.bitsUsed_zero]; omega
  obtain ⟨hcur, hsame⟩ := unpackSignature_frame hc
  obtain ⟨hrx, hend, hpast⟩ := unpackFields_keeps (n := 0) (s := unpackSignature s) tblWIDTH_le
    (by rw [hcur, sum_tblWIDTH])
  obtain ⟨hflags, -, hfields⟩ := unpackFields_fields (n := 0) (m := 76) (s := unpackSignature s) (by omega) hcur
  rw [hcur, sum_tblWIDTH] at hend
  rw [← tblWIDTH_eq] at hflags hfields
  refine ⟨(unpackSignature_rxOnly hfit).trans hrx, Cursor.eq_of_bitsUsed hend, ?_, fun k hk => ?_, fun k hk => ?_⟩
  · rw [unpackRecord, hflags, unpackSignature_valid_iff hc]
  · rw [unpackRecord, hpast k (by rwa [Nat.zero_add]), unpackSignature_readWord hfit]
  · obtain ⟨hwidth, hfield⟩ := hfields k (by omega) (by omega)
    exact ⟨hwidth, fun q hq => (hsame _).symm.trans (hfield q hq)⟩

/-- A command whose effect is on `PRM_D`, `CUR_RX` and `valid`, and that draws `res_val` at its end, changes those and the
command flags (R46, R230). -/
theorem finishCommand_drawResVal_of_rxOnly {s t : State} (h : RxOnly (startCommand s) t) :
    finishCommand (drawResVal t) =
      { s with
        curRx := (finishCommand (drawResVal t)).curRx
        resVal := (finishCommand (drawResVal t)).resVal
        draws := (finishCommand (drawResVal t)).draws
        flags := { doneFlags s.flags with valid := (finishCommand (drawResVal t)).flags.valid }
        mem := { s.mem with prmD := (finishCommand (drawResVal t)).mem.prmD } } := by
  obtain ⟨c, v, m, rfl⟩ := h
  rfl

theorem sameMemoryButWords_of_rxOnly {s t : State} (h : RxOnly (startCommand s) t)
    (hpast : ∀ k, 76 ≤ k → t.readWord .prmD k = s.readWord .prmD k) :
    SameMemoryButWords .prmD 76 s (finishCommand (drawResVal t)) := by
  refine ⟨fun b k hbk => ?_, fun b i => h.readOctet b i⟩
  by_cases hb : b = .prmD
  · subst hb
    exact hpast k (hbk.resolve_left fun hne => hne rfl)
  · exact h.readWord hb k

theorem exec_unpack_eq (s : State) :
    exec .unpack s = .next (finishCommand (drawResVal (unpackRecord (rewindRx (startCommand s))))) := exec_unpack s

/-- Settles O29: the fields and the signature are read from bit 0 on, and the frame itself is only read. -/
theorem unpackResult : Obligations.UnpackResult := by
  intro s
  obtain ⟨hkeeps, hcur, hvalid, hpast, hfields⟩ := unpackRecord_spec (s := rewindRx (startCommand s)) rfl
  have hrx : RxOnly (startCommand s) (unpackRecord (rewindRx (startCommand s))) := .trans ⟨_, _, _, rfl⟩ hkeeps
  refine ⟨_, exec_unpack_eq s, finishCommand_drawResVal_of_rxOnly hrx, sameMemoryButWords_of_rxOnly hrx hpast, ?_, ?_, ?_,
    fun n hn => ?_⟩
  · rw [finishCommand_curRx, drawResVal_curRx, hcur]
  · rw [State.bitsRx, finishCommand_curRx, drawResVal_curRx, hcur]
    rfl
  · rw [finishCommand_flags, drawResVal_flags]
    exact hvalid
  · rw [readWord_finishCommand, readWord_drawResVal]
    exact hfields n hn

/-! ### The tests of a frame and of a record -/

/-- The signature is the high nibble of octet 0 (R62, R85). -/
theorem highNibble_eq_iff_signed (s : State) (b : OctetBuf) : s.readOctet b 0 &&& 0xF0 = 0xD0 ↔ Signed s b := by
  have hnibble : ∀ o : Octet, o &&& 0xF0 = 0xD0 ↔
      o.getLsbD 7 = true ∧ o.getLsbD 6 = true ∧ o.getLsbD 5 = false ∧ o.getLsbD 4 = true := by decide
  exact hnibble (s.readOctet b 0)

/-- Two buffers list the same first n words exactly where they agree word by word (R147). -/
theorem readWords_beq_iff (s : State) (b c : WordBuf) (n : Nat) :
    (s.readWords b n == s.readWords c n) = true ↔ ∀ k, k < n → s.readWord b k = s.readWord c k := by
  simp only [State.readWords, beq_iff_eq, List.map_inj_left, List.mem_range]

/-- Settles O31: each flag is the outcome of its test, and the flags are all a test writes. -/
theorem frameTests : Obligations.FrameTests := by
  intro s
  have hvalid : signatureOk packOrder (s.readOctet .frmRx 0) = true ↔ s.readOctet .frmRx 0 &&& 0xF0 = 0xD0 :=
    beq_iff_eq
  refine ⟨?isvalid, ?prmeq⟩
  case isvalid =>
    exact ⟨_, rfl, ⟨fun _ _ => rfl, fun _ _ => rfl⟩, rfl, hvalid, hvalid.trans (highNibble_eq_iff_signed s .frmRx)⟩
  case prmeq => exact ⟨_, rfl, ⟨fun _ _ => rfl, fun _ _ => rfl⟩, rfl, readWords_beq_iff s .prmE .prmD 76⟩

end Sys2Proof.PackerCommands

/-! PROOFS. Pre-processing and LPC analysis (42_preprocess_lpc.md): each step of the analyzer over exact integers. The ranges
of its operands show where a saturating operation is the exact one. -/

namespace Sys2Proof.LpcAnalysis

open Sys2Proof Sys2Proof.Machine Sys2Proof.Safety Sys2Proof.Addressing

/-! ### How the steps run, and the primitives at the constants they use -/

/-- What leaves the buffers alone leaves every read alone. -/
theorem sameMemory_of_eq {s t : State} (hm : t.mem = s.mem) (he : t.epoch = s.epoch) : SameMemory s t :=
  ⟨State.readWord_congr hm he, State.readOctet_congr hm he⟩

theorem runStep_of_sample {k : BitVec 8} (hk : k.toNat < 160) (f : State → State) (s : State) :
    runStep (sampleOk k) f s = .next (f s) :=
  runStep_next.mpr ⟨decide_eq_true hk, rfl⟩

theorem toInt_shl16_two (x : Word16) : (shl16 x 2).toInt = clamp16 (x.toInt * 4) := toInt_shl16 (by decide)

theorem toInt_shr16_one (x : Word16) : (shr16 x 1).toInt = x.toInt / 2 := toInt_shr16 (by decide)

theorem toInt_shr16_nine (x : Word16) : (shr16 x 9).toInt = x.toInt / 512 := toInt_shr16 (by decide)

theorem toInt_lShr_one (L : Word32) : (lShr L 1).toInt = L.toInt / 2 := toInt_lShr (by decide)

theorem toInt_lShr_fifteen (L : Word32) : (lShr L 15).toInt = L.toInt / 32768 := toInt_lShr (by decide)

theorem toInt_lShr_sixteen (L : Word32) : (lShr L 16).toInt = L.toInt / 65536 := toInt_lShr (by decide)

/-- An int16 value moved up by at most 16 places does not saturate (R124). -/
theorem toInt_lShl_sext (x : Word16) {n : Word16} (h : 0 ≤ n.toInt) (h' : n.toInt ≤ 16) :
    (lShl (sext x) n).toInt = x.toInt * 2 ^ n.toInt.toNat := by
  obtain ⟨hlow, hhigh⟩ := toInt_range16 x
  have hpos : (0 : Int) < 2 ^ n.toInt.toNat := by positivity
  have hle : (2 : Int) ^ n.toInt.toNat ≤ 2 ^ 16 := pow_le_pow_right₀ (by norm_num) (by omega)
  rw [toInt_lShl h, toInt_sext, clamp32_id (by nlinarith) (by nlinarith)]

theorem toInt_lShl_fifteen (x : Word16) : (lShl (sext x) 15).toInt = x.toInt * 32768 :=
  toInt_lShl_sext x (by decide) (by decide)

theorem toInt_lShl_sixteen (x : Word16) : (lShl (sext x) 16).toInt = x.toInt * 65536 :=
  toInt_lShl_sext x (by decide) (by decide)

/-- With one factor away from -32768, `mult_r` has no special case (R113). -/
theorem toInt_multR_of_ne (a : Word16) {b : Word16} (hb : b.toInt ≠ -32768) :
    (multR a b).toInt = round15 (a.toInt * b.toInt) := by
  rw [toInt_multR, if_neg fun h => hb h.2]

/-! ### DOWNSCALE and PREEMPH (R160, R162) -/

/-- The shift right by 3 leaves room for the shift left by 2. -/
theorem toInt_downscaled (x : Word16) : (shl16 (shr16 x 3) 2).toInt = 4 * (x.toInt / 8) := by
  have hx := toInt_range16 x
  rw [toInt_shl16_two, toInt_shr16_three, clamp16_id (by omega) (by omega)]
  omega

theorem toInt_preemphasised (sof mp : Word16) :
    (add sof (multR mp (-28180))).toInt = clamp16 (sof.toInt + round15 (mp.toInt * -28180)) := by
  rw [toInt_add, toInt_multR_of_ne mp (by decide)]
  rfl

/-- Settles O39: neither shift of DOWNSCALE loses more than the low three bits, and -28180 is not the excluded factor of
`mult_r`. -/
theorem downscalePreemph : Obligations.DownscalePreemph := by
  intro k s hk
  refine ⟨?downscale, ?preemph⟩
  case downscale =>
    exact ⟨_, runStep_of_sample hk _ s, rfl, sameMemory_of_eq rfl rfl, toInt_downscaled _⟩
  case preemph =>
    refine ⟨_, runStep_of_sample hk _ s, rfl, sameMemory_of_eq rfl rfl, fun m => ?_⟩
    show ((s.work.s.setIfInBounds k.toNat (add s.work.sof (multR s.enc.mp (-28180))))[m.val]).toInt = _
    rw [Vector.getElem_setIfInBounds]
    by_cases hm : m.val = k.toNat
    · rw [if_pos hm.symm, if_pos hm, toInt_preemphasised]
    · rw [if_neg (Ne.symm hm), if_neg hm]
      rfl

/-! ### OFFSETCOMP (R161) -/

/-- The high part of `L_z2` is its quotient by 2^15. -/
theorem toInt_highPart {L : Word32} (h : -1073741824 ≤ L.toInt) (h' : L.toInt < 1073741824) :
    (narrow (lShr L 15)).toInt = L.toInt / 32768 := by
  rw [toInt_narrow, toInt_lShr_fifteen, clamp16_id (by omega) (by omega)]

/-- The low part of `L_z2`, what the high part leaves, is its remainder. -/
theorem toInt_lowPart {L : Word32} {high : Word16} (hh : high.toInt = L.toInt / 32768) :
    (narrow (lSub L (lShl (sext high) 15))).toInt = L.toInt % 32768 := by
  have hL := toInt_range32 L
  rw [toInt_narrow, toInt_lSub, toInt_lShl_fifteen, hh, clamp32_id (by omega) (by omega),
    clamp16_id (by omega) (by omega)]
  omega

/-- The halved doubled product of the high part with 32735 is the product. -/
theorem toInt_highProduct (x : Word16) : (lShr (lMult x 32735) 1).toInt = x.toInt * 32735 := by
  have h32735 : (32735 : Word16).toInt = 32735 := rfl
  rw [toInt_lShr_one, toInt_lMult, h32735, if_neg (by omega)]
  omega

/-- The new `L_z2` from its parts: no addition saturates, and the sum leaves room for the 16384 that rounds it. -/
theorem toInt_newLz2 {s1 high low : Word16} (hlow : 0 ≤ low.toInt) :
    (lAdd (lShr (lMult high 32735) 1) (lAdd (lShl (sext s1) 15) (sext (multR low 32735)))).toInt =
        high.toInt * 32735 + s1.toInt * 32768 + round15 (low.toInt * 32735) ∧
      high.toInt * 32735 + s1.toInt * 32768 + round15 (low.toInt * 32735) ≤ 2147467263 := by
  have hs := toInt_range16 s1
  have hh := toInt_range16 high
  have hl := toInt_range16 low
  have hround : 0 ≤ round15 (low.toInt * 32735) ∧ round15 (low.toInt * 32735) ≤ 32735 := by
    unfold round15
    omega
  have hmul : (multR low 32735).toInt = round15 (low.toInt * 32735) := toInt_multR_of_ne low (by decide)
  have hLs2 : (lAdd (lShl (sext s1) 15) (sext (multR low 32735))).toInt =
      s1.toInt * 32768 + round15 (low.toInt * 32735) := by
    rw [toInt_lAdd, toInt_lShl_fifteen, toInt_sext, hmul, clamp32_id (by omega) (by omega)]
  rw [toInt_lAdd, hLs2, toInt_highProduct, clamp32_id (by omega) (by omega)]
  omega

/-- Settles O40: in the range of `L_z2` its parts are quotient and remainder, and no 32-bit sum saturates. -/
theorem offsetcompResult : Obligations.OffsetcompResult := by
  intro s
  refine ⟨stepOffsetcomp s, rfl, rfl, sameMemory_of_eq rfl rfl, fun h h' => ?_⟩
  have hhigh := toInt_highPart h h'
  have hlow := toInt_lowPart hhigh
  obtain ⟨hnew, hle⟩ := toInt_newLz2 (s1 := sub s.work.so s.enc.z1) (high := narrow (lShr s.enc.Lz2 15))
    (low := narrow (lSub s.enc.Lz2 (lShl (sext (narrow (lShr s.enc.Lz2 15))) 15))) (by omega)
  have hLz2 : (stepOffsetcomp s).enc.Lz2.toInt = _ := hnew
  refine ⟨?recursion, ?output⟩
  case recursion => rw [hLz2, hhigh, hlow, toInt_sub]
  case output =>
    have hr := toInt_range32 (stepOffsetcomp s).enc.Lz2
    have h16384 : (16384 : Word32).toInt = 16384 := rfl
    show (narrow (lShr (lAdd (stepOffsetcomp s).enc.Lz2 16384) 15)).toInt = _
    rw [toInt_narrow, toInt_lShr_fifteen, toInt_lAdd, h16384, clamp32_id (by omega) (by omega)]

/-! ### AUTOCORR (R163) -/

/-- `smax` is the maximum of the magnitudes. -/
theorem isMax_maxAbs {n : Nat} (v : Vector Word16 n) : IsMax n (fun k => mag (val v k)) (maxAbs v.toList).toInt := by
  obtain ⟨h0, hle, hmax⟩ := maxAbs_spec v.toList
  refine ⟨h0, fun k hk => ?_, hmax.imp_right ?_⟩
  · simp only [val, elt_eq v hk]
    exact hle _ (by simp)
  · rintro ⟨x, hx, hmag⟩
    obtain ⟨k, hk, rfl⟩ := List.mem_iff_getElem.mp hx
    simp only [Vector.length_toList] at hk
    exact ⟨k, hk, by simpa [val, elt_eq v hk] using hmag⟩

/-- A positive int16 value fills `log2 + 1` bits, so `14 - log2` doublings normalise it as an int32 value. -/
theorem normalised_of_log2 {x : Int} (hpos : 0 < x) (hle : x ≤ 32767) :
    Nat.log2 x.toNat ≤ 14 ∧ Normalised (x * 65536 * 2 ^ (14 - Nat.log2 x.toNat)) := by
  have hne : x.toNat ≠ 0 := by omega
  have hlog : Nat.log2 x.toNat < 15 := (Nat.log2_lt hne).mpr (by omega)
  have hlow : 2 ^ Nat.log2 x.toNat ≤ x.toNat := Nat.log2_self_le hne
  have hhigh : x.toNat < 2 ^ (Nat.log2 x.toNat + 1) := Nat.lt_log2_self
  refine ⟨by omega, ?_⟩
  generalize Nat.log2 x.toNat = b at *
  unfold Normalised
  interval_cases b <;> omega

/-- A value that is not negative reads the same with and without sign. -/
theorem toNat_toInt_of_nonneg {x : Word16} (h : 0 ≤ x.toInt) : x.toInt.toNat = x.toNat := by
  rw [BitVec.toInt_eq_toNat_cond] at *
  split at h <;> omega

/-- `scalauto` is `floor(log2(smax)) - 10`, or 0 for silence. -/
theorem toInt_autoScale {smax : Word16} (h0 : 0 ≤ smax.toInt) :
    (autoScale smax).toInt = if smax.toInt = 0 then 0 else (Nat.log2 smax.toInt.toNat : Int) - 10 := by
  unfold autoScale
  split
  · rfl
  · next hne =>
    have h4 : (4 : Word16).toInt = 4 := rfl
    obtain ⟨hlog, hnorm⟩ := normalised_of_log2 (x := smax.toInt) (by omega) (toInt_range16 smax).2
    obtain ⟨hval, -, hspec, -⟩ := norm_spec (L := lShl (sext smax) 16) (by rw [toInt_lShl_sixteen]; omega)
    rw [toInt_lShl_sixteen] at hval hspec
    have hcount := normalised_unique (by omega) hspec hnorm
    rw [toInt_sub, hval, hcount, h4, clamp16_id (by omega) (by omega)]
    omega

/-- `scalauto` is small enough for the factor, and large enough to bring the largest magnitude below 2^11. -/
theorem autoScale_range {smax : Word16} (h0 : 0 ≤ smax.toInt) :
    (autoScale smax).toInt ≤ 4 ∧ smax.toInt < 2048 * 2 ^ (autoScale smax).toInt.toNat := by
  rw [toInt_autoScale h0]
  split
  · next hzero => rw [hzero]; decide
  · have hlog := (normalised_of_log2 (x := smax.toInt) (by omega) (toInt_range16 smax).2).1
    have hlt : smax.toInt.toNat < 2 ^ (Nat.log2 smax.toInt.toNat + 1) := Nat.lt_log2_self
    generalize Nat.log2 smax.toInt.toNat = b at *
    refine ⟨by omega, ?_⟩
    calc smax.toInt < 2 ^ (b + 1) := by zify at hlt; omega
      _ ≤ 2 ^ (11 + ((b : Int) - 10).toNat) := pow_le_pow_right₀ (by norm_num) (by omega)
      _ = 2048 * 2 ^ ((b : Int) - 10).toNat := by rw [pow_add]; norm_num

/-- The factor of the scaling is `2 ^ (15 - scalauto)`. -/
theorem toInt_scaleFactor {sc : Word16} (hpos : 0 < sc.toInt) (hle : sc.toInt ≤ 4) :
    (shr16 16384 (sub sc 1)).toInt = 2 ^ (15 - sc.toInt).toNat := by
  have hsub : (sub sc 1).toInt = sc.toInt - 1 :=
    (toInt_sub sc 1).trans (clamp16_id (x := sc.toInt - 1) (by omega) (by omega))
  have h16384 : (16384 : Word16).toInt = 16384 := rfl
  rw [toInt_shr16 (by omega), hsub, h16384]
  generalize sc.toInt = x at *
  interval_cases x <;> rfl

/-- The samples that AUTOCORR sums (R163). -/
def scaledSamples (sc : Word16) (v : Vector Word16 160) : Vector Word16 160 :=
  if 0 < sc.toInt then Vector.ofFn fun k : Fin 160 => multR v[k] (shr16 16384 (sub sc 1)) else v

theorem toInt_scaledSamples {sc : Word16} (hle : sc.toInt ≤ 4) (v : Vector Word16 160) {k : Nat} (hk : k < 160) :
    (scaledSamples sc v)[k].toInt = scaledSample sc.toInt v[k].toInt := by
  unfold scaledSamples scaledSample
  by_cases hpos : 0 < sc.toInt
  · have hfactor := toInt_scaleFactor hpos hle
    have hne : (shr16 16384 (sub sc 1)).toInt ≠ -32768 := by
      have : (0 : Int) < 2 ^ (15 - sc.toInt).toNat := by positivity
      omega
    simp only [if_pos hpos, Vector.getElem_ofFn, Fin.getElem_fin, toInt_multR_of_ne _ hne, hfactor]
  · simp only [if_neg hpos]

/-- A scaled sample is at most 2^11 in magnitude (R163). -/
theorem scaledSample_range {sc x : Int} (hle : sc ≤ 4) (hx : -32768 ≤ x) (hmag : mag x < 2048 * 2 ^ sc.toNat) :
    -2048 ≤ scaledSample sc x ∧ scaledSample sc x ≤ 2048 := by
  have habs : -(2048 * 2 ^ sc.toNat) ≤ x ∧ x ≤ 2048 * 2 ^ sc.toNat := by
    unfold mag at hmag
    split at hmag <;> omega
  obtain ⟨hlow, hhigh⟩ := habs
  unfold scaledSample
  split
  · have hp : (0 : Int) < 2 ^ (15 - sc).toNat := by positivity
    have hpow : (2 : Int) ^ sc.toNat * 2 ^ (15 - sc).toNat = 32768 := by
      rw [← pow_add, show sc.toNat + (15 - sc).toNat = 15 by omega]
      norm_num
    have hlow' : -67108864 ≤ x * 2 ^ (15 - sc).toNat := by nlinarith
    have hhigh' : x * 2 ^ (15 - sc).toNat ≤ 67108864 := by nlinarith
    unfold round15
    omega
  · rw [show sc.toNat = 0 by omega] at hlow hhigh
    omega

/-- The pairs of lag k are the samples i + k and i. -/
theorem sum_autocorrelationPairs (v : Vector Word16 160) (k : Nat) :
    (((v.toList.drop k).zip v.toList).map fun p => 2 * (p.1.toInt * p.2.toInt)).sum =
      2 * sumTo (160 - k) fun i => val v (i + k) * val v i := by
  rw [sumTo, ← List.sum_map_mul_left]
  congr 1
  refine List.ext_getElem (by simp) fun i h1 h2 => ?_
  have hi : i < 160 - k := by simpa using h2
  simp [val, elt_eq v (show i < 160 by omega), elt_eq v (show k + i < 160 by omega), Nat.add_comm i k]

/-- With samples of at most 2^11 in magnitude no `L_add` saturates: 160 terms of at most 2^23 (R163). -/
theorem toInt_autocorrelation {v : Vector Word16 160}
    (hv : ∀ k (hk : k < 160), -2048 ≤ v[k].toInt ∧ v[k].toInt ≤ 2048) (k : Nat) :
    (autocorrelation v k).toInt = 2 * sumTo (160 - k) fun i => val v (i + k) * val v i := by
  have hmem : ∀ x ∈ v.toList, |x.toInt| ≤ 2048 := by
    intro x hx
    obtain ⟨i, hi, rfl⟩ := List.mem_iff_getElem.mp hx
    simp only [Vector.length_toList] at hi
    simpa [abs_le] using hv i hi
  have hterm : ∀ p ∈ (v.toList.drop k).zip v.toList, |2 * (p.1.toInt * p.2.toInt)| ≤ 8388608 := by
    rintro ⟨x, y⟩ hp
    obtain ⟨hx, hy⟩ := List.of_mem_zip hp
    have hxy := mul_le_mul (hmem x (List.mem_of_mem_drop hx)) (hmem y hy) (abs_nonneg _) (by norm_num)
    rw [abs_mul, abs_mul, abs_two]
    linarith
  have h0 : (0 : Word32).toInt = 0 := rfl
  unfold autocorrelation
  rw [toInt_macSum hterm (by norm_num), sum_autocorrelationPairs, h0, zero_add]
  have hlen : ((v.toList.drop k).zip v.toList).length ≤ 160 := by simp
  rw [h0, abs_zero]
  omega

/-- What AUTOCORR leaves in the working values that the rule names. -/
theorem stepAutocorr_work (s : State) :
    (stepAutocorr s).work.smax = maxAbs s.work.s.toList ∧
    (stepAutocorr s).work.scalauto = autoScale (maxAbs s.work.s.toList) ∧
    (∀ k : Fin 9, (stepAutocorr s).work.Lacf[k] =
      autocorrelation (scaledSamples (stepAutocorr s).work.scalauto s.work.s) k.val) ∧
    (stepAutocorr s).work.s =
      if 0 < (stepAutocorr s).work.scalauto.toInt then
        Vector.ofFn fun k : Fin 160 =>
          shl16 (scaledSamples (stepAutocorr s).work.scalauto s.work.s)[k] (stepAutocorr s).work.scalauto
      else s.work.s := by
  refine ⟨rfl, rfl, fun k => ?_, rfl⟩
  simp [stepAutocorr, scaledSamples]

/-- Settles O41: `scalauto` brings every sample within 2^11, so the 160 products add up exactly. -/
theorem autocorrResult : Obligations.AutocorrResult := by
  intro s
  obtain ⟨hsmax, hscal, hacf, hs⟩ := stepAutocorr_work s
  have hmax := isMax_maxAbs s.work.s
  have ⟨h0, hmag, _⟩ := hmax
  obtain ⟨hle, hlt⟩ := autoScale_range h0
  rw [← hscal] at hle hlt
  have hscaled := fun k (hk : k < 160) => toInt_scaledSamples hle s.work.s hk
  have hval : ∀ k, k < 160 → val (scaledSamples (stepAutocorr s).work.scalauto s.work.s) k =
      scaledSample (stepAutocorr s).work.scalauto.toInt (val s.work.s k) := fun k hk => by
    rw [val, val, elt_eq _ hk, elt_eq _ hk, hscaled k hk]
  have hrange : ∀ k (hk : k < 160), -2048 ≤ (scaledSamples (stepAutocorr s).work.scalauto s.work.s)[k].toInt ∧
      (scaledSamples (stepAutocorr s).work.scalauto s.work.s)[k].toInt ≤ 2048 := fun k hk => by
    have hk' := hmag k hk
    simp only [val, elt_eq _ hk] at hk'
    rw [hscaled k hk]
    exact scaledSample_range hle (toInt_range16 _).1 (lt_of_le_of_lt hk' hlt)
  refine ⟨stepAutocorr s, rfl, rfl, sameMemory_of_eq rfl rfl, by rw [hsmax]; exact hmax, ?scalauto, fun k => ?sums,
    fun k => ?rescaled⟩
  case scalauto =>
    rw [hscal, hsmax, toInt_autoScale h0, toNat_toInt_of_nonneg h0]
  case sums =>
    rw [hacf, toInt_autocorrelation hrange, sumTo, sumTo]
    congr 2
    refine List.map_congr_left fun i hi => ?_
    have hi' := List.mem_range.mp hi
    rw [hval i (by omega), hval (i + k) (by omega)]
  case rescaled =>
    rw [hs]
    by_cases hpos : 0 < (stepAutocorr s).work.scalauto.toInt
    · simp only [if_pos hpos, Fin.getElem_fin, Vector.getElem_ofFn]
      rw [toInt_shl16 (by omega), hscaled k k.isLt]
    · simp only [if_neg hpos]

/-! ### SCHUR (R164) -/

/-- The inner loop of the rule in closed form. It reads only what it has not yet written: turn i writes `P[i]` and `K[9-i]`
and reads these and `P[i+1]`. -/
theorem schurInner_eq (rn : Word16) (more m : Nat) (P K : Nat → Word16) (hm : m + more ≤ 9) :
    (∀ i, i < 9 → (schurInner rn more m P K).1 i =
      if m ≤ i ∧ i < m + more then add (P (i + 1)) (multR (K (9 - i)) rn) else P i) ∧
    ∀ i, i < 9 → (schurInner rn more m P K).2 (9 - i) =
      if m ≤ i ∧ i < m + more then add (K (9 - i)) (multR (P (i + 1)) rn) else K (9 - i) := by
  induction more generalizing m P K with
  | zero => exact ⟨fun i _ => by rw [if_neg (by omega)]; rfl, fun i _ => by rw [if_neg (by omega)]; rfl⟩
  | succ more ih =>
    obtain ⟨ihP, ihK⟩ := ih (m + 1) (Function.update P m (add (P (m + 1)) (multR (K (9 - m)) rn)))
      (Function.update K (9 - m) (add (K (9 - m)) (multR (P (m + 1)) rn))) (by omega)
    refine ⟨fun i hi => (ihP i hi).trans ?_, fun i hi => (ihK i hi).trans ?_⟩
    all_goals
      rcases Nat.lt_trichotomy i m with hlt | rfl | hgt
      · rw [if_neg (by omega), if_neg (by omega), Function.update_of_ne (by omega)]
      · rw [if_neg (by omega), if_pos (by omega), Function.update_self]
      · have hP : i + 1 ≠ m := by omega
        have hK : 9 - i ≠ 9 - m := by omega
        have hi' : i ≠ m := by omega
        simp only [Function.update_of_ne, hP, hK, hi', ne_eq, not_false_eq_true]
        exact if_congr (by omega) rfl rfl

/-- The arrays of the model and those of the rule hold the same values at the indices the rule has. -/
structure SameArrays (a : SchurArrays) (P K r : Nat → Word16) : Prop where
  P : ∀ m : Fin 9, P m.val = a.P[m]
  K : ∀ i : Fin 7, K (i.val + 2) = a.K[i]
  r : ∀ i : Fin 8, r (i.val + 1) = a.r[i]

/-- The update after stage n is the rule's line for `P[0]` and its inner loop. -/
theorem SameArrays.update {a : SchurArrays} {P K r : Nat → Word16} (h : SameArrays a P K r) {n : Nat} (hn : 1 ≤ n)
    (rn : Word16) :
    SameArrays (schurUpdate n rn a)
      (schurInner rn (8 - n) 1 (Function.update P 0 (add (P 0) (multR (P 1) rn))) K).1
      (schurInner rn (8 - n) 1 (Function.update P 0 (add (P 0) (multR (P 1) rn))) K).2 r := by
  obtain ⟨hinP, hinK⟩ := schurInner_eq rn (8 - n) 1 (Function.update P 0 (add (P 0) (multR (P 1) rn))) K (by omega)
  have hP : ∀ m, m < 9 → P m = elt a.P m := fun m hm => (h.P ⟨m, hm⟩).trans (elt_eq a.P hm).symm
  have hK : ∀ i, i < 7 → K (i + 2) = elt a.K i := fun i hi => (h.K ⟨i, hi⟩).trans (elt_eq a.K hi).symm
  refine ⟨fun m => ?_, fun i => ?_, h.r⟩
  · have hm := m.isLt
    rw [hinP m hm]
    simp only [schurUpdate, Fin.getElem_fin, Vector.getElem_ofFn]
    by_cases h0 : m.val = 0
    · rw [if_neg (by omega), if_pos h0, h0, Function.update_self, hP 0 (by omega), hP 1 (by omega),
        elt_eq a.P (by omega), elt_eq a.P (by omega)]
    · rw [if_neg h0]
      by_cases hle : m.val ≤ 8 - n
      · rw [if_pos (by omega), if_pos hle, Function.update_of_ne (by omega), hP _ (by omega),
          show 9 - m.val = 7 - m.val + 2 by omega, hK _ (by omega)]
      · rw [if_neg (by omega), if_neg hle, Function.update_of_ne h0]
        exact h.P m
  · have hi := i.isLt
    have hin := hinK (7 - i.val) (by omega)
    rw [show 9 - (7 - i.val) = i.val + 2 by omega] at hin
    rw [hin, h.K i]
    simp only [schurUpdate, Fin.getElem_fin, Vector.getElem_ofFn]
    by_cases hle : n ≤ i.val + 1
    · rw [if_pos (by omega), if_pos hle, Function.update_of_ne (by omega), hP _ (by omega),
        show 7 - i.val + 1 = 8 - i.val by omega]
    · rw [if_neg (by omega), if_neg hle]

/-- Writing the coefficient of stage n keeps the arrays the same. -/
theorem SameArrays.setR {a : SchurArrays} {P K r : Nat → Word16} (h : SameArrays a P K r) {n : Nat} (hn : 1 ≤ n)
    (rn : Word16) : SameArrays { a with r := a.r.setIfInBounds (n - 1) rn } P K (Function.update r n rn) := by
  refine ⟨h.P, h.K, fun i => ?_⟩
  simp only [Fin.getElem_fin, Vector.getElem_setIfInBounds, Function.update_apply]
  exact if_ctx_congr (by omega) (fun _ => rfl) fun _ => h.r i

/-- The stages of the model and the loop of the rule leave the same coefficients. -/
theorem schurStages_r {more n : Nat} {a : SchurArrays} {P K r : Nat → Word16} (h : SameArrays a P K r) (hn : 1 ≤ n)
    (i : Fin 8) : (schurStages more n a).r[i] = schurRule more n P K r (i.val + 1) := by
  induction more generalizing n a P K r with
  | zero => exact (h.r i).symm
  | succ more ih =>
    have hP0 : P 0 = a.P[0] := h.P 0
    have hP1 : P 1 = a.P[1] := h.P 1
    simp only [schurStages, schurRule, ← hP0, ← hP1]
    split
    · simp only [Fin.getElem_fin, Vector.getElem_ofFn]
      exact if_congr Iff.rfl rfl (h.r i).symm
    · have hset := h.setR hn (if (P 1).toInt > 0 then sub 0 (div (sAbs (P 1)) (P 0)) else div (sAbs (P 1)) (P 0))
      split
      · exact (hset.r i).symm
      · exact ih (hset.update hn _) (by omega)

/-- The shift that normalises `L_ACF[0]` does not saturate on a value of no larger magnitude, and the high half fits. -/
theorem toInt_normalisedAcf {L L0 : Word32} {temp : Word16} {n : Nat} (htemp : temp.toInt = n)
    (hn : Normalised (L0.toInt * 2 ^ n)) (h0 : 0 < L0.toInt) (hlow : -L0.toInt ≤ L.toInt) (hhigh : L.toInt ≤ L0.toInt) :
    (narrow (lShr (lShl L temp) 16)).toInt = L.toInt * 2 ^ n / 65536 := by
  have hp : (0 : Int) < 2 ^ n := by positivity
  have hlow' : -(L0.toInt * 2 ^ n) ≤ L.toInt * 2 ^ n := by nlinarith
  have hhigh' : L.toInt * 2 ^ n ≤ L0.toInt * 2 ^ n := by nlinarith
  have hpos : 0 < L0.toInt * 2 ^ n := by positivity
  unfold Normalised at hn
  have hshl : (lShl L temp).toInt = L.toInt * 2 ^ n := by
    rw [toInt_lShl (by omega), htemp, Int.toNat_natCast, clamp32_id (by omega) (by omega)]
  rw [toInt_narrow, toInt_lShr_sixteen, hshl, clamp16_id (by omega) (by omega)]

/-- The normalised autocorrelation of SCHUR (R164). -/
def normalisedAcf (w : Work) : Vector Word16 9 :=
  Vector.ofFn fun k : Fin 9 => narrow (lShr (lShl w.Lacf[k] (norm w.Lacf[0])) 16)

/-- The arrays with which the recursion of SCHUR starts (R164). -/
def schurStart (w : Work) : SchurArrays :=
  { P := normalisedAcf w, K := Vector.ofFn fun i : Fin 7 => elt (normalisedAcf w) (7 - i.val), r := w.r }

theorem stepSchur_of_zero {s : State} (h : s.work.Lacf[0].toInt = 0) :
    (stepSchur s).work.r = Vector.replicate 8 0 := by
  simp [stepSchur, h]

/-- What SCHUR leaves in `ACF` and `r` where the frame is not silent. -/
theorem stepSchur_of_ne {s : State} (h : s.work.Lacf[0].toInt ≠ 0) :
    (stepSchur s).work.acf = normalisedAcf s.work ∧ (stepSchur s).work.r = (schurStages 8 1 (schurStart s.work)).r := by
  simp [stepSchur, h, normalisedAcf, schurStart]

theorem schurStart_sameArrays (w : Work) :
    SameArrays (schurStart w) (elt (normalisedAcf w)) (fun m => elt (normalisedAcf w) (9 - m))
      (fun m => elt w.r (m - 1)) := by
  refine ⟨fun m => elt_eq _ m.isLt, fun i => ?_, fun i => elt_eq w.r i.isLt⟩
  simp [schurStart]

/-- Settles O42: after the normalisation the model's stages follow the rule's assignments. -/
theorem schurResult : Obligations.SchurResult := by
  intro s
  obtain ⟨temp, acf, P, K, r, hframe⟩ := stepSchur_frame s
  refine ⟨stepSchur s, rfl, by rw [hframe], by rw [hframe]; exact sameMemory_of_eq rfl rfl, fun hzero i => ?silent,
    fun hpos hle n hn => ⟨fun k => ?acf, fun i => ?r⟩⟩
  case silent =>
    rw [stepSchur_of_zero hzero]
    simp
  case acf =>
    obtain ⟨htemp, -, hnorm, -⟩ := norm_spec (L := s.work.Lacf[0]) (by omega)
    obtain rfl := normalised_unique hpos hnorm hn
    obtain ⟨hacf, -⟩ := stepSchur_of_ne (s := s) (by omega)
    obtain ⟨hlow, hhigh⟩ := hle k
    simp only [hacf, normalisedAcf, Fin.getElem_fin, Vector.getElem_ofFn]
    exact toInt_normalisedAcf htemp hn hpos hlow hhigh
  case r =>
    obtain ⟨hacf, hr⟩ := stepSchur_of_ne (s := s) (by omega)
    rw [hacf, hr]
    exact schurStages_r (schurStart_sameArrays s.work) (by omega) i

/-! ### R2LAR and LARQ (R166 to R168) -/

/-- The three segments; in the third the shift by 2 does not saturate. -/
theorem toInt_larMagnitude (r : Word16) :
    (larMagnitude r).toInt =
      if mag r.toInt < 22118 then mag r.toInt / 2
      else if mag r.toInt < 31130 then mag r.toInt - 11059
      else 4 * (mag r.toInt - 26112) := by
  have hr := toInt_range16 r
  obtain ⟨h0, hle⟩ := mag_range hr.1 hr.2
  have h11059 : (11059 : Word16).toInt = 11059 := rfl
  have h26112 : (26112 : Word16).toInt = 26112 := rfl
  simp only [larMagnitude]
  rw [← toInt_sAbs] at h0 hle ⊢
  split
  · exact toInt_shr16_one _
  · split
    · rw [toInt_sub, h11059, clamp16_id (by omega) (by omega)]
    · rw [toInt_shl16_two, toInt_sub, h26112, clamp16_id (x := (sAbs r).toInt - 26112) (by omega) (by omega),
        clamp16_id (by omega) (by omega)]
      omega

theorem larMagnitude_range (r : Word16) : 0 ≤ (larMagnitude r).toInt ∧ (larMagnitude r).toInt ≤ 26620 := by
  have hr := toInt_range16 r
  have hm := mag_range hr.1 hr.2
  rw [toInt_larMagnitude]
  split
  · omega
  · split <;> omega

/-- The log-area ratio is its magnitude with the sign of r. -/
theorem toInt_larOf (r : Word16) :
    (larOf r).toInt = (if r.toInt < 0 then -1 else 1) * (larMagnitude r).toInt := by
  have hm := larMagnitude_range r
  have h0 : (0 : Word16).toInt = 0 := rfl
  unfold larOf
  split
  · rw [toInt_sub, h0, clamp16_id (by omega) (by omega)]
    omega
  · omega

/-- The tables of R168 as integers. -/
theorem toInt_codingTables : ∀ i : Fin 8,
    tblA[i].toInt = [20480, 20480, 20480, 20480, 13964, 15360, 8534, 9036].getD i.val 0 ∧
    tblB[i].toInt = [0, 0, 2048, -2560, 94, -1792, -341, -1144].getD i.val 0 ∧
    tblMIC[i].toInt = [-32, -32, -16, -16, -8, -8, -4, -4].getD i.val 0 ∧
    tblMAC[i].toInt = [31, 31, 15, 15, 7, 7, 3, 3].getD i.val 0 := by decide

/-- What the entries of the tables of R168 have in common. -/
theorem codingTables_range : ∀ i : Fin 8,
    (0 ≤ tblA[i].toInt ∧ tblA[i].toInt ≤ 20480) ∧ (-2560 ≤ tblB[i].toInt ∧ tblB[i].toInt ≤ 2048) ∧
    (-32 ≤ tblMIC[i].toInt ∧ tblMIC[i].toInt ≤ 0) ∧ 0 ≤ tblMAC[i].toInt ∧ tblMAC[i].toInt ≤ 31 := by decide

/-- With the factors of R168 neither the product nor the two sums saturate. -/
theorem toInt_larScaled (i : Fin 8) (lar : Word16) :
    (larScaled i lar).toInt = tblA[i].toInt * lar.toInt / 32768 + tblB[i].toInt + 256 := by
  obtain ⟨⟨hA0, hA⟩, hB, -, -⟩ := codingTables_range i
  have hl := toInt_range16 lar
  have h256 : (256 : Word16).toInt = 256 := rfl
  have hlow : 20480 * -32768 ≤ tblA[i].toInt * lar.toInt := by nlinarith
  have hhigh : tblA[i].toInt * lar.toInt ≤ 20480 * 32767 := by nlinarith
  unfold larScaled
  rw [toInt_add, toInt_add, toInt_mult, h256, if_neg (by omega),
    clamp16_id (x := tblA[i].toInt * lar.toInt / 32768 + tblB[i].toInt) (by omega) (by omega),
    clamp16_id (by omega) (by omega)]

/-- The two tests clip, and `MIC` is then subtracted without saturation. -/
theorem toInt_larCode (i : Fin 8) (lar : Word16) :
    (larCode i lar).toInt =
      max tblMIC[i].toInt (min tblMAC[i].toInt ((larScaled i lar).toInt / 512)) - tblMIC[i].toInt := by
  obtain ⟨-, -, hMIC, hMAC⟩ := codingTables_range i
  simp only [larCode]
  rw [← toInt_shr16_nine, toInt_sub]
  by_cases hhigh : (shr16 (larScaled i lar) 9).toInt > tblMAC[i].toInt
  · rw [if_pos hhigh, if_neg (by omega), clamp16_id (by omega) (by omega)]
    omega
  · rw [if_neg hhigh]
    split
    · rw [clamp16_id (by omega) (by omega)]
      omega
    · rw [clamp16_id (by omega) (by omega)]
      omega

/-- Settles O43: each coefficient by itself; with the values of R168 no operation saturates. -/
theorem larCoding : Obligations.LarCoding := by
  intro s
  refine ⟨?r2lar, ?larq⟩
  case r2lar =>
    refine ⟨stepR2lar s, rfl, rfl, sameMemory_of_eq rfl rfl, fun i => ?_⟩
    have hlar : (stepR2lar s).work.lar[i] = larOf s.work.r[i] := by simp [stepR2lar]
    rw [hlar, toInt_larOf, toInt_larMagnitude]
  case larq =>
    refine ⟨stepLarq s, rfl, rfl, sameMemory_of_eq rfl rfl, fun i => ?_⟩
    have hcode : (stepLarq s).work.larc[i] = larCode i s.work.lar[i] := by simp [stepLarq]
    obtain ⟨hA, hB, hMIC, hMAC⟩ := toInt_codingTables i
    intro A B MIC MAC
    rw [hcode, toInt_larCode, toInt_larScaled, hA, hB, hMIC, hMAC]

end Sys2Proof.LpcAnalysis

/-! PROOFS. The LAR quantizer inverse (43_lar_inverse.md): LAR decoding, interpolation and reflection coefficients over exact
integers, DECODEREFL as its nine steps, the zone map. -/

namespace Sys2Proof.LarQuantizerInverse

open Sys2Proof Sys2Proof.Machine Sys2Proof.Safety Sys2Proof.Addressing Sys2Proof.LpcAnalysis

/-! ### The primitives at the constants these steps use -/

theorem toInt_shl16_ten (x : Word16) : (shl16 x 10).toInt = clamp16 (x.toInt * 1024) := toInt_shl16 (by decide)

theorem toInt_shr16_two (x : Word16) : (shr16 x 2).toInt = x.toInt / 4 := toInt_shr16 (by decide)

/-! ### LARDEC (R180) -/

/-- The table of R185 as integers. -/
theorem toInt_tblINVA : ∀ i : Fin 8,
    tblINVA[i].toInt = [13107, 13107, 13107, 13107, 19223, 17476, 31454, 29708].getD i.val 0 := by decide

/-- What LARDEC multiplies by `INVA`, over exact integers. -/
def larDecodeFactor (i : Fin 8) (code : Int) : Int := (code + tblMIC[i].toInt) * 1024 - tblB[i].toInt * 2

/-- Between its first and its last code a coefficient's factor stays in int16, and its product within half of a Q15 one, so that
it can be doubled. -/
theorem larDecodeFactor_ends : ∀ i : Fin 8,
    0 ≤ tblINVA[i].toInt ∧
    -32768 ≤ larDecodeFactor i 0 ∧ larDecodeFactor i (tblMAC[i].toInt - tblMIC[i].toInt) ≤ 32767 ∧
    -536870912 ≤ tblINVA[i].toInt * larDecodeFactor i 0 ∧
    tblINVA[i].toInt * larDecodeFactor i (tblMAC[i].toInt - tblMIC[i].toInt) ≤ 536838144 := by decide

theorem larDecodeFactor_mono (i : Fin 8) {c c' : Int} (h : c ≤ c') : larDecodeFactor i c ≤ larDecodeFactor i c' := by
  unfold larDecodeFactor
  omega

theorem larDecodeFactor_range {i : Fin 8} {c : Int} (h0 : 0 ≤ c) (h : c ≤ tblMAC[i].toInt - tblMIC[i].toInt) :
    -32768 ≤ larDecodeFactor i c ∧ larDecodeFactor i c ≤ 32767 := by
  obtain ⟨-, hlow, hhigh, -⟩ := larDecodeFactor_ends i
  exact ⟨hlow.trans (larDecodeFactor_mono i h0), (larDecodeFactor_mono i h).trans hhigh⟩

theorem larDecodeProduct_range {i : Fin 8} {c : Int} (h0 : 0 ≤ c) (h : c ≤ tblMAC[i].toInt - tblMIC[i].toInt) :
    -536870912 ≤ tblINVA[i].toInt * larDecodeFactor i c ∧ tblINVA[i].toInt * larDecodeFactor i c ≤ 536838144 := by
  obtain ⟨hINVA, -, -, hlow, hhigh⟩ := larDecodeFactor_ends i
  exact ⟨hlow.trans (mul_le_mul_of_nonneg_left (larDecodeFactor_mono i h0) hINVA),
    (mul_le_mul_of_nonneg_left (larDecodeFactor_mono i h) hINVA).trans hhigh⟩

/-- On a code within its width neither the sum, the two shifts nor the difference saturates. -/
theorem toInt_larDecodeHalf {i : Fin 8} {code : Word16} (h0 : 0 ≤ code.toInt)
    (h : code.toInt ≤ tblMAC[i].toInt - tblMIC[i].toInt) :
    (larDecodeHalf i code).toInt = round15 (tblINVA[i].toInt * larDecodeFactor i code.toInt) := by
  obtain ⟨-, hB, hMIC, hMAC⟩ := codingTables_range i
  have hfactor := larDecodeFactor_range h0 h
  have hINVA : tblINVA[i].toInt ≠ -32768 := by have := (larDecodeFactor_ends i).1; omega
  have hterm : (sub (shl16 (add code tblMIC[i]) 10) (shl16 tblB[i] 1)).toInt = larDecodeFactor i code.toInt := by
    unfold larDecodeFactor at hfactor ⊢
    rw [toInt_sub, toInt_shl16_ten, toInt_shl16_one, toInt_add,
      clamp16_id (x := code.toInt + tblMIC[i].toInt) (by omega) (by omega),
      clamp16_id (x := 2 * tblB[i].toInt) (by omega) (by omega),
      clamp16_id (x := (code.toInt + tblMIC[i].toInt) * 1024) (by omega) (by omega), Int.mul_comm 2,
      clamp16_id hfactor.1 hfactor.2]
  unfold larDecodeHalf
  rw [toInt_multR, if_neg fun hc => hINVA hc.1, hterm]

/-- The doubling does not saturate either. -/
theorem toInt_larDecode {i : Fin 8} {code : Word16} (h0 : 0 ≤ code.toInt)
    (h : code.toInt ≤ tblMAC[i].toInt - tblMIC[i].toInt) :
    (larDecode i code).toInt = 2 * round15 (tblINVA[i].toInt * larDecodeFactor i code.toInt) := by
  obtain ⟨hlow, hhigh⟩ := larDecodeProduct_range h0 h
  unfold larDecode
  rw [toInt_add, toInt_larDecodeHalf h0 h]
  unfold round15
  rw [clamp16_id (by omega) (by omega)]
  omega

/-! ### LARINTERP (R181) -/

/-- The weights of a zone sum to one, so the sum of the shifted terms stays in int16. -/
theorem toInt_interpolate (zone : BitVec 2) (last cur : Word16) :
    (zone = 0 → (interpolate zone last cur).toInt = last.toInt / 4 + cur.toInt / 4 + last.toInt / 2) ∧
    (zone = 1 → (interpolate zone last cur).toInt = last.toInt / 2 + cur.toInt / 2) ∧
    (zone = 2 → (interpolate zone last cur).toInt = last.toInt / 4 + cur.toInt / 4 + cur.toInt / 2) ∧
    (zone = 3 → (interpolate zone last cur).toInt = cur.toInt) := by
  have hlast := toInt_range16 last
  have hcur := toInt_range16 cur
  have hquarters : (add (shr16 last 2) (shr16 cur 2)).toInt = last.toInt / 4 + cur.toInt / 4 := by
    rw [toInt_add, toInt_shr16_two, toInt_shr16_two, clamp16_id (by omega) (by omega)]
  refine ⟨?zone0, ?zone1, ?zone2, ?zone3⟩ <;> rintro rfl
  case zone0 =>
    show (add (add (shr16 last 2) (shr16 cur 2)) (shr16 last 1)).toInt = _
    rw [toInt_add, hquarters, toInt_shr16_one, clamp16_id (by omega) (by omega)]
  case zone1 =>
    show (add (shr16 last 1) (shr16 cur 1)).toInt = _
    rw [toInt_add, toInt_shr16_one, toInt_shr16_one, clamp16_id (by omega) (by omega)]
  case zone2 =>
    show (add (add (shr16 last 2) (shr16 cur 2)) (shr16 cur 1)).toInt = _
    rw [toInt_add, hquarters, toInt_shr16_one, clamp16_id (by omega) (by omega)]
  case zone3 => rfl

/-! ### LAR2RP (R182) -/

/-- The three segments; in the third alone the sum can saturate. -/
theorem toInt_rpMagnitude (lar : Word16) :
    (rpMagnitude lar).toInt =
      if mag lar.toInt < 11059 then 2 * mag lar.toInt
      else if mag lar.toInt < 20070 then mag lar.toInt + 11059
      else min (mag lar.toInt / 4 + 26112) 32767 := by
  have hr := toInt_range16 lar
  have hmag := mag_range hr.1 hr.2
  have h11059 : (11059 : Word16).toInt = 11059 := rfl
  have h26112 : (26112 : Word16).toInt = 26112 := rfl
  simp only [rpMagnitude]
  rw [← toInt_sAbs] at hmag ⊢
  split
  · rw [toInt_shl16_one, clamp16_id (by omega) (by omega)]
  · split
    · rw [toInt_add, h11059, clamp16_id (by omega) (by omega)]
    · rw [toInt_add, toInt_shr16_two, h26112]
      unfold clamp16
      omega

theorem rpMagnitude_nonneg (lar : Word16) : 0 ≤ (rpMagnitude lar).toInt := by
  have hr := toInt_range16 lar
  have hmag := mag_range hr.1 hr.2
  rw [toInt_rpMagnitude]
  split
  · omega
  · split <;> omega

/-- The reflection coefficient is its magnitude with the sign of the LAR. -/
theorem toInt_rpOf (lar : Word16) :
    (rpOf lar).toInt = (if lar.toInt < 0 then -1 else 1) * (rpMagnitude lar).toInt := by
  have hlow := rpMagnitude_nonneg lar
  have hhigh := (toInt_range16 (rpMagnitude lar)).2
  have h0 : (0 : Word16).toInt = 0 := rfl
  unfold rpOf
  split
  · rw [toInt_sub, h0, clamp16_id (by omega) (by omega)]
    omega
  · omega

/-- Settles O44: each coefficient by itself; only the third segment of LAR2RP can saturate. -/
theorem larDecoding : Obligations.LarDecoding := by
  intro side zone s
  refine ⟨?lardec, ?larinterp, ?lar2rp⟩
  case lardec =>
    refine ⟨stepLardec s, rfl, rfl, sameMemory_of_eq rfl rfl, fun i => ?_⟩
    have hlarpp : (stepLardec s).work.larpp[i] = larDecode i s.work.larc[i] := by simp [stepLardec]
    obtain ⟨-, hB, hMIC, hMAC⟩ := toInt_codingTables i
    intro INVA B MIC MAC h0 h
    rw [hlarpp, toInt_larDecode h0 (by rwa [hMIC, hMAC]), larDecodeFactor, toInt_tblINVA, hB, hMIC]
  case larinterp =>
    refine ⟨stepLarinterp side zone s, rfl, rfl, sameMemory_of_eq rfl rfl, fun i => ?_⟩
    have hlarp : (stepLarinterp side zone s).work.larp[i] = interpolate zone (larppLastOf side s)[i] s.work.larpp[i] := by
      simp [stepLarinterp]
    rw [hlarp]
    cases side with
    | enc => exact toInt_interpolate zone s.enc.larppLast[i] s.work.larpp[i]
    | dec => exact toInt_interpolate zone s.dec.larppLast[i] s.work.larpp[i]
  case lar2rp =>
    refine ⟨stepLar2rp zone s, rfl, rfl, sameMemory_of_eq rfl rfl, fun z hz => ?_, fun i => ?_⟩
    · exact getElem_set4_ne _ zone _ z.isLt hz
    · have hrow : (sub4 (stepLar2rp zone s).work.rrp zone)[i] = rpOf s.work.larp[i] := by
        simp [stepLar2rp, sub4_set4]
      rw [hrow, toInt_rpOf, toInt_rpMagnitude]

/-! ### DECODEREFL (R183) -/

/-- The nine steps run one after another are the composite. -/
theorem runAll_decodereflProgram (side : Side) (s : State) :
    runAll (decodereflProgram side) s = .next (stepDecoderefl side s) := by
  have hlardec : exec .lardec s = .next (stepLardec s) := rfl
  have hzone : ∀ zone ∈ quarters, ∀ t, runAll [.larinterp side zone, .lar2rp zone] t =
      .next (stepLar2rp zone (stepLarinterp side zone t)) := fun _ _ _ => rfl
  exact (runAll_cons hlardec).trans (runAll_flatMap _ _ quarters hzone _)

/-- Settles O45: the composite is its steps run one after another, and the frames of the steps compose. -/
theorem decodereflResult : Obligations.DecodereflResult := by
  intro side s
  obtain ⟨_, _, _, _, _, _, hframe⟩ := stepDecoderefl_frame side s
  refine ⟨stepDecoderefl side s, rfl, runAll_decodereflProgram side s, ?_, ?_⟩
  · rw [hframe]
  · rw [hframe]
    exact sameMemory_of_eq rfl rfl

/-! ### K2ZONE (R184) -/

/-- The boundaries of R39 written with strict comparisons. -/
theorem toNat_k2zone (k : Nat) :
    (k2zone k).toNat = if k < 13 then 0 else if k < 27 then 1 else if k < 40 then 2 else 3 := by
  simp only [k2zone, ← Nat.lt_succ_iff, apply_ite BitVec.toNat]
  rfl

/-- Settles O46: a sample in range runs the step, which writes the zone alone. -/
theorem k2zoneResult : Obligations.K2zoneResult := fun k s hk =>
  ⟨_, runStep_of_sample hk (stepK2zone k.toNat) s, rfl, sameMemory_of_eq rfl rfl, toNat_k2zone k.toNat⟩

end Sys2Proof.LarQuantizerInverse

/-! PROOFS. The short-term filters (44_short_term_filters.md): the two lattices stage by stage, de-emphasis and output scaling
over exact integers, and DECODE as the sequence of its steps (R194, R239, R241). -/

namespace Sys2Proof.ShortTermFilters

open Sys2Proof Sys2Proof.Machine Sys2Proof.Safety Sys2Proof.BlockState Sys2Proof.Addressing Sys2Proof.FramePacker
  Sys2Proof.LpcAnalysis

/-! ### Loops over all indices -/

/-- A loop upwards over `Fin n`: what holds before turn 0 and is carried from each turn to the next holds at the end. -/
theorem foldl_finRange_induction {α : Type} {n : Nat} {f : α → Fin n → α} {a : α} (P : Nat → α → Prop) (h0 : P 0 a)
    (hstep : ∀ (i : Fin n) (x : α), P i.val x → P (i.val + 1) (f x i)) : P n ((List.finRange n).foldl f a) := by
  induction n with
  | zero => exact h0
  | succ n ih =>
    rw [List.finRange_succ_last, List.foldl_append, List.foldl_map]
    exact hstep (Fin.last n) _ (ih fun i => hstep i.castSucc)

/-- A loop downwards over `Fin n`, from n to 0. -/
theorem foldr_finRange_induction {α : Type} {n : Nat} {f : Fin n → α → α} {a : α} (P : Nat → α → Prop) (hn : P n a)
    (hstep : ∀ (i : Fin n) (x : α), P (i.val + 1) x → P i.val (f i x)) : P 0 ((List.finRange n).foldr f a) := by
  induction n generalizing P with
  | zero => exact hn
  | succ n ih =>
    rw [List.finRange_succ, List.foldr_cons, List.foldr_map]
    exact hstep 0 _ (ih (fun m => P (m + 1)) hn fun i => hstep i.succ)

/-! ### One element of an array written -/

theorem elt_set {n i m : Nat} (v : Vector Word16 n) (hi : i < n) (y : Word16) (hm : m < n) :
    elt (v.set i y) m = if i = m then y else elt v m := by
  rw [elt_eq _ hm, elt_eq _ hm, Vector.getElem_set]

theorem elt_setIfInBounds {n i m : Nat} (v : Vector Word16 n) (y : Word16) (hm : m < n) :
    elt (v.setIfInBounds i y) m = if i = m then y else elt v m := by
  rw [elt_eq _ hm, elt_eq _ hm, Vector.getElem_setIfInBounds]

/-! ### STANALYSIS (R190) -/

/-- Forward and backward error of one sample after i stages; `u` holds the previous sample's backward errors. -/
def analysisErrors (rp u : Vector Word16 8) (x : Word16) : Nat → Word16 × Word16
  | 0 => (x, x)
  | i + 1 =>
    (add (analysisErrors rp u x i).1 (multR (elt rp i) (elt u i)),
      add (elt u i) (multR (elt rp i) (analysisErrors rp u x i).1))

/-- After i stages the lattice carries both errors, and `u` is overwritten below i. -/
structure AfterStages (rp u : Vector Word16 8) (x : Word16) (i : Nat) (a : AnalysisLattice) : Prop where
  di : a.di = (analysisErrors rp u x i).1
  sav : a.sav = (analysisErrors rp u x i).2
  u : ∀ m, m < 8 → elt a.u m = if m < i then (analysisErrors rp u x m).2 else elt u m

theorem AfterStages.stage {rp u : Vector Word16 8} {x : Word16} {a : AnalysisLattice} (i : Fin 8)
    (h : AfterStages rp u x i.val a) : AfterStages rp u x (i.val + 1) (analysisStage rp a i) := by
  have hrp : rp[i] = elt rp i.val := (elt_eq rp i.isLt).symm
  have hu : a.u[i] = elt u i.val := by
    rw [Fin.getElem_fin, ← elt_eq a.u i.isLt, h.u i.val i.isLt, if_neg (Nat.lt_irrefl _)]
  refine ⟨?_, ?_, fun m hm => ?_⟩
  · simp only [analysisStage, analysisErrors, hrp, hu, h.di]
  · simp only [analysisStage, analysisErrors, hrp, hu, h.di]
  · have hset : elt (analysisStage rp a i).u m = if i.val = m then a.sav else elt a.u m := by
      exact elt_set a.u i.isLt a.sav hm
    rw [hset, h.sav, h.u m hm]
    rcases Nat.lt_trichotomy i.val m with hlt | rfl | hgt
    · rw [if_neg (by omega), if_neg (by omega), if_neg (by omega)]
    · rw [if_pos rfl, if_pos (by omega)]
    · rw [if_neg (by omega), if_pos hgt, if_pos (by omega)]

theorem analysisSample_afterStages (rp u : Vector Word16 8) (x : Word16) :
    AfterStages rp u x 8 (analysisSample rp u x) :=
  foldl_finRange_induction (AfterStages rp u x) ⟨rfl, rfl, fun _ _ => rfl⟩ fun i _ => AfterStages.stage i

/-- The memory `u` before sample k: after each sample its backward errors. -/
def memoryBefore (w : Work) (u : Vector Word16 8) : Nat → Vector Word16 8
  | 0 => u
  | k + 1 => (analysisSample (sub4 w.rrp (k2zone k)) (memoryBefore w u k) (elt w.s k)).u

/-- Forward and backward error of sample k after i stages. -/
def sampleErrors (w : Work) (u : Vector Word16 8) (k i : Nat) : Word16 × Word16 :=
  analysisErrors (sub4 w.rrp (k2zone k)) (memoryBefore w u k) (elt w.s k) i

theorem elt_memoryBefore_succ (w : Work) (u : Vector Word16 8) (k : Nat) {i : Nat} (hi : i < 8) :
    elt (memoryBefore w u (k + 1)) i = (sampleErrors w u k i).2 := by
  rw [memoryBefore, (analysisSample_afterStages _ _ _).u i hi, if_pos hi]
  rfl

/-- The memory before a sample, as the rule names it: `u` before sample 0, then the backward errors of the sample before. -/
theorem elt_memoryBefore (w : Work) (u : Vector Word16 8) (k : Nat) {i : Nat} (hi : i < 8) :
    elt (memoryBefore w u k) i = if k = 0 then elt u i else (sampleErrors w u (k - 1) i).2 := by
  cases k with
  | zero => rfl
  | succ k => rw [elt_memoryBefore_succ w u k hi, if_neg (Nat.succ_ne_zero k), Nat.add_sub_cancel]

/-- After k samples: the coefficients and the samples are as at the start, `u` is the memory before sample k, and `d` holds the
last forward errors below k. -/
structure AfterSamples (s : State) (k : Nat) (t : State) : Prop where
  rrp : t.work.rrp = s.work.rrp
  samples : t.work.s = s.work.s
  u : t.enc.u = memoryBefore s.work s.enc.u k
  d : ∀ m, m < k → elt t.work.d m = (sampleErrors s.work s.enc.u m 8).1

theorem AfterSamples.sample {s t : State} (k : Fin 160) (h : AfterSamples s k.val t) :
    AfterSamples s (k.val + 1) (stanalysisSample t k) := by
  have hx : t.work.s[k] = elt s.work.s k.val := by rw [h.samples]; exact (elt_eq _ k.isLt).symm
  refine ⟨h.rrp, h.samples, ?_, fun m hm => ?_⟩
  · simp only [stanalysisSample, memoryBefore, h.rrp, h.u, hx]
  · have hset : elt (stanalysisSample t k).work.d m =
        if k.val = m then (analysisSample (sub4 t.work.rrp (k2zone k.val)) t.enc.u t.work.s[k]).di else elt t.work.d m := by
      exact elt_set t.work.d k.isLt _ (by omega)
    rw [hset]
    split
    · next hkm =>
      subst hkm
      rw [h.rrp, h.u, hx, (analysisSample_afterStages _ _ _).di]
      rfl
    · next hkm => exact h.d m (by omega)

theorem stepStanalysis_afterSamples (s : State) : AfterSamples s 160 (stepStanalysis s) :=
  foldl_finRange_induction (AfterSamples s) ⟨rfl, rfl, rfl, fun _ hm => absurd hm (Nat.not_lt_zero _)⟩
    fun k _ => AfterSamples.sample k

/-- Settles O47: the errors are those of the recursion over samples and stages. -/
theorem stanalysisResult : Obligations.StanalysisResult := by
  intro s
  obtain ⟨_, _, _, _, _, _, hframe⟩ := stepStanalysis_frame s
  obtain ⟨-, -, hu, hd⟩ := stepStanalysis_afterSamples s
  refine ⟨stepStanalysis s, rfl, by rw [hframe], by rw [hframe]; exact sameMemory_of_eq rfl rfl,
    fun k i => (sampleErrors s.work s.enc.u k i).1, fun k i => (sampleErrors s.work s.enc.u k i).2,
    fun k _ => ⟨rfl, rfl⟩, fun k i _ hi => ?stage, fun k => ?forward, fun i => ?memory⟩
  case stage =>
    rw [← elt_memoryBefore s.work s.enc.u k hi]
    exact ⟨rfl, rfl⟩
  case forward => exact (elt_eq _ k.isLt).symm.trans (hd k.val k.isLt)
  case memory =>
    rw [Fin.getElem_fin, ← elt_eq _ i.isLt, hu]
    exact elt_memoryBefore_succ s.work s.enc.u 159 i.isLt

/-! ### STSYNTH (R191) -/

/-- `sri` of one sample after m stages, the first with coefficient 8. -/
def synthesisSignal (rp : Vector Word16 8) (v : Vector Word16 9) (x : Word16) : Nat → Word16
  | 0 => x
  | m + 1 => sub (synthesisSignal rp v x m) (multR (elt rp (7 - m)) (elt v (7 - m)))

/-- Counted by the coefficient: stage c + 1 takes `sri` from its value above coefficient c + 1 to the one below. -/
theorem synthesisSignal_stage (rp : Vector Word16 8) (v : Vector Word16 9) (x : Word16) {c : Nat} (hc : c < 8) :
    synthesisSignal rp v x (8 - c) = sub (synthesisSignal rp v x (8 - (c + 1))) (multR (elt rp c) (elt v c)) := by
  rw [show 8 - c = 8 - (c + 1) + 1 by omega, synthesisSignal, show 7 - (8 - (c + 1)) = c by omega]

/-- What stage c + 1 writes to `v[c+1]`. -/
def synthesisSum (rp : Vector Word16 8) (v : Vector Word16 9) (x : Word16) (c : Nat) : Word16 :=
  add (elt v c) (multR (elt rp c) (synthesisSignal rp v x (8 - c)))

/-- With the stages above coefficient c done, `sri` is the signal there, and `v` is overwritten above c. -/
structure AboveCoefficient (rp : Vector Word16 8) (v : Vector Word16 9) (x : Word16) (c : Nat)
    (p : Word16 × Vector Word16 9) : Prop where
  sri : p.1 = synthesisSignal rp v x (8 - c)
  written : ∀ m, c ≤ m → m < 8 → elt p.2 (m + 1) = synthesisSum rp v x m
  unread : ∀ m, m ≤ c → elt p.2 m = elt v m

theorem AboveCoefficient.stage {rp : Vector Word16 8} {v : Vector Word16 9} {x : Word16} {p : Word16 × Vector Word16 9}
    (c : Fin 8) (h : AboveCoefficient rp v x (c.val + 1) p) : AboveCoefficient rp v x c.val (synthesisStage rp p c) := by
  have hc := c.isLt
  have hrp : rp[c] = elt rp c.val := (elt_eq rp hc).symm
  have hv : elt p.2 c.val = elt v c.val := h.unread c.val (by omega)
  have hsri : sub p.1 (multR rp[c] (elt p.2 c.val)) = synthesisSignal rp v x (8 - c.val) := by
    rw [synthesisSignal_stage rp v x hc, h.sri, hrp, hv]
  have hset : (synthesisStage rp p c).2 = p.2.setIfInBounds (c.val + 1) (synthesisSum rp v x c.val) := by
    show p.2.setIfInBounds _ (add (elt p.2 c.val) (multR rp[c] (sub p.1 (multR rp[c] (elt p.2 c.val))))) = _
    rw [hsri, hv, hrp, synthesisSum]
  refine ⟨hsri, fun m hm hm8 => ?_, fun m hm => ?_⟩
  · rw [hset, elt_setIfInBounds _ _ (by omega)]
    split
    · next heq => rw [Nat.succ.inj heq]
    · next hne => exact h.written m (by omega) hm8
  · rw [hset, elt_setIfInBounds _ _ (by omega), if_neg (by omega)]
    exact h.unread m (by omega)

/-- One sample of the synthesis lattice: `sri` is the signal below coefficient 1 and goes to `v[0]`, and `v[c+1]` holds the sum of
stage c + 1. -/
theorem synthesisSample_spec (rp : Vector Word16 8) (v : Vector Word16 9) (x : Word16) :
    (synthesisSample rp v x).1 = synthesisSignal rp v x 8 ∧
    (synthesisSample rp v x).2[0] = synthesisSignal rp v x 8 ∧
    ∀ c, c < 8 → elt (synthesisSample rp v x).2 (c + 1) = synthesisSum rp v x c := by
  have hall : AboveCoefficient rp v x 0 ((List.finRange 8).reverse.foldl (synthesisStage rp) (x, v)) := by
    rw [List.foldl_reverse]
    exact foldr_finRange_induction (AboveCoefficient rp v x) ⟨rfl, fun _ _ _ => by omega, fun _ _ => rfl⟩
      fun c _ => AboveCoefficient.stage c
  refine ⟨hall.sri, ?_, fun c hc => ?_⟩
  · exact (Vector.getElem_set_self ..).trans hall.sri
  · rw [← hall.written c (Nat.zero_le c) hc, synthesisSample, elt_set _ (by omega) _ (by omega), if_neg (by omega)]

/-- Settles O48: the signal after 8 - c stages is the value below coefficient c + 1. -/
theorem stsynthResult : Obligations.StsynthResult := by
  intro k s hk
  obtain ⟨hsri, hv0, hv⟩ := synthesisSample_spec (sub4 s.work.rrp (k2zone k.toNat)) s.dec.v (elt s.work.wt k.toNat)
  obtain ⟨_, _, hframe⟩ := stepStsynth_frame k.toNat s
  refine ⟨stepStsynth k.toNat s, runStep_of_sample hk _ s, by rw [hframe], by rw [hframe]; exact sameMemory_of_eq rfl rfl,
    fun c => synthesisSignal (sub4 s.work.rrp (k2zone k.toNat)) s.dec.v (elt s.work.wt k.toNat) (8 - c), ?top,
    fun c hc => ⟨?signal, ?sum⟩, ?sri, ?v0⟩
  case top => rfl
  case signal => exact synthesisSignal_stage _ _ _ hc
  case sum => exact hv c hc
  case sri => exact hsri
  case v0 => exact hv0

/-! ### DEEMPH and UPSCALE (R192, R193) -/

theorem toInt_deemphasised (sri msr : Word16) :
    (add sri (multR msr 28180)).toInt = clamp16 (sri.toInt + round15 (msr.toInt * 28180)) := by
  rw [toInt_add, toInt_multR_of_ne msr (by decide)]
  rfl

/-- The mask clears the bits that a shift right by 3 drops. -/
theorem and_mask_eq_shifts (x : Word16) : x &&& (0xFFF8 : Word16) = (x >>> 3) <<< 3 := by
  have hmask : ∀ i : Fin 16, (0xFFF8 : Word16).getLsbD i.val = decide (3 ≤ i.val) := by decide
  refine BitVec.eq_of_getLsbD_eq fun i hi => ?_
  rw [BitVec.getLsbD_and, hmask ⟨i, hi⟩, BitVec.getLsbD_shiftLeft, BitVec.getLsbD_ushiftRight]
  by_cases h3 : 3 ≤ i
  · rw [Nat.add_sub_cancel' h3]
    simp [h3, hi]
  · simp [h3, Nat.lt_of_not_le h3]

/-- On two's complement, clearing bits 2..0 is the floor to a multiple of 8. -/
theorem toInt_and_mask (x : Word16) : (x &&& 0xFFF8).toInt = 8 * (x.toInt / 8) := by
  have hx := x.isLt
  have hnat : (x &&& 0xFFF8).toNat = 8 * (x.toNat / 8) := by
    rw [and_mask_eq_shifts, BitVec.toNat_shiftLeft, BitVec.toNat_ushiftRight, Nat.shiftLeft_eq, Nat.shiftRight_eq_div_pow]
    omega
  rw [BitVec.toInt_eq_toNat_cond, BitVec.toInt_eq_toNat_cond, hnat]
  omega

theorem toInt_upscaled (msr : Word16) : (add msr msr &&& 0xFFF8).toInt = 8 * (clamp16 (2 * msr.toInt) / 8) := by
  rw [toInt_and_mask, toInt_add, Int.two_mul]

/-- Settles O49: 28180 is not the excluded factor of `mult_r`, and the mask is a floor. -/
theorem deemphUpscale : Obligations.DeemphUpscale := by
  intro k s hk
  refine ⟨?deemph, ?upscale⟩
  case deemph => exact ⟨stepDeemph s, rfl, rfl, sameMemory_of_eq rfl rfl, toInt_deemphasised _ _⟩
  case upscale =>
    refine ⟨stepUpscale k.toNat s, runStep_of_sample hk _ s, rfl, writeWord_sameMemoryButWord s _ _ _, ?_⟩
    rw [stepUpscale, State.readWord_writeWord, if_pos ⟨rfl, rfl⟩, toInt_upscaled]

/-! ### DECODE as the sequence of its steps (R194, R239, R241) -/

/-- A loop whose body completes wherever P holds, and keeps P, is a fold of its body. -/
theorem runAll_flatMap_of_invariant {α : Type} {body : α → List Instr} {f : State → α → State} (P : State → Prop)
    {l : List α} {s : State} (hs : P s) (h : ∀ a ∈ l, ∀ s, P s → runAll (body a) s = .next (f s a) ∧ P (f s a)) :
    runAll (l.flatMap body) s = .next (l.foldl f s) := by
  induction l generalizing s with
  | nil => rfl
  | cons a l ih =>
    obtain ⟨hrun, hkeep⟩ := h a (by simp) s hs
    rw [List.flatMap_cons, runAll_append_next hrun, List.foldl_cons]
    exact ih hkeep fun b hb => h b (by simp [hb])

/-- What lets the four sub-segments complete: the codes address entries that exist, and `nrp` is a legal lag. -/
structure SegmentsReady (s : State) : Prop where
  bc : ∀ j, (sub4 s.work.bc j).toNat < 4
  Mc : ∀ j, (sub4 s.work.Mc j).toNat < 4
  xmaxc : ∀ j, (sub4 s.work.xmaxc j).toNat < 64
  nrp : lagOk s.dec.nrp = true

theorem maskField_lt {width : Nat} (h : width ≤ 16) (x : Word16) : (maskField width x).toNat < 2 ^ width := by
  have hpos : 0 < 2 ^ width := Nat.two_pow_pos width
  have hle : 2 ^ width ≤ 2 ^ 16 := Nat.pow_le_pow_right (by omega) h
  have hand : (maskField width x).toNat ≤ (BitVec.ofNat 16 (2 ^ width - 1)).toNat := by
    rw [maskField, BitVec.toNat_and]
    exact Nat.and_le_right
  rw [BitVec.toNat_ofNat, Nat.mod_eq_of_lt (by omega)] at hand
  omega

/-- PRMMASK leaves every field within its width (R240). -/
theorem maskedRecord_lt (s : State) {n : Nat} (hn : n < 76) : ((maskedRecord s).getD n 0).toNat < 2 ^ fieldWidth n := by
  have hfield : (maskedRecord s).getD n 0 = maskField (fieldWidth n) (s.readWord .prmD n) := by
    simp [maskedRecord, tblWIDTH_eq, State.readWords, List.getD_eq_getElem?_getD, hn]
  rw [hfield]
  exact maskField_lt (by have := (fieldWidth_range hn).2; omega) _

theorem fieldWidth_sub : ∀ j : Fin 4, fieldWidth (subBase j.val + 1) = 2 ∧ fieldWidth (subBase j.val + 2) = 2 ∧
    fieldWidth (subBase j.val + 3) = 6 := by decide

theorem stepPrmmask_ready {s : State} (h : lagOk s.dec.nrp = true) : SegmentsReady (stepPrmmask s) := by
  have hlt : ∀ (j : BitVec 2) {m width : Nat}, m < 17 → fieldWidth (subBase j.toNat + m) = width →
      ((maskedRecord s).getD (subBase j.toNat + m) 0).toNat < 2 ^ width := by
    rintro j m _ hm rfl
    exact maskedRecord_lt s (by have := j.isLt; unfold subBase; omega)
  refine ⟨fun j => ?_, fun j => ?_, fun j => ?_, h⟩
  all_goals
    obtain ⟨hbc, hMc, hxmaxc⟩ := fieldWidth_sub ⟨j.toNat, j.isLt⟩
    simp only [stepPrmmask, onWork_work, loadRecord, sub4, Vector.getElem_ofFn]
  · exact hlt j (by omega) hbc
  · exact hlt j (by omega) hMc
  · exact hlt j (by omega) hxmaxc

theorem toInt_nonneg_of_lt {x : Word16} (h : x.toNat < 64) : 0 ≤ x.toInt := by
  rw [BitVec.toInt_eq_toNat_cond]
  omega

theorem exec_apcminv_of_lt {j : BitVec 2} {s : State} (h : s.work.mant.toNat < 8) :
    exec (.apcminv j) s = .next (stepApcminv j s) :=
  runStep_next.mpr ⟨decide_eq_true h, rfl⟩

theorem exec_gridpos_of_lt {side : Side} {j : BitVec 2} {s : State} (h : (sub4 s.work.Mc j).toNat < 4) :
    exec (.gridpos side j) s = .next (stepGridpos side j s) :=
  runStep_next.mpr ⟨decide_eq_true h, rfl⟩

theorem exec_ltpsynth_of_lt {j : BitVec 2} {s : State} (hnrp : lagOk s.dec.nrp = true)
    (hbc : (sub4 s.work.bc j).toNat < 4) : exec (.ltpsynth j) s = .next (stepLtpsynth j s) :=
  runStep_next.mpr ⟨Bool.and_eq_true_iff.mpr ⟨lagOk_saneLag hnrp, decide_eq_true hbc⟩, rfl⟩

/-- EXPMANT leaves a `mant` that has an entry in the tables, on a code within its width (R213). -/
theorem stepExpmant_mant_lt {j : BitVec 2} {s : State} (h : (sub4 s.work.xmaxc j).toNat < 64) :
    (stepExpmant j s).work.mant.toNat < 8 := by
  have hindex : indexOk (expMant (sub4 s.work.xmaxc j)).2 8 = true :=
    eq_true_of_ne_false fun hf => absurd (indexOk_expMant_eq_false.mp hf) (not_lt.mpr (toInt_nonneg_of_lt h))
  exact of_decide_eq_true hindex

theorem SegmentsReady.expmant {s : State} (h : SegmentsReady s) (j : BitVec 2) : SegmentsReady (stepExpmant j s) := by
  obtain ⟨_, _, hframe⟩ := stepExpmant_frame j s
  rw [hframe]
  exact ⟨h.bc, h.Mc, h.xmaxc, h.nrp⟩

theorem SegmentsReady.apcminv {s : State} (h : SegmentsReady s) (j : BitVec 2) : SegmentsReady (stepApcminv j s) := by
  obtain ⟨_, _, _, _, _, hframe⟩ := stepApcminv_frame j s
  rw [hframe]
  exact ⟨h.bc, h.Mc, h.xmaxc, h.nrp⟩

theorem SegmentsReady.gridpos {s : State} (h : SegmentsReady s) (j : BitVec 2) : SegmentsReady (stepGridpos .dec j s) := by
  obtain ⟨_, hframe⟩ := stepGridpos_frame .dec j s
  rw [hframe]
  exact ⟨h.bc, h.Mc, h.xmaxc, h.nrp⟩

theorem SegmentsReady.ltpsynth {s : State} (h : SegmentsReady s) (j : BitVec 2) : SegmentsReady (stepLtpsynth j s) := by
  obtain ⟨_, _, _, _, _, _, hframe⟩ := stepLtpsynth_frame j s
  rw [hframe]
  exact ⟨h.bc, h.Mc, h.xmaxc, lagOk_saneLag h.nrp⟩

/-- The steps of a sub-segment run where the codes and `nrp` are in range, and keep them there (R241). -/
theorem runAll_decodeSegmentProgram (j : BitVec 2) {s : State} (h : SegmentsReady s) :
    runAll (decodeSegmentProgram j) s = .next (decodeSegment s j) ∧ SegmentsReady (decodeSegment s j) := by
  have hexpmant : exec (.expmant j) s = .next (stepExpmant j s) := rfl
  have hpulses := (h.expmant j).apcminv j
  have hplaced := hpulses.gridpos j
  refine ⟨?_, hplaced.ltpsynth j⟩
  rw [decodeSegmentProgram, runAll_cons hexpmant, runAll_cons (exec_apcminv_of_lt (stepExpmant_mant_lt (h.xmaxc j))),
    runAll_cons (exec_gridpos_of_lt (hpulses.Mc j)), runAll_cons (exec_ltpsynth_of_lt hplaced.nrp (hplaced.bc j))]
  rfl

/-- The steps of a sample run for every sample index (R194). -/
theorem runAll_synthesisProgram {k : Nat} (hk : k < 160) (s : State) :
    runAll (synthesisProgram k) s = .next (synthesizeSample s k) := by
  have hnat : (BitVec.ofNat 8 k).toNat = k := Nat.mod_eq_of_lt (by omega)
  have hok : (BitVec.ofNat 8 k).toNat < 160 := by omega
  have hstsynth : exec (.stsynth (BitVec.ofNat 8 k)) s = .next (stepStsynth k s) := by
    refine (runStep_of_sample hok _ s).trans ?_
    rw [hnat]
  have hdeemph : exec .deemph (stepStsynth k s) = .next (stepDeemph (stepStsynth k s)) := rfl
  have hupscale : exec (.upscale (BitVec.ofNat 8 k)) (stepDeemph (stepStsynth k s)) = .next (synthesizeSample s k) := by
    refine (runStep_of_sample hok _ _).trans ?_
    rw [hnat]
    rfl
  rw [synthesisProgram, runAll_cons hstsynth, runAll_cons hdeemph, runAll_cons hupscale]
  rfl

/-- From a legal `nrp` the steps of DECODE all complete and leave what its effect leaves. -/
theorem runAll_decodeProgram {s : State} (h : lagOk s.dec.nrp = true) :
    runAll decodeProgram s = .next (decodeSteps s) := by
  have hprmmask : runAll [.prmmask] s = .next (stepPrmmask s) := rfl
  have hsegments := runAll_flatMap_of_invariant (l := quarters) SegmentsReady (stepPrmmask_ready h)
    fun j _ _ hs => runAll_decodeSegmentProgram j hs
  have hdecoderefl : ∀ t, runAll [.decoderefl .dec] t = .next (stepDecoderefl .dec t) := fun _ => rfl
  have hsamples := runAll_flatMap synthesisProgram synthesizeSample (List.range 160)
    fun k hk => runAll_synthesisProgram (List.mem_range.mp hk)
  simp only [decodeProgram, List.append_assoc]
  rw [runAll_append_next hprmmask, runAll_append_next hsegments, runAll_append_next (hdecoderefl _),
    runAll_append_next (hsamples _)]
  rfl

/-- The effect neither reads nor writes the flags. -/
def IgnoresFlags (f : State → State) : Prop := ∀ s g, f { s with flags := g } = { f s with flags := g }

theorem IgnoresFlags.comp {f g : State → State} (hg : IgnoresFlags g) (hf : IgnoresFlags f) :
    IgnoresFlags fun s => g (f s) := fun s flags => by
  show g (f { s with flags := flags }) = _
  rw [hf, hg]

theorem IgnoresFlags.foldl {α : Type} {f : State → α → State} (l : List α) (h : ∀ a, IgnoresFlags fun s => f s a) :
    IgnoresFlags fun s => l.foldl f s := by
  induction l with
  | nil => exact fun _ _ => rfl
  | cons a l ih => exact ih.comp (h a)

/-- DECODE's five steps (R239), none of which looks at the flags. -/
theorem decodeSteps_ignoresFlags : IgnoresFlags decodeSteps :=
  have prmmask : IgnoresFlags stepPrmmask := fun _ _ => rfl
  have segments := IgnoresFlags.foldl (f := decodeSegment) quarters fun _ _ _ => rfl
  have decoderefl : IgnoresFlags (stepDecoderefl .dec) := fun _ _ => rfl
  have samples := IgnoresFlags.foldl (f := synthesizeSample) (List.range 160) fun _ _ _ => rfl
  have larrot : IgnoresFlags stepLarrotDec := fun _ _ => rfl
  larrot.comp <| samples.comp <| decoderefl.comp <| segments.comp prmmask

theorem decodeSteps_startCommand (s : State) :
    decodeSteps (startCommand s) = { decodeSteps s with flags := (startCommand s).flags } :=
  decodeSteps_ignoresFlags s _

theorem execDecode_of_lagOk {s : State} (h : lagOk s.dec.nrp = true) :
    execDecode s = .next (finishCommand (dropWork (decodeSteps (startCommand s)))) :=
  if_pos h

/-- What a command leaves whose effect, the working values dropped, is u but for the flags (R230). -/
theorem finishCommand_dropWork (s u : State) :
    finishCommand (dropWork { u with flags := (startCommand s).flags }) =
      { u with work := Work.blank, flags := doneFlags s.flags } := rfl

/-- DECODE runs its effect from a legal `nrp`, the working values gone at its end. -/
theorem exec_decode_of_lagOk {s : State} (h : lagOk s.dec.nrp = true) :
    exec .decode s = .next { decodeSteps s with work := Work.blank, flags := doneFlags s.flags } := by
  have hexec : exec .decode s = execDecode s := rfl
  rw [hexec, execDecode_of_lagOk h, decodeSteps_startCommand, finishCommand_dropWork]

/-- Settles O20: the command is its steps run one after another, and its own flag updates do not reach them. -/
theorem decodeIsItsSteps : Obligations.DecodeIsItsSteps := by
  intro s hlow hhigh
  have hlag : lagOk s.dec.nrp = true := Bool.and_eq_true_iff.mpr ⟨decide_eq_true hlow, decide_eq_true hhigh⟩
  have hcommand := exec_decode_of_lagOk hlag
  have hsteps := runAll_decodeProgram hlag
  generalize decodeSteps s = u at hcommand hsteps
  exact ⟨_, u, hcommand, hsteps, rfl, sameMemory_of_eq rfl rfl⟩

end Sys2Proof.ShortTermFilters

/-! PROOFS. The lag search of long-term prediction (45_ltp.md R200): the scale that keeps the sums within int32, the search by
strict comparison, and the coding of the gain, over exact integers. -/

namespace Sys2Proof.LagSearch

open Sys2Proof Sys2Proof.Machine Sys2Proof.Safety Sys2Proof.Addressing Sys2Proof.LpcAnalysis

/-! ### The scale (R200 part 1) -/

/-- `norm` of a positive maximum in the upper half of an int32 value. -/
theorem toInt_searchNorm {dmax : Word16} (hpos : 0 < dmax.toInt) :
    (searchNorm dmax).toInt = 14 - Nat.log2 dmax.toInt.toNat := by
  obtain ⟨hlog, hnorm⟩ := normalised_of_log2 hpos (toInt_range16 dmax).2
  obtain ⟨hval, -, hspec, -⟩ := norm_spec (L := lShl (sext dmax) 16) (by rw [toInt_lShl_sixteen]; omega)
  rw [toInt_lShl_sixteen] at hval hspec
  have hcount := normalised_unique (by omega) hspec hnorm
  rw [searchNorm, if_neg (by omega), hval, hcount]
  omega

theorem toInt_searchScale {dmax : Word16} (h0 : 0 ≤ dmax.toInt) :
    (searchScale dmax).toInt = searchShift dmax.toInt := by
  have h6 : (6 : Word16).toInt = 6 := rfl
  unfold searchScale searchShift
  by_cases hzero : dmax.toInt = 0
  · have hnorm : searchNorm dmax = 0 := if_pos hzero
    rw [hnorm, if_pos hzero]
    rfl
  · have hne : dmax.toInt.toNat ≠ 0 := by omega
    have hlog8 := Nat.log2_lt (k := 8) hne
    have hlog := (normalised_of_log2 (x := dmax.toInt) (by omega) (toInt_range16 dmax).2).1
    rw [if_neg hzero, toInt_searchNorm (by omega)]
    by_cases hsmall : dmax.toInt < 256
    · rw [if_pos hsmall, if_pos (by omega)]
      rfl
    · rw [if_neg hsmall, if_neg (by omega), toInt_sub, h6, toInt_searchNorm (by omega), clamp16_id (by omega) (by omega)]
      omega

/-- The scale is at most 6 and brings the largest magnitude below 2^9. -/
theorem searchShift_range {d : Int} (h0 : 0 ≤ d) (hd : d ≤ 32767) :
    searchShift d ≤ 6 ∧ d < 512 * 2 ^ searchShift d := by
  unfold searchShift
  split
  · next hzero => exact ⟨le_refl _, by rw [hzero]; norm_num⟩
  · split
    · next hsmall => exact ⟨by omega, by norm_num; omega⟩
    · next hzero hsmall =>
      have hlog := (normalised_of_log2 (x := d) (by omega) hd).1
      have hlow : 8 ≤ Nat.log2 d.toNat := (Nat.le_log2 (by omega)).mpr (by omega)
      have hlt : d.toNat < 2 ^ (Nat.log2 d.toNat + 1) := Nat.lt_log2_self
      refine ⟨by omega, ?_⟩
      calc d < 2 ^ (Nat.log2 d.toNat + 1) := by zify at hlt; omega
        _ = 2 ^ (9 + (Nat.log2 d.toNat - 8)) := by congr 1; omega
        _ = 512 * 2 ^ (Nat.log2 d.toNat - 8) := by rw [pow_add]; norm_num

/-- A scaled sample is at most 2^9 in magnitude. -/
theorem scaled_range {x dmax : Int} {n : Nat} (hx : -32768 ≤ x) (hmag : mag x ≤ dmax) (hd : dmax < 512 * 2 ^ n) :
    |x / 2 ^ n| ≤ 512 := by
  have hp : (0 : Int) < 2 ^ n := by positivity
  have hrange : -(512 * 2 ^ n) ≤ x ∧ x < 512 * 2 ^ n := by
    unfold mag at hmag
    split at hmag <;> omega
  rw [abs_le]
  constructor
  · rw [Int.le_ediv_iff_mul_le hp]; linarith
  · exact (Int.ediv_lt_of_lt_mul hp hrange.2).le

/-! ### Sums over a sub-segment (R200 parts 2 and 4) -/

theorem elt_subSegment (d : Vector Word16 160) (j : BitVec 2) {k : Nat} (hk : k < 40) :
    elt (subSegment d j) k = elt d (40 * j.toNat + k) := elt_ofFn _ hk

theorem sumTo_congr {n : Nat} {f g : Nat → Int} (h : ∀ k, k < n → f k = g k) : sumTo n f = sumTo n g := by
  rw [sumTo, sumTo, List.map_congr_left fun k hk => h k (List.mem_range.mp hk)]

theorem val_range {n : Nat} (v : Vector Word16 n) (k : Nat) : -32768 ≤ val v k ∧ val v k ≤ 32767 := toInt_range16 _

/-- Forty products of at most 2^24 add up without saturation. -/
theorem toInt_macSum_zip {v w : Vector Word16 40} (h : ∀ k, k < 40 → |val v k * val w k| ≤ 16777216) :
    (macSum 0 (v.toList.zip w.toList)).toInt = 2 * sumTo 40 fun k => val v k * val w k := by
  have hpairs : (v.toList.zip w.toList).map (fun p => p.1.toInt * p.2.toInt) =
      (List.range 40).map fun k => val v k * val w k := by
    refine List.ext_getElem (by simp) fun k h1 h2 => ?_
    have hk : k < 40 := by simpa using h2
    simp [val, elt_eq _ hk]
  have hterm : ∀ p ∈ v.toList.zip w.toList, |2 * (p.1.toInt * p.2.toInt)| ≤ 33554432 := by
    intro p hp
    have hmem := List.mem_map_of_mem (f := fun p : Word16 × Word16 => p.1.toInt * p.2.toInt) hp
    rw [hpairs] at hmem
    obtain ⟨k, hk, heq⟩ := List.mem_map.mp hmem
    have hbound := h k (List.mem_range.mp hk)
    rw [heq] at hbound
    rw [abs_mul, abs_two]
    omega
  have h0 : (0 : Word32).toInt = 0 := rfl
  have hlen : (v.toList.zip w.toList).length = 40 := by simp
  rw [toInt_macSum hterm (by norm_num) (by rw [h0, hlen]; norm_num), h0, zero_add, sumTo, ← hpairs, List.sum_map_mul_left]

/-- The maximal magnitude of a sub-segment (R200 part 1). -/
def segmentMax (j : BitVec 2) (s : State) : Word16 := maxAbs (subSegment s.work.d j).toList

/-- The scaled samples of a sub-segment (R200 part 1). -/
def searchSamples (j : BitVec 2) (s : State) : Vector Word16 40 :=
  Vector.ofFn fun k : Fin 40 => shr16 (subSegment s.work.d j)[k] (searchScale (segmentMax j s))

theorem segmentMax_isMax (j : BitVec 2) (s : State) :
    IsMax 40 (fun k => mag (val s.work.d (40 * j.toNat + k))) (segmentMax j s).toInt := by
  have hval : ∀ k, k < 40 → val (subSegment s.work.d j) k = val s.work.d (40 * j.toNat + k) := fun k hk =>
    congrArg BitVec.toInt (elt_subSegment s.work.d j hk)
  obtain ⟨h0, hle, hmax⟩ := isMax_maxAbs (subSegment s.work.d j)
  rw [segmentMax]
  refine ⟨h0, fun k hk => by simpa only [hval k hk] using hle k hk, hmax.imp_right ?_⟩
  rintro ⟨k, hk, heq⟩
  exact ⟨k, hk, by simpa only [hval k hk] using heq⟩

theorem val_searchSamples (j : BitVec 2) (s : State) {k : Nat} (hk : k < 40) :
    val (searchSamples j s) k = val s.work.d (40 * j.toNat + k) / 2 ^ searchShift (segmentMax j s).toInt := by
  have hscale := toInt_searchScale (segmentMax_isMax j s).1
  rw [val, searchSamples, elt_ofFn _ hk, toInt_shr16 (by omega), hscale, Int.toNat_natCast, val, ← elt_subSegment _ _ hk,
    elt_eq _ hk]
  rfl

theorem abs_val_searchSamples_le (j : BitVec 2) (s : State) {k : Nat} (hk : k < 40) :
    |val (searchSamples j s) k| ≤ 512 := by
  obtain ⟨h0, hle, -⟩ := segmentMax_isMax j s
  rw [val_searchSamples j s hk]
  exact scaled_range (val_range _ _).1 (hle k hk) (searchShift_range h0 (toInt_range16 _).2).2

/-- The history samples of a lag are those of R200, one by one. -/
theorem lagWindow_eq (dp : Vector Word16 120) {lag : Nat} (hlow : 40 ≤ lag) (hhigh : lag ≤ 120) :
    lagWindow dp lag = (Vector.ofFn fun k : Fin 40 => elt dp (120 + k.val - lag)).toList := by
  have hlen : (lagWindow dp lag).length = 40 := by simp [lagWindow]; omega
  refine List.ext_getElem (by simp [hlen]) fun k h1 h2 => ?_
  have hk : 120 + k - lag < 120 := by simp at h2; omega
  have hindex : 120 - lag + k = 120 + k - lag := by omega
  simp [lagWindow, elt_eq _ hk, hindex]

/-- No sum of the search saturates: 40 terms of at most 2^25 (R200 part 2). -/
theorem toInt_correlation (j : BitVec 2) (s : State) {lag : Nat} (hlow : 40 ≤ lag) (hhigh : lag ≤ 120) :
    (correlation (searchSamples j s).toList s.enc.dp lag).toInt =
      lagSum s j (searchShift (segmentMax j s).toInt) lag := by
  have hwindow : ∀ k, k < 40 →
      val (Vector.ofFn fun k : Fin 40 => elt s.enc.dp (120 + k.val - lag)) k = val s.enc.dp (120 + k - lag) := fun k hk =>
    congrArg BitVec.toInt (elt_ofFn _ hk)
  rw [correlation, lagWindow_eq _ hlow hhigh, toInt_macSum_zip fun k hk => ?bound, lagSum, sumTo_congr fun k hk => ?term]
  case bound =>
    have hdp : |val s.enc.dp (120 + k - lag)| ≤ 32768 := abs_le.mpr (by have := val_range s.enc.dp (120 + k - lag); omega)
    rw [hwindow k hk, abs_mul]
    exact (mul_le_mul (abs_val_searchSamples_le j s hk) hdp (abs_nonneg _) (by norm_num)).trans (by norm_num)
  case term => rw [hwindow k hk, val_searchSamples j s hk]

/-- The history segment at a lag, shifted right by 3 (R200 part 4). -/
def lagSegment (dp : Vector Word16 120) (lag : Word16) : Vector Word16 40 :=
  Vector.ofFn fun k : Fin 40 => shr16 (hist dp k.val lag) 3

/-- The energy of the segment is exact: 40 terms of at most 2^25 (R200 part 4). -/
theorem toInt_lagEnergy (dp : Vector Word16 120) (lag : Word16) :
    (macSum 0 ((lagSegment dp lag).toList.zip (lagSegment dp lag).toList)).toInt =
      2 * sumTo 40 fun k => val dp (120 + k - lag.toNat) / 8 * (val dp (120 + k - lag.toNat) / 8) := by
  have hsegment : ∀ k, k < 40 → val (lagSegment dp lag) k = val dp (120 + k - lag.toNat) / 8 := fun k hk => by
    rw [val, lagSegment, elt_ofFn _ hk, toInt_shr16_three]
    rfl
  rw [toInt_macSum_zip fun k hk => ?bound, sumTo_congr fun k hk => ?term]
  case bound =>
    have hseg : |val (lagSegment dp lag) k| ≤ 4096 := by
      rw [hsegment k hk, abs_le]
      have := val_range dp (120 + k - lag.toNat)
      omega
    rw [abs_mul]
    exact (mul_le_mul hseg hseg (abs_nonneg _) (by norm_num)).trans (by norm_num)
  case term => rw [hsegment k hk]

/-! ### The search (R200 part 2) -/

/-- What a search by strict comparison over the lags from 40 up to below `hi` has found: nothing where no value is positive, else
the smallest lag of largest value. -/
def Found (f : Nat → Word32) (hi : Nat) (best : Word16 × Word32) : Prop :=
  (best = (40, 0) ∧ ∀ lag, 40 ≤ lag → lag < hi → (f lag).toInt ≤ 0) ∨
  ∃ N, 40 ≤ N ∧ N < hi ∧ best = (BitVec.ofNat 16 N, f N) ∧ 0 < (f N).toInt ∧
    (∀ lag, 40 ≤ lag → lag < hi → (f lag).toInt ≤ (f N).toInt) ∧ ∀ lag, 40 ≤ lag → lag < N → (f lag).toInt < (f N).toInt

/-- Where nothing is found the largest value so far is 0, else the value found; both bound all values so far. -/
theorem Found.bound {f : Nat → Word32} {hi : Nat} {best : Word16 × Word32} (h : Found f hi best) :
    0 ≤ best.2.toInt ∧ ∀ lag, 40 ≤ lag → lag < hi → (f lag).toInt ≤ best.2.toInt := by
  rcases h with ⟨rfl, hnone⟩ | ⟨N, -, -, rfl, hpos, hmax, -⟩
  · exact ⟨le_refl _, hnone⟩
  · exact ⟨hpos.le, hmax⟩

/-- One more lag: it is taken where its value is larger than all before. -/
theorem Found.next {f : Nat → Word32} {hi : Nat} {best : Word16 × Word32} (hhi : 40 ≤ hi) (h : Found f hi best) :
    Found f (hi + 1) (if (f hi).toInt > best.2.toInt then (BitVec.ofNat 16 hi, f hi) else best) := by
  obtain ⟨h0, hbound⟩ := h.bound
  split
  · next hlarger =>
    refine .inr ⟨hi, hhi, by omega, rfl, by omega, fun lag hlow hlt => ?_, fun lag hlow hlt => ?_⟩
    · rcases Nat.lt_succ_iff_lt_or_eq.mp hlt with hbelow | rfl
      · exact (hbound lag hlow hbelow).trans hlarger.le
      · exact le_refl _
    · exact (hbound lag hlow hlt).trans_lt hlarger
  · next hnot =>
    rcases h with ⟨rfl, hnone⟩ | ⟨N, hN, hNhi, rfl, hpos, hmax, hfirst⟩
    · refine .inl ⟨rfl, fun lag hlow hlt => ?_⟩
      rcases Nat.lt_succ_iff_lt_or_eq.mp hlt with hbelow | rfl
      · exact hnone lag hlow hbelow
      · exact not_lt.mp hnot
    · refine .inr ⟨N, hN, by omega, rfl, hpos, fun lag hlow hlt => ?_, hfirst⟩
      rcases Nat.lt_succ_iff_lt_or_eq.mp hlt with hbelow | rfl
      · exact hmax lag hlow hbelow
      · exact not_lt.mp hnot

theorem searchLag_found (wt : List Word16) (dp : Vector Word16 120) :
    Found (correlation wt dp) 121 (searchLag wt dp) := by
  have hloop : ∀ n, Found (correlation wt dp) (40 + n) ((List.range n).foldl (fun best i =>
      let L := correlation wt dp (40 + i)
      if L.toInt > best.2.toInt then (BitVec.ofNat 16 (40 + i), L) else best) (40, 0)) := by
    intro n
    induction n with
    | zero => exact .inl ⟨rfl, fun lag hlow hlt => by omega⟩
    | succ n ih =>
      rw [List.range_succ, List.foldl_append]
      exact ih.next (Nat.le_add_right 40 n)
  exact hloop 81

/-- The lag found is a legal one (R248). -/
theorem searchLag_range (wt : List Word16) (dp : Vector Word16 120) :
    40 ≤ (searchLag wt dp).1.toNat ∧ (searchLag wt dp).1.toNat ≤ 120 := by
  rcases searchLag_found wt dp with ⟨hbest, -⟩ | ⟨N, hlow, hhigh, hbest, -⟩
  · rw [hbest]; decide
  · rw [hbest, BitVec.toNat_ofNat]; omega

/-- The lag found, in the words of R200, with the maximum that goes with it. -/
theorem searchLag_spec {wt : List Word16} {dp : Vector Word16 120} {g : Nat → Int}
    (hg : ∀ lag, 40 ≤ lag → lag ≤ 120 → (correlation wt dp lag).toInt = g lag) :
    ((∀ lag, 40 ≤ lag → lag ≤ 120 → g lag ≤ 0) → (searchLag wt dp).1.toNat = 40) ∧
    ((∃ lag, 40 ≤ lag ∧ lag ≤ 120 ∧ 0 < g lag) →
      0 < g (searchLag wt dp).1.toNat ∧
      (∀ lag, 40 ≤ lag → lag ≤ 120 → g lag ≤ g (searchLag wt dp).1.toNat) ∧
      ∀ lag, 40 ≤ lag → lag < (searchLag wt dp).1.toNat → g lag < g (searchLag wt dp).1.toNat) ∧
    (searchLag wt dp).2.toInt = max 0 (g (searchLag wt dp).1.toNat) := by
  rcases searchLag_found wt dp with ⟨hbest, hnone⟩ | ⟨N, hlow, hhigh, hbest, hpos, hmax, hfirst⟩
  · have hnone' : ∀ lag, 40 ≤ lag → lag ≤ 120 → g lag ≤ 0 := fun lag hl hh => by
      rw [← hg lag hl hh]
      exact hnone lag hl (by omega)
    have h40 : (40 : Word16).toNat = 40 := rfl
    have h0 : (0 : Word32).toInt = 0 := rfl
    rw [hbest]
    refine ⟨fun _ => h40, ?_, ?_⟩
    · rintro ⟨lag, hl, hh, hlag⟩
      exact absurd (hnone' lag hl hh) (not_le.mpr hlag)
    · rw [h40, h0, max_eq_left (hnone' 40 (by omega) (by omega))]
  · have hN : (BitVec.ofNat 16 N).toNat = N := by rw [BitVec.toNat_ofNat]; omega
    rw [hg N hlow (by omega)] at hpos hmax hfirst
    rw [hbest]
    dsimp only
    rw [hN, hg N hlow (by omega)]
    refine ⟨fun hnone => absurd (hnone N hlow (by omega)) (not_le.mpr hpos), fun _ => ⟨hpos, fun lag hl hh => ?_,
      fun lag hl hlt => ?_⟩, (max_eq_right hpos.le).symm⟩
    · rw [← hg lag hl hh]
      exact hmax lag hl (by omega)
    · rw [← hg lag hl (by omega)]
      exact hfirst lag hl hlt

/-! ### The gain (R200 part 5) -/

/-- The gain code that part 5 of R200 writes. -/
def codedGain (Lmax Lpower : Word32) : Word16 :=
  if Lmax.toInt ≤ 0 then 0
  else if Lmax.toInt ≥ Lpower.toInt then 3
  else gainCode (narrow (lShr (lShl Lmax (norm Lpower)) 16)) (narrow (lShr (lShl Lpower (norm Lpower)) 16))

@[simp] theorem searchGain_dmax (j : BitVec 2) (Lmax Lpower : Word32) (w : Work) :
    (searchGain j Lmax Lpower w).dmax = w.dmax := by
  obtain ⟨_, _, _, _, h⟩ := searchGain_frame j Lmax Lpower w
  rw [h]

@[simp] theorem searchGain_Nc (j : BitVec 2) (Lmax Lpower : Word32) (w : Work) :
    (searchGain j Lmax Lpower w).Nc = w.Nc := by
  obtain ⟨_, _, _, _, h⟩ := searchGain_frame j Lmax Lpower w
  rw [h]

@[simp] theorem searchGain_bc (j : BitVec 2) (Lmax Lpower : Word32) (w : Work) :
    (searchGain j Lmax Lpower w).bc = set4 w.bc j (codedGain Lmax Lpower) := by
  unfold searchGain codedGain
  split
  · rfl
  · split <;> rfl

/-- The upper half of a value after n doublings that do not saturate. -/
theorem toInt_upperHalf {L : Word32} {count : Word16} {n : Nat} (hcount : count.toInt = n) (h0 : 0 ≤ L.toInt)
    (h : L.toInt * 2 ^ n ≤ 2147483647) : (narrow (lShr (lShl L count) 16)).toInt = L.toInt * 2 ^ n / 65536 := by
  have hp : 0 ≤ L.toInt * 2 ^ n := by positivity
  rw [toInt_narrow, toInt_lShr_sixteen, toInt_lShl (by omega), hcount, Int.toNat_natCast, clamp32_id (by omega) h,
    clamp16_id (by omega) (by omega)]

/-- The decision levels of R201. -/
theorem toNat_gainCode (R S : Word16) :
    (gainCode R S).toNat =
      if R.toInt ≤ S.toInt * 6554 / 32768 then 0
      else if R.toInt ≤ S.toInt * 16384 / 32768 then 1
      else if R.toInt ≤ S.toInt * 26214 / 32768 then 2
      else 3 := by
  have hlevels : tblDLB[0].toInt = 6554 ∧ tblDLB[1].toInt = 16384 ∧ tblDLB[2].toInt = 26214 := by decide
  obtain ⟨h0, h1, h2⟩ := hlevels
  have hmult : ∀ {level : Word16} {x : Int}, level.toInt = x → x ≠ -32768 → (mult S level).toInt = S.toInt * x / 32768 := by
    rintro level _ rfl hne
    rw [toInt_mult, if_neg fun h => hne h.2]
  simp only [gainCode, apply_ite BitVec.toNat, hmult h0 (by omega), hmult h1 (by omega), hmult h2 (by omega)]
  rfl

theorem codedGain_lt (Lmax Lpower : Word32) : (codedGain Lmax Lpower).toNat < 4 := by
  unfold codedGain
  split
  · decide
  · split
    · decide
    · rw [toNat_gainCode]
      repeat' split
      all_goals omega

/-- Between the early exits the gain is coded by the levels after the normalisation of the energy. -/
theorem toNat_codedGain_of_lt {Lmax Lpower : Word32} (hpos : 0 < Lmax.toInt) (hlt : Lmax.toInt < Lpower.toInt) {n : Nat}
    (hn : Normalised (Lpower.toInt * 2 ^ n)) :
    (codedGain Lmax Lpower).toNat =
      if Lmax.toInt * 2 ^ n / 65536 ≤ Lpower.toInt * 2 ^ n / 65536 * 6554 / 32768 then 0
      else if Lmax.toInt * 2 ^ n / 65536 ≤ Lpower.toInt * 2 ^ n / 65536 * 16384 / 32768 then 1
      else if Lmax.toInt * 2 ^ n / 65536 ≤ Lpower.toInt * 2 ^ n / 65536 * 26214 / 32768 then 2
      else 3 := by
  obtain ⟨hcount, -, hspec, -⟩ := norm_spec (L := Lpower) (by omega)
  rw [normalised_unique (by omega) hspec hn] at hcount
  have hp : (0 : Int) < 2 ^ n := by positivity
  have hpower : Lpower.toInt * 2 ^ n ≤ 2147483647 := by
    have : 0 < Lpower.toInt * 2 ^ n := by have := hpos.trans hlt; positivity
    unfold Normalised at hn
    omega
  have hmax : Lmax.toInt * 2 ^ n ≤ 2147483647 := (Int.mul_le_mul_of_nonneg_right hlt.le hp.le).trans hpower
  rw [codedGain, if_neg (by omega), if_neg (by omega), toNat_gainCode, toInt_upperHalf hcount hpos.le hmax,
    toInt_upperHalf hcount (by omega) hpower]

/-! ### LTPSEARCH as a whole -/

/-- Lag and maximum that the search of a sub-segment finds. -/
def bestLag (j : BitVec 2) (s : State) : Word16 × Word32 := searchLag (searchSamples j s).toList s.enc.dp

/-- The maximum in the scale of the energy (R200 part 3). -/
def rescaledMax (j : BitVec 2) (s : State) : Word32 := lShr (bestLag j s).2 (sub 6 (searchScale (segmentMax j s)))

/-- The energy of the history segment at the lag found (R200 part 4). -/
def lagPower (j : BitVec 2) (s : State) : Word32 :=
  macSum 0 ((lagSegment s.enc.dp (bestLag j s).1).toList.zip (lagSegment s.enc.dp (bestLag j s).1).toList)

/-- What LTPSEARCH leaves in `dmax` and the two codes. -/
theorem stepLtpsearch_values (j : BitVec 2) (s : State) :
    (stepLtpsearch j s).work.dmax = segmentMax j s ∧
    (stepLtpsearch j s).work.Nc = set4 s.work.Nc j (bestLag j s).1 ∧
    (stepLtpsearch j s).work.bc = set4 s.work.bc j (codedGain (rescaledMax j s) (lagPower j s)) := by
  refine ⟨?_, ?_, ?_⟩ <;>
    simp only [stepLtpsearch, rescaledMax, lagPower, bestLag, lagSegment, searchSamples, segmentMax, onWork_work,
      searchGain_dmax, searchGain_Nc, searchGain_bc]

theorem toInt_rescaledMax (j : BitVec 2) (s : State) :
    (rescaledMax j s).toInt =
      max 0 (lagSum s j (searchShift (segmentMax j s).toInt) (bestLag j s).1.toNat) /
        2 ^ (6 - searchShift (segmentMax j s).toInt) := by
  have h0 := (segmentMax_isMax j s).1
  have hshift := (searchShift_range h0 (toInt_range16 _).2).1
  have h6 : (6 : Word16).toInt = 6 := rfl
  have hcount : (sub 6 (searchScale (segmentMax j s))).toInt = ((6 - searchShift (segmentMax j s).toInt : Nat) : Int) := by
    rw [toInt_sub, toInt_searchScale h0, h6, clamp16_id (by omega) (by omega)]
    omega
  rw [rescaledMax, toInt_lShr (by omega), hcount, Int.toNat_natCast, bestLag,
    (searchLag_spec fun lag => toInt_correlation j s).2.2]

/-- Settles O50: the scale keeps every sum exact, so the search and the coding of the gain compare exact values. -/
theorem ltpsearchResult : Obligations.LtpsearchResult := by
  intro j s
  obtain ⟨hdmax, hNc, hbc⟩ := stepLtpsearch_values j s
  obtain ⟨_, _, _, _, _, _, _, _, _, _, _, _, hframe⟩ := stepLtpsearch_frame j s
  obtain ⟨hlow, hhigh⟩ := searchLag_range (searchSamples j s).toList s.enc.dp
  obtain ⟨hnone, hsome, -⟩ := searchLag_spec fun lag => toInt_correlation j s (lag := lag)
  have hmost := toInt_rescaledMax j s
  have hpower : (lagPower j s).toInt = _ := toInt_lagEnergy s.enc.dp (bestLag j s).1
  refine ⟨stepLtpsearch j s, rfl, by rw [hframe], by rw [hframe]; exact sameMemory_of_eq rfl rfl, fun m hm => ?others,
    hdmax ▸ segmentMax_isMax j s, ?_⟩
  case others =>
    rw [hNc, hbc]
    exact ⟨getElem_set4_ne _ j _ m.isLt hm, getElem_set4_ne _ j _ m.isLt hm⟩
  · rw [hdmax, hNc, hbc, sub4_set4, sub4_set4]
    dsimp only
    rw [← hmost, ← hpower]
    refine ⟨hlow, hhigh, hnone, hsome, fun hle => ?zero, fun hpos hle => ?three, fun hpos hlt n hn => ?levels⟩
    case zero => rw [codedGain, if_pos hle]; rfl
    case three => rw [codedGain, if_neg (by omega), if_pos hle]; rfl
    case levels => exact toNat_codedGain_of_lt hpos hlt hn

end Sys2Proof.LagSearch

/-! PROOFS. Long-term prediction (45_ltp.md R202 to R205): prediction and synthesis from a history, and the move of a history. -/

namespace Sys2Proof.LongTermPrediction

open Sys2Proof Sys2Proof.Machine Sys2Proof.Safety Sys2Proof.Addressing Sys2Proof.LpcAnalysis

/-! ### Prediction from a history (R201, R202, R205) -/

/-- The table of R201 as integers; no entry is the excluded factor of `mult_r`. -/
theorem toInt_entry_tblQLB {bc : Word16} (h : bc.toNat < 4) :
    (entry tblQLB bc).toInt = [3277, 11469, 21299, 32767].getD bc.toNat 0 ∧ (entry tblQLB bc).toInt ≠ -32768 := by
  have htable : ∀ i : Fin 4, (elt tblQLB i.val).toInt = [3277, 11469, 21299, 32767].getD i.val 0 ∧
      (elt tblQLB i.val).toInt ≠ -32768 := by decide
  exact htable ⟨bc.toNat, h⟩

/-- A gain code in 0..3 predicts the rounded product of its gain and the history sample (R202). -/
theorem toInt_prediction {bc : Word16} (h : bc.toNat < 4) (lag : Word16) (hist : Vector Word16 120) (k : Nat) :
    (prediction bc lag hist k).toInt =
      round15 ([3277, 11469, 21299, 32767].getD bc.toNat 0 * val hist (120 + k - lag.toNat)) := by
  obtain ⟨hgain, hne⟩ := toInt_entry_tblQLB h
  rw [prediction, toInt_multR, if_neg fun hc => hne hc.1, hgain]
  rfl

/-- A moved history: the older 80 samples move down by 40 (R204, R205). -/
theorem elt_shiftHistory_old (h : Vector Word16 120) (new : Vector Word16 40) {i : Nat} (hi : i < 80) :
    elt (shiftHistory h new) i = elt h (i + 40) := by
  rw [shiftHistory, elt_ofFn _ (by omega), if_pos hi]

/-- A moved history: the new 40 samples stand last (R204, R205). -/
theorem elt_shiftHistory_new (h : Vector Word16 120) (new : Vector Word16 40) {k : Nat} (hk : k < 40) :
    elt (shiftHistory h new) (80 + k) = elt new k := by
  have hnew : ¬ 80 + k < 80 := by omega
  rw [shiftHistory, elt_ofFn _ (by omega), if_neg hnew, Nat.add_sub_cancel_left]

/-! ### LTPANALYSIS and DPUPDATE (R202, R204) -/

theorem exec_ltpanalysis_of_range {j : BitVec 2} {s : State} (hlow : 40 ≤ (sub4 s.work.Nc j).toInt)
    (hhigh : (sub4 s.work.Nc j).toInt ≤ 120) (hbc : (sub4 s.work.bc j).toNat < 4) :
    exec (.ltpanalysis j) s = .next (stepLtpanalysis j s) := by
  have hlag : lagOk (sub4 s.work.Nc j) = true := Bool.and_eq_true_iff.mpr ⟨decide_eq_true hlow, decide_eq_true hhigh⟩
  exact runStep_next.mpr ⟨Bool.and_eq_true_iff.mpr ⟨hlag, decide_eq_true hbc⟩, rfl⟩

/-- Settles O51: each predicted sample by itself, and the moved history by its two parts. -/
theorem ltpEncoder : Obligations.LtpEncoder := by
  intro j s
  refine ⟨fun hlow hhigh hbc => ?ltpanalysis, ?dpupdate⟩
  case ltpanalysis =>
    refine ⟨stepLtpanalysis j s, exec_ltpanalysis_of_range hlow hhigh hbc, rfl, sameMemory_of_eq rfl rfl, fun k => ?_⟩
    have hdpp : (stepLtpanalysis j s).work.dpp[k] = prediction (sub4 s.work.bc j) (sub4 s.work.Nc j) s.enc.dp k.val := by
      simp [stepLtpanalysis]
    have he : (stepLtpanalysis j s).work.e[k] =
        sub (elt s.work.d (40 * j.toNat + k.val)) (stepLtpanalysis j s).work.dpp[k] := by
      simp [stepLtpanalysis, subSegment]
    exact ⟨by rw [hdpp, toInt_prediction hbc], by rw [he, toInt_sub, val]⟩
  case dpupdate =>
    have hdp : (stepDpupdate s).enc.dp =
        shiftHistory s.enc.dp (Vector.ofFn fun k : Fin 40 => add s.work.ep[k] s.work.dpp[k]) := rfl
    refine ⟨stepDpupdate s, rfl, rfl, sameMemory_of_eq (onEnc_mem s _) (onEnc_epoch s _), fun i hi => ?_, fun k => ?_⟩
    · rw [hdp, elt_shiftHistory_old _ _ hi]
    · rw [val, hdp, elt_shiftHistory_new _ _ k.isLt, elt_ofFn _ k.isLt, toInt_add]

/-! ### LTPSYNTH (R205) -/

theorem elt_placeSegment (wt : Vector Word16 160) (j : BitVec 2) (new : Vector Word16 40) {i : Nat} (hi : i < 160) :
    elt (placeSegment wt j new) i = if i / 40 = j.toNat then elt new (i % 40) else elt wt i := by
  rw [placeSegment, elt_ofFn _ hi, elt_eq wt hi]
  rfl

/-- The synthesised samples of sub-segment j: excitation plus prediction at the sane lag (R205). -/
def synthesised (j : BitVec 2) (s : State) : Vector Word16 40 :=
  Vector.ofFn fun k : Fin 40 =>
    add s.work.erp[k] (prediction (sub4 s.work.bc j) (saneLag (sub4 s.work.Nc j) s.dec.nrp) s.dec.drp k.val)

/-- What LTPSYNTH leaves in the decoder state and in `wt`. -/
theorem stepLtpsynth_values (j : BitVec 2) (s : State) :
    (stepLtpsynth j s).dec.nrp = saneLag (sub4 s.work.Nc j) s.dec.nrp ∧
    (stepLtpsynth j s).dec.drp = shiftHistory s.dec.drp (synthesised j s) ∧
    (stepLtpsynth j s).work.wt = placeSegment s.work.wt j (synthesised j s) := by
  refine ⟨rfl, ?_, ?_⟩ <;> simp [stepLtpsynth, synthesised]

theorem toInt_synthesised {j : BitVec 2} {s : State} (hbc : (sub4 s.work.bc j).toNat < 4) (k : Fin 40) :
    (elt (synthesised j s) k.val).toInt = clamp16 (s.work.erp[k].toInt +
      round15 ([3277, 11469, 21299, 32767].getD (sub4 s.work.bc j).toNat 0 *
        val s.dec.drp (120 + k.val - (saneLag (sub4 s.work.Nc j) s.dec.nrp).toNat))) := by
  rw [synthesised, elt_ofFn _ k.isLt, toInt_add, toInt_prediction hbc]

/-- Settles O52: history and `wt` both take the synthesised samples, which read the history before its move. -/
theorem ltpsynthResult : Obligations.LtpsynthResult := by
  intro j s hlow hhigh hbc
  have hnrp : lagOk s.dec.nrp = true := Bool.and_eq_true_iff.mpr ⟨decide_eq_true hlow, decide_eq_true hhigh⟩
  obtain ⟨hlag, hdrp, hwt⟩ := stepLtpsynth_values j s
  refine ⟨stepLtpsynth j s, ShortTermFilters.exec_ltpsynth_of_lt hnrp hbc, rfl, sameMemory_of_eq rfl rfl, hlag, fun k => ?new,
    fun i hi => ?old, fun i hi => ?wt⟩
  case new => rw [val, hdrp, hlag, elt_shiftHistory_new _ _ k.isLt, toInt_synthesised hbc k]
  case old => rw [hdrp, elt_shiftHistory_old _ _ hi]
  case wt => rw [hwt, hdrp, elt_placeSegment _ _ _ hi, elt_shiftHistory_new _ _ (Nat.mod_lt i (by omega))]

end Sys2Proof.LongTermPrediction

/-! PROOFS. Encoder and decoder in step (R183, R204, R239 to R242): the codes that ENCODE emits lie within their field widths, so
DECODE reads back the very codes; from equal codes both sides take the same new history and the same decoded LARs. -/

namespace Sys2Proof.CodecAgreement

open Sys2Proof Sys2Proof.Machine Sys2Proof.Safety Sys2Proof.BlockState Sys2Proof.Addressing Sys2Proof.FramePacker
  Sys2Proof.LpcAnalysis Sys2Proof.ShortTermFilters Sys2Proof.LagSearch Sys2Proof.LongTermPrediction

/-! ### The codes of a frame and what both sides make of them -/

/-- The codes of one sub-segment (R81). -/
structure SegmentCodes where
  Nc : Word16
  bc : Word16
  Mc : Word16
  xmaxc : Word16
  xMc : Vector Word16 13

def segmentCodes (w : Work) (j : BitVec 2) : SegmentCodes :=
  ⟨sub4 w.Nc j, sub4 w.bc j, sub4 w.Mc j, sub4 w.xmaxc j, sub4 w.xMc j⟩

/-- Every code of the sub-segment fits its field, and the lag is a legal one (R81, R248). -/
structure SegmentCodes.InWidth (c : SegmentCodes) : Prop where
  lag : 40 ≤ c.Nc.toNat ∧ c.Nc.toNat ≤ 120
  bc : c.bc.toNat < 4
  Mc : c.Mc.toNat < 4
  xmaxc : c.xmaxc.toNat < 64
  xMc : ∀ i : Fin 13, c.xMc[i].toNat < 8

/-- Every code of the frame fits its field (R81). -/
structure CodesInWidth (w : Work) : Prop where
  larc : ∀ i : Fin 8, w.larc[i].toNat < 2 ^ fieldWidth i.val
  segment : ∀ j, (segmentCodes w j).InWidth

/-- Two sets of working values hold the same codes. -/
structure SameCodes (w w' : Work) : Prop where
  larc : w'.larc = w.larc
  segment : ∀ j, segmentCodes w' j = segmentCodes w j

/-- The thirteen pulse values that APCMINV makes of the codes (R215). -/
def pulses (exp mant : Word16) (xMc : Vector Word16 13) : Vector Word16 13 :=
  Vector.ofFn fun i : Fin 13 => pulseValue exp mant xMc[i]

/-- The excitation that INVAPCM makes of the codes (R219). -/
def excitation (c : SegmentCodes) : Vector Word16 40 :=
  positionPulses c.Mc.toNat (pulses (expMant c.xmaxc).1 (expMant c.xmaxc).2 c.xMc)

/-- The residual history after a sub-segment with the given codes, on either side (R204, R205). -/
def nextHistory (c : SegmentCodes) (h : Vector Word16 120) : Vector Word16 120 :=
  shiftHistory h (Vector.ofFn fun k : Fin 40 => add (excitation c)[k] (prediction c.bc c.Nc h k.val))

/-- The LARs that LARDEC makes of the codes (R180). -/
def decodedLars (larc : Vector Word16 8) : Vector Word16 8 := Vector.ofFn fun i : Fin 8 => larDecode i larc[i]

/-- DECODEREFL leaves the codes, and in `larpp` their decoded LARs, whichever side runs it (R183). -/
theorem stepDecoderefl_larpp (side : Side) (s : State) :
    (stepDecoderefl side s).work.larpp = decodedLars s.work.larc ∧ (stepDecoderefl side s).work.larc = s.work.larc := by
  obtain ⟨_, _, _, h⟩ := zones_fold_frame side quarters (stepLardec s)
  rw [stepDecoderefl, h]
  exact ⟨rfl, rfl⟩

/-! ### The decoder on codes within their widths -/

theorem saneLag_of_legal {x nrp : Word16} (hlow : 40 ≤ x.toNat) (hhigh : x.toNat ≤ 120) : saneLag x nrp = x := by
  have hx : x.toInt = x.toNat := by rw [BitVec.toInt_eq_toNat_cond, if_pos (by omega)]
  rw [saneLag, if_neg (by omega)]

theorem stepExpmant_values (j : BitVec 2) (s : State) :
    stepExpmant j s = { s with work := { s.work with
      exp := (expMant (sub4 s.work.xmaxc j)).1, mant := (expMant (sub4 s.work.xmaxc j)).2 } } := rfl

theorem stepApcminv_values (j : BitVec 2) (s : State) :
    ∃ y0 y1 y2 y3, stepApcminv j s = { s with work := { s.work with
      temp1 := y0, temp2 := y1, temp3 := y2, temp := y3
      xMp := pulses s.work.exp s.work.mant (sub4 s.work.xMc j) } } :=
  ⟨_, _, _, _, rfl⟩

theorem SameCodes.trans {w w' w'' : Work} (h : SameCodes w w') (h' : SameCodes w' w'') : SameCodes w w'' :=
  ⟨h'.larc.trans h.larc, fun j => (h'.segment j).trans (h.segment j)⟩

theorem stepLtpsynth_sameCodes (j : BitVec 2) (s : State) : SameCodes s.work (stepLtpsynth j s).work := by
  obtain ⟨_, _, _, _, _, _, h⟩ := stepLtpsynth_frame j s
  rw [h]
  exact ⟨rfl, fun _ => rfl⟩

/-- A decoder sub-segment is LTPSYNTH on the excitation of the codes (R241). -/
theorem decodeSegment_eq (s : State) (j : BitVec 2) :
    ∃ u, decodeSegment s j = stepLtpsynth j u ∧ u.dec = s.dec ∧ SameCodes s.work u.work ∧
      u.work.erp = excitation (segmentCodes s.work j) := by
  obtain ⟨_, _, _, _, h⟩ := stepApcminv_values j (stepExpmant j s)
  rw [decodeSegment, h, stepExpmant_values]
  exact ⟨_, rfl, rfl, ⟨rfl, fun _ => rfl⟩, rfl⟩

theorem decodeSegment_sameCodes (s : State) (j : BitVec 2) : SameCodes s.work (decodeSegment s j).work := by
  obtain ⟨u, h, -, hcodes, -⟩ := decodeSegment_eq s j
  rw [h]
  exact hcodes.trans (stepLtpsynth_sameCodes j u)

/-- A decoder sub-segment moves its history by the codes alone. -/
theorem decodeSegment_drp {s : State} {j : BitVec 2} (h : (segmentCodes s.work j).InWidth) :
    (decodeSegment s j).dec.drp = nextHistory (segmentCodes s.work j) s.dec.drp := by
  obtain ⟨hlow, hhigh⟩ := h.lag
  obtain ⟨u, heq, hdec, hcodes, herp⟩ := decodeSegment_eq s j
  obtain ⟨-, hdrp, -⟩ := stepLtpsynth_values j u
  have hc := hcodes.segment j
  have hNc : sub4 u.work.Nc j = (segmentCodes s.work j).Nc := congrArg SegmentCodes.Nc hc
  have hbc : sub4 u.work.bc j = (segmentCodes s.work j).bc := congrArg SegmentCodes.bc hc
  rw [heq, hdrp, hdec, synthesised, herp, hNc, hbc, saneLag_of_legal hlow hhigh, hdec]
  rfl

/-- The sub-segments of the decoder one after another: each moves the history by its codes, which stay as they are. -/
theorem decodeSegments_spec {l : List (BitVec 2)} {s : State} (h : ∀ j, (segmentCodes s.work j).InWidth) :
    SameCodes s.work (l.foldl decodeSegment s).work ∧
    (l.foldl decodeSegment s).dec.drp = l.foldl (fun h j => nextHistory (segmentCodes s.work j) h) s.dec.drp := by
  induction l generalizing s with
  | nil => exact ⟨⟨rfl, fun _ => rfl⟩, rfl⟩
  | cons j l ih =>
    have hcodes := decodeSegment_sameCodes s j
    obtain ⟨hsame, hdrp⟩ := ih (s := decodeSegment s j) fun i => (hcodes.segment i).symm ▸ h i
    simp only [hcodes.segment, decodeSegment_drp (h j)] at hdrp
    rw [List.foldl_cons, List.foldl_cons]
    exact ⟨hcodes.trans hsame, hdrp⟩

/-! ### The encoder's sub-segments -/

/-- The samples of the grid selected (R211). -/
def gridOf (x : Vector Word16 40) : Vector Word16 13 := gridSamples x (selectGrid x).1.toNat

/-- The code of the block maximum of the grid selected (R212). -/
def blockCode (x : Vector Word16 40) : Word16 := xmaxCode (maxAbs (gridOf x).toList)

/-- The pulse codes of a grid (R214). -/
def pulseCodes (exp mant : Word16) (xM : Vector Word16 13) : Vector Word16 13 :=
  Vector.ofFn fun i : Fin 13 => pulseCode exp mant xM[i]

/-- The codes that a sub-segment gets from its lag, its gain and its weighted samples (R236). -/
def codesOf (lag gain : Word16) (x : Vector Word16 40) : SegmentCodes :=
  ⟨lag, gain, (selectGrid x).1, blockCode x, pulseCodes (expMant (blockCode x)).1 (expMant (blockCode x)).2 (gridOf x)⟩

theorem stepGridsel_values (j : BitVec 2) (s : State) :
    ∃ y0 y1 y2 y3, stepGridsel j s = { s with work := { s.work with
      Mc := set4 s.work.Mc j (selectGrid s.work.x).1, EM := y0, xM := gridOf s.work.x, Lresult := y1, temp1 := y2
      Ltemp := y3 } } :=
  ⟨_, _, _, _, rfl⟩

theorem stepXmaxq_values (j : BitVec 2) (s : State) :
    ∃ y0 y1 y2 y3, stepXmaxq j s = { s with work := { s.work with
      xmax := y0, exp := y1, itest := y2, temp := y3
      xmaxc := set4 s.work.xmaxc j (xmaxCode (maxAbs s.work.xM.toList)) } } :=
  ⟨_, _, _, _, rfl⟩

/-- XMAXQ and EXPMANT: the code of the block maximum and what it stands for (R212, R213). -/
theorem blockCode_frame (j : BitVec 2) (s : State) :
    ∃ y0 y1 y2, stepExpmant j (stepXmaxq j s) = { s with work := { s.work with
      xmax := y0, itest := y1, temp := y2
      xmaxc := set4 s.work.xmaxc j (xmaxCode (maxAbs s.work.xM.toList))
      exp := (expMant (xmaxCode (maxAbs s.work.xM.toList))).1
      mant := (expMant (xmaxCode (maxAbs s.work.xM.toList))).2 } } := by
  obtain ⟨_, _, _, _, h⟩ := stepXmaxq_values j s
  rw [stepExpmant_values, h]
  simp only [sub4_set4]
  exact ⟨_, _, _, rfl⟩

theorem stepApcmq_values (j : BitVec 2) (s : State) :
    ∃ y0 y1 y2, stepApcmq j s = { s with work := { s.work with
      temp1 := y0, temp2 := y1, temp := y2, xMc := set4 s.work.xMc j (pulseCodes s.work.exp s.work.mant s.work.xM) } } :=
  ⟨_, _, _, rfl⟩

theorem stepLtpanalysis_values (j : BitVec 2) (s : State) :
    ∃ y0 y1, stepLtpanalysis j s = { s with work := { s.work with
      bp := y0, e := y1
      dpp := Vector.ofFn fun k : Fin 40 => prediction (sub4 s.work.bc j) (sub4 s.work.Nc j) s.enc.dp k.val } } :=
  ⟨_, _, rfl⟩

/-- LTPSEARCH and LTPANALYSIS: a legal lag and a gain code, and the prediction from them (R200, R202). -/
theorem predict_frame (j : BitVec 2) (s : State) :
    ∃ lag gain, (40 ≤ lag.toNat ∧ lag.toNat ≤ 120) ∧ gain.toNat < 4 ∧
    ∃ y0 y1 y2 y3 y4 y5 y6 y7 y8 y9 y10 y11, stepLtpanalysis j (stepLtpsearch j s) = { s with work := { s.work with
      dmax := y0, temp := y1, scal := y2, wtLtp := y3, Lmax := y4, Lpower := y5, Lresult := y6, Ltemp := y7, R := y8
      S := y9, bp := y10, e := y11, Nc := set4 s.work.Nc j lag, bc := set4 s.work.bc j gain
      dpp := Vector.ofFn fun k : Fin 40 => prediction gain lag s.enc.dp k.val } } := by
  obtain ⟨-, hNc, hbc⟩ := stepLtpsearch_values j s
  obtain ⟨_, _, _, _, _, _, _, _, _, _, lag, gain, hsearch⟩ := stepLtpsearch_frame j s
  rw [hsearch] at hNc hbc
  have hlag := congrArg (sub4 · j) hNc
  have hgain := congrArg (sub4 · j) hbc
  simp only [sub4_set4] at hlag hgain
  refine ⟨lag, gain, hlag ▸ searchLag_range _ _, hgain ▸ codedGain_lt _ _, ?_⟩
  obtain ⟨_, _, hanalysis⟩ := stepLtpanalysis_values j (stepLtpsearch j s)
  rw [hanalysis, hsearch]
  simp only [sub4_set4]
  exact ⟨_, _, _, _, _, _, _, _, _, _, _, _, rfl⟩

/-- WEIGHT to APCMQ: the codes of the weighted samples (R210 to R214). -/
theorem quantise_frame (j : BitVec 2) (s : State) :
    ∃ x y0 y1 y2 y3 y4 y5 y6 y7 y8,
    stepApcmq j (stepExpmant j (stepXmaxq j (stepGridsel j (stepWeight s)))) = { s with work := { s.work with
      x := x, xM := gridOf x
      wtW := y0, Lresult := y1, Ltemp := y2, EM := y3, temp1 := y4, temp2 := y5, temp := y6, xmax := y7, itest := y8
      exp := (expMant (blockCode x)).1, mant := (expMant (blockCode x)).2
      Mc := set4 s.work.Mc j (selectGrid x).1, xmaxc := set4 s.work.xmaxc j (blockCode x)
      xMc := set4 s.work.xMc j (pulseCodes (expMant (blockCode x)).1 (expMant (blockCode x)).2 (gridOf x)) } } := by
  obtain ⟨_, x, _, _, hweight⟩ := stepWeight_frame s
  obtain ⟨_, _, _, _, hgridsel⟩ := stepGridsel_values j (stepWeight s)
  obtain ⟨_, _, _, hcode⟩ := blockCode_frame j (stepGridsel j (stepWeight s))
  obtain ⟨_, _, _, hapcmq⟩ := stepApcmq_values j (stepExpmant j (stepXmaxq j (stepGridsel j (stepWeight s))))
  rw [hapcmq, hcode, hgridsel, hweight]
  simp only [blockCode]
  exact ⟨x, _, _, _, _, _, _, _, _, _, rfl⟩

theorem sub4_set4_ne {α : Type} (v : Vector α 4) {i j : BitVec 2} (x : α) (h : i ≠ j) :
    sub4 (set4 v j x) i = sub4 v i :=
  getElem_set4_ne v j x _ fun he => h (BitVec.eq_of_toNat_eq he)

/-- What a sub-segment of ENCODE does (R236): it writes its own codes, and from them the new history. -/
structure EncodesSegment (j : BitVec 2) (s t : State) : Prop where
  codes : ∃ lag gain x, (40 ≤ lag.toNat ∧ lag.toNat ≤ 120) ∧ gain.toNat < 4 ∧ segmentCodes t.work j = codesOf lag gain x
  others : ∀ i, i ≠ j → segmentCodes t.work i = segmentCodes s.work i
  dp : t.enc.dp = nextHistory (segmentCodes t.work j) s.enc.dp
  larc : t.work.larc = s.work.larc
  larpp : t.work.larpp = s.work.larpp

theorem encodeSegment_encodes (s : State) (j : BitVec 2) : EncodesSegment j s (encodeSegment s j) := by
  obtain ⟨lag, gain, hlag, hgain, _, _, _, _, _, _, _, _, _, _, _, _, hpredict⟩ := predict_frame j s
  obtain ⟨x, _, _, _, _, _, _, _, _, _, hquantise⟩ := quantise_frame j (stepLtpanalysis j (stepLtpsearch j s))
  obtain ⟨_, _, _, _, hdecode⟩ := stepApcminv_values j (stepApcmq j (stepExpmant j (stepXmaxq j (stepGridsel j
    (stepWeight (stepLtpanalysis j (stepLtpsearch j s)))))))
  rw [encodeSegment, hdecode, hquantise, hpredict]
  simp only [sub4_set4]
  refine ⟨⟨lag, gain, x, hlag, hgain, ?codes⟩, fun i hi => ?others, ?dp, rfl, rfl⟩
  case codes => simp only [segmentCodes, codesOf, stepDpupdate, stepGridpos, onEnc_work, onWork_work, sub4_set4]
  case others => simp only [segmentCodes, stepDpupdate, stepGridpos, onEnc_work, onWork_work, sub4_set4_ne _ _ hi]
  case dp =>
    simp only [segmentCodes, stepDpupdate, stepGridpos, onEnc_work, onEnc_enc, onWork_work, onWork_enc, sub4_set4,
      nextHistory, excitation, Fin.getElem_fin, Vector.getElem_ofFn]

/-! ### The codes lie within their widths (R248) -/

theorem toNat_lt_of_toInt {x : Word16} {n : Nat} (h0 : 0 ≤ x.toInt) (h : x.toInt < n) : x.toNat < n := by
  have := toNat_toInt_of_nonneg h0
  omega

theorem larCode_lt (i : Fin 8) (lar : Word16) : (larCode i lar).toNat < 2 ^ fieldWidth i.val := by
  have hwidth : ∀ i : Fin 8, tblMIC[i].toInt ≤ tblMAC[i].toInt ∧
      tblMAC[i].toInt - tblMIC[i].toInt < (2 ^ fieldWidth i.val : Nat) := by decide
  obtain ⟨hle, hlt⟩ := hwidth i
  have hcode := toInt_larCode i lar
  exact toNat_lt_of_toInt (by omega) (by omega)

theorem selectGrid_lt (x : Vector Word16 40) : (selectGrid x).1.toNat < 4 := by
  refine List.foldlRecOn (motive := fun best : Word16 × Word32 => best.1.toNat < 4) (List.range 4) _ (by decide) ?_
  intro best hbest m hm
  have hm4 : m < 4 := List.mem_range.mp hm
  dsimp only
  split
  · rw [BitVec.toNat_ofNat]; omega
  · exact hbest

/-- The loop of XMAXQ counts the significant bits of `xmax >> 9`. -/
theorem countBits_spec {xmax : Word16} (h0 : 0 ≤ xmax.toInt) :
    ∃ e : Nat, e ≤ 6 ∧ (countBits xmax).exp.toInt = e ∧ xmax.toInt < 512 * 2 ^ e ∧
      (e = 0 ∨ 256 * 2 ^ e ≤ xmax.toInt) := by
  have htable : ∀ m : Fin 64, ∃ e : Fin 7,
      ((List.range 6).foldl (fun c _ => bitCountTurn c) ⟨0, BitVec.ofNat 16 m.val, 0⟩).exp = BitVec.ofNat 16 e.val ∧
      m.val < 2 ^ e.val ∧ (e.val = 0 ∨ 2 ^ e.val ≤ 2 * m.val) := by decide +kernel
  have hx := (toInt_range16 xmax).2
  have htop := toInt_shr16_nine xmax
  have hnat := toNat_toInt_of_nonneg (x := shr16 xmax 9) (by omega)
  obtain ⟨e, hexp, hlt, hge⟩ := htable ⟨(shr16 xmax 9).toNat, by omega⟩
  rw [BitVec.ofNat_toNat, BitVec.setWidth_eq] at hexp
  have hval : (countBits xmax).exp.toInt = e.val := by
    rw [countBits, hexp, ← BitVec.ofInt_natCast, toInt_ofInt16 (by omega) (by omega)]
  dsimp only at hlt hge
  zify at hlt hge
  exact ⟨e.val, by omega, hval, by omega, by omega⟩

/-- The code of a block maximum has an exponent part e and a mantissa part q, the maximum without its last e + 5 bits (R212). -/
theorem xmaxCode_spec {xmax : Word16} (h0 : 0 ≤ xmax.toInt) :
    ∃ e q : Nat, e < 7 ∧ q < 16 ∧ (e = 0 ∨ 8 ≤ q) ∧ (xmaxCode xmax).toInt = 8 * e + q ∧
      xmax.toInt < (q + 1) * 2 ^ (e + 5) := by
  have h5 : (5 : Word16).toInt = 5 := rfl
  obtain ⟨e, he, hexp, hlt, hge⟩ := countBits_spec h0
  have hp : (0 : Int) < 2 ^ (e + 5) := by positivity
  have hpow : (2 : Int) ^ (e + 5) = 32 * 2 ^ e := by rw [pow_add]; ring
  obtain ⟨q, hq⟩ := Int.eq_ofNat_of_zero_le (Int.ediv_nonneg h0 hp.le)
  have hqlow : (q : Int) * 2 ^ (e + 5) ≤ xmax.toInt := hq ▸ Int.ediv_mul_le _ hp.ne'
  have hqhigh : xmax.toInt < (q + 1) * 2 ^ (e + 5) := hq ▸ Int.lt_ediv_add_one_mul_self _ hp
  have hq16 : (q : Int) < 16 := by rw [hpow] at hqlow; nlinarith
  have hq8 : e = 0 ∨ (8 : Int) ≤ q := hge.imp_right fun h => by rw [hpow] at hqhigh; nlinarith
  have hsum : (add (countBits xmax).exp 5).toInt = ((e + 5 : Nat) : Int) := by
    rw [toInt_add, hexp, h5, clamp16_id (by omega) (by omega)]
    omega
  refine ⟨e, q, by omega, by omega, by omega, ?_, hqhigh⟩
  rw [xmaxCode, toInt_add, toInt_shr16 (by omega), hsum, Int.toNat_natCast, hq, toInt_shl16_three, hexp,
    clamp16_id (x := 8 * (e : Int)) (by omega) (by omega), clamp16_id (by omega) (by omega)]
  omega

/-- For each code, the largest maximum that has it: APCMQ moves it up without overflow, and its product with the entry of `NRFAC`
stays below 4 after the last shift (R214). -/
theorem largestOfCode_range : ∀ e : Fin 7, ∀ q : Fin 16, e.val = 0 ∨ 8 ≤ q.val →
    let p := expMant (BitVec.ofNat 16 (8 * e.val + q.val))
    let largest : Int := (q.val + 1) * 2 ^ (e.val + 5) - 1
    0 ≤ (sub 6 p.1).toInt ∧ 0 ≤ (entry tblNRFAC p.2).toInt ∧ largest * 2 ^ (sub 6 p.1).toInt.toNat ≤ 32767 ∧
      largest * 2 ^ (sub 6 p.1).toInt.toNat * (entry tblNRFAC p.2).toInt < 536870912 := by decide

/-- A sample no larger than such a maximum has a pulse code in 0..7 (R214). -/
theorem pulseCode_lt {exp mant x : Word16} {largest : Int} (hx : mag x.toInt ≤ largest) (hexp : 0 ≤ (sub 6 exp).toInt)
    (hfactor : 0 ≤ (entry tblNRFAC mant).toInt) (hfit : largest * 2 ^ (sub 6 exp).toInt.toNat ≤ 32767)
    (hproduct : largest * 2 ^ (sub 6 exp).toInt.toNat * (entry tblNRFAC mant).toInt < 536870912) :
    (pulseCode exp mant x).toNat < 8 := by
  have h4 : (4 : Word16).toInt = 4 := rfl
  have hr := toInt_range16 x
  have hmoved := toInt_shl16 (a := x) hexp
  have hp : (1 : Int) ≤ 2 ^ (sub 6 exp).toInt.toNat := one_le_pow₀ (by norm_num)
  generalize (2 : Int) ^ (sub 6 exp).toInt.toNat = p at hmoved hfit hproduct hp
  have hfactor' := (toInt_range16 (entry tblNRFAC mant)).2
  generalize hN : (entry tblNRFAC mant).toInt = N at hfactor hfactor' hproduct
  have hrange : -536870912 ≤ (shl16 x (sub 6 exp)).toInt * N ∧ (shl16 x (sub 6 exp)).toInt * N < 536870912 := by
    rw [hmoved]
    by_cases hmin : x.toInt = -32768
    · rw [hmin] at hx ⊢
      have hmag : 32767 ≤ largest := hx
      have hp1 : p = 1 := by nlinarith
      subst hp1
      have hN' : 32767 * N < 536870912 := by nlinarith
      rw [show clamp16 (-32768 * 1) = -32768 from rfl]
      omega
    · have habs : -largest ≤ x.toInt ∧ x.toInt ≤ largest := by
        unfold mag at hx
        split at hx <;> omega
      have hlow : -(largest * p) ≤ x.toInt * p := by nlinarith
      have hhigh : x.toInt * p ≤ largest * p := by nlinarith
      rw [clamp16_id (by omega) (by omega)]
      constructor <;> nlinarith
  have hscaled : (pulseScaled exp mant x).toInt = (shl16 x (sub 6 exp)).toInt * N / 32768 := by
    rw [pulseScaled, toInt_mult, hN, if_neg (by omega)]
  have hcode : (pulseCode exp mant x).toInt = (shl16 x (sub 6 exp)).toInt * N / 32768 / 4096 + 4 := by
    rw [pulseCode, toInt_add, toInt_shr16 (by decide), hscaled, h4]
    exact clamp16_id (x := (shl16 x (sub 6 exp)).toInt * N / 32768 / 4096 + 4) (by omega) (by omega)
  exact toNat_lt_of_toInt (by omega) (by omega)

/-- The codes of a sub-segment lie within their widths: the samples that APCMQ codes are no larger than the maximum whose code
scales them. -/
theorem codesOf_inWidth {lag gain : Word16} (hlag : 40 ≤ lag.toNat ∧ lag.toNat ≤ 120) (hgain : gain.toNat < 4)
    (x : Vector Word16 40) : (codesOf lag gain x).InWidth := by
  obtain ⟨h0, hmax, -⟩ := maxAbs_spec (gridOf x).toList
  obtain ⟨e, q, he, hq, heq, hcode, hlt⟩ := xmaxCode_spec h0
  have hblock : blockCode x = BitVec.ofNat 16 (8 * e + q) := by
    apply BitVec.eq_of_toInt_eq
    rw [blockCode, hcode, ← BitVec.ofInt_natCast, toInt_ofInt16 (by omega) (by omega)]
    omega
  refine ⟨hlag, hgain, ?Mc, ?xmaxc, fun i => ?xMc⟩
  case Mc => simpa only [codesOf] using selectGrid_lt x
  case xmaxc =>
    simp only [codesOf]
    rw [hblock, BitVec.toNat_ofNat]
    omega
  case xMc =>
    obtain ⟨hexp, hfactor, hfit, hproduct⟩ := largestOfCode_range ⟨e, he⟩ ⟨q, hq⟩ heq
    have hx : mag (gridOf x)[i].toInt ≤ (q + 1) * 2 ^ (e + 5) - 1 :=
      Int.le_sub_one_of_lt ((hmax _ (by simp)).trans_lt hlt)
    have hpulse : (codesOf lag gain x).xMc[i] =
        pulseCode (expMant (blockCode x)).1 (expMant (blockCode x)).2 (gridOf x)[i] := by
      simp [codesOf, pulseCodes]
    rw [hpulse, hblock]
    exact pulseCode_lt hx hexp hfactor hfit hproduct

/-- What a run of sub-segments of ENCODE does: codes within their widths for each, and the history moved by these codes. -/
structure EncodesSegments (l : List (BitVec 2)) (s t : State) : Prop where
  codes : ∀ j ∈ l, (segmentCodes t.work j).InWidth
  others : ∀ i, i ∉ l → segmentCodes t.work i = segmentCodes s.work i
  dp : t.enc.dp = l.foldl (fun h j => nextHistory (segmentCodes t.work j) h) s.enc.dp
  larc : t.work.larc = s.work.larc
  larpp : t.work.larpp = s.work.larpp

/-- No later sub-segment changes the codes of an earlier one, so the codes left at the end are those each history came from. -/
theorem encodeSegments_encodes {l : List (BitVec 2)} (hl : l.Nodup) (s : State) :
    EncodesSegments l s (l.foldl encodeSegment s) := by
  induction l generalizing s with
  | nil => exact ⟨fun _ h => absurd h List.not_mem_nil, fun _ _ => rfl, rfl, rfl, rfl⟩
  | cons j l ih =>
    obtain ⟨hj, hl⟩ := List.nodup_cons.mp hl
    obtain ⟨⟨lag, gain, x, hlag, hgain, hcodes⟩, hothers, hdp, hlarc, hlarpp⟩ := encodeSegment_encodes s j
    have hrest := ih hl (encodeSegment s j)
    have hkept := hrest.others j hj
    rw [List.foldl_cons]
    refine ⟨fun i hi => ?codes, fun i hi => ?others, ?dp, hrest.larc.trans hlarc, hrest.larpp.trans hlarpp⟩
    case codes =>
      rcases List.mem_cons.mp hi with rfl | hi
      · rw [hkept, hcodes]
        exact codesOf_inWidth hlag hgain x
      · exact hrest.codes i hi
    case others =>
      obtain ⟨hij, hil⟩ := not_or.mp fun h => hi (List.mem_cons.mpr h)
      rw [hrest.others i hil, hothers i hij]
    case dp => rw [List.foldl_cons, hkept, ← hdp, hrest.dp]

/-! ### ENCODE as a whole -/

/-- STANALYSIS keeps the history, the LAR codes and the decoded LARs (R190). -/
theorem stepStanalysis_keeps (s : State) :
    (stepStanalysis s).enc.dp = s.enc.dp ∧ (stepStanalysis s).work.larpp = s.work.larpp ∧
    (stepStanalysis s).work.larc = s.work.larc := by
  obtain ⟨_, _, _, _, _, _, h⟩ := stepStanalysis_frame s
  rw [h]
  exact ⟨rfl, rfl, rfl⟩

theorem stepDecoderefl_enc (side : Side) (s : State) : (stepDecoderefl side s).enc = s.enc := by
  obtain ⟨_, h⟩ := stepDecoderefl_workOnly side s
  rw [h]

theorem stepDecoderefl_dec (side : Side) (s : State) : (stepDecoderefl side s).dec = s.dec := by
  obtain ⟨_, h⟩ := stepDecoderefl_workOnly side s
  rw [h]

/-- The steps from AUTOCORR to LARQ keep the encoder state and leave LAR codes within their widths (R235 steps 3 to 6). -/
theorem lpcSteps_spec (s : State) :
    (stepLarq (stepR2lar (stepSchur (stepAutocorr s)))).enc = s.enc ∧
    ∀ i : Fin 8, (stepLarq (stepR2lar (stepSchur (stepAutocorr s)))).work.larc[i].toNat < 2 ^ fieldWidth i.val := by
  obtain ⟨_, hlpc⟩ := lpcSteps_workOnly s
  refine ⟨by rw [hlpc], fun i => ?_⟩
  have hcode : (stepLarq (stepR2lar (stepSchur (stepAutocorr s)))).work.larc[i] =
      larCode i (stepR2lar (stepSchur (stepAutocorr s))).work.lar[i] := by simp [stepLarq]
  rw [hcode]
  exact larCode_lt i _

/-- The loop over the samples keeps the history (R235 step 2). -/
theorem preprocess_fold_dp (l : List Nat) (s : State) : (l.foldl preprocessSample s).enc.dp = s.enc.dp := by
  obtain ⟨_, _, _, _, _, _, _, _, _, _, _, h⟩ := preprocess_fold_frame l s
  rw [h]

/-- The steps before the sub-segments keep the history, and leave LAR codes within their widths and their decoded LARs (R235). -/
theorem encodeAnalysis_spec (s : State) :
    (encodeAnalysis s).enc.dp = s.enc.dp ∧
    (encodeAnalysis s).work.larpp = decodedLars (encodeAnalysis s).work.larc ∧
    ∀ i : Fin 8, (encodeAnalysis s).work.larc[i].toNat < 2 ^ fieldWidth i.val := by
  unfold encodeAnalysis
  have hsamples := preprocess_fold_dp (List.range 160) (stepHomedet s)
  obtain ⟨henc, hwidth⟩ := lpcSteps_spec ((List.range 160).foldl preprocessSample (stepHomedet s))
  generalize stepLarq (stepR2lar (stepSchur (stepAutocorr ((List.range 160).foldl preprocessSample (stepHomedet s))))) = u
    at henc hwidth ⊢
  obtain ⟨hdp, hlarpp, hlarc⟩ := stepStanalysis_keeps (stepDecoderefl .enc u)
  obtain ⟨hdecoded, hcodes⟩ := stepDecoderefl_larpp .enc u
  rw [hdp, stepDecoderefl_enc, henc, hsamples, hlarpp, hdecoded, hlarc, hcodes]
  exact ⟨rfl, rfl, hwidth⟩

/-- Without homing the last steps take over the decoded LARs and write the record (R235, R237, R238). -/
theorem encodeFinish_spec {s : State} (h : s.homingSupported = false) :
    (encodeFinish s).enc = { s.enc with larppLast := s.work.larpp } ∧
    ∀ n, n < 76 → (encodeFinish s).readWord .prmE n = recordField s.work n := by
  have hhome : stepHomeapply (stepLarrot s) = stepLarrot s := if_neg (by rw [stepLarrot, onEnc_homingSupported, h]; decide)
  rw [encodeFinish, hhome]
  constructor
  · obtain ⟨_, hemit⟩ := stepEmit_frame (stepLarrot s)
    rw [hemit]
    rfl
  · intro n hn
    rw [stepEmit, State.readWord_writeWords, if_pos ⟨rfl, Nat.zero_le n⟩, stepLarrot, onEnc_work, recordOf]
    simp [List.getD_eq_getElem?_getD, hn]

theorem homingSupported_of_encoderStep {s t : State} (h : EncoderStep s t) : t.homingSupported = s.homingSupported := by
  obtain ⟨_, _, _, rfl⟩ := h.frame
  rfl

/-- ENCODE without homing: there are codes within their widths that it emits, that move its history, and whose decoded LARs it
keeps (R204, R235). -/
theorem encodeSteps_spec {s : State} (h : s.homingSupported = false) :
    ∃ w, CodesInWidth w ∧
      (encodeSteps s).enc.dp = quarters.foldl (fun h j => nextHistory (segmentCodes w j) h) s.enc.dp ∧
      (encodeSteps s).enc.larppLast = decodedLars w.larc ∧
      ∀ n, n < 76 → (encodeSteps s).readWord .prmE n = recordField w n := by
  obtain ⟨hdp, hlarpp, hlarc⟩ := encodeAnalysis_spec s
  have hall : ∀ j : BitVec 2, j ∈ quarters := by decide
  have hsegments := encodeSegments_encodes (l := quarters) (by decide) (encodeAnalysis s)
  have hstrap : (quarters.foldl encodeSegment (encodeAnalysis s)).homingSupported = false := by
    have hloop := EncoderStep.foldl quarters (encodeAnalysis s) fun s j _ => encodeSegment_encoderStep s j
    rw [homingSupported_of_encoderStep hloop, homingSupported_of_encoderStep (encodeAnalysis_encoderStep s), h]
  obtain ⟨henc, hrecord⟩ := encodeFinish_spec hstrap
  refine ⟨(quarters.foldl encodeSegment (encodeAnalysis s)).work, ⟨?_, fun j => hsegments.codes j (hall j)⟩, ?_, ?_, hrecord⟩
  · rw [hsegments.larc]
    exact hlarc
  · have hkept : (encodeSteps s).enc.dp = (quarters.foldl encodeSegment (encodeAnalysis s)).enc.dp := by
      rw [encodeSteps, henc]
    rw [hkept, ← hdp, hsegments.dp]
  · have htaken : (encodeSteps s).enc.larppLast = (quarters.foldl encodeSegment (encodeAnalysis s)).work.larpp := by
      rw [encodeSteps, henc]
    rw [htaken, hsegments.larc, ← hlarpp, hsegments.larpp]

/-! ### The record read back -/

/-- A value within a field's width is not changed by the mask (R94). -/
theorem maskField_of_lt {width : Nat} {x : Word16} (h : x.toNat < 2 ^ width) (hw : width ≤ 16) : maskField width x = x := by
  have hp : 2 ^ width ≤ 2 ^ 16 := Nat.pow_le_pow_right (by omega) hw
  have hpos : 0 < 2 ^ width := Nat.two_pow_pos width
  apply BitVec.eq_of_toNat_eq
  rw [maskField, BitVec.toNat_and, BitVec.toNat_ofNat, Nat.mod_eq_of_lt (by omega), Nat.and_two_pow_sub_one_eq_mod,
    Nat.mod_eq_of_lt h]

/-- PRMMASK reads the fields of `PRM_D` within their widths as they are (R240). -/
theorem maskedRecord_eq {s : State} {n : Nat} (hn : n < 76) (h : (s.readWord .prmD n).toNat < 2 ^ fieldWidth n) :
    (maskedRecord s).getD n 0 = s.readWord .prmD n := by
  have hfield : (maskedRecord s).getD n 0 = maskField (fieldWidth n) (s.readWord .prmD n) := by
    simp [maskedRecord, tblWIDTH_eq, State.readWords, List.getD_eq_getElem?_getD, hn]
  rw [hfield, maskField_of_lt h (by have := (fieldWidth_range hn).2; omega)]

/-- The seventeen fields of a sub-segment in record order (R81). -/
def SegmentCodes.field (c : SegmentCodes) : Nat → Word16
  | 0 => c.Nc
  | 1 => c.bc
  | 2 => c.Mc
  | 3 => c.xmaxc
  | m + 4 => elt c.xMc m

/-- The field m of sub-segment j, by its place in the record. -/
theorem subBase_div_mod {j : BitVec 2} {m : Nat} (hm : m < 17) :
    subBase j.toNat + m < 76 ∧ ¬ subBase j.toNat + m < 8 ∧ (subBase j.toNat + m - 8) / 17 = j.toNat ∧
      (subBase j.toNat + m - 8) % 17 = m := by
  have := j.isLt
  unfold subBase
  omega

theorem recordField_subBase (w : Work) (j : BitVec 2) {m : Nat} (hm : m < 17) :
    recordField w (subBase j.toNat + m) = (segmentCodes w j).field m := by
  obtain ⟨-, h8, hdiv, hmod⟩ := subBase_div_mod (j := j) hm
  simp only [recordField, if_neg h8, hdiv, hmod, BitVec.ofNat_toNat, BitVec.setWidth_eq]
  rfl

theorem recordField_larc (w : Work) (i : Fin 8) : recordField w i.val = w.larc[i] := by
  rw [recordField, if_pos i.isLt, elt_eq _ i.isLt]
  rfl

theorem fieldWidth_subBase (j : BitVec 2) {m : Nat} (hm : m < 17) :
    fieldWidth (subBase j.toNat + m) = [7, 2, 2, 6].getD m 3 := by
  obtain ⟨-, h8, -, hmod⟩ := subBase_div_mod (j := j) hm
  rw [fieldWidth, if_neg h8, hmod]

theorem SegmentCodes.InWidth.field_lt {c : SegmentCodes} (h : c.InWidth) {m : Nat} (hm : m < 17) :
    (c.field m).toNat < 2 ^ [7, 2, 2, 6].getD m 3 := by
  match m with
  | 0 => exact h.lag.2.trans_lt (by decide)
  | 1 => exact h.bc
  | 2 => exact h.Mc
  | 3 => exact h.xmaxc
  | i + 4 =>
    have hi : i < 13 := by omega
    have hpulse := h.xMc ⟨i, hi⟩
    rw [SegmentCodes.field, elt_eq _ hi]
    exact hpulse

/-- Codes within their widths give a record within its widths (R81). -/
theorem CodesInWidth.recordField_lt {w : Work} (h : CodesInWidth w) {n : Nat} (hn : n < 76) :
    (recordField w n).toNat < 2 ^ fieldWidth n := by
  by_cases h8 : n < 8
  · have hlarc := h.larc ⟨n, h8⟩
    rwa [← recordField_larc] at hlarc
  · obtain ⟨j, m, hm, rfl⟩ : ∃ (j : BitVec 2) (m : Nat), m < 17 ∧ n = subBase j.toNat + m := by
      refine ⟨BitVec.ofNat 2 ((n - 8) / 17), (n - 8) % 17, by omega, ?_⟩
      rw [BitVec.toNat_ofNat, subBase]
      omega
    rw [recordField_subBase w j hm, fieldWidth_subBase j hm]
    exact (h.segment j).field_lt hm

/-- The codes loaded from the record of codes are these codes (R81, R240). -/
theorem loadRecord_sameCodes {f : List Word16} {w : Work} (w' : Work)
    (h : ∀ n, n < 76 → f.getD n 0 = recordField w n) : SameCodes w (loadRecord f w') := by
  refine ⟨Vector.ext fun i hi => ?larc, fun j => ?segment⟩
  case larc =>
    simp only [loadRecord, Vector.getElem_ofFn]
    rw [h i (by omega)]
    exact recordField_larc w ⟨i, hi⟩
  case segment =>
    have hfield : ∀ m, m < 17 → f.getD (subBase j.toNat + m) 0 = (segmentCodes w j).field m := fun m hm => by
      rw [h _ (subBase_div_mod hm).1, recordField_subBase w j hm]
    have hNc : f.getD (subBase j.toNat) 0 = _ := hfield 0 (by omega)
    have hxMc : (Vector.ofFn fun i : Fin 13 => f.getD (subBase j.toNat + 4 + i.val) 0) = sub4 w.xMc j := by
      refine Vector.ext fun i hi => ?_
      rw [Vector.getElem_ofFn, Nat.add_assoc, hfield _ (by omega), Nat.add_comm 4 i, SegmentCodes.field, elt_eq _ hi]
      rfl
    have hload : segmentCodes (loadRecord f w') j =
        ⟨f.getD (subBase j.toNat) 0, f.getD (subBase j.toNat + 1) 0, f.getD (subBase j.toNat + 2) 0,
          f.getD (subBase j.toNat + 3) 0, Vector.ofFn fun i : Fin 13 => f.getD (subBase j.toNat + 4 + i.val) 0⟩ := by
      simp only [segmentCodes, loadRecord, sub4, Vector.getElem_ofFn]
    rw [hload, hxMc, hNc, hfield 1 (by omega), hfield 2 (by omega), hfield 3 (by omega)]
    rfl

/-! ### DECODE as a whole -/

/-- The synthesis keeps the history and the decoded LARs (R194). -/
theorem synthesis_fold_keeps (l : List Nat) (s : State) :
    (l.foldl synthesizeSample s).dec.drp = s.dec.drp ∧ (l.foldl synthesizeSample s).work.larpp = s.work.larpp := by
  obtain ⟨_, _, _, _, _, h⟩ := synthesis_fold_frame l s
  rw [h]
  exact ⟨rfl, rfl⟩

/-- DECODE on the record of codes within their widths: they move its history, and their decoded LARs are kept (R239). -/
theorem decodeSteps_spec {s : State} {w : Work} (hw : CodesInWidth w)
    (h : ∀ n, n < 76 → s.readWord .prmD n = recordField w n) :
    (decodeSteps s).dec.drp = quarters.foldl (fun h j => nextHistory (segmentCodes w j) h) s.dec.drp ∧
    (decodeSteps s).dec.larppLast = decodedLars w.larc := by
  have hload : SameCodes w (stepPrmmask s).work := loadRecord_sameCodes s.work fun n hn => by
    have hlt := hw.recordField_lt hn
    rw [← h n hn] at hlt ⊢
    exact maskedRecord_eq hn hlt
  obtain ⟨hkept, hdrp⟩ := decodeSegments_spec (l := quarters) (s := stepPrmmask s) fun j =>
    (hload.segment j).symm ▸ hw.segment j
  have hcodes := hload.trans hkept
  simp only [hload.segment] at hdrp
  unfold decodeSteps
  generalize quarters.foldl decodeSegment (stepPrmmask s) = u at hdrp hcodes ⊢
  obtain ⟨hlarpp, -⟩ := stepDecoderefl_larpp .dec u
  have hdec := stepDecoderefl_dec .dec u
  generalize stepDecoderefl .dec u = v at hlarpp hdec ⊢
  obtain ⟨hdrp', hlarpp'⟩ := synthesis_fold_keeps (List.range 160) v
  rw [stepLarrotDec, onDec_dec]
  exact ⟨by rw [hdrp', hdec, hdrp]; rfl, by rw [hlarpp', hlarpp, hcodes.larc]⟩

/-- Settles O22: both sides move their history by the same codes, and both keep the LARs decoded from them. -/
theorem decoderFollowsEncoder : Obligations.DecoderFollowsEncoder := by
  intro s hstrap hlow hhigh hdp _
  have hlag : lagOk s.dec.nrp = true := Bool.and_eq_true_iff.mpr ⟨decide_eq_true hlow, decide_eq_true hhigh⟩
  obtain ⟨w, hw, hencdp, henclars, hrecord⟩ := encodeSteps_spec (s := startCommand s) hstrap
  have hencode : exec .encode s = .next (finishCommand (dropWork (encodeSteps (startCommand s)))) := rfl
  refine ⟨_, hencode, fun u hu hcopy => ?_⟩
  have hread : ∀ n, n < 76 → u.readWord .prmD n = recordField w n := fun n hn => by
    rw [hcopy n hn, ← hrecord n hn, readWord_finishCommand]
    exact State.readWord_congr (dropWork_mem _) (dropWork_epoch _) _ _
  obtain ⟨hdecdrp, hdeclars⟩ := decodeSteps_spec hw hread
  refine ⟨_, exec_decode_of_lagOk (hu ▸ hlag), ?_, ?_⟩
  · rw [finishCommand_enc, dropWork_enc, hencdp, startCommand_enc, hdp, ← hu, ← hdecdrp]
  · rw [finishCommand_enc, dropWork_enc, henclars, ← hdeclars]

end Sys2Proof.CodecAgreement

/-! PROOFS. Regular-pulse excitation (46_rpe.md): the weighting filter, the choice of the grid, the code of the block maximum and
the pulse codes, each over exact integers; the pulses back at their places. -/

namespace Sys2Proof.PulseExcitation

open Sys2Proof Sys2Proof.Machine Sys2Proof.Safety Sys2Proof.Addressing Sys2Proof.LpcAnalysis Sys2Proof.LarQuantizerInverse
  Sys2Proof.ShortTermFilters Sys2Proof.LagSearch Sys2Proof.CodecAgreement

/-! ### Sums of products whose terms have bounds of their own -/

/-- A sum of doubled products does not saturate where its start and the magnitudes of all its terms add up to an int32 value. -/
theorem toInt_macSum_of_sum_abs {pairs : List (Word16 × Word16)} {acc : Word32}
    (h : |acc.toInt| + (pairs.map fun p => |2 * (p.1.toInt * p.2.toInt)|).sum ≤ 2147483647) :
    (macSum acc pairs).toInt = acc.toInt + (pairs.map fun p => 2 * (p.1.toInt * p.2.toInt)).sum := by
  induction pairs generalizing acc with
  | nil => simp [macSum]
  | cons p ps ih =>
    simp only [List.map_cons, List.sum_cons] at h ⊢
    have hrest : 0 ≤ (ps.map fun p => |2 * (p.1.toInt * p.2.toInt)|).sum :=
      List.sum_nonneg fun x hx => by
        obtain ⟨q, -, rfl⟩ := List.mem_map.mp hx
        exact abs_nonneg _
    have hnew := abs_add_le acc.toInt (2 * (p.1.toInt * p.2.toInt))
    have hterm := abs_le.mp (show |2 * (p.1.toInt * p.2.toInt)| ≤ 2147483647 by linarith [abs_nonneg acc.toInt])
    have hsum := abs_le.mp (show |acc.toInt + 2 * (p.1.toInt * p.2.toInt)| ≤ 2147483647 by linarith)
    have hmul : (lMult p.1 p.2).toInt = 2 * (p.1.toInt * p.2.toInt) := by
      rw [toInt_lMult, if_neg]
      rintro ⟨h1, h2⟩
      rw [h1, h2] at hterm
      omega
    have hadd : (lAdd acc (lMult p.1 p.2)).toInt = acc.toInt + 2 * (p.1.toInt * p.2.toInt) := by
      rw [toInt_lAdd, hmul, clamp32_id (by omega) (by omega)]
    have hstep : macSum acc (p :: ps) = macSum (lAdd acc (lMult p.1 p.2)) ps := rfl
    rw [hstep, ih (by rw [hadd]; linarith), hadd, add_assoc]

theorem sumTo_le_sumTo {n : Nat} {f g : Nat → Int} (h : ∀ k, k < n → f k ≤ g k) : sumTo n f ≤ sumTo n g :=
  List.sum_le_sum fun k hk => h k (List.mem_range.mp hk)

theorem sumTo_mul_left (n : Nat) (c : Int) (f : Nat → Int) : sumTo n (fun k => c * f k) = c * sumTo n f :=
  List.sum_map_mul_left _ _ _

theorem sumTo_const (n : Nat) (c : Int) : sumTo n (fun _ => c) = n * c := by
  simp [sumTo]

/-- The pairs of two arrays, element by element. -/
theorem map_zip_toList {n : Nat} (v w : Vector Word16 n) (f : Int → Int → Int) :
    (v.toList.zip w.toList).map (fun p => f p.1.toInt p.2.toInt) = (List.range n).map fun k => f (val v k) (val w k) := by
  refine List.ext_getElem (by simp) fun k h1 h2 => ?_
  have hk : k < n := by simpa using h2
  simp [val, elt_eq _ hk]

/-- The sum over two arrays is exact where the magnitudes of all its terms add up to an int32 value. -/
theorem toInt_macSum_zip_of_sum_abs {n : Nat} {v w : Vector Word16 n} {acc : Word32}
    (h : |acc.toInt| + sumTo n (fun k => |2 * (val v k * val w k)|) ≤ 2147483647) :
    (macSum acc (v.toList.zip w.toList)).toInt = acc.toInt + 2 * sumTo n fun k => val v k * val w k := by
  rw [sumTo, ← map_zip_toList v w fun x y => |2 * (x * y)|] at h
  rw [toInt_macSum_of_sum_abs h, map_zip_toList v w fun x y => 2 * (x * y), ← sumTo_mul_left, sumTo]

/-! ### WEIGHT (R210) -/

/-- The sub-segment between zeros (R210). -/
def padded (e : Vector Word16 40) : Vector Word16 50 :=
  Vector.ofFn fun k : Fin 50 => if 5 ≤ k.val ∧ k.val ≤ 44 then elt e (k.val - 5) else 0

theorem val_padded (e : Vector Word16 40) {i : Nat} (hi : i < 50) :
    val (padded e) i = if 5 ≤ i ∧ i < 45 then val e (i - 5) else 0 := by
  rw [val, padded, elt_ofFn _ hi, apply_ite BitVec.toInt]
  exact if_congr ⟨fun h => ⟨h.1, Nat.lt_succ_of_le h.2⟩, fun h => ⟨h.1, Nat.le_of_lt_succ h.2⟩⟩ rfl rfl

/-- The eleven samples that the filter sees at sample k. -/
def filterWindow (wt : Vector Word16 50) (k : Nat) : Vector Word16 11 := Vector.ofFn fun i : Fin 11 => elt wt (k + i.val)

theorem val_filterWindow (wt : Vector Word16 50) (k : Nat) {i : Nat} (hi : i < 11) :
    val (filterWindow wt k) i = val wt (k + i) := congrArg BitVec.toInt (elt_ofFn _ hi)

theorem weightSum_eq (wt : Vector Word16 50) {k : Nat} (hk : k < 40) :
    weightSum wt k = macSum 8192 ((filterWindow wt k).toList.zip tblH.toList) := by
  have hwindow : (wt.toList.drop k).take 11 = (filterWindow wt k).toList := by
    refine List.ext_getElem (by simp; omega) fun i h1 h2 => ?_
    have hi : k + i < 50 := by simp at h2; omega
    simp [filterWindow, elt_eq _ hi]
  rw [weightSum, hwindow]

/-- The table of R216 as integers, and the sum of its magnitudes. -/
theorem val_tblH : (∀ i, i < 11 →
      val tblH i = [-134, -374, 0, 2054, 5741, 8192, 5741, 2054, 0, -374, -134].getD i 0) ∧
    sumTo 11 (fun i => |val tblH i|) = 24798 := by decide

/-- The eleven accumulations do not saturate: the magnitudes of the table add up to 24798 (R210). -/
theorem toInt_weightSum (wt : Vector Word16 50) {k : Nat} (hk : k < 40) :
    (weightSum wt k).toInt = 8192 + 2 * sumTo 11 fun i => val wt (k + i) * val tblH i := by
  have h8192 : (8192 : Word32).toInt = 8192 := rfl
  have hbound : sumTo 11 (fun i => |2 * (val (filterWindow wt k) i * val tblH i)|) ≤ 65536 * 24798 := by
    rw [← val_tblH.2, ← sumTo_mul_left]
    refine sumTo_le_sumTo fun i _ => ?_
    have hx : |val (filterWindow wt k) i| ≤ 32768 := abs_le.mpr (by have := val_range (filterWindow wt k) i; omega)
    rw [abs_mul, abs_mul, abs_two]
    linarith [mul_le_mul_of_nonneg_right hx (abs_nonneg (val tblH i))]
  rw [weightSum_eq wt hk, toInt_macSum_zip_of_sum_abs (by rw [h8192, abs_of_nonneg (by omega)]; linarith), h8192,
    sumTo_congr fun i hi => by rw [val_filterWindow wt k hi]]

/-- The two saturating doublings and the shift are a clamp of the quotient. -/
theorem toInt_weighted {wt : Vector Word16 50} {k : Nat} {sum : Int} (h : (weightSum wt k).toInt = 8192 + 2 * sum) :
    (narrow (lShr (weightScaled wt k) 16)).toInt = clamp16 ((sum + 4096) / 8192) := by
  have hr := toInt_range32 (weightSum wt k)
  simp only [weightScaled, toInt_narrow, toInt_lShr_sixteen, toInt_lAdd]
  unfold clamp16 clamp32
  omega

/-- Settles O53: no accumulation saturates, and where a doubling does the sample is at that end of its range. -/
theorem weightResult : Obligations.WeightResult := by
  intro s
  obtain ⟨_, _, _, _, hframe⟩ := stepWeight_frame s
  refine ⟨stepWeight s, rfl, by rw [hframe], by rw [hframe]; exact sameMemory_of_eq rfl rfl, fun k => ?_⟩
  have hx : (stepWeight s).work.x[k] = narrow (lShr (weightScaled (padded s.work.e) k.val) 16) := by
    simp [stepWeight, padded]
  have hsum : sumTo 11 (fun i => val (padded s.work.e) (k.val + i) * val tblH i) = sumTo 11 (fun i =>
      [-134, -374, 0, 2054, 5741, 8192, 5741, 2054, 0, -374, -134].getD i 0 *
        (if 5 ≤ k.val + i ∧ k.val + i < 45 then val s.work.e (k.val + i - 5) else 0)) :=
    sumTo_congr fun i hi => by rw [val_padded _ (by omega), val_tblH.1 i hi, mul_comm]
  rw [hx, toInt_weighted (toInt_weightSum _ k.isLt), hsum]

/-! ### GRIDSEL (R211) -/

/-- The samples of a grid shifted right by 2 (R211). -/
def shiftedGrid (x : Vector Word16 40) (m : Nat) : Vector Word16 13 := (gridSamples x m).map (shr16 · 2)

theorem val_shiftedGrid (x : Vector Word16 40) (m : Nat) {i : Nat} (hi : i < 13) :
    val (shiftedGrid x m) i = val x (m + 3 * i) / 4 := by
  rw [val, elt_eq _ hi, shiftedGrid, Vector.getElem_map, toInt_shr16_two, gridSamples, Vector.getElem_ofFn]
  rfl

/-- A shifted sample is at most 2^13 in magnitude, so the thirteen squares add up exactly (R211). -/
theorem toInt_gridEnergy (s : State) (m : Nat) : (gridEnergy s.work.x m).toInt = gridSum s m := by
  have h0 : (0 : Word32).toInt = 0 := rfl
  have hpairs : gridEnergy s.work.x m =
      macSum 0 ((shiftedGrid s.work.x m).toList.zip (shiftedGrid s.work.x m).toList) := by
    simp only [gridEnergy, shiftedGrid, Vector.toList_map]
  have hbound : sumTo 13 (fun i => |2 * (val (shiftedGrid s.work.x m) i * val (shiftedGrid s.work.x m) i)|) ≤
      sumTo 13 fun _ => 134217728 := by
    refine sumTo_le_sumTo fun i hi => ?_
    have hx : |val (shiftedGrid s.work.x m) i| ≤ 8192 := by
      rw [val_shiftedGrid _ _ hi, abs_le]
      have := val_range s.work.x (m + 3 * i)
      omega
    rw [abs_mul, abs_mul, abs_two]
    linarith [mul_le_mul hx hx (abs_nonneg _) (by norm_num)]
  rw [sumTo_const] at hbound
  rw [hpairs, toInt_macSum_zip_of_sum_abs (by rw [h0, abs_zero]; omega), h0, zero_add, gridSum,
    sumTo_congr fun i hi => by rw [val_shiftedGrid _ _ hi]]

theorem gridSum_nonneg (s : State) (m : Nat) : 0 ≤ gridSum s m := by
  have hsquares : 0 ≤ sumTo 13 fun i => val s.work.x (m + 3 * i) / 4 * (val s.work.x (m + 3 * i) / 4) :=
    List.sum_nonneg fun y hy => by
      obtain ⟨i, -, rfl⟩ := List.mem_map.mp hy
      exact mul_self_nonneg _
  rw [gridSum]
  omega

/-- The pair holds the smallest index of largest value among those below hi, with that value. -/
def Leading (f : Nat → Word32) (hi : Nat) (best : Word16 × Word32) : Prop :=
  ∃ M, M < hi ∧ best = (BitVec.ofNat 16 M, f M) ∧ (∀ m, m < hi → (f m).toInt ≤ (f M).toInt) ∧
    ∀ m, m < M → (f m).toInt < (f M).toInt

/-- One more index: it leads where its value is larger than all before. -/
theorem Leading.next {f : Nat → Word32} {hi : Nat} {best : Word16 × Word32} (h : Leading f hi best) :
    Leading f (hi + 1) (if (f hi).toInt > best.2.toInt then (BitVec.ofNat 16 hi, f hi) else best) := by
  obtain ⟨M, hM, rfl, hmax, hfirst⟩ := h
  split
  · next hlarger =>
    refine ⟨hi, Nat.lt_succ_self hi, rfl, fun m hm => ?_, fun m hm => (hmax m hm).trans_lt hlarger⟩
    rcases Nat.lt_succ_iff_lt_or_eq.mp hm with hbelow | rfl
    · exact (hmax m hbelow).trans hlarger.le
    · exact le_refl _
  · next hnot =>
    refine ⟨M, Nat.lt_succ_of_lt hM, rfl, fun m hm => ?_, hfirst⟩
    rcases Nat.lt_succ_iff_lt_or_eq.mp hm with hbelow | rfl
    · exact hmax m hbelow
    · exact not_lt.mp hnot

/-- The start of the search stands for grid 0, also where the energy of grid 0 is 0 and the comparison fails. -/
theorem leading_start {f : Nat → Word32} (h : 0 ≤ (f 0).toInt) :
    Leading f 1 (if (f 0).toInt > (0 : Word32).toInt then (BitVec.ofNat 16 0, f 0) else (0, 0)) := by
  have hfirst : Leading f 1 (BitVec.ofNat 16 0, f 0) :=
    ⟨0, Nat.one_pos, rfl, fun m hm => by rw [Nat.lt_one_iff.mp hm], fun m hm => absurd hm (Nat.not_lt_zero m)⟩
  split
  · exact hfirst
  · next hnot =>
    have hzero : f 0 = 0 := BitVec.eq_of_toInt_eq (le_antisymm (not_lt.mp hnot) h)
    rwa [hzero] at hfirst

/-- The search over the indices below n + 1, of values the first of which is not negative. -/
theorem leading_foldl {f : Nat → Word32} (h : 0 ≤ (f 0).toInt) (n : Nat) :
    Leading f (n + 1) ((List.range (n + 1)).foldl
      (fun best m => if (f m).toInt > best.2.toInt then (BitVec.ofNat 16 m, f m) else best) (0, 0)) := by
  induction n with
  | zero => exact leading_start h
  | succ n ih =>
    rw [List.range_succ, List.foldl_append]
    exact ih.next

theorem selectGrid_leading (s : State) : Leading (gridEnergy s.work.x) 4 (selectGrid s.work.x) := by
  have h0 : 0 ≤ (gridEnergy s.work.x 0).toInt := by
    rw [toInt_gridEnergy]
    exact gridSum_nonneg s 0
  exact leading_foldl h0 3

/-- Settles O54: the energies are exact, and the strict comparison keeps the smallest grid of largest energy. -/
theorem gridselResult : Obligations.GridselResult := by
  intro j s
  obtain ⟨M, hM, hbest, hmax, hfirst⟩ := selectGrid_leading s
  have hMc : (selectGrid s.work.x).1.toNat = M := by
    rw [hbest, BitVec.toNat_ofNat]
    omega
  simp only [toInt_gridEnergy] at hmax hfirst
  obtain ⟨_, _, _, _, hstep⟩ := stepGridsel_values j s
  refine ⟨stepGridsel j s, rfl, by rw [hstep], by rw [hstep]; exact sameMemory_of_eq rfl rfl, fun m hm => ?others, ?_⟩
  case others =>
    rw [hstep]
    exact getElem_set4_ne _ j _ m.isLt hm
  · rw [hstep]
    simp only [sub4_set4, gridOf, hMc]
    exact ⟨hM, hmax, hfirst, fun i => by simp [gridSamples]⟩

/-! ### XMAXQ and EXPMANT (R212, R213) -/

/-- The number of significant bits of `xmax >> 9` in the words of R212. -/
def blockBits (xmax : Int) : Nat := if xmax < 512 then 0 else Nat.log2 xmax.toNat - 8

theorem maxCode_eq (xmax : Int) : maxCode xmax = xmax / 2 ^ (blockBits xmax + 5) + 8 * blockBits xmax := rfl

/-- The bounds that `countBits_spec` gives leave one number of bits. -/
theorem blockBits_eq {x : Int} {e : Nat} (hlt : x < 512 * 2 ^ e) (hge : e = 0 ∨ 256 * 2 ^ e ≤ x) : blockBits x = e := by
  unfold blockBits
  by_cases hsmall : x < 512
  · rw [if_pos hsmall]
    by_contra hne
    have hp : (2 : Int) ^ 1 ≤ 2 ^ e := pow_le_pow_right₀ (by norm_num) (by omega)
    omega
  · have hge' : 256 * 2 ^ e ≤ x := hge.elim (fun he => by rw [he] at hlt; omega) id
    have hlog : Nat.log2 x.toNat = e + 8 := by
      rw [Nat.log2_eq_iff (by omega), show e + 8 + 1 = e + 9 by omega, pow_add, pow_add]
      zify
      omega
    rw [if_neg hsmall, hlog, Nat.add_sub_cancel]

/-- The code of R212: no operation saturates, and the sum stays in 0..63. -/
theorem toInt_xmaxCode {xmax : Word16} (h0 : 0 ≤ xmax.toInt) : (xmaxCode xmax).toInt = maxCode xmax.toInt := by
  have h5 : (5 : Word16).toInt = 5 := rfl
  have hle := (toInt_range16 xmax).2
  obtain ⟨e, he, hexp, hlt, hge⟩ := countBits_spec h0
  have hshift : (add (countBits xmax).exp 5).toInt = ((e + 5 : Nat) : Int) := by
    rw [toInt_add, hexp, h5, clamp16_id (by omega) (by omega), Nat.cast_add, Nat.cast_ofNat]
  have hq : 0 ≤ xmax.toInt / 2 ^ (e + 5) ∧ xmax.toInt / 2 ^ (e + 5) < 16 := by
    have hp : (0 : Int) < 2 ^ (e + 5) := by positivity
    refine ⟨Int.ediv_nonneg h0 hp.le, Int.ediv_lt_of_lt_mul hp ?_⟩
    rw [pow_add]
    linarith
  rw [maxCode_eq, blockBits_eq hlt hge, xmaxCode, toInt_add, toInt_shr16 (by omega), hshift, Int.toNat_natCast,
    toInt_shl16_three, hexp, clamp16_id (x := 8 * (e : Int)) (by omega) (by omega), clamp16_id (by omega) (by omega)]

theorem xmaxCode_lt {xmax : Word16} (h0 : 0 ≤ xmax.toInt) : (xmaxCode xmax).toNat < 64 := by
  obtain ⟨e, q, he, hq, -, hcode, -⟩ := xmaxCode_spec h0
  exact toNat_lt_of_toInt (by omega) (by omega)

/-- The columns `exp` and `mant` of the table of R217, code by code. -/
theorem toInt_expMant {c : Word16} (h : c.toNat < 64) :
    (expMant c).1.toInt = codeExp c.toInt ∧ (expMant c).2.toInt = codeMant c.toInt := by
  have htable : ∀ m : Fin 64, (expMant (BitVec.ofNat 16 m.val)).1.toInt = codeExp (BitVec.ofNat 16 m.val).toInt ∧
      (expMant (BitVec.ofNat 16 m.val)).2.toInt = codeMant (BitVec.ofNat 16 m.val).toInt := by decide +kernel
  have hc := htable ⟨c.toNat, h⟩
  rwa [BitVec.ofNat_toNat, BitVec.setWidth_eq] at hc

/-- Settles O55: the loop counts bits, and the split of a code is its row of the table. -/
theorem maximumCoding : Obligations.MaximumCoding := by
  intro j s
  refine ⟨?xmaxq, ?expmant⟩
  case xmaxq =>
    have hmax := isMax_maxAbs s.work.xM
    have hxmax : (stepXmaxq j s).work.xmax = maxAbs s.work.xM.toList := rfl
    have hcode : (stepXmaxq j s).work.xmaxc = set4 s.work.xmaxc j (xmaxCode (maxAbs s.work.xM.toList)) := rfl
    obtain ⟨_, _, _, _, _, hframe⟩ := stepXmaxq_frame j s
    refine ⟨stepXmaxq j s, rfl, by rw [hframe], by rw [hframe]; exact sameMemory_of_eq rfl rfl, fun m hm => ?others,
      hxmax ▸ hmax, ?_⟩
    case others =>
      rw [hcode]
      exact getElem_set4_ne _ j _ m.isLt hm
    · rw [hcode, hxmax, sub4_set4]
      exact ⟨toInt_xmaxCode hmax.1, xmaxCode_lt hmax.1⟩
  case expmant =>
    refine ⟨stepExpmant j s, rfl, rfl, sameMemory_of_eq rfl rfl, fun h => ?_⟩
    rw [stepExpmant_values]
    exact toInt_expMant h

/-! ### APCMQ (R214) -/

/-- The shift count `6 - exp` of APCMQ and APCMINV. -/
theorem toInt_sub_six {exp : Word16} (hlow : -4 ≤ exp.toInt) (hhigh : exp.toInt ≤ 6) :
    (sub 6 exp).toInt = 6 - exp.toInt := by
  have h6 : (6 : Word16).toInt = 6 := rfl
  rw [toInt_sub, h6, clamp16_id (by omega) (by omega)]

theorem toInt_shr16_twelve (x : Word16) : (shr16 x 12).toInt = x.toInt / 4096 := toInt_shr16 (by decide)

/-- The table `NRFAC` of R216 as integers; every entry is positive. -/
theorem toInt_entry_tblNRFAC {mant : Word16} (h : mant.toNat < 8) :
    (entry tblNRFAC mant).toInt = [29128, 26215, 23832, 21846, 20165, 18725, 17476, 16384].getD mant.toNat 0 ∧
      0 < (entry tblNRFAC mant).toInt := by
  have htable : ∀ i : Fin 8,
      (elt tblNRFAC i.val).toInt = [29128, 26215, 23832, 21846, 20165, 18725, 17476, 16384].getD i.val 0 ∧
        0 < (elt tblNRFAC i.val).toInt := by decide
  exact htable ⟨mant.toNat, h⟩

/-- Scaled, floored, and moved by 4: after the clamp of the left shift nothing saturates (R214). -/
theorem toInt_pulseCode {exp mant x : Word16} (hlow : -4 ≤ exp.toInt) (hhigh : exp.toInt ≤ 6) (hmant : mant.toNat < 8) :
    (pulseCode exp mant x).toInt =
      clamp16 (x.toInt * 2 ^ (6 - exp.toInt).toNat) *
        [29128, 26215, 23832, 21846, 20165, 18725, 17476, 16384].getD mant.toNat 0 / 32768 / 4096 + 4 := by
  have h4 : (4 : Word16).toInt = 4 := rfl
  obtain ⟨hfactor, hpos⟩ := toInt_entry_tblNRFAC hmant
  have hcount := toInt_sub_six hlow hhigh
  have hmoved : (shl16 x (sub 6 exp)).toInt = clamp16 (x.toInt * 2 ^ (6 - exp.toInt).toNat) := by
    rw [toInt_shl16 (by omega), hcount]
  have hscaled : (pulseScaled exp mant x).toInt =
      clamp16 (x.toInt * 2 ^ (6 - exp.toInt).toNat) * (entry tblNRFAC mant).toInt / 32768 := by
    rw [pulseScaled, toInt_mult, if_neg (by omega), hmoved]
  have hrange := toInt_range16 (pulseScaled exp mant x)
  rw [← hfactor, ← hscaled, pulseCode, toInt_add, toInt_shr16_twelve, h4, clamp16_id (by omega) (by omega)]

/-- A maximum is one value. -/
theorem isMax_unique {n : Nat} {f : Nat → Int} {m m' : Int} (h : IsMax n f m) (h' : IsMax n f m') : m = m' := by
  have hle : ∀ {m m' : Int}, IsMax n f m → IsMax n f m' → m ≤ m' := by
    rintro m m' ⟨-, -, hmax⟩ ⟨h0, hle, -⟩
    rcases hmax with rfl | ⟨k, hk, rfl⟩
    · exact h0
    · exact hle k hk
  exact le_antisymm (hle h h') (hle h' h)

/-- `exp` and `mant` of R217 for the largest magnitude are those that XMAXQ and EXPMANT compute. -/
theorem expMant_of_isMax {xM : Vector Word16 13} {exp mant : Word16} {m : Int} (hmax : IsMax 13 (fun i => mag (val xM i)) m)
    (hexp : exp.toInt = codeExp (maxCode m)) (hmant : mant.toInt = codeMant (maxCode m)) :
    expMant (xmaxCode (maxAbs xM.toList)) = (exp, mant) := by
  have hmax' := isMax_maxAbs xM
  obtain ⟨hexp', hmant'⟩ := toInt_expMant (xmaxCode_lt hmax'.1)
  rw [toInt_xmaxCode hmax'.1, isMax_unique hmax' hmax] at hexp' hmant'
  exact Prod.ext (BitVec.eq_of_toInt_eq (hexp'.trans hexp.symm)) (BitVec.eq_of_toInt_eq (hmant'.trans hmant.symm))

/-- A sample no larger than a maximum that fits after the shift fits itself: -32768 has the magnitude 32767, which only the shift
by 0 leaves in int16 (R214). -/
theorem shifted_range {x largest p : Int} (hx : -32768 ≤ x) (hp : 1 ≤ p) (hmag : mag x ≤ largest)
    (hfit : largest * p ≤ 32767) : -32768 ≤ x * p ∧ x * p ≤ 32767 := by
  by_cases hmin : x = -32768
  · subst hmin
    have hlargest : 32767 ≤ largest := hmag
    obtain rfl : p = 1 := by nlinarith
    omega
  · have habs : -largest ≤ x ∧ x ≤ largest := by
      unfold mag at hmag
      split at hmag <;> omega
    constructor <;> nlinarith

/-- With `exp` and `mant` of the largest magnitude no left shift overflows and every code is in 0..7 (R214). -/
theorem pulseCode_of_isMax {xM : Vector Word16 13} {exp mant : Word16} {m : Int}
    (hmax : IsMax 13 (fun i => mag (val xM i)) m) (hexp : exp.toInt = codeExp (maxCode m))
    (hmant : mant.toInt = codeMant (maxCode m)) (hlow : -4 ≤ exp.toInt) (hhigh : exp.toInt ≤ 6) (i : Fin 13) :
    -32768 ≤ xM[i].toInt * 2 ^ (6 - exp.toInt).toNat ∧ xM[i].toInt * 2 ^ (6 - exp.toInt).toNat ≤ 32767 ∧
      (pulseCode exp mant xM[i]).toNat < 8 := by
  obtain ⟨h0, hle, -⟩ := maxAbs_spec xM.toList
  obtain ⟨e, q, he, hq, heq, hcode, hlt⟩ := xmaxCode_spec h0
  have hword : xmaxCode (maxAbs xM.toList) = BitVec.ofNat 16 (8 * e + q) := by
    apply BitVec.eq_of_toInt_eq
    rw [hcode, ← BitVec.ofInt_natCast, toInt_ofInt16 (by omega) (by omega), Nat.cast_add, Nat.cast_mul, Nat.cast_ofNat]
  obtain ⟨hcount, hfactor, hfit, hproduct⟩ := largestOfCode_range ⟨e, he⟩ ⟨q, hq⟩ heq
  dsimp only at hcount hfactor hfit hproduct
  rw [← hword, expMant_of_isMax hmax hexp hmant] at hcount hfactor hfit hproduct
  have hx : mag xM[i].toInt ≤ (q + 1) * 2 ^ (e + 5) - 1 := Int.le_sub_one_of_lt ((hle _ (by simp)).trans_lt hlt)
  obtain ⟨hfitlow, hfithigh⟩ := shifted_range (toInt_range16 _).1 (one_le_pow₀ (by norm_num)) hx hfit
  rw [← toInt_sub_six hlow hhigh]
  exact ⟨hfitlow, hfithigh, pulseCode_lt hx hcount hfactor hfit hproduct⟩

theorem exec_apcmq_of_lt {j : BitVec 2} {s : State} (h : s.work.mant.toNat < 8) :
    exec (.apcmq j) s = .next (stepApcmq j s) :=
  runStep_next.mpr ⟨decide_eq_true h, rfl⟩

/-! ### APCMINV (R215) -/

/-- The table `FAC` of R216 by its regularity. -/
theorem toInt_entry_tblFAC {mant : Word16} (h : mant.toNat < 8) :
    (entry tblFAC mant).toInt = 2048 * ((mant.toNat : Int) + 9) - 1 := by
  have htable : ∀ i : Fin 8, (elt tblFAC i.val).toInt = 2048 * ((i.val : Int) + 9) - 1 := by decide
  exact htable ⟨mant.toNat, h⟩

/-- The centred level of a pulse code, at full scale (R215). -/
theorem toInt_centredLevel {code : Word16} (h0 : 0 ≤ code.toInt) (h7 : code.toInt ≤ 7) :
    (shl16 (sub (shl16 code 1) 7) 12).toInt = (2 * code.toInt - 7) * 4096 := by
  have hseven : (7 : Word16).toInt = 7 := rfl
  have htwelve : (2 : Int) ^ (12 : Word16).toInt.toNat = 4096 := rfl
  have hlevel : (sub (shl16 code 1) 7).toInt = 2 * code.toInt - 7 := by
    rw [toInt_sub, toInt_shl16_one, hseven, clamp16_id (x := 2 * code.toInt) (by omega) (by omega),
      clamp16_id (by omega) (by omega)]
  rw [toInt_shl16 (by decide), hlevel, htwelve, clamp16_id (by omega) (by omega)]

/-- The rounding constant of the shift by `6 - exp`: half of its divisor, 0 where there is no shift (R215). -/
theorem toInt_inverseRounding {exp : Word16} (hlow : -4 ≤ exp.toInt) (hhigh : exp.toInt ≤ 6) :
    (inverseRounding exp).toInt = (if exp.toInt = 6 then 0 else 2 ^ (5 - exp.toInt).toNat) ∧
      0 ≤ (inverseRounding exp).toInt ∧ (inverseRounding exp).toInt ≤ 512 := by
  have h1 : (1 : Word16).toInt = 1 := rfl
  have hcount : (sub (sub 6 exp) 1).toInt = 5 - exp.toInt := by
    rw [toInt_sub, toInt_sub_six hlow hhigh, h1, clamp16_id (by omega) (by omega)]
    omega
  by_cases h6 : exp.toInt = 6
  · have hzero : (inverseRounding exp).toInt = 0 := by
      rw [inverseRounding, toInt_shl16_neg (by omega), hcount, h6]
      rfl
    rw [hzero, if_pos h6]
    omega
  · have hpow : (2 : Int) ^ (5 - exp.toInt).toNat ≤ 2 ^ 9 := pow_le_pow_right₀ (by norm_num) (by omega)
    have hpos : (0 : Int) < 2 ^ (5 - exp.toInt).toNat := by positivity
    have hval : (inverseRounding exp).toInt = 2 ^ (5 - exp.toInt).toNat := by
      rw [inverseRounding, toInt_shl16 (by omega), hcount, h1, one_mul, clamp16_id (by omega) (by omega)]
    rw [hval, if_neg h6]
    omega

theorem round15_range {x c : Int} (h : |x| ≤ 32768 * c) : -c ≤ round15 x ∧ round15 x ≤ c := by
  rw [abs_le] at h
  unfold round15
  omega

/-- The scaled level of a code in 0..7 is at most 28672 in magnitude, which leaves room for the rounding constant (R215). -/
theorem toInt_scaledLevel {mant code : Word16} (hmant : mant.toNat < 8) (hcode : code.toNat < 8) :
    (multR (entry tblFAC mant) (shl16 (sub (shl16 code 1) 7) 12)).toInt =
        round15 ((2048 * ((mant.toNat : Int) + 9) - 1) * ((2 * code.toInt - 7) * 4096)) ∧
      -28672 ≤ (multR (entry tblFAC mant) (shl16 (sub (shl16 code 1) 7) 12)).toInt ∧
      (multR (entry tblFAC mant) (shl16 (sub (shl16 code 1) 7) 12)).toInt ≤ 28672 := by
  have hcode' : 0 ≤ code.toInt ∧ code.toInt ≤ 7 := by rw [BitVec.toInt_eq_toNat_cond]; omega
  have hlevel := toInt_centredLevel hcode'.1 hcode'.2
  have hfactor := toInt_entry_tblFAC hmant
  rw [toInt_multR_of_ne _ (by omega), ← hfactor, ← hlevel]
  have habs : |(entry tblFAC mant).toInt| ≤ 32768 ∧ |(shl16 (sub (shl16 code 1) 7) 12).toInt| ≤ 28672 :=
    ⟨abs_le.mpr (by omega), abs_le.mpr (by omega)⟩
  refine ⟨rfl, round15_range ?_⟩
  rw [abs_mul]
  exact mul_le_mul habs.1 habs.2 (abs_nonneg _) (by norm_num)

/-- No operation of APCMINV saturates on a code in 0..7 (R215). -/
theorem toInt_pulseValue {exp mant code : Word16} (hlow : -4 ≤ exp.toInt) (hhigh : exp.toInt ≤ 6) (hmant : mant.toNat < 8)
    (hcode : code.toNat < 8) : (pulseValue exp mant code).toInt = pulseLevel exp.toInt mant.toNat code.toInt := by
  obtain ⟨hlevel, hllow, hlhigh⟩ := toInt_scaledLevel hmant hcode
  obtain ⟨hrounding, hrlow, hrhigh⟩ := toInt_inverseRounding hlow hhigh
  have hcount := toInt_sub_six hlow hhigh
  rw [pulseValue, toInt_shr16 (by omega), hcount, pulseSum, toInt_add, clamp16_id (by omega) (by omega), hlevel,
    hrounding, pulseLevel]

/-- Settles O56: each code and each value by itself; the largest magnitude fits its own scaling. -/
theorem pulseCoding : Obligations.PulseCoding := by
  intro j s hlow hhigh hmant
  refine ⟨?apcmq, ?apcminv⟩
  case apcmq =>
    obtain ⟨_, _, _, hstep⟩ := stepApcmq_values j s
    have hcodes : (stepApcmq j s).work.xMc = set4 s.work.xMc j (pulseCodes s.work.exp s.work.mant s.work.xM) := by
      rw [hstep]
    refine ⟨stepApcmq j s, exec_apcmq_of_lt hmant, by rw [hstep], by rw [hstep]; exact sameMemory_of_eq rfl rfl,
      fun m hm => ?others, fun i => ?_⟩
    case others =>
      rw [hcodes]
      exact getElem_set4_ne _ j _ m.isLt hm
    · have hpulse : (sub4 (stepApcmq j s).work.xMc j)[i] = pulseCode s.work.exp s.work.mant s.work.xM[i] := by
        rw [hcodes, sub4_set4]
        simp [pulseCodes]
      rw [hpulse]
      exact ⟨toInt_pulseCode hlow hhigh hmant,
        fun ⟨m, hmax, hexp, hmant'⟩ => pulseCode_of_isMax hmax hexp hmant' hlow hhigh i⟩
  case apcminv =>
    obtain ⟨_, _, _, _, hstep⟩ := stepApcminv_values j s
    refine ⟨stepApcminv j s, exec_apcminv_of_lt hmant, by rw [hstep], by rw [hstep]; exact sameMemory_of_eq rfl rfl,
      fun i hcode => ?_⟩
    have hpulse : (stepApcminv j s).work.xMp[i] = pulseValue s.work.exp s.work.mant (sub4 s.work.xMc j)[i] := by
      rw [hstep]
      simp [pulses]
    rw [hpulse, toInt_pulseValue hlow hhigh hmant hcode]

/-! ### GRIDPOS and INVAPCM (R218, R219) -/

/-- A grid below 4 takes the thirteen pulses to places below 40, and no two of them to the same (R218). -/
theorem positioned_positionPulses {M : Nat} (hM : M < 4) (xMp : Vector Word16 13) :
    Positioned (positionPulses M xMp) M (val xMp) := by
  constructor
  · intro i hi
    have hindex : (M + 3 * i - M) / 3 = i := by omega
    rw [val, positionPulses, elt_ofFn _ (by omega), if_pos (by dsimp only; omega)]
    dsimp only
    rw [hindex, val]
  · intro k hk hother
    have hnone : ¬ (M ≤ k ∧ (k - M) % 3 = 0 ∧ (k - M) / 3 < 13) := by
      rintro ⟨hle, hmod, hlt⟩
      exact hother _ hlt (by omega)
    rw [val, positionPulses, elt_ofFn _ hk, if_neg hnone]
    rfl

/-- Only the thirteen values count. -/
theorem positioned_congr {out : Vector Word16 40} {M : Nat} {y y' : Nat → Int} (h : Positioned out M y)
    (heq : ∀ i, i < 13 → y i = y' i) : Positioned out M y' :=
  ⟨fun i hi => (h.1 i hi).trans (heq i hi), h.2⟩

theorem stepGridpos_enc (j : BitVec 2) (s : State) : stepGridpos .enc j s =
    { s with work := { s.work with ep := positionPulses (sub4 s.work.Mc j).toNat s.work.xMp } } := rfl

theorem stepGridpos_dec (j : BitVec 2) (s : State) : stepGridpos .dec j s =
    { s with work := { s.work with erp := positionPulses (sub4 s.work.Mc j).toNat s.work.xMp } } := rfl

/-- EXPMANT and APCMINV: the pulse values of the codes (R213, R215). -/
theorem decodedPulses_frame (j : BitVec 2) (s : State) :
    ∃ y0 y1 y2 y3 y4 y5, stepApcminv j (stepExpmant j s) = { s with work := { s.work with
      exp := y0, mant := y1, temp1 := y2, temp2 := y3, temp3 := y4, temp := y5
      xMp := pulses (expMant (sub4 s.work.xmaxc j)).1 (expMant (sub4 s.work.xmaxc j)).2 (sub4 s.work.xMc j) } } := by
  obtain ⟨_, _, _, _, h⟩ := stepApcminv_values j (stepExpmant j s)
  rw [h, stepExpmant_values]
  exact ⟨_, _, _, _, _, _, rfl⟩

theorem exec_invapcm_of_lt {side : Side} {j : BitVec 2} {s : State} (hMc : (sub4 s.work.Mc j).toNat < 4)
    (hcode : (sub4 s.work.xmaxc j).toNat < 64) : exec (.invapcm side j) s = .next (stepInvapcm side j s) :=
  runStep_next.mpr ⟨Bool.and_eq_true_iff.mpr ⟨decide_eq_true (stepExpmant_mant_lt hcode), decide_eq_true hMc⟩, rfl⟩

/-- The three steps run one after another are the composite (R219). -/
theorem runAll_invapcm {side : Side} {j : BitVec 2} {s : State} (hMc : (sub4 s.work.Mc j).toNat < 4)
    (hcode : (sub4 s.work.xmaxc j).toNat < 64) :
    runAll [.expmant j, .apcminv j, .gridpos side j] s = .next (stepInvapcm side j s) := by
  have hexpmant : exec (.expmant j) s = .next (stepExpmant j s) := rfl
  have hgridpos : exec (.gridpos side j) (stepApcminv j (stepExpmant j s)) = .next (stepInvapcm side j s) :=
    exec_gridpos_of_lt hMc
  rw [runAll_cons hexpmant, runAll_cons (exec_apcminv_of_lt (stepExpmant_mant_lt hcode)), runAll_cons hgridpos]
  rfl

theorem codeExp_range {c : Int} (h0 : 0 ≤ c) (h : c < 64) : -4 ≤ codeExp c ∧ codeExp c ≤ 6 := by
  unfold codeExp
  split_ifs <;> omega

/-- The values of R217: INVAPCM splits the code of the maximum and decodes each pulse code by it. -/
theorem val_pulses {c : Word16} (h : c.toNat < 64) {xMc : Vector Word16 13} (hxMc : ∀ i : Fin 13, xMc[i].toNat < 8)
    {i : Nat} (hi : i < 13) :
    val (pulses (expMant c).1 (expMant c).2 xMc) i = pulseLevel (codeExp c.toInt) (codeMant c.toInt) (val xMc i) := by
  obtain ⟨hexp, hmant⟩ := toInt_expMant h
  have h0 := toInt_nonneg_of_lt h
  obtain ⟨hlow, hhigh⟩ := codeExp_range h0 (by have := toNat_toInt_of_nonneg h0; omega)
  obtain ⟨hm0, hm8⟩ := (toInt_expMant_range c).2 h0
  have hlt : (expMant c).2.toNat < 8 := toNat_lt_of_toInt hm0 hm8
  have hmant' : ((expMant c).2.toNat : Int) = codeMant c.toInt := by
    rw [← hmant, ← toNat_toInt_of_nonneg hm0, Int.toNat_of_nonneg hm0]
  rw [val, pulses, elt_ofFn _ hi, toInt_pulseValue (by omega) (by omega) hlt (hxMc ⟨i, hi⟩), hexp, hmant', val, elt_eq _ hi]
  rfl

/-- Settles O57: GRIDPOS by itself, and INVAPCM as the run of its three steps. -/
theorem pulsePositions : Obligations.PulsePositions := by
  intro side j s hMc
  refine ⟨?gridpos, fun hcode hxMc => ?invapcm⟩
  case gridpos =>
    have hplaced := positioned_positionPulses hMc s.work.xMp
    have hexec := exec_gridpos_of_lt (side := side) hMc
    cases side with
    | enc =>
      rw [stepGridpos_enc] at hexec
      exact ⟨_, hexec, sameMemory_of_eq rfl rfl, rfl, hplaced⟩
    | dec =>
      rw [stepGridpos_dec] at hexec
      exact ⟨_, hexec, sameMemory_of_eq rfl rfl, rfl, hplaced⟩
  case invapcm =>
    have hplaced := positioned_congr (positioned_positionPulses hMc _) fun i hi => val_pulses hcode hxMc hi
    have hexec := exec_invapcm_of_lt (side := side) hMc hcode
    have hrun := runAll_invapcm (side := side) hMc hcode
    obtain ⟨_, _, _, _, _, _, hdecoded⟩ := decodedPulses_frame j s
    rw [stepInvapcm, hdecoded] at hexec hrun
    cases side with
    | enc =>
      rw [stepGridpos_enc] at hexec hrun
      exact ⟨_, hexec, hrun, sameMemory_of_eq rfl rfl, rfl, hplaced⟩
    | dec =>
      rw [stepGridpos_dec] at hexec hrun
      exact ⟨_, hexec, hrun, sameMemory_of_eq rfl rfl, rfl, hplaced⟩

end Sys2Proof.PulseExcitation

/-! PROOFS. The top-level commands (47_top_operations.md): NOP and the resets; the steps that belong to no sub-block, on homing
and on the record. -/

namespace Sys2Proof.TopOperations

open Sys2Proof Sys2Proof.Machine Sys2Proof.Safety Sys2Proof.BlockState Sys2Proof.FramePacker Sys2Proof.LpcAnalysis
  Sys2Proof.ShortTermFilters Sys2Proof.LagSearch Sys2Proof.LongTermPrediction Sys2Proof.CodecAgreement
  Sys2Proof.PulseExcitation

/-! ### NOP and the resets (R231 to R234) -/

/-- Settles O12: the two flag updates of R230 are all that a command without an effect does. -/
theorem nopResult : Obligations.NopResult :=
  ⟨rfl, fun _ => ⟨_, rfl, rfl, sameMemory_of_eq rfl rfl⟩⟩

/-- Settles O13: encoder, decoder and packer, each by its home state, in the command and in `rst`. -/
theorem resetResult : Obligations.ResetResult :=
  ⟨rfl, fun _ => ⟨_, rfl, encHome_home, decHome_home, rfl, rfl, rfl, rfl, rfl, sameMemory_of_eq rfl rfl⟩,
    fun _ => ⟨encHome_home, decHome_home, rfl, rfl, rfl⟩⟩

/-- Settles O14: each half by the home state of its side. -/
theorem resetHalves : Obligations.ResetHalves :=
  ⟨rfl, rfl, fun _ => ⟨_, rfl, encHome_home, rfl, sameMemory_of_eq rfl rfl⟩,
    fun _ => ⟨_, rfl, decHome_home, rfl, sameMemory_of_eq rfl rfl⟩⟩

/-! ### HOMEDET (R243) -/

theorem allHome_iff (s : State) (n : Nat) :
    allHome s n = true ↔ ∀ k, k < n → IsHomingSample (s.readWord .pcmIn k) := by
  induction n with
  | zero => simp [allHome]
  | succ n ih =>
    rw [allHome, Bool.and_eq_true_iff, ih, beq_iff_eq, Nat.forall_lt_succ_right]
    rfl

/-- Settles O38: `is_home` is the strap and the outcome of the test on the 160 samples. -/
theorem homedetResult : Obligations.HomedetResult := by
  intro s
  refine ⟨stepHomedet s, rfl, rfl, sameMemory_of_eq rfl rfl, ?_⟩
  rw [← allHome_iff, ← Bool.and_eq_true_iff]
  rfl

/-! ### The record (R81, R237, R240, R246) -/

/-- The record position of a LAR code, or of a field of a sub-segment (R81). -/
theorem record_position {n : Nat} (hn : n < 76) :
    n < 8 ∨ ∃ (j : BitVec 2) (m : Nat), m < 17 ∧ n = subBase j.toNat + m := by
  by_cases h8 : n < 8
  · exact .inl h8
  · refine .inr ⟨BitVec.ofNat 2 ((n - 8) / 17), (n - 8) % 17, by omega, ?_⟩
    rw [BitVec.toNat_ofNat, subBase]
    omega

/-- The working codes are the fields of a record where each of the 76 fields is the code at its place. -/
theorem holdsRecord_of_recordField {w : Work} {f : Nat → Word16} (h : ∀ n, n < 76 → recordField w n = f n) :
    HoldsRecord w f := by
  have hfield : ∀ (j : Fin 4) {m n : Nat}, m < 17 → n = 8 + 17 * j.val + m →
      (segmentCodes w (BitVec.ofFin j)).field m = f n := by
    rintro j m _ hm rfl
    rw [← h _ (by omega)]
    exact (recordField_subBase w (BitVec.ofFin j) hm).symm
  refine ⟨fun i => (recordField_larc w i).symm.trans (h i (by omega)), fun j => ⟨hfield j (m := 0) (by omega) (by omega),
    hfield j (m := 1) (by omega) (by omega), hfield j (m := 2) (by omega) (by omega), hfield j (m := 3) (by omega) (by omega),
    fun i => ?pulse⟩⟩
  case pulse =>
    rw [← hfield j (m := i.val + 4) (by omega) (by omega), SegmentCodes.field, elt_eq _ i.isLt]
    rfl

/-- The codes loaded from a record stand for this record (R81, R240). -/
theorem recordField_loadRecord (f : List Word16) (w : Work) {n : Nat} (hn : n < 76) :
    recordField (loadRecord f w) n = f.getD n 0 := by
  rcases record_position hn with h8 | ⟨j, m, hm, rfl⟩
  · rw [recordField_larc _ ⟨n, h8⟩]
    simp [loadRecord]
  · have hj := j.isLt
    rw [recordField_subBase _ j hm]
    match m with
    | 0 | 1 | 2 | 3 => simp [SegmentCodes.field, segmentCodes, loadRecord, sub4]
    | i + 4 =>
      rw [SegmentCodes.field, elt_eq _ (by omega)]
      simp [segmentCodes, loadRecord, sub4, Nat.add_assoc, Nat.add_comm]

/-- Field n of the record that PRMMASK loads is the low bits of element n of `PRM_D` (R94, R240). -/
theorem getD_maskedRecord (s : State) {n : Nat} (hn : n < 76) :
    (maskedRecord s).getD n 0 = BitVec.ofNat 16 ((s.readWord .prmD n).toNat % 2 ^ fieldWidth n) := by
  have hfield : (maskedRecord s).getD n 0 = maskField (fieldWidth n) (s.readWord .prmD n) := by
    simp [maskedRecord, tblWIDTH_eq, State.readWords, List.getD_eq_getElem?_getD, hn]
  have hpow : 2 ^ fieldWidth n ≤ 2 ^ 8 := Nat.pow_le_pow_right (by omega) (fieldWidth_range hn).2
  have hmask : 2 ^ fieldWidth n - 1 < 2 ^ 16 := by omega
  have hfit : (s.readWord .prmD n).toNat % 2 ^ fieldWidth n < 2 ^ 16 :=
    (Nat.mod_lt _ (Nat.two_pow_pos _)).trans_le (by omega)
  apply BitVec.eq_of_toNat_eq
  rw [hfield, maskField, BitVec.toNat_and, BitVec.toNat_ofNat, BitVec.toNat_ofNat, Nat.mod_eq_of_lt hmask,
    Nat.and_two_pow_sub_one_eq_mod, Nat.mod_eq_of_lt hfit]

/-- The table of R246, field by field. -/
theorem getD_tblHOMING {n : Nat} (hn : n < 76) : tblHOMING.getD n 0 = homingField n := by
  have h : ∀ k < 76, tblHOMING.getD k 0 = homingField k := by decide
  exact h n hn

/-- EMIT writes the record of the working codes in record order (R237). -/
theorem readWord_stepEmit (s : State) {n : Nat} (hn : n < 76) :
    (stepEmit s).readWord .prmE n = recordField s.work n := by
  rw [stepEmit, State.readWord_writeWords, if_pos ⟨rfl, Nat.zero_le n⟩, recordOf]
  simp [List.getD_eq_getElem?_getD, hn]

/-- EMIT writes nothing but the 76 fields of `PRM_E` (R237). -/
theorem stepEmit_sameMemoryButWords (s : State) : SameMemoryButWords .prmE 76 s (stepEmit s) := by
  refine ⟨fun b i hbi => ?_, fun b i => State.readOctet_writeWords s .prmE b 0 i _⟩
  rw [stepEmit, State.readWord_writeWords]
  split
  · next hb =>
    have hi : 76 ≤ i := hbi.resolve_left fun hne => hne hb.1.symm
    rw [List.getD_eq_default _ _ (by simpa [recordOf] using hi)]
  · rfl

/-- Settles O58: each step is a change of the fields it names, and EMIT and PRMMASK agree on the places of the codes. -/
theorem recordSteps : Obligations.RecordSteps := by
  intro s
  obtain ⟨_, hemit⟩ := stepEmit_frame s
  refine ⟨⟨stepEmit s, rfl, by rw [hemit], stepEmit_sameMemoryButWords s, ?emitted⟩,
    ⟨stepPrmmask s, rfl, sameMemory_of_eq rfl rfl, rfl, ?loaded⟩, ⟨_, rfl, sameMemory_of_eq rfl rfl, rfl⟩,
    ⟨_, rfl, sameMemory_of_eq rfl rfl, rfl⟩⟩
  case emitted => exact holdsRecord_of_recordField fun n hn => (readWord_stepEmit s hn).symm
  case loaded =>
    exact holdsRecord_of_recordField fun n hn => (recordField_loadRecord _ _ hn).trans (getD_maskedRecord s hn)

/-! ### HOMEAPPLY (R244) -/

theorem loadRecord_tblHOMING_holds (w : Work) : HoldsRecord (loadRecord tblHOMING w) homingField :=
  holdsRecord_of_recordField fun _ hn => (recordField_loadRecord _ _ hn).trans (getD_tblHOMING hn)

/-- Settles O59: what HOMEAPPLY does, case by case of the strap, `last_frame_home` and `is_home`. -/
theorem homeapplyResult : Obligations.HomeapplyResult := by
  intro s
  have heq := stepHomeapply_eq s
  cases hstrap : s.homingSupported with
  | false =>
    have hsame : stepHomeapply s = s := by rw [heq, hstrap]; rfl
    exact ⟨s, congrArg Host.Outcome.next hsame, sameMemory_of_eq rfl rfl, fun _ => rfl, nofun⟩
  | true =>
    rw [hstrap, if_pos rfl] at heq
    refine ⟨_, congrArg Host.Outcome.next heq, sameMemory_of_eq rfl rfl, nofun, fun _ => ⟨?frame, fun hlast => ?record,
      fun hlast => ?kept, fun hhome => ?home, fun hhome => ?stays⟩⟩
    case frame => cases s.enc.lastFrameHome <;> rfl
    case record => rw [if_pos hlast]; exact loadRecord_tblHOMING_holds s.work
    case kept => exact if_neg (ne_true_of_eq_false hlast)
    case home => rw [if_pos hhome]; exact ⟨rfl, encHome_home⟩
    case stays => exact if_neg (ne_true_of_eq_false hhome)

end Sys2Proof.TopOperations

/-! PROOFS. ENCODE as a whole (47_top_operations.md R235 to R238, R247, R248): the steps between HOMEDET and LARROT change encoder
state and working values alone; the last three make the record; each step runs in every state; and what the record and the next
encoder state depend on. -/

namespace Sys2Proof.EncodeCommand

open Sys2Proof Sys2Proof.Machine Sys2Proof.Safety Sys2Proof.BlockState Sys2Proof.FramePacker Sys2Proof.LpcAnalysis
  Sys2Proof.ShortTermFilters Sys2Proof.LagSearch Sys2Proof.LongTermPrediction Sys2Proof.CodecAgreement
  Sys2Proof.PulseExcitation Sys2Proof.TopOperations

/-! ### The steps of ENCODE between HOMEDET and LARROT (R235 steps 2 to 9) -/

/-- What each of these steps may change: the encoder state and the working values, `is_home` excepted. -/
def CodingStep (s t : State) : Prop := ∃ e w, t = { s with enc := e, work := w } ∧ w.isHome = s.work.isHome

theorem CodingStep.trans {s t u : State} (h : CodingStep s t) (h' : CodingStep t u) : CodingStep s u := by
  obtain ⟨_, _, rfl, hhome⟩ := h
  obtain ⟨_, _, rfl, hhome'⟩ := h'
  exact ⟨_, _, rfl, hhome'.trans hhome⟩

/-- A loop of such steps is one. -/
theorem CodingStep.foldl {α : Type} {f : State → α → State} (l : List α) (s : State)
    (h : ∀ s a, CodingStep s (f s a)) : CodingStep s (l.foldl f s) :=
  List.foldlRecOn l f (motive := CodingStep s) ⟨_, _, rfl, rfl⟩ fun _ ih a _ => ih.trans (h _ a)

theorem CodingStep.readWord {s t : State} (h : CodingStep s t) (b : WordBuf) (i : Nat) :
    t.readWord b i = s.readWord b i := by
  obtain ⟨_, _, rfl, -⟩ := h; rfl

theorem CodingStep.homingSupported {s t : State} (h : CodingStep s t) : t.homingSupported = s.homingSupported := by
  obtain ⟨_, _, rfl, -⟩ := h; rfl

theorem CodingStep.isHome {s t : State} (h : CodingStep s t) : t.work.isHome = s.work.isHome := by
  obtain ⟨_, _, rfl, hhome⟩ := h; exact hhome

theorem preprocess_codingStep (l : List Nat) (s : State) : CodingStep s (l.foldl preprocessSample s) := by
  obtain ⟨_, _, _, _, _, _, _, _, _, _, _, h⟩ := preprocess_fold_frame l s
  exact ⟨_, _, h, rfl⟩

/-- AUTOCORR to LARQ (R235 steps 3 to 6). -/
def lpcSteps (s : State) : State := stepLarq (stepR2lar (stepSchur (stepAutocorr s)))

theorem lpcSteps_codingStep (s : State) : CodingStep s (lpcSteps s) := by
  obtain ⟨_, _, _, _, _, hautocorr⟩ := stepAutocorr_frame s
  obtain ⟨_, _, _, _, _, hschur⟩ := stepSchur_frame (stepAutocorr s)
  obtain ⟨_, _, hr2lar⟩ := stepR2lar_frame (stepSchur (stepAutocorr s))
  obtain ⟨_, _, hlarq⟩ := stepLarq_frame (stepR2lar (stepSchur (stepAutocorr s)))
  rw [lpcSteps, hlarq, hr2lar, hschur, hautocorr]
  exact ⟨_, _, rfl, rfl⟩

theorem stepDecoderefl_codingStep (side : Side) (s : State) : CodingStep s (stepDecoderefl side s) := by
  obtain ⟨_, _, _, _, _, _, h⟩ := stepDecoderefl_frame side s
  exact ⟨_, _, h, rfl⟩

theorem stepStanalysis_codingStep (s : State) : CodingStep s (stepStanalysis s) := by
  obtain ⟨_, _, _, _, _, _, h⟩ := stepStanalysis_frame s
  exact ⟨_, _, h, rfl⟩

/-- The effect of ENCODE's steps 2 to 8 on the state that HOMEDET leaves. -/
def analysisSteps (s : State) : State :=
  stepStanalysis (stepDecoderefl .enc (lpcSteps ((List.range 160).foldl preprocessSample s)))

theorem encodeAnalysis_eq (s : State) : encodeAnalysis s = analysisSteps (stepHomedet s) := rfl

theorem analysisSteps_codingStep (s : State) : CodingStep s (analysisSteps s) :=
  (preprocess_codingStep _ s).trans <| (lpcSteps_codingStep _).trans <|
    (stepDecoderefl_codingStep .enc _).trans (stepStanalysis_codingStep _)

/-- A sub-segment after its lag and gain are coded (R236). -/
def segmentRest (j : BitVec 2) (s : State) : State :=
  stepDpupdate (stepGridpos .enc j (stepApcminv j (stepApcmq j (stepExpmant j (stepXmaxq j (stepGridsel j
    (stepWeight (stepLtpanalysis j s))))))))

/-- The weighted samples that GRIDSEL finds (R202, R210). -/
def weightedSamples (j : BitVec 2) (s : State) : Vector Word16 40 := (stepWeight (stepLtpanalysis j s)).work.x

/-- It codes the weighted samples, and changes the history and working values, `d` excepted. -/
theorem segmentRest_values (j : BitVec 2) (s : State) :
    segmentCodes (segmentRest j s).work j = codesOf (sub4 s.work.Nc j) (sub4 s.work.bc j) (weightedSamples j s) ∧
    CodingStep s (segmentRest j s) ∧ (segmentRest j s).work.d = s.work.d ∧
    ∃ y, (segmentRest j s).enc = { s.enc with dp := y } := by
  obtain ⟨_, _, hanalysis⟩ := stepLtpanalysis_values j s
  obtain ⟨x, _, _, _, _, _, _, _, _, _, hquantise⟩ := quantise_frame j (stepLtpanalysis j s)
  obtain ⟨_, _, _, _, hdecode⟩ := stepApcminv_values j (stepApcmq j (stepExpmant j (stepXmaxq j (stepGridsel j
    (stepWeight (stepLtpanalysis j s))))))
  have hx : weightedSamples j s = x := congrArg (fun t : State => t.work.x) hquantise
  rw [hx, segmentRest, hdecode, hquantise, hanalysis]
  refine ⟨?codes, ⟨_, _, rfl, rfl⟩, rfl, _, rfl⟩
  simp only [segmentCodes, codesOf, stepDpupdate, stepGridpos, onEnc_work, onWork_work, sub4_set4]

theorem encodeSegment_eq (s : State) (j : BitVec 2) : encodeSegment s j = segmentRest j (stepLtpsearch j s) := rfl

/-- A sub-segment moves the history and codes its own fields; the residual samples it only reads (R236). -/
theorem encodeSegment_frame (s : State) (j : BitVec 2) :
    CodingStep s (encodeSegment s j) ∧ (encodeSegment s j).work.d = s.work.d ∧
    ∃ y, (encodeSegment s j).enc = { s.enc with dp := y } := by
  obtain ⟨_, _, _, _, _, _, _, _, _, _, _, _, hsearch⟩ := stepLtpsearch_frame j s
  obtain ⟨-, hstep, hd, y, henc⟩ := segmentRest_values j (stepLtpsearch j s)
  rw [encodeSegment_eq]
  rw [hsearch] at hstep hd henc ⊢
  exact ⟨CodingStep.trans ⟨_, _, rfl, rfl⟩ hstep, hd, y, henc⟩

theorem encodeSegments_codingStep (l : List (BitVec 2)) (s : State) : CodingStep s (l.foldl encodeSegment s) :=
  CodingStep.foldl l s fun s j => (encodeSegment_frame s j).1

/-- All that ENCODE does up to its last three steps, on the state that HOMEDET leaves (R235). -/
def codingSteps (s : State) : State := quarters.foldl encodeSegment (analysisSteps s)

theorem encodeSteps_eq (s : State) : encodeSteps s = encodeFinish (codingSteps (stepHomedet s)) := rfl

theorem codingSteps_codingStep (s : State) : CodingStep s (codingSteps s) :=
  (analysisSteps_codingStep s).trans (encodeSegments_codingStep quarters _)

/-- The codes that ENCODE comes to lie within their widths (R248). -/
theorem codingSteps_codesInWidth (s : State) : CodesInWidth (codingSteps (stepHomedet s)).work := by
  have hall : ∀ j : BitVec 2, j ∈ quarters := by decide
  obtain ⟨-, -, hlarc⟩ := encodeAnalysis_spec s
  have hsegments := encodeSegments_encodes (l := quarters) (by decide) (encodeAnalysis s)
  refine ⟨fun i => ?_, fun j => hsegments.codes j (hall j)⟩
  rw [codingSteps, ← encodeAnalysis_eq, hsegments.larc]
  exact hlarc i

/-! ### The last three steps of ENCODE (R235 steps 10 to 12) -/

/-- The record that EMIT finds after HOMEAPPLY: `HOMING_OUTPUT` after a homing frame, else the codes (R237, R244). -/
def emittedField (s : State) (n : Nat) : Word16 :=
  if s.homingSupported = true ∧ s.enc.lastFrameHome = true then homingField n else recordField s.work n

/-- The encoder state that the last three steps leave (R238, R244). -/
def finishedEnc (s : State) : EncState :=
  if s.homingSupported then
    if s.work.isHome then { EncState.home with lastFrameHome := true }
    else { s.enc with larppLast := s.work.larpp, lastFrameHome := false }
  else { s.enc with larppLast := s.work.larpp }

/-- LARROT and HOMEAPPLY: the encoder state, and the codes that stand for the record. -/
theorem stepHomeapply_stepLarrot_values (s : State) :
    ∃ w, stepHomeapply (stepLarrot s) = { s with enc := finishedEnc s, work := w } ∧
      ∀ n, n < 76 → recordField w n = emittedField s n := by
  rw [stepHomeapply_eq, stepLarrot_frame]
  unfold finishedEnc emittedField
  cases s.homingSupported with
  | false => exact ⟨s.work, rfl, fun _ _ => rfl⟩
  | true =>
    refine ⟨_, rfl, fun n hn => ?_⟩
    cases s.enc.lastFrameHome with
    | false => rfl
    | true => exact (recordField_loadRecord _ _ hn).trans (getD_tblHOMING hn)

theorem encodeFinish_enc (s : State) : (encodeFinish s).enc = finishedEnc s := by
  obtain ⟨_, hcodes, -⟩ := stepHomeapply_stepLarrot_values s
  obtain ⟨_, hemit⟩ := stepEmit_frame (stepHomeapply (stepLarrot s))
  rw [encodeFinish, hemit, hcodes]

theorem readWord_encodeFinish (s : State) {n : Nat} (hn : n < 76) :
    (encodeFinish s).readWord .prmE n = emittedField s n := by
  obtain ⟨_, hcodes, hfield⟩ := stepHomeapply_stepLarrot_values s
  rw [encodeFinish, readWord_stepEmit _ hn, hcodes]
  exact hfield n hn

theorem encodeFinish_sameMemoryButWords (s : State) : SameMemoryButWords .prmE 76 s (encodeFinish s) := by
  obtain ⟨_, hcodes, -⟩ := stepHomeapply_stepLarrot_values s
  have hemit := stepEmit_sameMemoryButWords (stepHomeapply (stepLarrot s))
  rw [hcodes] at hemit
  rw [encodeFinish, hcodes]
  exact hemit

/-! ### What ENCODE writes (R248) -/

/-- A record within its widths, with legal lags (R81, R248). -/
structure RecordInRange (f : Nat → Word16) : Prop where
  width : ∀ n, n < 76 → (f n).toNat < 2 ^ fieldWidth n
  lag : ∀ j, j < 4 → 40 ≤ (f (8 + 17 * j)).toNat ∧ (f (8 + 17 * j)).toNat ≤ 120

theorem recordInRange_homingField : RecordInRange homingField :=
  ⟨by decide, by decide⟩

theorem recordInRange_of_codesInWidth {w : Work} (h : CodesInWidth w) : RecordInRange (recordField w) := by
  refine ⟨fun n hn => h.recordField_lt hn, fun j hj => ?_⟩
  have hlag : recordField w (8 + 17 * j) = (segmentCodes w (BitVec.ofFin ⟨j, hj⟩)).Nc :=
    recordField_subBase w (BitVec.ofFin ⟨j, hj⟩) (m := 0) (by omega)
  rw [hlag]
  exact (h.segment _).lag

/-- Both what the codes give and what HOMEAPPLY may put in their place are in range. -/
theorem recordInRange_emittedField {s : State} (h : CodesInWidth s.work) : RecordInRange (emittedField s) := by
  by_cases hhoming : s.homingSupported = true ∧ s.enc.lastFrameHome = true
  · have heq : emittedField s = homingField := funext fun _ => if_pos hhoming
    exact heq ▸ recordInRange_homingField
  · have heq : emittedField s = recordField s.work := funext fun _ => if_neg hhoming
    exact heq ▸ recordInRange_of_codesInWidth h

theorem writeWords_ignoresFlags (b : WordBuf) (i : Nat) (l : List Word16) : IgnoresFlags fun s => s.writeWords b i l := by
  induction l generalizing i with
  | nil => exact fun _ _ => rfl
  | cons v l ih => exact (ih (i + 1)).comp (f := fun s => s.writeWord b i v) fun _ _ => rfl

theorem stepHomeapply_ignoresFlags : IgnoresFlags stepHomeapply := fun s g => by
  rw [stepHomeapply_eq, stepHomeapply_eq]
  by_cases hstrap : s.homingSupported = true
  · simp only [hstrap, if_true]
  · simp only [hstrap, Bool.false_eq_true, if_false]

theorem analysisSteps_ignoresFlags : IgnoresFlags analysisSteps :=
  have samples : IgnoresFlags fun s => (List.range 160).foldl preprocessSample s := .foldl _ fun _ _ _ => rfl
  have lpc : IgnoresFlags lpcSteps := fun _ _ => rfl
  have decoderefl : IgnoresFlags (stepDecoderefl .enc) := fun _ _ => rfl
  have stanalysis : IgnoresFlags stepStanalysis := .foldl (f := stanalysisSample) _ fun _ _ _ => rfl
  stanalysis.comp <| decoderefl.comp <| lpc.comp samples

theorem segmentRest_ignoresFlags (j : BitVec 2) : IgnoresFlags (segmentRest j) :=
  have analysis : IgnoresFlags (stepLtpanalysis j) := fun _ _ => rfl
  have weight : IgnoresFlags stepWeight := fun _ _ => rfl
  have gridsel : IgnoresFlags (stepGridsel j) := fun _ _ => rfl
  have xmaxq : IgnoresFlags (stepXmaxq j) := fun _ _ => rfl
  have expmant : IgnoresFlags (stepExpmant j) := fun _ _ => rfl
  have apcmq : IgnoresFlags (stepApcmq j) := fun _ _ => rfl
  have apcminv : IgnoresFlags (stepApcminv j) := fun _ _ => rfl
  have gridpos : IgnoresFlags (stepGridpos .enc j) := fun _ _ => rfl
  have dpupdate : IgnoresFlags stepDpupdate := fun _ _ => rfl
  dpupdate.comp <| gridpos.comp <| apcminv.comp <| apcmq.comp <| expmant.comp <| xmaxq.comp <| gridsel.comp <|
    weight.comp analysis

theorem encodeSegment_ignoresFlags (j : BitVec 2) : IgnoresFlags fun s => encodeSegment s j :=
  have search : IgnoresFlags (stepLtpsearch j) := fun _ _ => by simp only [stepLtpsearch, State.onWork]
  (segmentRest_ignoresFlags j).comp search

theorem codingSteps_ignoresFlags : IgnoresFlags codingSteps :=
  have segments : IgnoresFlags fun s => quarters.foldl encodeSegment s := .foldl _ encodeSegment_ignoresFlags
  segments.comp analysisSteps_ignoresFlags

theorem encodeFinish_ignoresFlags : IgnoresFlags encodeFinish :=
  have larrot : IgnoresFlags stepLarrot := fun _ _ => rfl
  have emit : IgnoresFlags stepEmit := fun s g => writeWords_ignoresFlags .prmE 0 (recordOf s.work) s g
  emit.comp <| stepHomeapply_ignoresFlags.comp larrot

/-- ENCODE's twelve steps (R235), none of which looks at the flags. -/
theorem encodeSteps_ignoresFlags : IgnoresFlags encodeSteps :=
  have homedet : IgnoresFlags stepHomedet := fun _ _ => rfl
  encodeFinish_ignoresFlags.comp <| codingSteps_ignoresFlags.comp homedet

/-- ENCODE runs its effect in every state, the working values gone at its end. -/
theorem exec_encode (s : State) :
    exec .encode s = .next { encodeSteps s with work := Work.blank, flags := doneFlags s.flags } := by
  have hexec : exec .encode s = .next (finishCommand (dropWork (encodeSteps (startCommand s)))) := rfl
  have hflags : encodeSteps (startCommand s) = { encodeSteps s with flags := (startCommand s).flags } :=
    encodeSteps_ignoresFlags s _
  rw [hexec, hflags, finishCommand_dropWork]

/-- ENCODE writes the 76 fields of `PRM_E` alone (R237). -/
theorem encodeSteps_sameMemoryButWords (s : State) : SameMemoryButWords .prmE 76 s (encodeSteps s) := by
  obtain ⟨_, _, hcoding, -⟩ := codingSteps_codingStep (stepHomedet s)
  have hfinish := encodeFinish_sameMemoryButWords (codingSteps (stepHomedet s))
  rw [encodeSteps_eq]
  rw [hcoding] at hfinish ⊢
  exact hfinish

theorem readWord_encodeSteps (s : State) {n : Nat} (hn : n < 76) :
    (encodeSteps s).readWord .prmE n = emittedField (codingSteps (stepHomedet s)) n := by
  rw [encodeSteps_eq, readWord_encodeFinish _ hn]

/-- Settles O15: EMIT alone writes a buffer, and the record it finds, coded or `HOMING_OUTPUT`, is in range. -/
theorem encodeResult : Obligations.EncodeResult := by
  intro s
  have hexec := exec_encode s
  have hmemory := encodeSteps_sameMemoryButWords s
  have hframe := (encodeSteps_encoderStep s).frame
  have hrange := recordInRange_emittedField (codingSteps_codesInWidth s)
  have hrecord : ∀ n, n < 76 → (encodeSteps s).readWord .prmE n = _ := fun n hn => readWord_encodeSteps s hn
  generalize encodeSteps s = u at hexec hmemory hframe hrecord
  obtain ⟨_, _, _, rfl⟩ := hframe
  refine ⟨_, hexec, rfl, hmemory, fun n hn => ?width, fun j hj => ?lag⟩
  case width => exact (hrecord n hn).symm ▸ hrange.width n hn
  case lag => exact (hrecord (8 + 17 * j) (by omega)).symm ▸ hrange.lag j hj

/-! ### ENCODE as the sequence of its steps (R235, R236) -/

/-- The steps on a sample run for every sample index (R235 step 2). -/
theorem runAll_preprocessProgram {k : Nat} (hk : k < 160) (s : State) :
    runAll (preprocessProgram k) s = .next (preprocessSample s k) := by
  have hnat : (BitVec.ofNat 8 k).toNat = k := Nat.mod_eq_of_lt (by omega)
  have hok : (BitVec.ofNat 8 k).toNat < 160 := by omega
  have hdownscale : exec (.downscale (BitVec.ofNat 8 k)) s = .next (stepDownscale k s) := by
    refine (runStep_of_sample hok _ s).trans ?_
    rw [hnat]
  have hoffset : exec .offsetcomp (stepDownscale k s) = .next (stepOffsetcomp (stepDownscale k s)) := rfl
  have hpreemph : exec (.preemph (BitVec.ofNat 8 k)) (stepOffsetcomp (stepDownscale k s)) =
      .next (preprocessSample s k) := by
    refine (runStep_of_sample hok _ _).trans ?_
    rw [hnat]
    rfl
  rw [preprocessProgram, runAll_cons hdownscale, runAll_cons hoffset, runAll_cons hpreemph]
  rfl

/-- LTPSEARCH leaves a lag and a gain code that LTPANALYSIS can use (R200, R202). -/
theorem exec_ltpanalysis_stepLtpsearch (j : BitVec 2) (s : State) :
    exec (.ltpanalysis j) (stepLtpsearch j s) = .next (stepLtpanalysis j (stepLtpsearch j s)) := by
  obtain ⟨-, hNc, hbc⟩ := stepLtpsearch_values j s
  obtain ⟨hlow, hhigh⟩ := searchLag_range (searchSamples j s).toList s.enc.dp
  have hlag : (sub4 (stepLtpsearch j s).work.Nc j).toInt = (bestLag j s).1.toNat := by
    rw [hNc, sub4_set4, BitVec.toInt_eq_toNat_cond, if_pos (by unfold bestLag; omega)]
  refine exec_ltpanalysis_of_range ?_ ?_ ?_
  · rw [hlag]; unfold bestLag; omega
  · rw [hlag]; unfold bestLag; omega
  · rw [hbc, sub4_set4]; exact codedGain_lt _ _

/-- XMAXQ and EXPMANT leave a `mant` that APCMQ and APCMINV can use (R212, R213). -/
theorem mant_stepExpmant_stepXmaxq_lt (j : BitVec 2) (s : State) :
    (stepExpmant j (stepXmaxq j s)).work.mant.toNat < 8 := by
  refine stepExpmant_mant_lt ?_
  obtain ⟨_, _, _, _, hxmaxq⟩ := stepXmaxq_values j s
  rw [hxmaxq, sub4_set4]
  exact xmaxCode_lt (isMax_maxAbs s.work.xM).1

/-- The steps of a sub-segment run in every state: each leaves what the next one addresses (R236). -/
theorem runAll_encodeSegmentProgram (j : BitVec 2) (s : State) :
    runAll (encodeSegmentProgram j) s = .next (encodeSegment s j) := by
  have hanalysis := exec_ltpanalysis_stepLtpsearch j s
  rw [encodeSegment_eq, segmentRest, encodeSegmentProgram, runAll_cons (show exec (.ltpsearch j) s = .next _ from rfl)]
  generalize stepLtpsearch j s = t at hanalysis ⊢
  have hweight : exec .weight (stepLtpanalysis j t) = .next (stepWeight (stepLtpanalysis j t)) := rfl
  rw [runAll_cons hanalysis, runAll_cons hweight]
  generalize stepWeight (stepLtpanalysis j t) = u
  have hgridsel : exec (.gridsel j) u = .next (stepGridsel j u) := rfl
  have hxmaxq : exec (.xmaxq j) (stepGridsel j u) = .next (stepXmaxq j (stepGridsel j u)) := rfl
  have hexpmant : exec (.expmant j) (stepXmaxq j (stepGridsel j u)) = .next (stepExpmant j (stepXmaxq j (stepGridsel j u))) :=
    rfl
  have hmant := mant_stepExpmant_stepXmaxq_lt j (stepGridsel j u)
  have hMc : (sub4 (stepExpmant j (stepXmaxq j (stepGridsel j u))).work.Mc j).toNat < 4 := by
    have hval : sub4 (stepExpmant j (stepXmaxq j (stepGridsel j u))).work.Mc j = (selectGrid u.work.x).1 :=
      sub4_set4 u.work.Mc j _
    rw [hval]
    exact selectGrid_lt _
  rw [runAll_cons hgridsel, runAll_cons hxmaxq, runAll_cons hexpmant]
  generalize stepExpmant j (stepXmaxq j (stepGridsel j u)) = v at hmant hMc ⊢
  have hmant' : (stepApcmq j v).work.mant.toNat < 8 := by rw [stepApcmq, onWork_work]; exact hmant
  have hMc' : (sub4 (stepApcminv j (stepApcmq j v)).work.Mc j).toNat < 4 := by
    rw [stepApcminv, stepApcmq, onWork_work, onWork_work]; exact hMc
  rw [runAll_cons (exec_apcmq_of_lt hmant), runAll_cons (exec_apcminv_of_lt hmant'), runAll_cons (exec_gridpos_of_lt hMc')]
  rfl

/-- All steps of ENCODE complete, and leave what its effect leaves (R235). -/
theorem runAll_encodeProgram (s : State) : runAll encodeProgram s = .next (encodeSteps s) := by
  have hhomedet : runAll [.homedet] s = .next (stepHomedet s) := rfl
  have hsamples := runAll_flatMap preprocessProgram preprocessSample (List.range 160)
    fun k hk => runAll_preprocessProgram (List.mem_range.mp hk)
  have hanalysis : ∀ t, runAll [.autocorr, .schur, .r2lar, .larq, .decoderefl .enc, .stanalysis] t =
      .next (stepStanalysis (stepDecoderefl .enc (lpcSteps t))) := fun _ => rfl
  have hsegments := runAll_flatMap encodeSegmentProgram encodeSegment quarters
    fun j _ => runAll_encodeSegmentProgram j
  have hfinish : ∀ t, runAll [.larrot, .homeapply, .emit] t = .next (encodeFinish t) := fun _ => rfl
  simp only [encodeProgram, List.append_assoc]
  rw [runAll_append_next hhomedet, runAll_append_next (hsamples _), runAll_append_next (hanalysis _),
    runAll_append_next (hsegments _), hfinish]
  rfl

/-- Settles O16: the steps complete in every state, and the flag updates of the command do not reach them. -/
theorem encodeIsItsSteps : Obligations.EncodeIsItsSteps := by
  intro s
  have hcommand := exec_encode s
  have hsteps := runAll_encodeProgram s
  generalize encodeSteps s = u at hcommand hsteps
  exact ⟨_, u, hcommand, hsteps, rfl, sameMemory_of_eq rfl rfl⟩

/-! ### What each step reads: the pre-processing (R160 to R162) -/

/-- The samples after the pre-emphasis of one more, in the words of the new `mp` (R162). -/
theorem preprocessSample_s (s : State) (k : Nat) :
    (preprocessSample s k).work.s =
      s.work.s.setIfInBounds k (add (preprocessSample s k).enc.mp (multR s.enc.mp (-28180))) := rfl

/-- The encoder state after one sample depends on the one before and on the sample. -/
theorem preprocessSample_enc_congr {s s' : State} {k : Nat} (henc : s.enc = s'.enc)
    (hpcm : s.readWord .pcmIn k = s'.readWord .pcmIn k) : (preprocessSample s k).enc = (preprocessSample s' k).enc := by
  simp only [preprocessSample, stepPreemph, stepOffsetcomp, stepDownscale, onWork_work, onWork_enc, henc, hpcm]

/-- The loop over the samples forgets what `s` held: each turn writes its element. -/
theorem preprocess_congr {s s' : State} (henc : s.enc = s'.enc)
    (hpcm : ∀ k, k < 160 → s.readWord .pcmIn k = s'.readWord .pcmIn k) :
    ((List.range 160).foldl preprocessSample s).enc = ((List.range 160).foldl preprocessSample s').enc ∧
    ((List.range 160).foldl preprocessSample s).work.s = ((List.range 160).foldl preprocessSample s').work.s := by
  have hloop : ∀ n, n ≤ 160 →
      ((List.range n).foldl preprocessSample s).enc = ((List.range n).foldl preprocessSample s').enc ∧
      ∀ m, m < n → elt ((List.range n).foldl preprocessSample s).work.s m =
        elt ((List.range n).foldl preprocessSample s').work.s m := by
    intro n
    induction n with
    | zero => exact fun _ => ⟨henc, fun m hm => absurd hm (Nat.not_lt_zero m)⟩
    | succ n ih =>
      intro hn
      obtain ⟨ihenc, ihs⟩ := ih (by omega)
      have hread := hpcm n (by omega)
      rw [← (preprocess_codingStep (List.range n) s).readWord, ← (preprocess_codingStep (List.range n) s').readWord] at hread
      have hnext := preprocessSample_enc_congr ihenc hread
      simp only [List.range_succ, List.foldl_append, List.foldl_cons, List.foldl_nil]
      refine ⟨hnext, fun m hm => ?_⟩
      rw [preprocessSample_s, preprocessSample_s, elt_setIfInBounds _ _ (by omega), elt_setIfInBounds _ _ (by omega),
        hnext, ihenc]
      split
      · rfl
      · exact ihs m (by omega)
  obtain ⟨henc', hs⟩ := hloop 160 (Nat.le_refl _)
  refine ⟨henc', Vector.ext fun m hm => ?_⟩
  rw [← elt_eq _ hm, ← elt_eq _ hm, hs m hm]

/-! ### AUTOCORR to LARQ (R163 to R167) -/

/-- The recursion writes every element of `r` from stage n on, so the result depends on `r` below stage n alone (R164). -/
theorem schurStages_r_congr (more n : Nat) {P : Vector Word16 9} {K : Vector Word16 7} {r r' : Vector Word16 8}
    (hn : 1 ≤ n) (h9 : n + more = 9) (hr : ∀ (i : Nat) (hi : i < 8), i + 1 < n → r[i] = r'[i]) :
    (schurStages more n ⟨P, K, r⟩).r = (schurStages more n ⟨P, K, r'⟩).r := by
  induction more generalizing n P K r r' with
  | zero => exact Vector.ext fun i hi => hr i hi (by omega)
  | succ more ih =>
    have hset : ∀ rn (i : Nat) (hi : i < 8), i + 1 < n + 1 →
        (r.setIfInBounds (n - 1) rn)[i] = (r'.setIfInBounds (n - 1) rn)[i] := fun rn i hi hin => by
      rw [Vector.getElem_setIfInBounds, Vector.getElem_setIfInBounds]
      split
      · rfl
      · exact hr i hi (by omega)
    simp only [schurStages]
    split
    · refine Vector.ext fun i hi => ?_
      simp only [Vector.getElem_ofFn]
      split
      · rfl
      · exact hr i hi (by omega)
    · split
      · exact Vector.ext fun i hi => hset _ i hi (by omega)
      · exact ih (n + 1) (by omega) (by omega) (hset _)

theorem stepSchur_r_congr {s s' : State} (h : s.work.Lacf = s'.work.Lacf) :
    (stepSchur s).work.r = (stepSchur s').work.r := by
  by_cases hzero : s.work.Lacf[0].toInt = 0
  · rw [stepSchur_of_zero hzero, stepSchur_of_zero (h ▸ hzero)]
  · rw [(stepSchur_of_ne hzero).2, (stepSchur_of_ne (h ▸ hzero)).2, schurStart, schurStart, normalisedAcf, normalisedAcf, h]
    exact schurStages_r_congr 8 1 (by omega) (by omega) fun i _ hi => absurd hi (by omega)

theorem lpcSteps_congr {s s' : State} (hs : s.work.s = s'.work.s) :
    (lpcSteps s).work.s = (lpcSteps s').work.s ∧ (lpcSteps s).work.larc = (lpcSteps s').work.larc := by
  have hsamples : (stepAutocorr s).work.s = (stepAutocorr s').work.s := by simp only [stepAutocorr, onWork_work, hs]
  have hLacf : (stepAutocorr s).work.Lacf = (stepAutocorr s').work.Lacf := by simp only [stepAutocorr, onWork_work, hs]
  have hr := stepSchur_r_congr hLacf
  have hkept : ∀ t, (lpcSteps t).work.s = (stepAutocorr t).work.s := fun t => by
    obtain ⟨_, _, _, _, _, hschur⟩ := stepSchur_frame (stepAutocorr t)
    rw [lpcSteps, hschur]
    rfl
  refine ⟨by rw [hkept, hkept, hsamples], ?_⟩
  simp only [lpcSteps, stepLarq, stepR2lar, onWork_work, hr]

/-! ### DECODEREFL and STANALYSIS (R183, R190) -/

/-- The reflection coefficients of a zone (R181, R182). -/
def zoneCoefficients (zone : BitVec 2) (last cur : Vector Word16 8) : Vector Word16 8 :=
  Vector.ofFn fun i : Fin 8 => rpOf (interpolate zone last[i] cur[i])

/-- LARINTERP and LAR2RP in one zone write its row, and change nothing that they read. -/
theorem zone_values (side : Side) (zone : BitVec 2) (s : State) :
    (stepLar2rp zone (stepLarinterp side zone s)).work.rrp =
      set4 s.work.rrp zone (zoneCoefficients zone (larppLastOf side s) s.work.larpp) ∧
    larppLastOf side (stepLar2rp zone (stepLarinterp side zone s)) = larppLastOf side s ∧
    (stepLar2rp zone (stepLarinterp side zone s)).work.larpp = s.work.larpp := by
  refine ⟨?_, by cases side <;> rfl, rfl⟩
  simp [stepLar2rp, stepLarinterp, zoneCoefficients]

/-- The loop over zones writes the row of each zone it visits. -/
theorem zones_fold_rrp (side : Side) {l : List (BitVec 2)} {s : State} {z : BitVec 2}
    (h : z ∈ l ∨ sub4 s.work.rrp z = zoneCoefficients z (larppLastOf side s) s.work.larpp) :
    sub4 (l.foldl (fun s zone => stepLar2rp zone (stepLarinterp side zone s)) s).work.rrp z =
      zoneCoefficients z (larppLastOf side s) s.work.larpp := by
  induction l generalizing s with
  | nil => exact h.resolve_left List.not_mem_nil
  | cons zone l ih =>
    obtain ⟨hrrp, hlast, hlarpp⟩ := zone_values side zone s
    rw [List.foldl_cons, ih, hlast, hlarpp]
    rw [hrrp, hlast, hlarpp]
    by_cases hz : z = zone
    · rw [hz, sub4_set4]
      exact .inr rfl
    · rw [sub4_set4_ne _ _ hz]
      exact h.imp_left fun hmem => (List.mem_cons.mp hmem).resolve_left hz

/-- DECODEREFL writes all four rows of `rrp`, from the codes and the previous LARs of its side (R183). -/
theorem stepDecoderefl_rrp (side : Side) (s : State) (z : BitVec 2) :
    sub4 (stepDecoderefl side s).work.rrp z = zoneCoefficients z (larppLastOf side s) (decodedLars s.work.larc) := by
  have hall : ∀ z : BitVec 2, z ∈ quarters := by decide
  have hlast : larppLastOf side (stepLardec s) = larppLastOf side s := by cases side <;> rfl
  rw [stepDecoderefl, zones_fold_rrp side (.inl (hall z)), hlast]
  rfl

theorem stepDecoderefl_rrp_congr (side : Side) {s s' : State} (hlast : larppLastOf side s = larppLastOf side s')
    (hlarc : s.work.larc = s'.work.larc) : (stepDecoderefl side s).work.rrp = (stepDecoderefl side s').work.rrp := by
  refine Vector.ext fun z hz => ?_
  have hrow := stepDecoderefl_rrp side s (BitVec.ofFin ⟨z, hz⟩)
  rw [hlast, hlarc, ← stepDecoderefl_rrp] at hrow
  exact hrow

theorem memoryBefore_congr {w w' : Work} (hrrp : w.rrp = w'.rrp) (hs : w.s = w'.s) (u : Vector Word16 8) (k : Nat) :
    memoryBefore w u k = memoryBefore w' u k := by
  induction k with
  | zero => rfl
  | succ k ih => rw [memoryBefore, memoryBefore, ih, hrrp, hs]

/-- STANALYSIS reads the coefficients, the samples and its memory `u` (R190). -/
theorem stepStanalysis_congr {s s' : State} (henc : s.enc = s'.enc) (hrrp : s.work.rrp = s'.work.rrp)
    (hs : s.work.s = s'.work.s) :
    (stepStanalysis s).enc = (stepStanalysis s').enc ∧ (stepStanalysis s).work.d = (stepStanalysis s').work.d := by
  have hmemory := memoryBefore_congr hrrp hs
  have hafter := stepStanalysis_afterSamples s
  have hafter' := stepStanalysis_afterSamples s'
  constructor
  · have hu : (stepStanalysis s).enc.u = (stepStanalysis s').enc.u := by rw [hafter.u, hafter'.u, hmemory, henc]
    obtain ⟨_, _, _, _, _, _, h⟩ := stepStanalysis_frame s
    obtain ⟨_, _, _, _, _, _, h'⟩ := stepStanalysis_frame s'
    rw [h, h'] at hu ⊢
    simp only at hu ⊢
    rw [henc, hu]
  · refine Vector.ext fun m hm => ?_
    rw [← elt_eq _ hm, ← elt_eq _ hm, hafter.d m hm, hafter'.d m hm, sampleErrors, sampleErrors, hmemory, hrrp, hs, henc]

/-- What the sub-segments and the last steps read of what the analysis leaves, the same in two states (R235). -/
structure SameAnalysis (s s' : State) : Prop where
  enc : s.enc = s'.enc
  larc : s.work.larc = s'.work.larc
  larpp : s.work.larpp = s'.work.larpp
  d : s.work.d = s'.work.d

theorem analysisSteps_congr {s s' : State} (henc : s.enc = s'.enc)
    (hpcm : ∀ k, k < 160 → s.readWord .pcmIn k = s'.readWord .pcmIn k) :
    SameAnalysis (analysisSteps s) (analysisSteps s') := by
  obtain ⟨henc1, hs1⟩ := preprocess_congr henc hpcm
  unfold analysisSteps
  generalize (List.range 160).foldl preprocessSample s = t at henc1 hs1 ⊢
  generalize (List.range 160).foldl preprocessSample s' = t' at henc1 hs1 ⊢
  have henc2 : (lpcSteps t).enc = (lpcSteps t').enc :=
    (lpcSteps_spec t).1.trans (henc1.trans (lpcSteps_spec t').1.symm)
  obtain ⟨hs2, hlarc2⟩ := lpcSteps_congr hs1
  generalize lpcSteps t = u at henc2 hs2 hlarc2 ⊢
  generalize lpcSteps t' = u' at henc2 hs2 hlarc2 ⊢
  have henc3 : (stepDecoderefl .enc u).enc = (stepDecoderefl .enc u').enc := by
    rw [stepDecoderefl_enc, stepDecoderefl_enc, henc2]
  have hs3 : ∀ v, (stepDecoderefl .enc v).work.s = v.work.s := fun v => by
    obtain ⟨_, _, _, _, _, _, h⟩ := stepDecoderefl_frame .enc v
    rw [h]
  have hrrp3 := stepDecoderefl_rrp_congr .enc (congrArg EncState.larppLast henc2) hlarc2
  obtain ⟨hlarpp, hlarc⟩ := stepDecoderefl_larpp .enc u
  obtain ⟨hlarpp', hlarc'⟩ := stepDecoderefl_larpp .enc u'
  obtain ⟨-, hkeptpp, hkeptc⟩ := stepStanalysis_keeps (stepDecoderefl .enc u)
  obtain ⟨-, hkeptpp', hkeptc'⟩ := stepStanalysis_keeps (stepDecoderefl .enc u')
  obtain ⟨henc4, hd⟩ := stepStanalysis_congr henc3 hrrp3 (by rw [hs3, hs3, hs2])
  exact ⟨henc4, by rw [hkeptc, hkeptc', hlarc, hlarc', hlarc2], by rw [hkeptpp, hkeptpp', hlarpp, hlarpp', hlarc2], hd⟩

/-! ### The sub-segments (R200 to R219) -/

theorem weightedSamples_congr {j : BitVec 2} {s s' : State} (henc : s.enc = s'.enc) (hd : s.work.d = s'.work.d)
    (hNc : sub4 s.work.Nc j = sub4 s'.work.Nc j) (hbc : sub4 s.work.bc j = sub4 s'.work.bc j) :
    weightedSamples j s = weightedSamples j s' := by
  simp only [weightedSamples, stepWeight, stepLtpanalysis, onWork_work, henc, hd, hNc, hbc]

/-- The codes of a sub-segment depend on the encoder state and the residual samples (R236). -/
theorem encodeSegment_codes_congr {s s' : State} (henc : s.enc = s'.enc) (hd : s.work.d = s'.work.d) (j : BitVec 2) :
    segmentCodes (encodeSegment s j).work j = segmentCodes (encodeSegment s' j).work j := by
  obtain ⟨hcodes, -⟩ := segmentRest_values j (stepLtpsearch j s)
  obtain ⟨hcodes', -⟩ := segmentRest_values j (stepLtpsearch j s')
  obtain ⟨-, hNc, hbc⟩ := stepLtpsearch_values j s
  obtain ⟨-, hNc', hbc'⟩ := stepLtpsearch_values j s'
  have hlag : bestLag j s = bestLag j s' := by simp only [bestLag, searchSamples, segmentMax, henc, hd]
  have hgain : codedGain (rescaledMax j s) (lagPower j s) = codedGain (rescaledMax j s') (lagPower j s') := by
    simp only [rescaledMax, lagPower, segmentMax, hlag, henc, hd]
  have hkept : ∀ t, (stepLtpsearch j t).enc = t.enc ∧ (stepLtpsearch j t).work.d = t.work.d := fun t => by
    obtain ⟨_, _, _, _, _, _, _, _, _, _, _, _, h⟩ := stepLtpsearch_frame j t
    rw [h]
    exact ⟨rfl, rfl⟩
  rw [encodeSegment_eq, encodeSegment_eq, hcodes, hcodes']
  have hlag' : sub4 (stepLtpsearch j s).work.Nc j = sub4 (stepLtpsearch j s').work.Nc j := by
    rw [hNc, hNc', sub4_set4, sub4_set4, hlag]
  have hgain' : sub4 (stepLtpsearch j s).work.bc j = sub4 (stepLtpsearch j s').work.bc j := by
    rw [hbc, hbc', sub4_set4, sub4_set4, hgain]
  rw [hlag', hgain', weightedSamples_congr (by rw [(hkept s).1, (hkept s').1, henc]) (by rw [(hkept s).2, (hkept s').2, hd])
    hlag' hgain']

/-- A sub-segment keeps the agreement of two states, and makes their codes for it agree (R236). -/
theorem encodeSegment_congr {s s' : State} (h : SameAnalysis s s') (j : BitVec 2) :
    SameAnalysis (encodeSegment s j) (encodeSegment s' j) ∧
    ∀ i, i = j ∨ segmentCodes s.work i = segmentCodes s'.work i →
      segmentCodes (encodeSegment s j).work i = segmentCodes (encodeSegment s' j).work i := by
  have hcodes := encodeSegment_codes_congr h.enc h.d j
  have hstep := encodeSegment_encodes s j
  have hstep' := encodeSegment_encodes s' j
  obtain ⟨-, hd, y, henc⟩ := encodeSegment_frame s j
  obtain ⟨-, hd', y', henc'⟩ := encodeSegment_frame s' j
  have hdp : y = y' := by
    have hy := hstep.dp
    have hy' := hstep'.dp
    rw [henc, hcodes, h.enc, ← hy', henc'] at hy
    exact hy
  refine ⟨⟨?enc, ?larc, ?larpp, ?d⟩, fun i hi => ?codes⟩
  case enc => rw [henc, henc', h.enc, hdp]
  case larc => rw [hstep.larc, hstep'.larc, h.larc]
  case larpp => rw [hstep.larpp, hstep'.larpp, h.larpp]
  case d => rw [hd, hd', h.d]
  case codes =>
    by_cases hij : i = j
    · rw [hij, hcodes]
    · rw [hstep.others i hij, hstep'.others i hij, hi.resolve_left hij]

theorem encodeSegments_congr {l : List (BitVec 2)} {s s' : State} (h : SameAnalysis s s') :
    SameAnalysis (l.foldl encodeSegment s) (l.foldl encodeSegment s') ∧
    ∀ i, i ∈ l ∨ segmentCodes s.work i = segmentCodes s'.work i →
      segmentCodes (l.foldl encodeSegment s).work i = segmentCodes (l.foldl encodeSegment s').work i := by
  induction l generalizing s s' with
  | nil => exact ⟨h, fun i hi => hi.resolve_left List.not_mem_nil⟩
  | cons j l ih =>
    obtain ⟨hsame, hcodes⟩ := encodeSegment_congr h j
    obtain ⟨hsame', hcodes'⟩ := ih hsame
    rw [List.foldl_cons, List.foldl_cons]
    refine ⟨hsame', fun i hi => hcodes' i ?_⟩
    rcases hi with hmem | hi
    · exact (List.mem_cons.mp hmem).symm.imp_right fun hij => hcodes i (.inl hij)
    · exact .inr (hcodes i (.inr hi))

/-! ### The record and the next encoder state (R247) -/

theorem recordField_congr {w w' : Work} (hlarc : w.larc = w'.larc) (hcodes : ∀ j, segmentCodes w j = segmentCodes w' j)
    {n : Nat} (hn : n < 76) : recordField w n = recordField w' n := by
  rcases record_position hn with h8 | ⟨j, m, hm, rfl⟩
  · rw [recordField_larc w ⟨n, h8⟩, recordField_larc w' ⟨n, h8⟩, hlarc]
  · rw [recordField_subBase w j hm, recordField_subBase w' j hm, hcodes]

/-- Settles O17: each value that a step of ENCODE reads is one of the three inputs or was written before in the same command. -/
theorem encodeIsFunction : Obligations.EncodeIsFunction := by
  intro s s' henc hstrap hpcm
  have hall : ∀ j : BitVec 2, j ∈ quarters := by decide
  have hhome : (stepHomedet s).work.isHome = (stepHomedet s').work.isHome := by
    rw [Bool.eq_iff_iff]
    simp only [stepHomedet, onWork_work, Bool.and_eq_true, allHome_iff, hstrap]
    exact and_congr_right fun _ => forall_congr' fun k => forall_congr' fun hk => by rw [hpcm k hk]
  have hanalysis := analysisSteps_congr (s := stepHomedet s) (s' := stepHomedet s') henc hpcm
  obtain ⟨hsame, hcodes⟩ := encodeSegments_congr (l := quarters) hanalysis
  have hstep := codingSteps_codingStep (stepHomedet s)
  have hstep' := codingSteps_codingStep (stepHomedet s')
  have hstrap' : (codingSteps (stepHomedet s)).homingSupported = (codingSteps (stepHomedet s')).homingSupported := by
    rw [hstep.homingSupported, hstep'.homingSupported]
    exact hstrap
  have hhome' : (codingSteps (stepHomedet s)).work.isHome = (codingSteps (stepHomedet s')).work.isHome := by
    rw [hstep.isHome, hstep'.isHome, hhome]
  have hexec := exec_encode s
  have hexec' := exec_encode s'
  have hnext : (encodeSteps s).enc = (encodeSteps s').enc := by
    rw [encodeSteps_eq, encodeSteps_eq, encodeFinish_enc, encodeFinish_enc, finishedEnc, finishedEnc, hstrap', hhome',
      codingSteps, codingSteps, hsame.enc, hsame.larpp]
  have hrecord : ∀ n, n < 76 → (encodeSteps s).readWord .prmE n = (encodeSteps s').readWord .prmE n := fun n hn => by
    rw [readWord_encodeSteps s hn, readWord_encodeSteps s' hn, emittedField, emittedField, hstrap', codingSteps, codingSteps,
      hsame.enc, recordField_congr hsame.larc (fun j => hcodes j (.inl (hall j))) hn]
  generalize encodeSteps s = u at hexec hnext hrecord
  generalize encodeSteps s' = u' at hexec' hnext hrecord
  exact ⟨_, _, hexec, hexec', hnext, hrecord⟩

end Sys2Proof.EncodeCommand

/-! PROOFS. DECODE as a whole (47_top_operations.md R239 to R242, R247, R248): what it writes, and what the samples and the next
decoder state depend on. -/

namespace Sys2Proof.DecodeCommand

open Sys2Proof Sys2Proof.Machine Sys2Proof.Safety Sys2Proof.BlockState Sys2Proof.FramePacker Sys2Proof.LpcAnalysis
  Sys2Proof.ShortTermFilters Sys2Proof.LagSearch Sys2Proof.LongTermPrediction Sys2Proof.CodecAgreement
  Sys2Proof.PulseExcitation Sys2Proof.TopOperations Sys2Proof.EncodeCommand

/-! ### The synthesis loop (R193, R194) -/

/-- What UPSCALE writes (R193). -/
def upscaled (msr : Word16) : Word16 := add msr msr &&& 0xFFF8

/-- Bits 2..0 of an output sample are zero (R193). -/
theorem upscaled_and_seven (msr : Word16) : upscaled msr &&& 7 = 0 := by
  have hmask : (0xFFF8 : Word16) &&& 7 = 0 := by decide
  rw [upscaled, BitVec.and_assoc, hmask]
  exact BitVec.and_zero

/-- The synthesis of a sample writes one output, from the `msr` it leaves (R194). -/
theorem readWord_synthesizeSample (s : State) (k : Nat) (b : WordBuf) (i : Nat) :
    (synthesizeSample s k).readWord b i =
      if WordBuf.pcmOut = b ∧ k = i then upscaled (synthesizeSample s k).dec.msr else s.readWord b i := by
  obtain ⟨_, _, hstsynth⟩ := stepStsynth_frame k s
  obtain ⟨_, hdeemph⟩ := stepDeemph_frame (stepStsynth k s)
  have hkept : (stepDeemph (stepStsynth k s)).readWord b i = s.readWord b i := by
    rw [hdeemph, hstsynth]
    rfl
  rw [synthesizeSample, stepUpscale, State.readWord_writeWord, hkept, writeWord_dec]
  rfl

/-- The first n turns of the loop. -/
def synthesize (n : Nat) (s : State) : State := (List.range n).foldl synthesizeSample s

theorem synthesize_succ (n : Nat) (s : State) : synthesize (n + 1) s = synthesizeSample (synthesize n s) n := by
  rw [synthesize, List.range_succ, List.foldl_append]
  rfl

/-- After n turns output k < n is that of turn k, and every other element is as before. -/
theorem readWord_synthesize (n : Nat) (s : State) (b : WordBuf) (i : Nat) :
    (synthesize n s).readWord b i =
      if b = .pcmOut ∧ i < n then upscaled (synthesize (i + 1) s).dec.msr else s.readWord b i := by
  induction n with
  | zero => rw [if_neg fun h => Nat.not_lt_zero i h.2]; rfl
  | succ n ih =>
    rw [synthesize_succ, readWord_synthesizeSample, ih]
    by_cases hb : b = .pcmOut
    · subst hb
      rcases Nat.lt_trichotomy i n with hlt | rfl | hgt
      · rw [if_neg (by omega), if_pos ⟨rfl, hlt⟩, if_pos ⟨rfl, by omega⟩]
      · rw [if_pos ⟨rfl, rfl⟩, if_pos ⟨rfl, Nat.lt_succ_self i⟩, synthesize_succ]
      · rw [if_neg (by omega), if_neg (by omega), if_neg (by omega)]
    · rw [if_neg fun h => hb h.1.symm, if_neg fun h => hb h.1, if_neg fun h => hb h.1]

/-! ### What DECODE writes (R248) -/

/-- PRMMASK, the sub-segments and DECODEREFL: what DECODE does before the synthesis (R239). -/
def excitationSteps (s : State) : State := stepDecoderefl .dec (quarters.foldl decodeSegment (stepPrmmask s))

theorem decodeSteps_eq (s : State) : decodeSteps s = stepLarrotDec (synthesize 160 (excitationSteps s)) := rfl

/-- The steps before the synthesis touch no buffer. -/
def DecodingStep (s t : State) : Prop := ∃ d w, t = { s with dec := d, work := w }

theorem decodeSegment_decodingStep (s : State) (j : BitVec 2) : DecodingStep s (decodeSegment s j) := by
  obtain ⟨_, _, _, _, hdecode⟩ := stepApcminv_values j (stepExpmant j s)
  rw [decodeSegment, hdecode, stepExpmant_values]
  exact ⟨_, _, rfl⟩

theorem excitationSteps_decodingStep (s : State) : DecodingStep s (excitationSteps s) := by
  have hsegments : DecodingStep s (quarters.foldl decodeSegment (stepPrmmask s)) := by
    refine List.foldlRecOn quarters decodeSegment (motive := DecodingStep s) ⟨_, _, rfl⟩ ?_
    rintro _ ⟨_, _, rfl⟩ j _
    obtain ⟨_, _, h⟩ := decodeSegment_decodingStep { s with dec := _, work := _ } j
    exact ⟨_, _, h⟩
  obtain ⟨_, _, hsegments⟩ := hsegments
  obtain ⟨_, hrefl⟩ := stepDecoderefl_workOnly .dec (quarters.foldl decodeSegment (stepPrmmask s))
  rw [excitationSteps, hrefl, hsegments]
  exact ⟨_, _, rfl⟩

theorem readWord_decodeSteps (s : State) (b : WordBuf) (i : Nat) :
    (decodeSteps s).readWord b i =
      if b = .pcmOut ∧ i < 160 then upscaled (synthesize (i + 1) (excitationSteps s)).dec.msr else s.readWord b i := by
  have hbefore : (excitationSteps s).readWord b i = s.readWord b i := by
    obtain ⟨_, _, h⟩ := excitationSteps_decodingStep s
    rw [h]
    rfl
  have hlarrot : (decodeSteps s).readWord b i = (synthesize 160 (excitationSteps s)).readWord b i :=
    State.readWord_congr (onDec_mem _ _) (onDec_epoch _ _) b i
  rw [hlarrot, readWord_synthesize, hbefore]

/-- Settles O19: the synthesis loop writes each of the 160 samples through UPSCALE, and no other step writes a buffer. -/
theorem decodeResult : Obligations.DecodeResult := by
  intro s hlow hhigh
  have hlag : lagOk s.dec.nrp = true := Bool.and_eq_true_iff.mpr ⟨decide_eq_true hlow, decide_eq_true hhigh⟩
  have hexec := exec_decode_of_lagOk hlag
  have hstep := decodeSteps_decoderStep s
  have hread := readWord_decodeSteps s
  generalize decodeSteps s = u at hexec hstep hread
  have hnrp := hstep.nrp hlag
  obtain ⟨d, _, m, rfl⟩ := hstep.frame
  simp only [lagOk, Bool.and_eq_true, decide_eq_true_eq] at hnrp
  refine ⟨_, hexec, rfl, ⟨fun b i hbi => ?kept, fun b i => ?octets⟩, fun k hk => ?low, hnrp.1, hnrp.2⟩
  case kept => exact (hread b i).trans (if_neg fun h => hbi.elim (fun hne => hne h.1) (fun hle => absurd h.2 (not_lt.mpr hle)))
  case octets => cases b <;> rfl
  case low =>
    have hk' := (hread .pcmOut k).trans (if_pos ⟨rfl, hk⟩)
    exact (congrArg (· &&& 7) hk').trans (upscaled_and_seven _)

/-! ### What the sub-segments read (R205, R241) -/

/-- The samples that a sub-segment with the given codes synthesises (R205, R219). -/
def segmentOutput (c : SegmentCodes) (d : DecState) : Vector Word16 40 :=
  Vector.ofFn fun k : Fin 40 => add (excitation c)[k] (prediction c.bc (saneLag c.Nc d.nrp) d.drp k.val)

/-- A sub-segment is LTPSYNTH on the excitation of the codes, on decoder state and `wt` as they were (R241). -/
theorem decodeSegment_excited (s : State) (j : BitVec 2) :
    ∃ u, decodeSegment s j = stepLtpsynth j u ∧ u.dec = s.dec ∧ segmentCodes u.work j = segmentCodes s.work j ∧
      u.work.erp = excitation (segmentCodes s.work j) ∧ u.work.wt = s.work.wt := by
  obtain ⟨_, _, _, _, h⟩ := stepApcminv_values j (stepExpmant j s)
  rw [decodeSegment, h, stepExpmant_values]
  exact ⟨_, rfl, rfl, rfl, rfl, rfl⟩

/-- What a sub-segment leaves in the decoder state and in `wt` (R241). -/
theorem decodeSegment_values (s : State) (j : BitVec 2) :
    (decodeSegment s j).dec =
      { s.dec with
        nrp := saneLag (segmentCodes s.work j).Nc s.dec.nrp
        drp := shiftHistory s.dec.drp (segmentOutput (segmentCodes s.work j) s.dec) } ∧
    (decodeSegment s j).work.wt = placeSegment s.work.wt j (segmentOutput (segmentCodes s.work j) s.dec) := by
  obtain ⟨u, heq, hudec, hcodes, herp, huwt⟩ := decodeSegment_excited s j
  obtain ⟨-, hdrp, hwt⟩ := stepLtpsynth_values j u
  obtain ⟨_, _, _, _, _, _, hframe⟩ := stepLtpsynth_frame j u
  have houtput : synthesised j u = segmentOutput (segmentCodes s.work j) s.dec := by
    rw [synthesised, herp, hudec, ← hcodes]
    rfl
  have hNc : sub4 u.work.Nc j = (segmentCodes s.work j).Nc := congrArg SegmentCodes.Nc hcodes
  rw [heq]
  refine ⟨?_, by rw [hwt, houtput, huwt]⟩
  rw [houtput] at hdrp
  rw [hframe] at hdrp ⊢
  simp only at hdrp ⊢
  rw [hdrp, hudec, hNc]

/-- What a sub-segment reads, the same in two states: the decoder state and the codes. -/
structure SameDecoding (s s' : State) : Prop where
  dec : s.dec = s'.dec
  codes : SameCodes s.work s'.work

/-- A sub-segment keeps the agreement of two states, and makes its own part of `wt` agree. -/
theorem decodeSegment_congr {s s' : State} (h : SameDecoding s s') (j : BitVec 2) :
    SameDecoding (decodeSegment s j) (decodeSegment s' j) ∧
    ∀ i, i < 160 → i / 40 = j.toNat ∨ elt s.work.wt i = elt s'.work.wt i →
      elt (decodeSegment s j).work.wt i = elt (decodeSegment s' j).work.wt i := by
  obtain ⟨hdec, hwt⟩ := decodeSegment_values s j
  obtain ⟨hdec', hwt'⟩ := decodeSegment_values s' j
  obtain ⟨hlarc, hseg⟩ := decodeSegment_sameCodes s j
  have hcodes' := decodeSegment_sameCodes s' j
  refine ⟨⟨?dec, SameCodes.trans ⟨hlarc.symm, fun i => (hseg i).symm⟩ (h.codes.trans hcodes')⟩, fun i hi hij => ?wt⟩
  case dec => rw [hdec, hdec', h.dec, h.codes.segment]
  case wt =>
    rw [hwt, hwt', h.dec, h.codes.segment, elt_placeSegment _ _ _ hi, elt_placeSegment _ _ _ hi]
    split
    · rfl
    · next hne => exact hij.resolve_left hne

theorem decodeSegments_congr {l : List (BitVec 2)} {s s' : State} (h : SameDecoding s s') :
    SameDecoding (l.foldl decodeSegment s) (l.foldl decodeSegment s') ∧
    ∀ i, i < 160 → BitVec.ofNat 2 (i / 40) ∈ l ∨ elt s.work.wt i = elt s'.work.wt i →
      elt (l.foldl decodeSegment s).work.wt i = elt (l.foldl decodeSegment s').work.wt i := by
  induction l generalizing s s' with
  | nil => exact ⟨h, fun i _ hi => hi.resolve_left List.not_mem_nil⟩
  | cons j l ih =>
    obtain ⟨hsame, hwt⟩ := decodeSegment_congr h j
    obtain ⟨hsame', hwt'⟩ := ih hsame
    rw [List.foldl_cons, List.foldl_cons]
    refine ⟨hsame', fun i hi hij => hwt' i hi ?_⟩
    rcases hij with hmem | heq
    · refine (List.mem_cons.mp hmem).symm.imp_right fun hj => hwt i hi (.inl ?_)
      rw [← hj, BitVec.toNat_ofNat]
      omega
    · exact .inr (hwt i hi (.inr heq))

/-! ### What the synthesis reads (R191 to R194) -/

/-- What the synthesis and LARROT read, the same in two states. -/
structure SameExcitation (s s' : State) : Prop where
  dec : s.dec = s'.dec
  larpp : s.work.larpp = s'.work.larpp
  rrp : s.work.rrp = s'.work.rrp
  wt : s.work.wt = s'.work.wt

theorem stepPrmmask_congr {s s' : State}
    (h : ∀ n, n < 76 → (s.readWord .prmD n).toNat % 2 ^ fieldWidth n = (s'.readWord .prmD n).toNat % 2 ^ fieldWidth n) :
    SameCodes (stepPrmmask s).work (stepPrmmask s').work :=
  loadRecord_sameCodes s'.work fun n hn => by
    rw [stepPrmmask, onWork_work, recordField_loadRecord _ _ hn, getD_maskedRecord s hn, getD_maskedRecord s' hn, h n hn]

theorem excitationSteps_congr {s s' : State} (hdec : s.dec = s'.dec)
    (h : ∀ n, n < 76 → (s.readWord .prmD n).toNat % 2 ^ fieldWidth n = (s'.readWord .prmD n).toNat % 2 ^ fieldWidth n) :
    SameExcitation (excitationSteps s) (excitationSteps s') := by
  have hall : ∀ j : BitVec 2, j ∈ quarters := by decide
  obtain ⟨⟨hdec', hcodes⟩, hwt⟩ := decodeSegments_congr (l := quarters) (s := stepPrmmask s) (s' := stepPrmmask s')
    ⟨hdec, stepPrmmask_congr h⟩
  unfold excitationSteps
  generalize quarters.foldl decodeSegment (stepPrmmask s) = t at hdec' hcodes hwt ⊢
  generalize quarters.foldl decodeSegment (stepPrmmask s') = t' at hdec' hcodes hwt ⊢
  have hkept : ∀ u, (stepDecoderefl .dec u).work.wt = u.work.wt := fun u => by
    obtain ⟨_, _, _, _, _, _, hframe⟩ := stepDecoderefl_frame .dec u
    rw [hframe]
  refine ⟨?dec, ?larpp, stepDecoderefl_rrp_congr .dec (congrArg DecState.larppLast hdec') hcodes.larc.symm, ?wt⟩
  case dec => rw [stepDecoderefl_dec, stepDecoderefl_dec, hdec']
  case larpp => rw [(stepDecoderefl_larpp .dec t).1, (stepDecoderefl_larpp .dec t').1, hcodes.larc]
  case wt =>
    rw [hkept, hkept]
    refine Vector.ext fun i hi => ?_
    rw [← elt_eq _ hi, ← elt_eq _ hi, hwt i hi (.inl (hall _))]

/-- The decoder state after one sample of the synthesis: the memory of the lattice, and `msr` (R191, R192). -/
theorem synthesizeSample_dec (s : State) (k : Nat) :
    (synthesizeSample s k).dec =
      { s.dec with
        v := (synthesisSample (sub4 s.work.rrp (k2zone k)) s.dec.v (elt s.work.wt k)).2
        msr := add (synthesisSample (sub4 s.work.rrp (k2zone k)) s.dec.v (elt s.work.wt k)).1 (multR s.dec.msr 28180) } := by
  rw [synthesizeSample, stepUpscale, writeWord_dec, stepDeemph, onDec_dec, stepStsynth]

/-- A sample of the synthesis keeps the agreement of two states. -/
theorem synthesizeSample_congr {s s' : State} (h : SameExcitation s s') (k : Nat) :
    SameExcitation (synthesizeSample s k) (synthesizeSample s' k) := by
  have hkept : ∀ t, (synthesizeSample t k).work.larpp = t.work.larpp ∧ (synthesizeSample t k).work.rrp = t.work.rrp ∧
      (synthesizeSample t k).work.wt = t.work.wt := fun t => by
    obtain ⟨_, _, _, _, hframe⟩ := synthesizeSample_frame t k
    rw [hframe]
    exact ⟨rfl, rfl, rfl⟩
  obtain ⟨hlarpp, hrrp, hwt⟩ := hkept s
  obtain ⟨hlarpp', hrrp', hwt'⟩ := hkept s'
  refine ⟨?dec, by rw [hlarpp, hlarpp', h.larpp], by rw [hrrp, hrrp', h.rrp], by rw [hwt, hwt', h.wt]⟩
  rw [synthesizeSample_dec, synthesizeSample_dec, h.dec, h.rrp, h.wt]

theorem synthesize_congr {s s' : State} (h : SameExcitation s s') (n : Nat) :
    SameExcitation (synthesize n s) (synthesize n s') := by
  induction n with
  | zero => exact h
  | succ n ih =>
    rw [synthesize_succ, synthesize_succ]
    exact synthesizeSample_congr ih n

theorem decodeSteps_dec (s : State) :
    (decodeSteps s).dec = { (synthesize 160 (excitationSteps s)).dec with
      larppLast := (synthesize 160 (excitationSteps s)).work.larpp } := by
  rw [decodeSteps_eq, stepLarrotDec, onDec_dec]

/-- Dropping the working values and setting flags touches no buffer. -/
theorem readWord_of_work_flags (s : State) (w : Work) (f : Flags) (b : WordBuf) (i : Nat) :
    State.readWord { s with work := w, flags := f } b i = s.readWord b i := rfl

/-- Settles O21: each value that a step of DECODE reads is decoder state, a masked field, or was written before in the same
command. -/
theorem decodeIsFunction : Obligations.DecodeIsFunction := by
  intro s s' hdec hlow hhigh hrecord
  have hlag : lagOk s.dec.nrp = true := Bool.and_eq_true_iff.mpr ⟨decide_eq_true hlow, decide_eq_true hhigh⟩
  have hexec := exec_decode_of_lagOk hlag
  have hexec' := exec_decode_of_lagOk (s := s') (hdec ▸ hlag)
  have hsame := synthesize_congr (excitationSteps_congr hdec hrecord)
  have hnext : (decodeSteps s).dec = (decodeSteps s').dec := by
    rw [decodeSteps_dec, decodeSteps_dec, (hsame 160).dec, (hsame 160).larpp]
  have hread : ∀ k, k < 160 → (decodeSteps s).readWord .pcmOut k = (decodeSteps s').readWord .pcmOut k := fun k hk => by
    rw [readWord_decodeSteps, readWord_decodeSteps, if_pos ⟨rfl, hk⟩, if_pos ⟨rfl, hk⟩, (hsame (k + 1)).dec]
  generalize decodeSteps s = u at hexec hnext hread
  generalize decodeSteps s' = u' at hexec' hnext hread
  refine ⟨_, _, hexec, hexec', hnext, fun k hk => ?_⟩
  exact (readWord_of_work_flags u _ _ _ k).trans ((hread k hk).trans (readWord_of_work_flags u' _ _ _ k).symm)

end Sys2Proof.DecodeCommand

/-! PROOFS. Exceptions (60_exceptions.md R260): the block raises none, so from the invariant every request that decodes at a port
completes. What remains between a request and its completion is the test of `nrp` in DECODE and the tests of the packer. -/

namespace Sys2Proof.Completion

open Sys2Proof Sys2Proof.Machine Sys2Proof.Safety Sys2Proof.BlockState Sys2Proof.Encoding Sys2Proof.ShortTermFilters
  Sys2Proof.PackerCommands

/-- The instruction answers a next state: it neither faults nor is refused. -/
def Completes (i : Instr) (s : State) : Prop := ∃ t, exec i s = .next t

/-- A command tests `nrp`, the bit count or the cursor, or nothing; where the test holds it completes (R126, R148, R260). -/
theorem completes_command {i : Instr} {cw : BitVec 16} {s : State} (he : encode i = .cmd cw) (hw : i.wellFormed = true)
    (hnrp : lagOk s.dec.nrp = true) (hfit : CursorFits i s) : Completes i s := by
  cases i with
  | nop | reset | resetEnc | resetDec | encode | pack | unpack | isvalid | prmeq => exact ⟨_, rfl⟩
  | currst sel => cases sel <;> exact ⟨_, rfl⟩
  | decode => exact ⟨_, exec_decode_of_lagOk hnrp⟩
  | pack1 n v => exact ⟨_, exec_pack1 hw hfit⟩
  | unpack1 n => exact ⟨_, exec_unpack1 hw hfit⟩
  | _ => cases he

/-- An ALU operation shows its value, whatever the operands are (R126). -/
theorem completes_alu {op : BitVec 4} {a b : Word32} {i : Instr} (h : decode (.alu op a b) = .ok i) (s : State) :
    Completes i s := by
  rcases decodeAlu_cases op a b with ⟨-, j, hj, _, hshow⟩ | ⟨-, herror⟩
  · obtain rfl : j = i := Except.ok.inj (hj.symm.trans h)
    exact ⟨_, hshow s⟩
  · exact nomatch herror.symm.trans h

/-- Settles O9: a request completes by the port it comes in at, and every completed instruction keeps the invariant. -/
theorem portRequestsComplete : Obligations.PortRequestsComplete := by
  intro s r i hinv hport hdecode hfit
  have hcompletes : Completes i s := by
    cases r with
    | cmd cw =>
      obtain ⟨hdata, -⟩ := (blockInv_iff s).mp hinv
      exact completes_command (encode_of_decode_cmd hdecode) (wellFormed_of_decode_cmd hdecode) hdata.nrp hfit
    | alu op a b => exact completes_alu hdecode s
    | step id o => exact hport.elim
  obtain ⟨t, ht⟩ := hcompletes
  exact ⟨t, ht, (exec_keeps ht).blockInv hinv⟩

end Sys2Proof.Completion

/-! PROOFS. Homing in ENCODE (70_reset_and_hazards.md R298, 47_top_operations.md R244): no step before HOMEAPPLY reads or writes
`last_frame_home`, so these steps commute with setting it, and HOMEAPPLY alone decides the record and the state from it. -/

namespace Sys2Proof.EncoderHoming

open Sys2Proof Sys2Proof.Machine Sys2Proof.Safety Sys2Proof.BlockState Sys2Proof.TopOperations Sys2Proof.EncodeCommand

/-! ### The steps that leave `last_frame_home` alone -/

/-- The state with `last_frame_home` set (R27). -/
def setLastHome (b : Bool) (s : State) : State := s.onEnc fun e => { e with lastFrameHome := b }

theorem setLastHome_eq (b : Bool) (s : State) :
    setLastHome b s = { s with enc := { s.enc with lastFrameHome := b } } := rfl

/-- The effect neither reads nor writes `last_frame_home`. -/
def IgnoresLastHome (f : State → State) : Prop := ∀ b, Function.Commute f (setLastHome b)

theorem IgnoresLastHome.comp {f g : State → State} (hg : IgnoresLastHome g) (hf : IgnoresLastHome f) :
    IgnoresLastHome fun s => g (f s) := fun b => (hg b).comp_left (hf b)

theorem IgnoresLastHome.foldl {α : Type} {f : State → α → State} (l : List α) (h : ∀ a, IgnoresLastHome fun s => f s a) :
    IgnoresLastHome fun s => l.foldl f s := fun b _ => List.foldl_hom (setLastHome b) fun s a => h a b s

/-- What an effect leaves alone is as before. -/
theorem IgnoresLastHome.lastFrameHome {f : State → State} (h : IgnoresLastHome f) (s : State) :
    (f s).enc.lastFrameHome = s.enc.lastFrameHome := by
  have hcomm : f s = setLastHome s.enc.lastFrameHome (f s) := h s.enc.lastFrameHome s
  exact congrArg (fun t => t.enc.lastFrameHome) hcomm

/-- Steps 2 to 8 of ENCODE (R235). -/
theorem analysisSteps_ignoresLastHome : IgnoresLastHome analysisSteps :=
  have samples : IgnoresLastHome fun s => (List.range 160).foldl preprocessSample s := .foldl _ fun _ _ _ => rfl
  have lpc : IgnoresLastHome lpcSteps := fun _ _ => rfl
  have decoderefl : IgnoresLastHome (stepDecoderefl .enc) := fun _ _ => rfl
  have stanalysis : IgnoresLastHome stepStanalysis := .foldl (f := stanalysisSample) _ fun _ _ _ => rfl
  stanalysis.comp <| decoderefl.comp <| lpc.comp samples

/-- The ten steps of a sub-segment (R236). -/
theorem encodeSegment_ignoresLastHome (j : BitVec 2) : IgnoresLastHome fun s => encodeSegment s j :=
  have search : IgnoresLastHome (stepLtpsearch j) := fun _ _ => by simp only [stepLtpsearch, State.onWork, setLastHome_eq]
  have prediction : IgnoresLastHome fun s => stepWeight (stepLtpanalysis j s) := fun _ _ => rfl
  have quantise : IgnoresLastHome fun s => stepExpmant j (stepXmaxq j (stepGridsel j s)) := fun _ _ => rfl
  have pulses : IgnoresLastHome fun s => stepGridpos .enc j (stepApcminv j (stepApcmq j s)) := fun _ _ => rfl
  have dpupdate : IgnoresLastHome stepDpupdate := fun _ _ => by simp only [stepDpupdate, State.onEnc, setLastHome_eq]
  dpupdate.comp <| pulses.comp <| quantise.comp <| prediction.comp search

/-- Steps 2 to 9 of ENCODE (R235). -/
theorem codingSteps_ignoresLastHome : IgnoresLastHome codingSteps :=
  have segments : IgnoresLastHome fun s => quarters.foldl encodeSegment s := .foldl _ encodeSegment_ignoresLastHome
  segments.comp analysisSteps_ignoresLastHome

/-! ### What HOMEAPPLY finds and leaves (R244) -/

/-- The state that LARROT finds: what ENCODE's first nine steps leave (R235). -/
def codedState (s : State) : State := codingSteps (stepHomedet s)

/-- HOMEDET reads the samples (R243). -/
theorem stepHomedet_ignoresLastHome : IgnoresLastHome stepHomedet := fun b s => by
  have hsamples : allHome (setLastHome b s) 160 = allHome s 160 := by
    rw [Bool.eq_iff_iff, allHome_iff, allHome_iff]
    rfl
  rw [stepHomedet, stepHomedet, hsamples]
  rfl

theorem codedState_ignoresLastHome : IgnoresLastHome codedState :=
  codingSteps_ignoresLastHome.comp stepHomedet_ignoresLastHome

theorem codedState_homingSupported (s : State) : (codedState s).homingSupported = s.homingSupported :=
  (codingSteps_codingStep (stepHomedet s)).homingSupported

/-- With the strap at 1, `is_home` is still the outcome of HOMEDET when HOMEAPPLY reads it (R243). -/
theorem codedState_isHome_iff {s : State} (hstrap : s.homingSupported = true) :
    (codedState s).work.isHome = true ↔ ∀ k, k < 160 → IsHomingSample (s.readWord .pcmIn k) := by
  have hhomedet : (stepHomedet s).work.isHome = allHome s 160 := by
    rw [stepHomedet, onWork_work, hstrap, Bool.true_and]
  rw [codedState, (codingSteps_codingStep _).isHome, hhomedet, allHome_iff]

/-- With the strap at 1 the next encoder state does not depend on the `last_frame_home` that HOMEAPPLY finds. -/
theorem finishedEnc_setLastHome {s : State} (hstrap : s.homingSupported = true) (b : Bool) :
    finishedEnc (setLastHome b s) = finishedEnc s := by
  have hstrap' : (setLastHome b s).homingSupported = true := hstrap
  rw [finishedEnc, finishedEnc, if_pos hstrap, if_pos hstrap']
  rfl

/-- With the strap at 1 `last_frame_home` is `is_home`, and where that holds the encoder is at home. -/
theorem finishedEnc_home {s : State} (hstrap : s.homingSupported = true) :
    (finishedEnc s).lastFrameHome = s.work.isHome ∧
    (s.work.isHome = true → EncHome { finishedEnc s with lastFrameHome := false }) := by
  rw [finishedEnc, if_pos hstrap]
  cases s.work.isHome with
  | false => exact ⟨rfl, nofun⟩
  | true => exact ⟨rfl, fun _ => encHome_home⟩

theorem encodeSteps_enc (s : State) : (encodeSteps s).enc = finishedEnc (codedState s) := by
  rw [encodeSteps_eq, encodeFinish_enc, codedState]

/-- Settles O18: the steps before HOMEAPPLY carry `last_frame_home` through, and HOMEAPPLY uses it for the record alone. -/
theorem encodeHoming : Obligations.EncodeHoming := by
  intro s hstrap
  have hcoded : (codedState s).homingSupported = true := (codedState_homingSupported s).trans hstrap
  obtain ⟨hlast, hhome⟩ := finishedEnc_home hcoded
  have hsame : (encodeSteps s).enc = (encodeSteps (setLastHome false s)).enc := by
    rw [encodeSteps_enc, encodeSteps_enc, codedState_ignoresLastHome, finishedEnc_setLastHome hcoded]
  have hrecord : s.enc.lastFrameHome = true → ∀ n, n < 76 → (encodeSteps s).readWord .prmE n = homingField n :=
    fun hbefore n hn => (readWord_encodeSteps s hn).trans
      (if_pos ⟨hcoded, (codedState_ignoresLastHome.lastFrameHome s).trans hbefore⟩)
  have hexec := exec_encode s
  have hexec' := exec_encode (setLastHome false s)
  rw [← encodeSteps_enc] at hlast hhome
  generalize encodeSteps s = t at hexec hsame hrecord hlast hhome
  generalize encodeSteps (setLastHome false s) = u at hexec' hsame
  refine ⟨_, _, hexec, hexec', hsame, hrecord, ?noted, ?home⟩
  case noted => rw [← codedState_isHome_iff hstrap, ← hlast]
  case home => exact fun h => hhome (hlast.symm.trans h)

end Sys2Proof.EncoderHoming
